-- ==== Sys2Proof/Word.lean ====
section
/-! DEFINITION. The words of the machine (spec/00_scope.md R6: a byte is 8 bits, a word 16 bits, all unsigned). -/

namespace Sys2Proof

/-- A byte, bits 7 to 0 (R6). -/
abbrev Byte := BitVec 8

/-- A 16-bit word: a device register's value, a wire command word, a HostCommandWord (R6, R70, R87). -/
abbrev Word := BitVec 16

/-- A RegisterAddress: the high byte is the page, the low byte the offset in the page (R40). -/
abbrev Addr := BitVec 16

/-- A 32-bit value: an address of the extended window, a segment address or size (R43, R210). -/
abbrev DWord := BitVec 32

end Sys2Proof
end

