-- ==== Sys2Proof/Config.lean ====
section
/-! DEFINITION. The parameters of spec/00_scope.md R5 and spec/45_grammar_loader.md R210, plain data held in
`State.cfg`, constant after reset (R23, R291); and the free values, constants without a body. -/

namespace Sys2Proof

/-- A byte order: which byte of a 16-bit value comes first (R50, R51). -/
inductive Endian where
  | big
  | little
  deriving DecidableEq, Repr, Inhabited

/-- Group A, the layout of an access word and the opcode values of the command words. -/
structure WireCfg where
  /-- `CMD_FIRST_BYTE`: bits 15:8 of a command word go on the wire first (R70). -/
  firstHigh : Bool
  /-- `W_DIRECT`, a bit of the word (R71). -/
  wDirect : Fin 16
  /-- `W_OFFSET`, the lowest of seven bits of the word (R71). -/
  wOffset : Fin 10
  /-- `W_WRITE`, a bit of the word (R71). -/
  wWrite : Fin 16
  /-- `W_COUNT`, the lowest of seven bits of the word (R71). -/
  wCount : Fin 10
  /-- `OPC_SELECT_PAGE`, byte 0 of SELECT_PAGE (R72). -/
  selectPage : Byte
  /-- `OPC_CONT_WR`, byte 0 of CONT_PAGED_WRITE (R74). -/
  contWr : Byte
  /-- `OPC_NOP`, the whole NO_OP word (R73). -/
  nop : Word
  /-- `SPECIAL_LO`, the lowest byte 0 of the special opcode space (R75). -/
  specialLo : Byte
  deriving DecidableEq, Repr

/-- Group D, the register map and the values that go with it. -/
structure RegMap where
  /-- `REG_SWFLAGS`. -/
  swFlags : Addr
  /-- `REG_CMD`. -/
  cmd : Addr
  /-- `REG_RESULT`. -/
  result : Addr
  /-- `REG_DONE`: the register of the completion poll (R144, 90_conflicts C1). -/
  done : Addr
  /-- `REG_CURFW`. -/
  curFw : Addr
  /-- `BIT_APP_RUNNING`. -/
  appBit : Fin 16
  /-- `REG_RST_BOOT`. -/
  rstBoot : Addr
  /-- `REG_BOOT_VERIFY`. -/
  bootVerify : Addr
  /-- `BOOT_MAGIC`. -/
  bootMagic : Word
  /-- `REG_CHKSUM`. -/
  chksum : Addr
  /-- `CHKSUM_BYTES`. -/
  chksumBytes : Nat
  /-- `REG_FLASH_COUNT`. -/
  flashCount : Addr
  /-- `ERASE_MAGIC`. -/
  eraseMagic : Word
  deriving DecidableEq, Repr

/-- Group E, the HostCommandWords the block writes. -/
structure CmdWords where
  loadComplete : Word
  flashInit : Word
  save : Word
  erase : Word
  gramDisable : Word
  gramEnable : Word
  deriving DecidableEq, Repr

/-- Group F, the response codes: two spaces that share no literal (R88, R200). -/
structure RespCodes where
  success : Word
  badImage : Word
  flashFull : Word
  noFlash : Word
  incompatApp : Word
  /-- `FINIT_OK`, flash-init space. -/
  finitOk : Word
  /-- `FINIT_NO_DEV`, flash-init space. -/
  finitNoDev : Word
  deriving DecidableEq, Repr

/-- Group G, the image header's codes and positions (R83, R84). -/
structure ImgCfg where
  /-- `IH_MULTIBYTE_ORDER`. -/
  order : Endian
  /-- `IH_VER_MAJOR`: the major version is the high nibble of byte 0. -/
  majorHigh : Bool
  /-- `IH_TYPE_FIELD`: lowest bit of the type field in byte 1. -/
  typeLo : Fin 8
  /-- `IH_TYPE_FIELD`: how many bits it has. -/
  typeWidth : Fin 9
  /-- `IH_ENDIAN_FIELD`: its bit in byte 1. -/
  endianBit : Fin 8
  /-- `IMG_FW`. -/
  fw : Byte
  /-- `IMG_CFG`. -/
  cfg : Byte
  deriving DecidableEq, Repr

/-- Group H, the grammar loader's parameters (R210). -/
structure GramCfg where
  segStart : Addr
  segMax : Addr
  segCount : Addr
  /-- `SegAddrReg(i)` and `SegSizeReg(i)` for the entries that are listed; an entry beyond the list has the free
  addresses `Config.freeSegAddr` and `Config.freeSegSize` (log entry 19). -/
  segTable : List (Addr × Addr)
  status : Addr
  busy : Word
  /-- `GRAM_BLOCK` in bytes. -/
  block : Nat
  /-- `REG_EXT_ADDR`. -/
  extAddr : Addr
  deriving DecidableEq, Repr

/-- The configuration of one controller (R5). -/
structure Config where
  wire : WireCfg
  /-- `HOST_ENDIAN`. -/
  hostEndian : Endian
  /-- `DEV_ENDIAN`. -/
  devEndian : Endian
  /-- `BUF_CAP`. -/
  bufCap : Nat
  /-- `POLL_BOUND`. -/
  pollBound : Nat
  /-- `POLL_DELAY_MS`. -/
  pollDelayMs : Nat
  /-- `BOOT_DELAY_MS`. -/
  bootDelayMs : Nat
  map : RegMap
  cmds : CmdWords
  resp : RespCodes
  img : ImgCfg
  /-- `HAS_GRAMMAR`. -/
  hasGrammar : Bool
  gram : GramCfg
  deriving DecidableEq, Repr

/-! Free values: nothing in Lean can evaluate them. -/

/-- How many units the transport reports for the `i`-th transfer that nothing else answers (R10, U7; log entry 5). -/
opaque Config.busUnits : Nat → Nat

/-- Byte `j` that the device returns in the `i`-th transfer that nothing else answers (R10, U7; log entry 5). -/
opaque Config.busByte : Nat → Nat → Byte

/-- What x[SIZE] holds when the payload's length does not fit 16 bits (R14 states no value; log entry 20). -/
opaque Config.longSize : Nat → BitVec 16

/-- `SegAddrReg(i)` of an entry the configuration does not list (R210, OPEN; log entry 19). -/
opaque Config.freeSegAddr : Nat → Addr

/-- `SegSizeReg(i)` of an entry the configuration does not list (R210, OPEN; log entry 19). -/
opaque Config.freeSegSize : Nat → Addr

/-- The device register that a firmware body writes the execution address to (R238 and N9: not in the source; log entry
36). -/
opaque Config.execReg : Addr

/-- How many words that register has, less one (R238 and N9: not in the source; log entry 36). -/
opaque Config.execWordsPred : BitVec 7

/-! The OPEN parameters of the controller that `State.reset` describes (U15; log entry 4). -/

/-- `HOST_ENDIAN`, OPEN. -/
opaque Config.openHostEndian : Endian
/-- `POLL_BOUND - 1`, OPEN. -/
opaque Config.openPollBoundPred : Nat
/-- `POLL_DELAY_MS`, OPEN. -/
opaque Config.openPollDelayMs : Nat
/-- `BOOT_DELAY_MS`, OPEN. -/
opaque Config.openBootDelayMs : Nat
/-- `REG_CHKSUM` without its bit 0, OPEN (even by R45). -/
opaque Config.openChksumWord : BitVec 15
/-- `FINIT_OK`, OPEN. -/
opaque Config.openFinitOk : Word
/-- How far `FINIT_NO_DEV` lies above `FINIT_OK`, less one, OPEN (never the same code, R5 group F). -/
opaque Config.openFinitGap : Fin 65535
/-- `CMD_GRAM_DISABLE`, OPEN. -/
opaque Config.openGramDisable : Word
/-- `CMD_GRAM_ENABLE`, OPEN. -/
opaque Config.openGramEnable : Word
/-- `REG_SEG_START`, OPEN. -/
opaque Config.openSegStart : Addr
/-- `REG_SEG_MAX`, OPEN. -/
opaque Config.openSegMax : Addr
/-- `REG_SEG_COUNT`, OPEN. -/
opaque Config.openSegCount : Addr
/-- `REG_GRAM_STATUS`, OPEN. -/
opaque Config.openGramStatus : Addr
/-- `GRAM_BUSY`, OPEN. -/
opaque Config.openGramBusy : Word
/-- `GRAM_BLOCK` in words, less one, OPEN (even, 2 to 256 bytes, R210). -/
opaque Config.openGramBlockPred : Fin 128

/-- Group A at the spec's defaults (R5, general knowledge: log entry 3). -/
def WireCfg.default : WireCfg where
  firstHigh := true
  wDirect := 15
  wOffset := 8
  wWrite := 7
  wCount := 0
  selectPage := 0xFE#8
  contWr := 0xFB#8
  nop := 0xFFFF#16
  specialLo := 0xFA#8

/-- The controller that `State.reset` describes: the defaults of R5 where the spec gives one (PRESUMED by the spec
itself, log entry 3), the free constants above where it says OPEN (log entry 4). -/
def Config.atReset : Config where
  wire := WireCfg.default
  hostEndian := Config.openHostEndian
  devEndian := .big
  bufCap := 256
  pollBound := Config.openPollBoundPred + 1
  pollDelayMs := Config.openPollDelayMs
  bootDelayMs := Config.openBootDelayMs
  map := {
    swFlags := 0x0006#16, cmd := 0x0032#16, result := 0x0034#16, done := 0x0032#16, curFw := 0x0028#16,
    appBit := 15, rstBoot := 0x0014#16, bootVerify := 0x0034#16, bootMagic := 0xD3D3#16,
    chksum := Config.openChksumWord ++ 0#1, chksumBytes := 2, flashCount := 0x0026#16, eraseMagic := 0xAA55#16 }
  cmds := {
    loadComplete := 0x000D#16, flashInit := 0x000B#16, save := 0x0004#16, erase := 0x0009#16,
    gramDisable := Config.openGramDisable, gramEnable := Config.openGramEnable }
  resp := {
    success := 0x0000#16, badImage := 0x0001#16, flashFull := 0x0003#16, noFlash := 0x0006#16,
    incompatApp := 0x000B#16, finitOk := Config.openFinitOk,
    finitNoDev := Config.openFinitOk + BitVec.ofNat 16 (Config.openFinitGap.val + 1) }
  img := { order := .big, majorHigh := true, typeLo := 6, typeWidth := 2, endianBit := 5, fw := 0#8, cfg := 1#8 }
  hasGrammar := false
  gram := {
    segStart := Config.openSegStart, segMax := Config.openSegMax, segCount := Config.openSegCount, segTable := [],
    status := Config.openGramStatus, busy := Config.openGramBusy, block := 2 * (Config.openGramBlockPred.val + 1),
    extAddr := 0x000C#16 }

end Sys2Proof
end

