-- ==== Sys2Proof/Syntax.lean ====
section
/-! DEFINITION. The instructions: one constructor of `Instr` for each row of spec/opcode_table.json, and the request
record of spec/10_state.md R11. -/

namespace Sys2Proof

/-- The direction of an access: x[RW], 0 read, 1 write (R15). -/
inductive Dir where
  | read
  | write
  deriving DecidableEq, Repr

/-- One request on the request port (R11). A field an operation does not name is ignored by it. -/
structure Request where
  op : BitVec 4
  addr : Addr
  rw : Dir
  size : BitVec 16
  cmd : Word
  wantCount : Bool
  data : List Byte
  deriving DecidableEq, Repr

/-- One wire command word as the decode function of R75 reads it. -/
inductive WireCmd where
  | selectPage (sel : Byte)
  | noOp
  | contPagedWrite (cnt : BitVec 7)
  | reserved (b0 b1 : Byte)
  | directRead (off cnt : BitVec 7)
  | directWrite (off cnt : BitVec 7)
  | pagedRead (off cnt : BitVec 7)
  | pagedWrite (off cnt : BitVec 7)
  deriving DecidableEq, Repr

/-- Every row of the opcode table. -/
inductive Instr where
  -- wire command words (R70 to R76)
  | selectPage (sel : Byte)
  | noOp
  | contPagedWrite (cnt : BitVec 7)
  | directRead (off cnt : BitVec 7)
  | directWrite (off cnt : BitVec 7)
  | pagedRead (off cnt : BitVec 7)
  | pagedWrite (off cnt : BitVec 7)
  | reserved (b0 b1 : Byte)
  -- requests (R90)
  | hdrEncode (addr : Addr) (rw : Dir) (size : BitVec 16)
  | regWrite (addr : Addr) (data : List Byte)
  | regRead (addr : Addr) (size : BitVec 16)
  | rawWrite (data : List Byte)
  | runCmd (cmd : Word)
  | bootSwitch
  | loadImage (image : List Byte)
  | flashSave (wantCount : Bool)
  | flashErase
  | grammarLoad (blob : List Byte)
  | reqReserved (op : BitVec 4)
  -- host command words (R87; numbers of R5 group E and R210)
  | cmdLoadComplete
  | cmdFlashInit
  | cmdSave
  | cmdErase
  | cmdGramDisable
  | cmdGramEnable
  deriving DecidableEq, Repr

/-- A wire command word is one of the table's first eight rows. -/
def WireCmd.toInstr : WireCmd → Instr
  | .selectPage sel => .selectPage sel
  | .noOp => .noOp
  | .contPagedWrite cnt => .contPagedWrite cnt
  | .reserved b0 b1 => .reserved b0 b1
  | .directRead off cnt => .directRead off cnt
  | .directWrite off cnt => .directWrite off cnt
  | .pagedRead off cnt => .pagedRead off cnt
  | .pagedWrite off cnt => .pagedWrite off cnt

/-- The three spaces of the opcode table. -/
inductive Space where
  | wire
  | request
  | hostCommand
  deriving DecidableEq, Repr

/-- The space of an instruction's row. -/
def Instr.space : Instr → Space
  | .selectPage _ | .noOp | .contPagedWrite _ | .directRead _ _ | .directWrite _ _ | .pagedRead _ _ | .pagedWrite _ _
  | .reserved _ _ => .wire
  | .hdrEncode _ _ _ | .regWrite _ _ | .regRead _ _ | .rawWrite _ | .runCmd _ | .bootSwitch | .loadImage _
  | .flashSave _ | .flashErase | .grammarLoad _ | .reqReserved _ => .request
  | .cmdLoadComplete | .cmdFlashInit | .cmdSave | .cmdErase | .cmdGramDisable | .cmdGramEnable => .hostCommand

end Sys2Proof
end

