-- ==== Sys2Proof/Machine/CommandWord.lean ====
section
/-! DEFINITION. The 16-bit command word: its two bytes on the wire and the places of its fields (spec/30_encoding.md R70
to R74), in the parameters of spec/00_scope.md R5 group A. -/

namespace Sys2Proof

/-- The byte of a command word that goes on the wire first: bits 15:8 where `CMD_FIRST_BYTE` says so (R70). -/
def firstByte (c : WireCfg) (w : Word) : Byte := if c.firstHigh then w.extractLsb' 8 8 else w.extractLsb' 0 8

/-- The byte that goes second (R70). -/
def secondByte (c : WireCfg) (w : Word) : Byte := if c.firstHigh then w.extractLsb' 0 8 else w.extractLsb' 8 8

/-- The two wire bytes of a command word (R70). -/
def wordBytes (c : WireCfg) (w : Word) : List Byte := [firstByte c w, secondByte c w]

/-- The command word of two wire bytes (R70). -/
def wordOf (c : WireCfg) (b0 b1 : Byte) : Word := if c.firstHigh then b0 ++ b1 else b1 ++ b0

/-- The bit that says write (R71). -/
def Dir.isWrite : Dir → Bool
  | .read => false
  | .write => true

/-- The ACC word of R71: `D` at `W_DIRECT`, `off` at `W_OFFSET`, `W` at `W_WRITE`, `cnt` at `W_COUNT`. -/
def accWord (c : WireCfg) (direct : Bool) (off : BitVec 7) (rw : Dir) (cnt : BitVec 7) : Word :=
  (BitVec.ofBool direct).setWidth 16 <<< c.wDirect.val ||| off.setWidth 16 <<< c.wOffset.val |||
    (BitVec.ofBool rw.isWrite).setWidth 16 <<< c.wWrite.val ||| cnt.setWidth 16 <<< c.wCount.val

/-- The `D` bit of an ACC word (R71). -/
def accDirect (c : WireCfg) (w : Word) : Bool := w.getLsbD c.wDirect.val

/-- The `W` bit of an ACC word (R71). -/
def accWrite (c : WireCfg) (w : Word) : Bool := w.getLsbD c.wWrite.val

/-- The `off` field of an ACC word (R71). -/
def accOff (c : WireCfg) (w : Word) : BitVec 7 := w.extractLsb' c.wOffset.val 7

/-- The `cnt` field of an ACC word (R71). -/
def accCnt (c : WireCfg) (w : Word) : BitVec 7 := w.extractLsb' c.wCount.val 7

/-- The SEL word of R72: byte 0 the opcode, byte 1 the select value. -/
def selWord (c : WireCfg) (sel : Byte) : Word := wordOf c c.selectPage sel

/-- The CNT word of R74: byte 0 the opcode, byte 1 the count with bit 7 clear. -/
def contWord (c : WireCfg) (cnt : BitVec 7) : Word := wordOf c c.contWr (0#1 ++ cnt)

end Sys2Proof
end

