-- ==== Sys2Proof/WellFormed.lean ====
section
/-! DEFINITION. The premises on a choice of parameters (spec/00_scope.md R5, spec/30_encoding.md R81), and which
instructions have an encoding of their own (spec/30_encoding.md R75, R76, R90; spec/70_reset_and_hazards.md R297). An
ill-formed term stands for no bits a decoder would read back as it. -/

namespace Sys2Proof

/-- The four fields of an ACC word share no bit: they fill the word exactly (R71). -/
abbrev WireCfg.fieldsApart (c : WireCfg) : Prop :=
  c.wDirect ≠ c.wWrite ∧
  (c.wDirect.val < c.wOffset.val ∨ c.wOffset.val + 7 ≤ c.wDirect.val) ∧
  (c.wDirect.val < c.wCount.val ∨ c.wCount.val + 7 ≤ c.wDirect.val) ∧
  (c.wWrite.val < c.wOffset.val ∨ c.wOffset.val + 7 ≤ c.wWrite.val) ∧
  (c.wWrite.val < c.wCount.val ∨ c.wCount.val + 7 ≤ c.wWrite.val) ∧
  (c.wOffset.val + 7 ≤ c.wCount.val ∨ c.wCount.val + 7 ≤ c.wOffset.val)

/-- The premises the spec puts on a choice of parameters: R71 and R81 (group A; the last of them, that no paged access
is shadowed, is `SPECIAL_LO ≥ 0x80` at the default layout, log entry 21), R5 (`POLL_BOUND ≥ 1`, `CHKSUM_BYTES` even and
2 to 256, pairwise distinct codes within a response space), R45 (even group D addresses, three of them distinct),
R210 (`GRAM_BLOCK` even, 2 to 256), R17 and R44 (the buffer holds the largest payload), R83 (the type field lies in its
byte). -/
abbrev Config.wf (c : Config) : Prop :=
  (c.wire.selectPage ≠ c.wire.contWr ∧ c.wire.selectPage ≠ firstByte c.wire c.wire.nop ∧
    c.wire.contWr ≠ firstByte c.wire c.wire.nop ∧
    c.wire.specialLo ≤ c.wire.selectPage ∧ c.wire.specialLo ≤ c.wire.contWr ∧
    c.wire.specialLo ≤ firstByte c.wire c.wire.nop ∧
    firstByte c.wire (accWord c.wire false 127#7 .write 127#7) < c.wire.specialLo ∧ c.wire.fieldsApart) ∧
  (256 ≤ c.bufCap ∧ 1 ≤ c.pollBound) ∧
  (c.map.swFlags[0] = false ∧ c.map.cmd[0] = false ∧ c.map.result[0] = false ∧ c.map.done[0] = false ∧
    c.map.curFw[0] = false ∧ c.map.rstBoot[0] = false ∧ c.map.bootVerify[0] = false ∧ c.map.chksum[0] = false ∧
    c.map.flashCount[0] = false) ∧
  (c.map.swFlags ≠ c.map.cmd ∧ c.map.swFlags ≠ c.map.result ∧ c.map.cmd ≠ c.map.result) ∧
  (2 ≤ c.map.chksumBytes ∧ c.map.chksumBytes ≤ 256 ∧ c.map.chksumBytes % 2 = 0) ∧
  [c.resp.success, c.resp.badImage, c.resp.flashFull, c.resp.noFlash, c.resp.incompatApp].Nodup ∧
  c.resp.finitOk ≠ c.resp.finitNoDev ∧
  c.img.typeLo.val + c.img.typeWidth.val ≤ 8 ∧
  (2 ≤ c.gram.block ∧ c.gram.block ≤ 256 ∧ c.gram.block % 2 = 0)

/-- The six HostCommandWords are told apart by their numbers: what reading a bare word back as an instruction needs
(the model's own premise, log entry 16). -/
abbrev Config.cmdsDistinct (c : Config) : Prop :=
  [c.cmds.loadComplete, c.cmds.flashInit, c.cmds.save, c.cmds.erase, c.cmds.gramDisable, c.cmds.gramEnable].Nodup

/-- A direct access can be expressed only where its byte 0 lies below the special opcode space (R75, R297). At the default
layout that depends on the offset alone. -/
def directReachable (c : WireCfg) (off : BitVec 7) (rw : Dir) (cnt : BitVec 7) : Bool :=
  decide (firstByte c (accWord c true off rw cnt) < c.specialLo)

/-- R76: byte 0 in the special space, and none of the three defined words. -/
def isReservedWord (c : WireCfg) (b0 b1 : Byte) : Bool :=
  decide (c.specialLo ≤ b0) && !decide (b0 = c.selectPage) && !decide (wordOf c b0 b1 = c.nop) &&
    !(decide (b0 = c.contWr) && !b1[7])

/-- The instruction has an encoding that decodes to it. -/
def Instr.wf (c : Config) : Instr → Bool
  | .directRead off cnt => directReachable c.wire off .read cnt
  | .directWrite off cnt => directReachable c.wire off .write cnt
  | .reserved b0 b1 => isReservedWord c.wire b0 b1
  | .reqReserved op => decide (0xA#4 ≤ op)
  | .selectPage _ | .noOp | .contPagedWrite _ | .pagedRead _ _ | .pagedWrite _ _ => true
  | .hdrEncode _ _ _ | .regWrite _ _ | .regRead _ _ | .rawWrite _ | .runCmd _ | .bootSwitch | .loadImage _
  | .flashSave _ | .flashErase | .grammarLoad _ => true
  | .cmdLoadComplete | .cmdFlashInit | .cmdSave | .cmdErase | .cmdGramDisable | .cmdGramEnable => true

end Sys2Proof
end

