-- ==== Sys2Proof/Decode.lean ====
section
/-! DEFINITION. The decoder, total on anything presented, and after it the encoder (spec/30_encoding.md R70 to R81,
R87, R90). -/

namespace Sys2Proof

/-- Why something presented is no instruction. -/
inductive Reject where
  /-- Fewer than two bytes: no command word (R111 refuses it). Safe: the model stops. -/
  | truncatedCommand
  /-- A bare host command word that is none of the six the spec names (R5 groups E and H). Safe: the model stops.
  RUN_CMD takes any word (R151): this concerns only a word presented on its own. -/
  | unknownHostCommand (w : Word)
  deriving DecidableEq, Repr

/-- What is presented to be decoded: the bytes of a transfer from a command word on, a request, a host command word. -/
inductive Code where
  | wire (bytes : List Byte)
  | request (r : Request)
  | hostCommand (w : Word)
  deriving DecidableEq, Repr

/-- The space something presented lies in. -/
def Code.space : Code → Space
  | .wire _ => .wire
  | .request _ => .request
  | .hostCommand _ => .hostCommand

/-! Decoding. -/

/-- The total decode function of R75, in its priority order. -/
def decodeWire (c : WireCfg) (b0 b1 : Byte) : WireCmd :=
  if b0 = c.selectPage then .selectPage b1
  else if wordOf c b0 b1 = c.nop then .noOp
  else if b0 = c.contWr ∧ b1[7] = false then .contPagedWrite (b1.extractLsb' 0 7)
  else if c.specialLo ≤ b0 then .reserved b0 b1
  else
    let w := wordOf c b0 b1
    match accDirect c w, accWrite c w with
    | true, false => .directRead (accOff c w) (accCnt c w)
    | true, true => .directWrite (accOff c w) (accCnt c w)
    | false, false => .pagedRead (accOff c w) (accCnt c w)
    | false, true => .pagedWrite (accOff c w) (accCnt c w)

/-- The operation codes of R90. 0x9 is read as GRAMMAR_LOAD whatever `HAS_GRAMMAR` says: where the unit is absent its
meaning is that of a reserved code (R90, R210). -/
def decodeRequest (r : Request) : Instr :=
  if r.op = 0x0#4 then .hdrEncode r.addr r.rw r.size
  else if r.op = 0x1#4 then .regWrite r.addr r.data
  else if r.op = 0x2#4 then .regRead r.addr r.size
  else if r.op = 0x3#4 then .rawWrite r.data
  else if r.op = 0x4#4 then .runCmd r.cmd
  else if r.op = 0x5#4 then .bootSwitch
  else if r.op = 0x6#4 then .loadImage r.data
  else if r.op = 0x7#4 then .flashSave r.wantCount
  else if r.op = 0x8#4 then .flashErase
  else if r.op = 0x9#4 then .grammarLoad r.data
  else .reqReserved r.op

/-- A bare host command word, by the numbers of the configuration (R5 group E, R210). -/
def decodeHostCommand (c : CmdWords) (w : Word) : Except Reject Instr :=
  if w = c.loadComplete then .ok .cmdLoadComplete
  else if w = c.flashInit then .ok .cmdFlashInit
  else if w = c.save then .ok .cmdSave
  else if w = c.erase then .ok .cmdErase
  else if w = c.gramDisable then .ok .cmdGramDisable
  else if w = c.gramEnable then .ok .cmdGramEnable
  else .error (.unknownHostCommand w)

/-- The decoder. -/
def decode (c : Config) : Code → Except Reject Instr
  | .wire (b0 :: b1 :: _) => .ok (decodeWire c.wire b0 b1).toInstr
  | .wire _ => .error .truncatedCommand
  | .request r => .ok (decodeRequest r)
  | .hostCommand w => decodeHostCommand c.cmds w

/-- How many payload bytes follow a command word, and how many bytes it asks to receive (R80). -/
def WireCmd.payloadBytes : WireCmd → Nat
  | .directWrite _ cnt => (cnt.toNat + 1) * 2
  | .pagedWrite _ cnt => (cnt.toNat + 1) * 2
  | .contPagedWrite cnt => (cnt.toNat + 1) * 2
  | .selectPage _ | .noOp | .reserved _ _ | .directRead _ _ | .pagedRead _ _ => 0

/-- R80: the bytes a read command receives. -/
def WireCmd.receiveBytes : WireCmd → Nat
  | .directRead _ cnt => (cnt.toNat + 1) * 2
  | .pagedRead _ cnt => (cnt.toNat + 1) * 2
  | .directWrite _ _ | .pagedWrite _ _ | .contPagedWrite _ | .selectPage _ | .noOp | .reserved _ _ => 0

/-! Encoding. -/

/-- The word of a wire command (R71 to R74; a reserved word is its own two bytes). -/
def encodeWire (c : WireCfg) : WireCmd → Word
  | .selectPage sel => selWord c sel
  | .noOp => c.nop
  | .contPagedWrite cnt => contWord c cnt
  | .directRead off cnt => accWord c true off .read cnt
  | .directWrite off cnt => accWord c true off .write cnt
  | .pagedRead off cnt => accWord c false off .read cnt
  | .pagedWrite off cnt => accWord c false off .write cnt
  | .reserved b0 b1 => wordOf c b0 b1

/-- A request with every operand zero or empty. -/
def Request.blank (op : BitVec 4) : Request where
  op := op
  addr := 0
  rw := .read
  size := 0
  cmd := 0
  wantCount := false
  data := []

/-- The code of a well-formed instruction: the two bytes of a wire command, the request record, the host command
word. -/
def encode (c : Config) : Instr → Code
  | .selectPage sel => .wire (wordBytes c.wire (encodeWire c.wire (.selectPage sel)))
  | .noOp => .wire (wordBytes c.wire (encodeWire c.wire .noOp))
  | .contPagedWrite cnt => .wire (wordBytes c.wire (encodeWire c.wire (.contPagedWrite cnt)))
  | .directRead off cnt => .wire (wordBytes c.wire (encodeWire c.wire (.directRead off cnt)))
  | .directWrite off cnt => .wire (wordBytes c.wire (encodeWire c.wire (.directWrite off cnt)))
  | .pagedRead off cnt => .wire (wordBytes c.wire (encodeWire c.wire (.pagedRead off cnt)))
  | .pagedWrite off cnt => .wire (wordBytes c.wire (encodeWire c.wire (.pagedWrite off cnt)))
  | .reserved b0 b1 => .wire (wordBytes c.wire (encodeWire c.wire (.reserved b0 b1)))
  | .hdrEncode addr rw size => .request { Request.blank 0x0 with addr, rw, size }
  | .regWrite addr data => .request { Request.blank 0x1 with addr, data }
  | .regRead addr size => .request { Request.blank 0x2 with addr, size }
  | .rawWrite data => .request { Request.blank 0x3 with data }
  | .runCmd cmd => .request { Request.blank 0x4 with cmd }
  | .bootSwitch => .request (Request.blank 0x5)
  | .loadImage image => .request { Request.blank 0x6 with data := image }
  | .flashSave wantCount => .request { Request.blank 0x7 with wantCount }
  | .flashErase => .request (Request.blank 0x8)
  | .grammarLoad blob => .request { Request.blank 0x9 with data := blob }
  | .reqReserved op => .request (Request.blank op)
  | .cmdLoadComplete => .hostCommand c.cmds.loadComplete
  | .cmdFlashInit => .hostCommand c.cmds.flashInit
  | .cmdSave => .hostCommand c.cmds.save
  | .cmdErase => .hostCommand c.cmds.erase
  | .cmdGramDisable => .hostCommand c.cmds.gramDisable
  | .cmdGramEnable => .hostCommand c.cmds.gramEnable

/-! The opcode table's own numbering of words. -/

/-- The four host command words that have a number in the table (R5 group E defaults). -/
def isNumberedHostCommand (w : Word) : Bool :=
  w == 0x000D#16 || w == 0x000B#16 || w == 0x0004#16 || w == 0x0009#16

/-- What the table's number `w` of `nbits` bits stands for: up to 8 bits a request's `op` with every operand zero; 16
bits one of the four numbered host command words, else a wire command word, byte 0 from bits 15:8, with a payload of
zeros as long as its count field says. The table's spaces overlap in those four words; this reading is the model's
(DESIGN CHOICE, log entry 17). -/
def codeOfTableWord (c : Config) (nbits w : Nat) : Option Code :=
  if nbits ≤ 8 then
    if w < 16 then some (.request (Request.blank (BitVec.ofNat 4 w))) else none
  else if nbits = 16 ∧ w < 65536 then
    let word := BitVec.ofNat 16 w
    if isNumberedHostCommand word then some (.hostCommand word)
    else
      let b0 := word.extractLsb' 8 8
      let b1 := word.extractLsb' 0 8
      some (.wire (b0 :: b1 :: List.replicate (decodeWire c.wire b0 b1).payloadBytes 0#8))
  else none

/-- The instruction the decoder reads from an opcode-table word (at the parameters of `Config.atReset`). -/
def decodeTableWord (nbits w : Nat) : Option Instr :=
  match codeOfTableWord Config.atReset nbits w with
  | some code =>
    match decode Config.atReset code with
    | .ok i => some i
    | .error _ => none
  | none => none

end Sys2Proof
end

