-- ==== Sys2Proof/Machine/State.lean ====
section
/-! DEFINITION. The state of the machine as plain data: the block's holding and sequencing registers, its ports, the
reference responder, the environment's side of the bus, and the record of what happened (spec/10_state.md,
spec/40_frame_encoder.md R110 and R111, spec/70_reset_and_hazards.md R280). -/

namespace Sys2Proof.Machine

/-- The thirteen status names (R92, R250). NOT_INIT, BAD_HANDLE, INVALID_STATE and OP_INCOMPLETE are never produced
(R259). -/
inductive Status where
  | notInit
  | internalErr
  | resourceErr
  | invalidArg
  | badHandle
  | badImage
  | flashFull
  | noFlashPresent
  | commandErr
  | incompatApp
  | invalidState
  | opIncomplete
  | success
  deriving DecidableEq, Repr

/-- The sequencing states of RA (R21, R120). -/
inductive RaState where
  | idle
  | check
  | toDev
  | header
  | xfer
  | toHost
  deriving DecidableEq, Repr

/-- The sequencing states of HC (R21, R148). -/
inductive HcState where
  | idle
  | waitIdle
  | writeCmd
  | notify
  | waitDone
  deriving DecidableEq, Repr

/-- The sequencing states of the boot-mode transition controller (R21, R170). -/
inductive BmState where
  | idle
  | readFw
  | reset
  | delay
  | verify
  deriving DecidableEq, Repr

/-- The states of ImageTransport (R21, R176). -/
inductive ItState where
  | idle
  | headerParsed
  | streaming
  | concluding
  | done
  | failed
  deriving DecidableEq, Repr

/-- The steps of the flash sequences (R21, R199). -/
inductive FlState where
  | idle
  | boot
  | init
  | initResult
  | prep
  | cmd
  | result
  | count
  deriving DecidableEq, Repr

/-- The steps of the grammar loader (R21, R211). -/
inductive GlState where
  | idle
  | capacity
  | disable
  | wait1
  | stream
  | table
  | enable
  | wait2
  deriving DecidableEq, Repr

/-- The holding registers (R13 to R20) and the one-bit registers of R22. -/
structure Holding where
  /-- x[ADDR] (R13). -/
  addr : Addr
  /-- x[SIZE] (R14). -/
  size : BitVec 16
  /-- x[RW] (R15). -/
  rw : Dir
  /-- x[HDR], four bytes (R16). -/
  hdr : List Byte
  /-- x[HDRLEN] (R16). -/
  hdrLen : BitVec 3
  /-- x[BUF], `BUF_CAP` bytes (R17). -/
  buf : List Byte
  /-- x[BUFLEN] (R17). -/
  bufLen : Nat
  /-- x[CMDOP] (R18). -/
  cmdOp : Word
  /-- x[VAL] (R18). -/
  val : Word
  /-- x[POLLCNT] (R18, R268). -/
  pollCnt : Nat
  /-- x[IH_MAJOR] (R19). -/
  ihMajor : BitVec 4
  /-- x[IH_MINOR] (R19). -/
  ihMinor : BitVec 4
  /-- x[IH_TYPE] (R19): as wide as `IH_TYPE_FIELD`, held in a byte (log entry 25). -/
  ihType : Byte
  /-- x[IH_ENDIAN] (R19). -/
  ihEndian : BitVec 1
  /-- x[IH_CODE] (R19). -/
  ihCode : BitVec 16
  /-- x[IH_BLKWORDS] (R19). -/
  ihBlkWords : BitVec 16
  /-- x[IH_TOTAL] (R19). -/
  ihTotal : BitVec 32
  /-- x[IH_RSVD] (R19, R86). -/
  ihRsvd : BitVec 16
  /-- x[BLKSIZE] (R19). -/
  blkSize : BitVec 17
  /-- x[IMG_POS] (R20). -/
  imgPos : BitVec 33
  /-- x[IMG_REM] (R20). -/
  imgRem : BitVec 32
  /-- x[FLASH_CNT] (R20). -/
  flashCnt : BitVec 16
  /-- x[STATUS] (R20). -/
  status : Status
  /-- x[RAW_RESP] (R20). -/
  rawResp : Word
  /-- x[RAW_VALID] (R20, R22). -/
  rawValid : Bool
  /-- count_valid (R12, R22). -/
  countValid : Bool
  deriving DecidableEq, Repr

/-- The sequencing registers (R21). -/
structure Seq where
  /-- x[BUSY] (R29). -/
  busy : Bool
  /-- x[CUR_OP]. -/
  curOp : BitVec 4
  /-- RA_STATE. -/
  ra : RaState
  /-- HC_STATE. -/
  hc : HcState
  /-- BM_STATE. -/
  bm : BmState
  /-- IT_STATE. -/
  it : ItState
  /-- FL_STATE. -/
  fl : FlState
  /-- GL_STATE. -/
  gl : GlState
  deriving DecidableEq, Repr

/-- One response (R12). A field that carries no value is empty or none (R258, U14; log entry 22). -/
structure Response where
  status : Status
  rawValid : Bool
  rawResp : Word
  /-- The header bytes of HDR_ENCODE; hdr_len is their number. -/
  hdr : List Byte
  /-- The bytes of REG_READ, in host order. -/
  data : List Byte
  /-- The image count of FLASH_SAVE; count_valid says whether there is one. -/
  count : Option (BitVec 16)
  deriving DecidableEq, Repr

/-- A bus primitive (R6). -/
inductive Prim where
  | xfer (w : List Byte) (k : Nat)
  | delay (ms : Nat)
  deriving DecidableEq, Repr

/-- One recorded bus primitive (R24). -/
inductive Event where
  | xfer (w : List Byte) (k n : Nat) (r : List Byte)
  | delay (ms : Nat)
  deriving DecidableEq, Repr

/-- One transition of a sequencing register, or the place of a bus primitive among them: the model's own record of
what R120, R148, R170, R176, R190 and R211 say happens between two primitives (log entry 1). -/
inductive Move where
  | ra (st : RaState)
  | hc (st : HcState)
  | bm (st : BmState)
  | it (st : ItState)
  | fl (st : FlState)
  | gl (st : GlState)
  /-- Every unit but IT returns to its idle state on a raise (R257). -/
  | aborted
  /-- One bus primitive. -/
  | prim
  deriving DecidableEq, Repr

/-- An answer the environment has laid down for a coming transfer (R10; log entry 5). -/
inductive BusAnswer where
  /-- `n` units are reported, the bytes `r` are received. -/
  | done (n : Nat) (r : List Byte)
  /-- The next bus primitive never returns (R309). -/
  | never
  deriving DecidableEq, Repr

/-- Who answers a transfer for which no answer was laid down. -/
inductive DeviceKind where
  /-- The unconstrained oracle of R10: free values. -/
  | unconstrained
  /-- The reference responder of R110 to R119. -/
  | responder
  deriving DecidableEq, Repr

/-- The environment's side of the bus: the model's own fields. -/
structure Env where
  script : List BusAnswer
  device : DeviceKind
  /-- How many transfers were answered: the index of the next free answer. -/
  answered : Nat
  /-- After how many more steps of the block (R7: bus primitives and terminal transitions) reset is asserted (R281; log
  entry 14). -/
  resetIn : Option Nat
  /-- The bus primitive the block waits in for ever (R309). -/
  inFlight : Option Prim
  deriving DecidableEq, Repr

/-- Device memory: (address, byte) pairs, addresses strictly rising, no byte that an unlisted address reads as. -/
abbrev Mem := List Host.Cell

/-- The reference responder (R110) with the transfer in progress (R111). -/
structure Dev where
  /-- dev.sel, the page-select register. -/
  sel : Byte
  /-- dev.mem. -/
  mem : Mem
  /-- dev.cont: the page and the word offset where a continuation write would land. -/
  cont : Option (Nat × Nat)
  /-- The bytes of `w` not parsed yet. -/
  rx : List Byte
  /-- `k`, how many bytes the transfer asks to receive. -/
  want : Nat
  /-- `r`, the bytes answered. -/
  tx : List Byte
  deriving DecidableEq, Repr

/-- What the outside presents next: a request at the request port (R11), a host command word on its own (log entry 16),
or a transfer sent straight to the reference responder (spec/95_test_vectors.md 2.8). -/
inductive Presented where
  | request (r : Request)
  | hostCommand (w : Word)
  | wire (w : List Byte) (k : Nat)
  deriving DecidableEq, Repr

/-- The machine's state. -/
structure State where
  /-- The parameters, constant (R23, R291; log entry 2). -/
  cfg : Config
  x : Holding
  seq : Seq
  /-- The response last delivered (R12). -/
  rsp : Option Response
  /-- The event history (R24). -/
  history : List Event
  /-- The transitions of the sequencing registers. -/
  moves : List Move
  env : Env
  /-- What is presented next, oldest first. -/
  inbox : List Presented
  dev : Dev
  deriving DecidableEq, Repr

/-- Why the machine stops with a fault. -/
inductive Fault where
  /-- Raised by a step of a block that waits in a bus primitive which never returns, with no reset asserted: the block
  stays busy for ever (R309, U11: stuck, no further step). Safe: the model stops where the hardware goes on waiting. -/
  | busNeverReturns
  deriving DecidableEq, Repr

/-- Why something has no meaning. Every constructor but the first stands for a case the spec itself refuses. -/
inductive Refusal where
  /-- Raised by the dispatch of an instruction that has no meaning yet. Safe. -/
  | notModelled (mnemonic : String)
  /-- Raised by the fetch: what is presented decodes to nothing. Safe. -/
  | undecodable (why : Reject)
  /-- Raised by RESERVED: a reserved command word (R76, R119, U2: refuse). Safe. -/
  | reservedWord (b0 b1 : Byte)
  /-- Raised by SELECT_PAGE 0xFE (R47, R112, U13: refuse). Safe. -/
  | selectReserved
  /-- Raised by a paged access while dev.sel is above 0xFD: the extended window is not modelled by the responder (R112,
  R115, R119). Safe. -/
  | extendedWindow
  /-- Raised by an access past word 127 of its page (R63, R119, U3: refuse). Safe. -/
  | pastPageEnd
  /-- Raised by a write with too few payload bytes (R114, R119). Safe. -/
  | truncatedPayload
  /-- Raised by a read that is not the last command of its transfer (R111, R119). Safe. -/
  | readNotLast
  /-- Raised by a read whose transfer asks for another number of bytes (R111, R119). Safe. -/
  | readLengthMismatch
  /-- Raised at the end of a transfer that asks for bytes and whose last command is no read (R111). Safe. -/
  | nothingToReceive
  /-- Raised by CONT_PAGED_WRITE without an earlier paged write on the selected page (R118). Safe. -/
  | noContinuation
  /-- Raised by LOAD_IMAGE with block size 0 and a body (R179, U9: refuse). Safe. -/
  | zeroBlockSize
  /-- Raised by the grammar command words where `HAS_GRAMMAR` is false: their unit is absent (R210; log entry 34).
  Safe. -/
  | grammarAbsent
  deriving DecidableEq, Repr

/-- The holding registers after reset, for a buffer of `cap` bytes. Only RAW_VALID's value is the spec's (R28); every
other one is the model's (DESIGN CHOICE, log entries 7 and 8). -/
def Holding.reset (cap : Nat) : Holding where
  addr := 0
  size := 0
  rw := .read
  hdr := [0, 0, 0, 0]
  hdrLen := 2
  buf := List.replicate cap 0
  bufLen := 0
  cmdOp := 0
  val := 0
  pollCnt := 0
  ihMajor := 0
  ihMinor := 0
  ihType := 0
  ihEndian := 0
  ihCode := 0
  ihBlkWords := 0
  ihTotal := 0
  ihRsvd := 0
  blkSize := 0
  imgPos := 0
  imgRem := 0
  flashCnt := 0
  status := .notInit
  rawResp := 0
  rawValid := false
  countValid := false

/-- The sequencing registers after reset (R28); x[CUR_OP] is the model's choice (log entry 7). -/
def Seq.reset : Seq where
  busy := false
  curOp := 0
  ra := .idle
  hc := .idle
  bm := .idle
  it := .idle
  fl := .idle
  gl := .idle

/-- The reference responder as the vectors of spec/95_test_vectors.md 2.8 start it; dev.sel is the model's choice (log
entry 9). -/
def Dev.reset : Dev where
  sel := 0
  mem := []
  cont := none
  rx := []
  want := 0
  tx := []

/-- The environment before anything happened: nothing laid down, the unconstrained oracle answers, no reset to come. -/
def Env.reset : Env where
  script := []
  device := .unconstrained
  answered := 0
  resetIn := none
  inFlight := none

/-- The machine right after reset (R28, R280): not busy, every unit idle, no response, nothing presented. -/
def State.reset : State where
  cfg := Config.atReset
  x := Holding.reset Config.atReset.bufCap
  seq := Seq.reset
  rsp := none
  history := []
  moves := []
  env := Env.reset
  inbox := []
  dev := Dev.reset

end Sys2Proof.Machine
end

