-- ==== Sys2Proof/Machine/ByteOrder.lean ====
section
/-! DEFINITION. Byte order (spec/20_memory.md R50 to R56, spec/45_grammar_loader.md R212). -/

namespace Sys2Proof.Machine

/-- `Swap16`: the bytes swapped pairwise (R6, R51). R6 defines it for an even length; that a lone last byte stays as
it is is the model's choice (DESIGN CHOICE, log entry 39). No request converts an odd length (R122). -/
def swap16 : List Byte → List Byte
  | a :: b :: t => b :: a :: swap16 t
  | t => t

/-- `ToDev`: host order to device order, the payload only (R51, R123). -/
def toDev (c : Config) (s : List Byte) : List Byte :=
  if c.hostEndian = c.devEndian then s else swap16 s

/-- `ToHost`: device order to host order (R51, R126). -/
def toHost (c : Config) (s : List Byte) : List Byte :=
  if c.hostEndian = c.devEndian then s else swap16 s

/-- The two bytes of a 16-bit value in a byte order: `HostBytes16`, `DevBytes16` (R53). -/
def bytes16 (e : Endian) (v : Word) : List Byte :=
  match e with
  | .big => [v.extractLsb' 8 8, v.extractLsb' 0 8]
  | .little => [v.extractLsb' 0 8, v.extractLsb' 8 8]

/-- The value of two bytes in a byte order: `HostVal16`, `DevVal16` (R53). -/
def val16 (e : Endian) (a b : Byte) : Word :=
  match e with
  | .big => a ++ b
  | .little => b ++ a

/-- The four bytes of a 32-bit value: two words, the half that comes first by the byte order first (R56, R212). -/
def bytes32 (e : Endian) (v : DWord) : List Byte :=
  match e with
  | .big => bytes16 .big (v.extractLsb' 16 16) ++ bytes16 .big (v.extractLsb' 0 16)
  | .little => bytes16 .little (v.extractLsb' 0 16) ++ bytes16 .little (v.extractLsb' 16 16)

/-- The 32-bit value of four bytes (R212). -/
def val32 (e : Endian) (a b c d : Byte) : DWord :=
  match e with
  | .big => val16 .big a b ++ val16 .big c d
  | .little => val16 .little c d ++ val16 .little a b

/-- The value of a two-byte answer; RA answers exactly two (R129). -/
def val16At (e : Endian) (s : List Byte) : Word := val16 e (s.getD 0 0) (s.getD 1 0)

/-- The value of a four-byte answer; RA answers exactly four (R212). -/
def val32At (e : Endian) (s : List Byte) : DWord := val32 e (s.getD 0 0) (s.getD 1 0) (s.getD 2 0) (s.getD 3 0)

end Sys2Proof.Machine
end

