-- ==== Sys2Proof/Machine/Memory.lean ====
section
/-! DEFINITION. The reference responder's register memory, `dev.mem` of spec/40_frame_encoder.md R110: byte cells in one
canonical form. The word at even address `a` is the value, in device byte order, of the bytes at `a` and `a + 1` (log
entry 11). -/

namespace Sys2Proof.Machine

/-- What a byte of device memory reads as when nothing has written it (DESIGN CHOICE, log entry 10). -/
def Mem.unlisted : Byte := 0

/-- The byte at an address. -/
def Mem.read : Mem → Nat → Byte
  | [], _ => Mem.unlisted
  | (b, u) :: t, a => if a = b then u else Mem.read t a

/-- The memory with one byte replaced, in canonical form again. -/
def Mem.write : Mem → Nat → Byte → Mem
  | [], a, v => if v = Mem.unlisted then [] else [(a, v)]
  | (b, u) :: t, a, v =>
    if a < b then (if v = Mem.unlisted then (b, u) :: t else (a, v) :: (b, u) :: t)
    else if a = b then (if v = Mem.unlisted then t else (a, v) :: t)
    else (b, u) :: Mem.write t a v

/-- The canonical form: addresses strictly rising, no entry equal to what an unlisted address reads as. -/
abbrev Mem.wf (m : Mem) : Prop :=
  m.Pairwise (fun c d => c.1 < d.1) ∧ ∀ c ∈ m, c.2 ≠ Mem.unlisted

/-- `MemRead(a, 2)` (R6, R110). -/
def Mem.readWord (e : Endian) (m : Mem) (a : Nat) : Word := val16 e (m.read a) (m.read (a + 1))

/-- `MemWrite(a, 2, v)` (R6, R110). -/
def Mem.writeWord (e : Endian) (m : Mem) (a : Nat) (v : Word) : Mem :=
  let bs := bytes16 e v
  (m.write a (bs.getD 0 0)).write (a + 1) (bs.getD 1 0)

/-- The wire bytes of `n` consecutive words (R113). -/
def Mem.readWords (e : Endian) (m : Mem) (a : Nat) : Nat → List Byte
  | 0 => []
  | n + 1 => bytes16 e (m.readWord e a) ++ Mem.readWords e m (a + 2) n

/-- The payload bytes written to consecutive words (R114). -/
def Mem.writeWords (e : Endian) (m : Mem) (a : Nat) : List Byte → Mem
  | b0 :: b1 :: t => Mem.writeWords e (m.writeWord e a (val16 e b0 b1)) (a + 2) t
  | _ => m

end Sys2Proof.Machine
end

