-- ==== Sys2Proof/Machine/Device.lean ====
section
/-! DEFINITION. The reference responder (spec/40_frame_encoder.md R110 to R119): what each wire command does to it, and
how it answers one whole transfer. -/

namespace Sys2Proof.Machine

/-- The address of word 0 of the selected page (R115). -/
def Dev.pageBase (d : Dev) : Nat := (d.sel.toNat + 1) * 256

/-- A read of `n` words at word offset `off` from `base`: inside the page, last in its transfer, of the length asked
for (R111, R113, R115, R119). -/
def Dev.answerRead (c : Config) (base off n : Nat) (d : Dev) : Except Refusal Dev :=
  if 128 < off + n then .error .pastPageEnd
  else if d.rx ≠ [] then .error .readNotLast
  else if d.want ≠ 2 * n then .error .readLengthMismatch
  else .ok { d with tx := d.mem.readWords c.devEndian (base + 2 * off) n }

/-- A write of `n` words at word offset `off` from `base`, its payload taken from the transfer (R114, R116). -/
def Dev.storePayload (c : Config) (base off n : Nat) (d : Dev) : Except Refusal Dev :=
  if 128 < off + n then .error .pastPageEnd
  else if d.rx.length < 2 * n then .error .truncatedPayload
  else .ok { d with
    mem := d.mem.writeWords c.devEndian (base + 2 * off) (d.rx.take (2 * n))
    rx := d.rx.drop (2 * n) }

/-- SELECT_PAGE (R112). -/
def Dev.selectPage (sel : Byte) (d : Dev) : Except Refusal Dev :=
  if sel = 0xFE#8 then .error .selectReserved else .ok { d with sel := sel }

/-- NO_OP (R117). -/
def Dev.noOp (d : Dev) : Except Refusal Dev := .ok d

/-- DIRECT_READ (R113). -/
def Dev.directRead (c : Config) (off cnt : BitVec 7) (d : Dev) : Except Refusal Dev :=
  d.answerRead c 0 off.toNat (cnt.toNat + 1)

/-- DIRECT_WRITE (R114). -/
def Dev.directWrite (c : Config) (off cnt : BitVec 7) (d : Dev) : Except Refusal Dev :=
  d.storePayload c 0 off.toNat (cnt.toNat + 1)

/-- PAGED_READ (R115). -/
def Dev.pagedRead (c : Config) (off cnt : BitVec 7) (d : Dev) : Except Refusal Dev :=
  if 0xFD#8 < d.sel then .error .extendedWindow else d.answerRead c d.pageBase off.toNat (cnt.toNat + 1)

/-- PAGED_WRITE (R116): a write on the selected page, which also sets the continuation address. -/
def Dev.pagedWrite (c : Config) (off cnt : BitVec 7) (d : Dev) : Except Refusal Dev :=
  if 0xFD#8 < d.sel then .error .extendedWindow
  else
    match d.storePayload c d.pageBase off.toNat (cnt.toNat + 1) with
    | .ok d' => .ok { d' with cont := some (d.sel.toNat + 1, off.toNat + cnt.toNat + 1) }
    | .error e => .error e

/-- CONT_PAGED_WRITE (R118): a write where the previous paged write ended, on the page still selected. -/
def Dev.contPagedWrite (c : Config) (cnt : BitVec 7) (d : Dev) : Except Refusal Dev :=
  match d.cont with
  | none => .error .noContinuation
  | some (p, o) =>
    if 0xFD#8 < d.sel then .error .extendedWindow
    else if p ≠ d.sel.toNat + 1 then .error .noContinuation
    else
      match d.storePayload c (p * 256) o (cnt.toNat + 1) with
      | .ok d' => .ok { d' with cont := some (p, o + cnt.toNat + 1) }
      | .error e => .error e

/-- RESERVED (R76, R119): refused. -/
def Dev.reserved (b0 b1 : Byte) (_ : Dev) : Except Refusal Dev := .error (.reservedWord b0 b1)

/-- One command word, its two bytes already taken from the transfer. -/
def Dev.execCmd (c : Config) (d : Dev) : WireCmd → Except Refusal Dev
  | .selectPage sel => d.selectPage sel
  | .noOp => d.noOp
  | .contPagedWrite cnt => d.contPagedWrite c cnt
  | .reserved b0 b1 => d.reserved b0 b1
  | .directRead off cnt => d.directRead c off cnt
  | .directWrite off cnt => d.directWrite c off cnt
  | .pagedRead off cnt => d.pagedRead c off cnt
  | .pagedWrite off cnt => d.pagedWrite c off cnt

/-- The beginning of a transfer (R111): nothing parsed, nothing answered. -/
def Dev.open (w : List Byte) (k : Nat) (d : Dev) : Dev := { d with rx := w, want := k, tx := [] }

/-- The end of a transfer (R111): a transfer that asks for bytes must have ended in the read that answers them. -/
def Dev.close (d : Dev) : Except Refusal Dev :=
  if d.tx.length = d.want then .ok { d with want := 0 } else .error .nothingToReceive

/-- The loop of R111. Every command word takes two bytes, so `w.length + 1` rounds reach the end. -/
def Dev.parse (c : Config) : Nat → Dev → Except Refusal Dev
  | 0, _ => .error (.undecodable .truncatedCommand)
  | n + 1, d =>
    match d.rx with
    | [] => d.close
    | [_] => .error (.undecodable .truncatedCommand)
    | b0 :: b1 :: t =>
      match Dev.execCmd c { d with rx := t } (decodeWire c.wire b0 b1) with
      | .ok d' => Dev.parse c n d'
      | .error e => .error e

/-- One whole transfer `BusXfer(w, k)` at the responder (R111): its answer is `n = 1` and `tx`. -/
def Dev.respond (c : Config) (w : List Byte) (k : Nat) (d : Dev) : Except Refusal Dev :=
  Dev.parse c (w.length + 1) (d.open w k)

end Sys2Proof.Machine
end

