-- ==== Sys2Proof/Machine/Flags.lean ====
section
/-! DEFINITION. The flags the block reads from the device, the status codes and the two spaces of response codes
(spec/10_state.md R22, spec/30_encoding.md R88 and R92, spec/44_flash_ops.md R191, R193, R198, R200). The block has no
condition codes of its own (R22). -/

namespace Sys2Proof.Machine

/-- The 4-bit code of a status: its place in the source's list (R92). -/
def Status.code : Status → BitVec 4
  | .notInit => 0
  | .internalErr => 1
  | .resourceErr => 2
  | .invalidArg => 3
  | .badHandle => 4
  | .badImage => 5
  | .flashFull => 6
  | .noFlashPresent => 7
  | .commandErr => 8
  | .incompatApp => 9
  | .invalidState => 10
  | .opIncomplete => 11
  | .success => 12

/-- The handshake flag, bit 0 of the word read from `REG_SWFLAGS`: a written command has not been taken (R22 (a),
R142). -/
def busyFlag (v : Word) : Bool := v[0]

/-- The running-app bit of the word read from `REG_CURFW` (R22 (b), R266). -/
def appRunning (c : Config) (v : Word) : Bool := v.getLsbD c.map.appBit.val

/-- The completion test of phase 3: the whole word is zero (R144). -/
def commandDone (v : Word) : Bool := v == 0#16

/-- The grammar status word is no longer the busy sentinel (R214). -/
def notGramBusy (c : Config) (v : Word) : Bool := v != c.gram.busy

/-- The host-command result space (R88, R200). -/
inductive HostResult where
  | success
  | badImage
  | flashFull
  | noFlash
  | incompatApp
  | other
  deriving DecidableEq, Repr

/-- The flash-init result space (R88, R200). -/
inductive FinitResult where
  | ok
  | noDevice
  | other
  deriving DecidableEq, Repr

/-- A value of `REG_RESULT` read in the host-command result space. -/
def hostResult (c : RespCodes) (v : Word) : HostResult :=
  if v = c.success then .success
  else if v = c.badImage then .badImage
  else if v = c.flashFull then .flashFull
  else if v = c.noFlash then .noFlash
  else if v = c.incompatApp then .incompatApp
  else .other

/-- A value of `REG_RESULT` read in the flash-init result space. -/
def finitResult (c : RespCodes) (v : Word) : FinitResult :=
  if v = c.finitOk then .ok
  else if v = c.finitNoDev then .noDevice
  else .other

/-- The mapping of "loading complete" (R174). -/
def loadStatus : HostResult → Status
  | .success => .success
  | .incompatApp => .incompatApp
  | .badImage | .flashFull | .noFlash | .other => .commandErr

/-- The mapping of flash-init (R191): success here means "continue". -/
def finitStatus : FinitResult → Status
  | .ok => .success
  | .noDevice => .noFlashPresent
  | .other => .internalErr

/-- The mapping of save-to-flash (R193). -/
def saveStatus : HostResult → Status
  | .success => .success
  | .flashFull => .flashFull
  | .badImage | .noFlash | .incompatApp | .other => .commandErr

/-- The mapping of erase (R198). -/
def eraseStatus : HostResult → Status
  | .success => .success
  | .badImage => .badImage
  | .incompatApp => .incompatApp
  | .noFlash => .noFlashPresent
  | .flashFull | .other => .commandErr

end Sys2Proof.Machine
end

