-- ==== Sys2Proof/Machine/Operands.lean ====
section
/-! DEFINITION. Operand forms: the address decoder, the count, the select value and the header FE builds
(spec/40_frame_encoder.md R100 to R109, spec/20_memory.md R40 and R46, spec/30_encoding.md R78), the image header's
fields (spec/30_encoding.md R82 and R83), the division of a body into chunks (R165, R216), the segment table's
registers (R210). -/

namespace Sys2Proof.Machine

/-- `page(A)` (R40, R101). -/
def pageOf (a : Addr) : Byte := a.extractLsb' 8 8

/-- `wordoff(A)`: bits 7:1, bit 0 dropped (R40, R57, R101). -/
def offOf (a : Addr) : BitVec 7 := a.extractLsb' 1 7

/-- An access size RA and FE accept: even, 2 to 256 (R58, R122). -/
def sizeOk (size : Nat) : Bool := decide (2 ≤ size) && decide (size ≤ 256) && decide (size % 2 = 0)

/-- The count field of a size: `size/2 - 1`, for an accepted size only (R102, R105). -/
def countOf (size : Nat) : Option (BitVec 7) :=
  if sizeOk size then some (BitVec.ofNat 7 (size / 2 - 1)) else none

/-- The select value of a page: `page - 1`, but 0xFF stays 0xFF (R46, R104). Page 0 is never selected and R46 defines no
value for it: that the function gives 0xFF there is the model's choice (DESIGN CHOICE, log entry 43). `header` asks for
the select value of no page 0. -/
def selectValue (page : Byte) : Byte := if page = 0xFF#8 then 0xFF#8 else page - 1

/-- The page a select value selects; 0xFE selects nothing (R78, R109). -/
def pageOfSelect (sel : Byte) : Option Byte :=
  if sel = 0xFE#8 then none else if sel = 0xFF#8 then some 0xFF#8 else some (sel + 1)

/-- The CommandHeader of an access whose count field is known (R100, R103): one word for page 0, two otherwise. -/
def header (c : WireCfg) (a : Addr) (rw : Dir) (cnt : BitVec 7) : List Byte :=
  if pageOf a = 0#8 then wordBytes c (accWord c true (offOf a) rw cnt)
  else wordBytes c (selWord c (selectValue (pageOf a))) ++ wordBytes c (accWord c false (offOf a) rw cnt)

/-- `HdrEncode` (R100): none on a malformed size (R105, U12). -/
def hdrEncode (c : WireCfg) (a : Addr) (rw : Dir) (size : Nat) : Option (List Byte) :=
  (countOf size).map (header c a rw)

/-- `FrameDecode` (R109): the address, direction and size a header stands for. -/
def frameDecode (c : WireCfg) : List Byte → Option (Addr × Dir × Nat)
  | [b0, b1] =>
    match decodeWire c b0 b1 with
    | .directRead off cnt => some (0#8 ++ off ++ 0#1, .read, (cnt.toNat + 1) * 2)
    | .directWrite off cnt => some (0#8 ++ off ++ 0#1, .write, (cnt.toNat + 1) * 2)
    | _ => none
  | [b0, b1, b2, b3] =>
    match decodeWire c b0 b1, decodeWire c b2 b3 with
    | .selectPage sel, .pagedRead off cnt =>
      (pageOfSelect sel).map fun page => (page ++ off ++ 0#1, .read, (cnt.toNat + 1) * 2)
    | .selectPage sel, .pagedWrite off cnt =>
      (pageOfSelect sel).map fun page => (page ++ off ++ 0#1, .write, (cnt.toNat + 1) * 2)
    | _, _ => none
  | _ => none

/-- x[SIZE] of a payload: its length, 16 bits; a free value where the length does not fit (R14, log entry 20). -/
def sizeReg (len : Nat) : BitVec 16 := if len < 65536 then BitVec.ofNat 16 len else Config.longSize len

/-! The image header. -/

/-- The fields of an ImageHeader (R82). -/
structure ImgHeader where
  major : BitVec 4
  minor : BitVec 4
  type : Byte
  endian : BitVec 1
  code : BitVec 16
  blkWords : BitVec 16
  total : BitVec 32
  rsvd : BitVec 16
  deriving DecidableEq, Repr

/-- `IMG_HDR_LEN` (R4, R82). -/
def imgHdrLen : Nat := 12

/-- The header parse (R83, R162): it cannot fail on 12 bytes. -/
def parseHeader (c : ImgCfg) (h : List Byte) : ImgHeader :=
  let b := fun i => h.getD i 0#8
  let hi := (b 0).extractLsb' 4 4
  let lo := (b 0).extractLsb' 0 4
  { major := if c.majorHigh then hi else lo
    minor := if c.majorHigh then lo else hi
    type := ((b 1) >>> c.typeLo.val) &&& BitVec.ofNat 8 (2 ^ c.typeWidth.val - 1)
    endian := BitVec.ofBool ((b 1).getLsbD c.endianBit.val)
    code := val16 c.order (b 2) (b 3)
    blkWords := val16 c.order (b 4) (b 5)
    total := val32 c.order (b 6) (b 7) (b 8) (b 9)
    rsvd := val16 c.order (b 10) (b 11) }

/-- `x[BLKSIZE] = x[IH_BLKWORDS] * 2` in 17 bits: it never wraps (R19, R163). -/
def blockBytes (words : BitVec 16) : BitVec 17 := words ++ 0#1

/-- The image's type is one of the two that have a streaming rule (R164). -/
def typeKnown (c : ImgCfg) (h : ImgHeader) : Bool := h.type == c.fw || h.type == c.cfg

/-- R179: every check of LOAD_IMAGE passes, and the block size is 0 with a body to send. -/
def zeroBlockImage (c : Config) (image : List Byte) : Bool :=
  let h := parseHeader c.img image
  decide (imgHdrLen ≤ image.length) && decide ((blockBytes h.blkWords).toNat ≤ c.bufCap) && typeKnown c.img h &&
    decide (imgHdrLen + h.total.toNat ≤ image.length) && h.blkWords == 0#16 && h.total != 0#32

/-- The bytes in pieces of `m`, the last one shorter where `m` does not divide (R166, R216). -/
def chunksGo (m : Nat) : Nat → List Byte → List (List Byte)
  | 0, _ => []
  | n + 1, s => if s = [] then [] else s.take m :: chunksGo m n (s.drop m)

/-- The chunks in ascending order of position (R165). -/
def chunksOf (m : Nat) (s : List Byte) : List (List Byte) := chunksGo m s.length s

/-- The body of an image: `IH_TOTAL` bytes after the header; bytes beyond are ignored (R85, R161). -/
def imageBody (h : ImgHeader) (image : List Byte) : List Byte := (image.drop imgHdrLen).take h.total.toNat

/-! The segment table's registers. -/

/-- `SegAddrReg(i)` (R210). -/
def segAddrReg (g : GramCfg) (i : Nat) : Addr :=
  match g.segTable[i]? with
  | some e => e.1
  | none => Config.freeSegAddr i

/-- `SegSizeReg(i)` (R210). -/
def segSizeReg (g : GramCfg) (i : Nat) : Addr :=
  match g.segTable[i]? with
  | some e => e.2
  | none => Config.freeSegSize i

end Sys2Proof.Machine
end

