-- ==== Sys2Proof/Machine/Ops.lean ====
section
/-! DEFINITION. The named operations every sequence is made of: register writes, the two bus primitives
(spec/00_scope.md R6), raising a status and delivering the response (spec/60_exceptions.md R256 to R258), accepting a
request (spec/10_state.md R22, R29), reset (spec/70_reset_and_hazards.md R280, R281). -/

namespace Sys2Proof.Machine

/-! Writes of the sequencing registers. Each is recorded in `moves` (log entry 1). -/

/-- `RA_STATE <- st`. -/
def State.setRa (s : State) (st : RaState) : State :=
  { s with seq := { s.seq with ra := st }, moves := s.moves ++ [.ra st] }

/-- `HC_STATE <- st`. -/
def State.setHc (s : State) (st : HcState) : State :=
  { s with seq := { s.seq with hc := st }, moves := s.moves ++ [.hc st] }

/-- `BM_STATE <- st`. -/
def State.setBm (s : State) (st : BmState) : State :=
  { s with seq := { s.seq with bm := st }, moves := s.moves ++ [.bm st] }

/-- `IT_STATE <- st`. -/
def State.setIt (s : State) (st : ItState) : State :=
  { s with seq := { s.seq with it := st }, moves := s.moves ++ [.it st] }

/-- `FL_STATE <- st`. -/
def State.setFl (s : State) (st : FlState) : State :=
  { s with seq := { s.seq with fl := st }, moves := s.moves ++ [.fl st] }

/-- `GL_STATE <- st`. -/
def State.setGl (s : State) (st : GlState) : State :=
  { s with seq := { s.seq with gl := st }, moves := s.moves ++ [.gl st] }

/-! Writes of the holding registers. -/

/-- x[ADDR], x[SIZE] and x[RW], written together when RA starts an access (R13 to R15). -/
def State.setAccess (s : State) (a : Addr) (size : BitVec 16) (rw : Dir) : State :=
  { s with x := { s.x with addr := a, size := size, rw := rw } }

/-- x[HDR] and x[HDRLEN] (R16, R100). R100 assigns the two bytes of a direct header to the four bytes of x[HDR] and
does not say what the last two hold then: that they stay as they were is the model's choice (DESIGN CHOICE, log entry
40). No rule reads them (x[HDR] is read up to x[HDRLEN]). -/
def State.setHdr (s : State) (h : List Byte) : State :=
  { s with x := { s.x with hdr := h ++ s.x.hdr.drop h.length, hdrLen := BitVec.ofNat 3 h.length } }

/-- `x[BUF][0 .. m) <- bs` and `x[BUFLEN] <- m` (R17). -/
def State.setBuf (s : State) (bs : List Byte) : State :=
  { s with x := { s.x with buf := bs ++ s.x.buf.drop bs.length, bufLen := bs.length } }

/-- x[CMDOP] (R18). -/
def State.setCmdOp (s : State) (v : Word) : State := { s with x := { s.x with cmdOp := v } }

/-- x[VAL] (R18). -/
def State.setVal (s : State) (v : Word) : State := { s with x := { s.x with val := v } }

/-- x[POLLCNT] (R18, R268). -/
def State.setPollCnt (s : State) (n : Nat) : State := { s with x := { s.x with pollCnt := n } }

/-- The image registers of a parsed header (R19, R162). -/
def State.setImage (s : State) (h : ImgHeader) : State :=
  { s with x := { s.x with
      ihMajor := h.major, ihMinor := h.minor, ihType := h.type, ihEndian := h.endian, ihCode := h.code,
      ihBlkWords := h.blkWords, ihTotal := h.total, ihRsvd := h.rsvd } }

/-- x[BLKSIZE] (R19). -/
def State.setBlkSize (s : State) (v : BitVec 17) : State := { s with x := { s.x with blkSize := v } }

/-- The image cursor (R20). -/
def State.setCursor (s : State) (pos : BitVec 33) (rem : BitVec 32) : State :=
  { s with x := { s.x with imgPos := pos, imgRem := rem } }

/-- The raw response latch (R258). -/
def State.latch (s : State) (v : Word) : State := { s with x := { s.x with rawResp := v, rawValid := true } }

/-- `x[RAW_VALID] <- 0` (R160, R190, R195). -/
def State.clearRaw (s : State) : State := { s with x := { s.x with rawValid := false } }

/-- x[FLASH_CNT] and count_valid (R194). -/
def State.setCount (s : State) (v : BitVec 16) : State :=
  { s with x := { s.x with flashCnt := v, countValid := true } }

/-- `count_valid <- 0` (R190). -/
def State.clearCount (s : State) : State := { s with x := { s.x with countValid := false } }

/-! A sequence: it runs over the state, and may be cut short. -/

/-- Why a sequence stops before its end. -/
inductive Abort where
  /-- A status other than SUCCESS was raised (R256). -/
  | raised (st : Status)
  /-- A bus primitive never returns (R309). -/
  | hung
  /-- Reset was asserted between two bus primitives (R281). -/
  | cut
  deriving DecidableEq, Repr

/-- A sequence of the block, in the order of its pseudocode. The state reached is kept however it stops: nothing is
undone (R256). -/
abbrev M := EStateM Abort State

/-- `raise S` (R6, R256). -/
def raise {α : Type} (st : Status) : M α := throw (.raised st)

/-- `if c then raise S`. -/
def raiseIf (c : Bool) (st : Status) : M Unit := if c then raise st else pure ()

/-- Goes on where a result maps to SUCCESS, and raises the status it maps to otherwise (R174, R191, R193, R198). -/
def continueIfSuccess (st : Status) : M Unit := raiseIf (decide (st ≠ .success)) st

/-- The configuration (R23: constant). -/
def config : M Config := do return (← get).cfg

/-- One register write. -/
def update (f : State → State) : M Unit := modify f

/-! The bus primitives. -/

/-- The bytes of a transfer that nothing else answers: free values (R10, U7). -/
def freeBytes (i k : Nat) : List Byte := (List.range k).map (Config.busByte i)

/-- The received bytes have the length asked for (R6): an answer laid down too long is cut, one too short is followed by
free bytes (log entry 6). -/
def fitAnswer (i k : Nat) (r : List Byte) : List Byte := (r ++ freeBytes i k).take k

/-- What the environment answers to a transfer: `n`, the received bytes, and its own side afterwards. None where the
transfer never returns: the environment says so, or the reference responder refuses, which "gives no answer" (R119, log
entry 12). An answer laid down leaves the responder as it was, whatever `n` it reports: whether a device executed a
transfer that reported `n < 1` is open (R124, U5), and that the responder then has not is the model's choice (DESIGN
CHOICE, log entry 37). A transfer that never returns leaves the responder as it was too, also where command words stand
before the one it refuses: whether those took effect is outside the spec (R119), the model's choice (DESIGN CHOICE, log
entry 41). -/
def busReply (c : Config) (e : Env) (d : Dev) (w : List Byte) (k : Nat) : Option (Nat × List Byte × Env × Dev) :=
  match e.script with
  | .never :: _ => none
  | .done n r :: rest => some (n, fitAnswer e.answered k r, { e with script := rest }, d)
  | [] =>
    match e.device with
    | .unconstrained => some (Config.busUnits e.answered, freeBytes e.answered k, e, d)
    | .responder =>
      match Dev.respond c w k d with
      | .ok d' => some (1, d'.tx, e, d')
      | .error _ => none

/-- One more step of the block (R7: a bus primitive or the terminal transition) went by before the reset that is to
come. -/
def Env.tick (e : Env) : Env := { e with resetIn := e.resetIn.map (· - 1) }

/-- Records a finished transfer (R24). -/
def State.logXfer (s : State) (w : List Byte) (k n : Nat) (r : List Byte) : State :=
  { s with
    history := s.history ++ [.xfer w k n r]
    moves := s.moves ++ [.prim]
    env := { s.env.tick with answered := s.env.answered + 1 } }

/-- Records a finished delay (R24). -/
def State.logDelay (s : State) (ms : Nat) : State :=
  { s with history := s.history ++ [.delay ms], moves := s.moves ++ [.prim], env := s.env.tick }

/-- The word that the next bus primitive never returns is about that primitive alone. -/
def dropNever : List BusAnswer → List BusAnswer
  | .never :: rest => rest
  | script => script

/-- The block waits in a bus primitive. The responder's page-select register, memory and continuation address stay as
they were before it: what a transfer that never returned has done to them is open (R119, U10; DESIGN CHOICE, log entry
41). -/
def State.hang (s : State) (p : Prim) : State :=
  { s with env := { s.env with script := dropNever s.env.script, inFlight := some p } }

/-- `BusXfer(w, k) -> (n, r)` (R6): blocking. Reset may come before it, never inside it (R281, U10). -/
def busXfer (w : List Byte) (k : Nat) : M (Nat × List Byte) := fun s =>
  if s.env.resetIn = some 0 then .error .cut s
  else
    match busReply s.cfg s.env s.dev w k with
    | none => .error .hung (s.hang (.xfer w k))
    | some (n, r, e, d) => .ok (n, r) ({ s with env := e, dev := d }.logXfer w k n r)

/-- `Delay(ms)` (R6): changes no state of the block; it may never return either (R309). -/
def delay (ms : Nat) : M Unit := fun s =>
  if s.env.resetIn = some 0 then .error .cut s
  else if s.env.script.head? = some .never then .error .hung (s.hang (.delay ms))
  else .ok () (s.logDelay ms)

/-! Accepting a request, failing, answering. -/

/-- A request is accepted (R22, R29): busy, its operation code held, the one-bit latches cleared, no response pending. -/
def State.accept (s : State) (op : BitVec 4) : State :=
  { s with
    x := { s.x with rawValid := false, countValid := false }
    seq := { s.seq with busy := true, curOp := op }
    rsp := none }

/-- What a request answers beside its status (R12). -/
structure Payload where
  hdr : List Byte
  data : List Byte
  deriving DecidableEq, Repr

/-- Nothing beside the status. -/
def Payload.none : Payload := { hdr := [], data := [] }

/-- The response is delivered (R12, R29, R258): the status and the raw latch as they stand, the count where it was read
back. -/
def State.respond (s : State) (st : Status) (p : Payload) : State :=
  { s with
    x := { s.x with status := st }
    seq := { s.seq with busy := false }
    rsp := some {
      status := st, rawValid := s.x.rawValid, rawResp := s.x.rawResp, hdr := p.hdr, data := p.data,
      count := if st = .success ∧ s.x.countValid then some s.x.flashCnt else Option.none } }

/-- State after a raise (R257): every unit idle; IT Failed where the request is one that drives IT_STATE. There is no
return from it (R263): the next request starts over. -/
def State.abort (s : State) (drivesIt : Bool) : State :=
  let t := { s with
    seq := { s.seq with ra := .idle, hc := .idle, bm := .idle, fl := .idle, gl := .idle }
    moves := s.moves ++ [.aborted] }
  if drivesIt then t.setIt .failed else t

/-- Reset of the block (R28, R280 to R282): not busy, every unit idle, no response, the holding registers as
`Holding.reset` names them (log entry 14). The device, the record and what is presented stay; no bus primitive is
issued. -/
def State.resetBlock (s : State) : State :=
  { s with
    x := Holding.reset s.cfg.bufCap
    seq := Seq.reset
    rsp := none
    env := { s.env with resetIn := none, inFlight := none } }

/-- Reset asserted between two steps. A transfer it cuts is recorded with a free outcome (R281, U10), and has done
nothing to the responder's page-select register, memory and continuation address, which is the model's choice (DESIGN
CHOICE, log entry 15). -/
def State.assertReset (s : State) : State :=
  match s.env.inFlight with
  | some (.xfer w k) =>
    (s.logXfer w k (Config.busUnits s.env.answered) (freeBytes s.env.answered k)).resetBlock
  | some (.delay ms) => (s.logDelay ms).resetBlock
  | Option.none => s.resetBlock

/-- The terminal transition is a step of the block like a bus primitive (R7): where reset comes first, the request is
abandoned without it (R281). -/
def State.terminal (s : State) (f : State → State) : State :=
  if s.env.resetIn = some 0 then s.resetBlock else f { s with env := s.env.tick }

/-- How an accepted request ends (R256 to R258, R281, R309). -/
def settle (drivesIt : Bool) : EStateM.Result Abort State Payload → State
  | .ok p s => s.terminal (·.respond .success p)
  | .error (.raised st) s => s.terminal fun t => (t.abort drivesIt).respond st Payload.none
  | .error .hung s => s
  | .error .cut s => s.resetBlock

/-- One accepted request, from acceptance to response. -/
def runRequest (op : BitVec 4) (drivesIt : Bool) (m : M Payload) (s : State) : Host.Outcome State Fault Refusal :=
  .next (settle drivesIt (m.run (s.accept op)))

/-- HC takes a host command word presented on its own (log entry 16): busy meanwhile. -/
def State.acceptWord (s : State) : State := { s with seq := { s.seq with busy := true } }

/-- The status of a host command word presented on its own is latched in x[STATUS]; there is no request to respond to
(log entry 16). -/
def State.settleStatus (s : State) (st : Status) : State :=
  { s with x := { s.x with status := st }, seq := { s.seq with busy := false } }

/-- How a host command word presented on its own ends (log entry 16; R281, R309). -/
def settleWord {α : Type} : EStateM.Result Abort State α → State
  | .ok _ s => s.terminal (·.settleStatus .success)
  | .error (.raised st) s => s.terminal fun t => (t.abort false).settleStatus st
  | .error .hung s => s
  | .error .cut s => s.resetBlock

/-- One host command word presented on its own. -/
def runWord (m : M Unit) (s : State) : Host.Outcome State Fault Refusal := .next (settleWord (m.run s.acceptWord))

/-- One command word of a transfer at the reference responder. -/
def runWire (r : Except Refusal Dev) (s : State) : Host.Outcome State Fault Refusal :=
  match r with
  | .ok d => .next { s with dev := d }
  | .error e => .refused e

end Sys2Proof.Machine
end

