-- ==== Sys2Proof/Machine/FrameEncoder.lean ====
section
/-! DEFINITION. FrameEncoder as a unit: HDR_ENCODE (spec/40_frame_encoder.md R100 to R108). -/

namespace Sys2Proof.Machine

/-- FE builds the header of an access whose size has been accepted: it writes x[HDR] and x[HDRLEN] and nothing else
(R100, R106). -/
def buildHeader (a : Addr) (rw : Dir) (cnt : BitVec 7) : M Unit := do
  let c ← config
  update (·.setHdr (header c.wire a rw cnt))

/-- The bytes x[HDR][0 .. x[HDRLEN]). -/
def State.hdrBytes (s : State) : List Byte := s.x.hdr.take s.x.hdrLen.toNat

/-- The sequence of HDR_ENCODE: a malformed size is INVALID_ARG with no header (R105). -/
def hdrEncodeSeq (a : Addr) (rw : Dir) (size : BitVec 16) : M Payload := do
  match countOf size.toNat with
  | none => raise .invalidArg
  | some cnt =>
    buildHeader a rw cnt
    return { hdr := (← get).hdrBytes, data := [] }

/-- HDR_ENCODE (R100). -/
def execHdrEncode (a : Addr) (rw : Dir) (size : BitVec 16) (s : State) : Host.Outcome State Fault Refusal :=
  runRequest 0x0 false (hdrEncodeSeq a rw size) s

end Sys2Proof.Machine
end

