-- ==== Sys2Proof/Machine/RegisterAccess.lean ====
section
/-! DEFINITION. RegisterAccess: REG_WRITE, REG_READ, RAW_WRITE and the internal accesses of 16 and 32 bits
(spec/41_register_access.md R120 to R133, spec/45_grammar_loader.md R212). -/

namespace Sys2Proof.Machine

/-- `RegWrite` (R121): check, conversion, header, one transfer. -/
def regWrite (a : Addr) (data : List Byte) : M Unit := do
  update (·.setRa .check)
  update (·.setAccess a (sizeReg data.length) .write)
  match countOf data.length with
  | none => raise .invalidArg
  | some cnt =>
    let c ← config
    update (·.setRa .toDev)
    update (·.setBuf (toDev c data))
    update (·.setRa .header)
    buildHeader a .write cnt
    update (·.setRa .xfer)
    let s ← get
    let (n, _) ← busXfer (s.hdrBytes ++ s.x.buf.take data.length) 0
    raiseIf (decide (n < 1)) .internalErr
    update (·.setRa .idle)

/-- `RegRead` (R125): check, header, one transfer, conversion. -/
def regRead (a : Addr) (size : Nat) : M (List Byte) := do
  update (·.setRa .check)
  update (·.setAccess a (sizeReg size) .read)
  match countOf size with
  | none => raise .invalidArg
  | some cnt =>
    let c ← config
    update (·.setRa .header)
    buildHeader a .read cnt
    update (·.setRa .xfer)
    let (n, r) ← busXfer (← get).hdrBytes size
    raiseIf (decide (n < 1)) .internalErr
    update (·.setBuf r)
    update (·.setRa .toHost)
    let out := toHost c ((← get).x.buf.take size)
    update (·.setRa .idle)
    return out

/-- `RawWrite` (R127): one transfer of the bytes as they stand. -/
def rawWrite (data : List Byte) : M Unit := do
  update (·.setRa .check)
  let c ← config
  raiseIf (decide (data.length = 0) || decide (c.bufCap < data.length)) .invalidArg
  update (·.setBuf data)
  update (·.setRa .xfer)
  let s ← get
  let (n, _) ← busXfer (s.x.buf.take s.x.bufLen) 0
  raiseIf (decide (n < 1)) .internalErr
  update (·.setRa .idle)

/-- `RegWrite16` (R128). -/
def regWrite16 (a : Addr) (v : Word) : M Unit := do
  let c ← config
  regWrite a (bytes16 c.hostEndian v)

/-- `RegRead16` (R129): the value also goes to x[VAL]. -/
def regRead16 (a : Addr) : M Word := do
  let c ← config
  let out ← regRead a 2
  let v := val16At c.hostEndian out
  update (·.setVal v)
  return v

/-- `RegWrite32` (R212): the host bytes are those whose wire image is the value in device order. -/
def regWrite32 (a : Addr) (v : DWord) : M Unit := do
  let c ← config
  regWrite a (toHost c (bytes32 c.devEndian v))

/-- `RegRead32` (R212). -/
def regRead32 (a : Addr) : M DWord := do
  let c ← config
  let out ← regRead a 4
  return val32At c.devEndian (toDev c out)

/-- The sequence of REG_READ: the bytes read are the response's data. -/
def regReadSeq (a : Addr) (size : BitVec 16) : M Payload := do
  let out ← regRead a size.toNat
  return { hdr := [], data := out }

/-- The sequence of REG_WRITE. -/
def regWriteSeq (a : Addr) (data : List Byte) : M Payload := do
  regWrite a data
  return Payload.none

/-- The sequence of RAW_WRITE. -/
def rawWriteSeq (data : List Byte) : M Payload := do
  rawWrite data
  return Payload.none

/-- REG_WRITE (R121). -/
def execRegWrite (a : Addr) (data : List Byte) (s : State) : Host.Outcome State Fault Refusal :=
  runRequest 0x1 false (regWriteSeq a data) s

/-- REG_READ (R125). -/
def execRegRead (a : Addr) (size : BitVec 16) (s : State) : Host.Outcome State Fault Refusal :=
  runRequest 0x2 false (regReadSeq a size) s

/-- RAW_WRITE (R127). -/
def execRawWrite (data : List Byte) (s : State) : Host.Outcome State Fault Refusal :=
  runRequest 0x3 false (rawWriteSeq data) s

end Sys2Proof.Machine
end

