-- ==== Sys2Proof/Machine/HostCommand.lean ====
section
/-! DEFINITION. HostCommandProtocol: the handshake wait-idle, write and notify, wait-complete (spec/42_host_command.md
R140 to R152), and the poll phase it shares with the grammar loader (spec/45_grammar_loader.md R214). -/

namespace Sys2Proof.Machine

/-- One read of a poll phase: a delay before every read but the first, then the read, then the count (R141, R146). -/
def pollRead (a : Addr) : M Word := do
  let s ← get
  if 0 < s.x.pollCnt then delay s.cfg.pollDelayMs
  let v ← regRead16 a
  update fun t => t.setPollCnt (t.x.pollCnt + 1)
  return v

/-- The reads of a poll phase after which `left` more are allowed: it ends on the first value that passes, and raises
RESOURCE_ERR after the last read that does not (R145). -/
def pollLoop (a : Addr) (pass : Word → Bool) : Nat → M Unit
  | 0 => do
    let v ← pollRead a
    if pass v then pure () else raise .resourceErr
  | left + 1 => do
    let v ← pollRead a
    if pass v then pure () else pollLoop a pass left

/-- One poll phase: at most `POLL_BOUND` reads (R140, R145; the bound is at least 1, R5). -/
def pollPhase (a : Addr) (pass : Word → Bool) : M Unit := do
  let c ← config
  update (·.setPollCnt 0)
  pollLoop a pass (c.pollBound - 1)

/-- `RunCommand` (R141). -/
def runCommand (cmd : Word) : M Unit := do
  let c ← config
  update (·.setCmdOp cmd)
  update (·.setHc .waitIdle)
  pollPhase c.map.swFlags fun v => !busyFlag v
  update (·.setHc .writeCmd)
  regWrite16 c.map.cmd cmd
  update (·.setHc .notify)
  regWrite16 c.map.swFlags 0x0001#16
  update (·.setHc .waitDone)
  pollPhase c.map.done commandDone
  update (·.setHc .idle)

/-- The read of `REG_RESULT` for a result mapping, latched whatever it maps to (R173, R191, R258). -/
def readResult : M Word := do
  let c ← config
  let v ← regRead16 c.map.result
  update (·.latch v)
  return v

/-- The sequence of RUN_CMD: no response code is read (R151). -/
def runCmdSeq (cmd : Word) : M Payload := do
  runCommand cmd
  return Payload.none

/-- RUN_CMD (R141). -/
def execRunCmd (cmd : Word) (s : State) : Host.Outcome State Fault Refusal :=
  runRequest 0x4 false (runCmdSeq cmd) s

end Sys2Proof.Machine
end

