-- ==== Sys2Proof/Machine/ImageTransport.lean ====
section
/-! DEFINITION. ImageTransport: the boot-mode transition controller and the chunked image load
(spec/43_image_transport.md R160 to R179). -/

namespace Sys2Proof.Machine

/-- `BootSwitch` (R170): the running-app bit is read afresh at every invocation (R172). -/
def bootSwitch : M Unit := do
  let c ← config
  update (·.setBm .readFw)
  let v ← regRead16 c.map.curFw
  if appRunning c v then
    update (·.setBm .reset)
    regWrite16 c.map.rstBoot 0x0001#16
    update (·.setBm .delay)
    delay c.bootDelayMs
    update (·.setBm .verify)
    let m ← regRead16 c.map.bootVerify
    raiseIf (decide (m ≠ c.map.bootMagic)) .internalErr
  update (·.setBm .idle)

/-- One chunk (R166 to R168): copied to the buffer, the boot-mode check for firmware, one raw write of the chunk, then
the cursor advances. R160's pseudocode sends x[BUF] after BootSwitch, whose reads have overwritten x[BUF] and
x[BUFLEN] (R125); R166, R167 and the vectors want the chunk sent. That the raw write takes the chunk into x[BUF] again
is the model's choice (DESIGN CHOICE, log entry 38). -/
def sendChunk (fw : Bool) (chunk : List Byte) : M Unit := do
  update (·.setBuf chunk)
  if fw then bootSwitch
  rawWrite chunk
  update fun s => s.setCursor (s.x.imgPos + BitVec.ofNat 33 chunk.length) (s.x.imgRem - BitVec.ofNat 32 chunk.length)

/-- The streaming loop over the chunks of the body (R165). -/
def sendChunks (fw : Bool) : List (List Byte) → M Unit
  | [] => pure ()
  | chunk :: rest => do
    sendChunk fw chunk
    sendChunks fw rest

/-- Concluding (R173, R174), firmware only. -/
def concludeLoad : M Unit := do
  let c ← config
  update (·.setIt .concluding)
  runCommand c.cmds.loadComplete
  let v ← readResult
  continueIfSuccess (loadStatus (hostResult c.resp v))

/-- `LoadImage` (R160). The zero block size of R179 is refused before (`execLoadImage`). -/
def loadImage (image : List Byte) : M Payload := do
  update (·.setIt .idle)
  update (·.clearRaw)
  raiseIf (decide (image.length < imgHdrLen)) .invalidArg
  let c ← config
  let h := parseHeader c.img image
  update (·.setImage h)
  update (·.setIt .headerParsed)
  update (·.setBlkSize (blockBytes h.blkWords))
  raiseIf (decide (c.bufCap < (blockBytes h.blkWords).toNat)) .resourceErr
  raiseIf (!typeKnown c.img h) .invalidArg
  raiseIf (decide (image.length < imgHdrLen + h.total.toNat)) .invalidArg
  update (·.setCursor (BitVec.ofNat 33 imgHdrLen) h.total)
  update (·.setIt .streaming)
  let fw := h.type == c.img.fw
  sendChunks fw (chunksOf (blockBytes h.blkWords).toNat (imageBody h image))
  if fw then concludeLoad
  update (·.setIt .done)
  return Payload.none

/-- The sequence of BOOT_SWITCH. -/
def bootSwitchSeq : M Payload := do
  bootSwitch
  return Payload.none

/-- BOOT_SWITCH (R170). -/
def execBootSwitch (s : State) : Host.Outcome State Fault Refusal :=
  runRequest 0x5 false bootSwitchSeq s

/-- LOAD_IMAGE (R160); a block size of 0 with a body to send has no behaviour (R179, U9). -/
def execLoadImage (image : List Byte) (s : State) : Host.Outcome State Fault Refusal :=
  if zeroBlockImage s.cfg image then .refused .zeroBlockSize
  else runRequest 0x6 true (loadImage image) s

end Sys2Proof.Machine
end

