-- ==== Sys2Proof/Machine/Flash.lean ====
section
/-! DEFINITION. The flash sequences FLASH_SAVE and FLASH_ERASE (spec/44_flash_ops.md R190 to R200). -/

namespace Sys2Proof.Machine

/-- Flash-init and its result mapping, the same for both sequences (R190, R191, R195). -/
def flashInit : M Unit := do
  let c ← config
  update (·.setFl .init)
  runCommand c.cmds.flashInit
  update (·.setFl .initResult)
  let v ← readResult
  continueIfSuccess (finitStatus (finitResult c.resp v))

/-- The image-count readback (R194). -/
def readCount : M Unit := do
  let c ← config
  update (·.setFl .count)
  let v ← regRead16 c.map.flashCount
  update (·.setCount v)

/-- `FlashSave` (R190). -/
def flashSave (wantCount : Bool) : M Payload := do
  let c ← config
  update (·.setIt .concluding)
  update (·.clearRaw)
  update (·.clearCount)
  update (·.setFl .boot)
  bootSwitch
  flashInit
  update (·.setFl .prep)
  regWrite c.map.chksum (List.replicate c.map.chksumBytes 0#8)
  update (·.setFl .cmd)
  runCommand c.cmds.save
  update (·.setFl .result)
  let v ← readResult
  continueIfSuccess (saveStatus (hostResult c.resp v))
  if wantCount then readCount
  update (·.setFl .idle)
  update (·.setIt .done)
  return Payload.none

/-- `FlashErase` (R195): the running-app bit is read before BOOT_SWITCH is invoked (R196). -/
def flashErase : M Payload := do
  let c ← config
  update (·.setIt .concluding)
  update (·.clearRaw)
  update (·.setFl .boot)
  let f ← regRead16 c.map.curFw
  if appRunning c f then bootSwitch
  flashInit
  update (·.setFl .prep)
  regWrite16 c.map.result c.map.eraseMagic
  update (·.setFl .cmd)
  runCommand c.cmds.erase
  update (·.setFl .result)
  let v ← readResult
  continueIfSuccess (eraseStatus (hostResult c.resp v))
  update (·.setFl .idle)
  update (·.setIt .done)
  return Payload.none

/-- FLASH_SAVE (R190). -/
def execFlashSave (wantCount : Bool) (s : State) : Host.Outcome State Fault Refusal :=
  runRequest 0x7 true (flashSave wantCount) s

/-- FLASH_ERASE (R195). -/
def execFlashErase (s : State) : Host.Outcome State Fault Refusal :=
  runRequest 0x8 true flashErase s

end Sys2Proof.Machine
end

