-- ==== Sys2Proof/Machine/Grammar.lean ====
section
/-! DEFINITION. GrammarSegmentLoader, the optional unit (spec/45_grammar_loader.md R210 to R219), and the reserved
operation codes of the request port (spec/30_encoding.md R90, spec/60_exceptions.md R251 (f)). -/

namespace Sys2Proof.Machine

/-- `WaitNotBusy` (R214). -/
def waitNotBusy : M Unit := do
  let c ← config
  pollPhase c.gram.status (notGramBusy c)

/-- `ExtWrite` (R215): the window's base, then a paged write on page 0xFF. -/
def extWrite (a : DWord) (bytes : List Byte) : M Unit := do
  let c ← config
  regWrite32 c.gram.extAddr (a &&& 0xFFFFFF00#32)
  regWrite (0xFF#8 ++ a.extractLsb' 0 8) bytes

/-- The blocks of the blob in ascending order (R216). -/
def sendBlocks (a : DWord) : List (List Byte) → M Unit
  | [] => pure ()
  | block :: rest => do
    extWrite a block
    sendBlocks (a + BitVec.ofNat 32 block.length) rest

/-- The segment table's entry `i` is written whole and the count raised (R217). The count is a 16-bit register: one past
0xFFFF is written as 0 (log entry 26). -/
def appendSegment (cnt : Word) (start len : DWord) : M Unit := do
  let c ← config
  regWrite32 (segAddrReg c.gram cnt.toNat) start
  regWrite32 (segSizeReg c.gram cnt.toNat) len
  regWrite16 c.gram.segCount (cnt + 1)

/-- The segment table update (R217). -/
def updateTable (start len : DWord) : M Unit := do
  let c ← config
  let cnt ← regRead16 c.gram.segCount
  if cnt = 0 then appendSegment cnt start len
  else
    let last ← regRead32 (segAddrReg c.gram (cnt.toNat - 1))
    if last = start then regWrite32 (segSizeReg c.gram (cnt.toNat - 1)) len
    else appendSegment cnt start len

/-- The capacity check (R213): the blob fits in `max - start - 1` bytes, without a wrap. -/
def capacityOk (start max : DWord) (len : Nat) : Bool :=
  decide (start.toNat + 1 ≤ max.toNat) && decide (len ≤ max.toNat - start.toNat - 1)

/-- `GrammarLoad` (R211). R150 and R64 want a command's response read before the next command; R211 runs
CMD_GRAM_DISABLE and then CMD_GRAM_ENABLE with no read of `REG_RESULT`. That the model follows R211's pseudocode is its
choice (DESIGN CHOICE, log entry 42). -/
def grammarLoad (blob : List Byte) : M Payload := do
  let c ← config
  update (·.setGl .capacity)
  let start ← regRead32 c.gram.segStart
  let max ← regRead32 c.gram.segMax
  raiseIf (!capacityOk start max blob.length) .resourceErr
  update (·.setGl .disable)
  runCommand c.cmds.gramDisable
  update (·.setGl .wait1)
  waitNotBusy
  update (·.setGl .stream)
  sendBlocks start (chunksOf c.gram.block blob)
  update (·.setGl .table)
  updateTable start (BitVec.ofNat 32 blob.length)
  update (·.setGl .enable)
  runCommand c.cmds.gramEnable
  update (·.setGl .wait2)
  waitNotBusy
  update (·.setGl .idle)
  return Payload.none

/-- A reserved operation code: INVALID_ARG, no bus activity (R90, R251 (f)). -/
def reservedSeq : M Payload := raise .invalidArg

/-- GRAMMAR_LOAD (R211); a reserved code where the unit is absent (R90, R210). -/
def execGrammarLoad (blob : List Byte) (s : State) : Host.Outcome State Fault Refusal :=
  runRequest 0x9 false (if s.cfg.hasGrammar then grammarLoad blob else reservedSeq) s

/-- REQ_RESERVED (R90, R251 (f)). -/
def execReqReserved (op : BitVec 4) (s : State) : Host.Outcome State Fault Refusal :=
  runRequest op false reservedSeq s

end Sys2Proof.Machine
end

