-- ==== Sys2Proof/Machine/HostWords.lean ====
section
/-! DEFINITION. The six host command words of the opcode table, each presented on its own: the handshake with that word
and what the spec says follows it (spec/43_image_transport.md R173 and R174, spec/44_flash_ops.md R191, R193, R198,
spec/45_grammar_loader.md R214 and R218; log entry 16). What the device does with the word is not in the spec. -/

namespace Sys2Proof.Machine

/-- The handshake with a word, the read of its response, and the status it maps to. -/
def commandAndResult (cmd : Word) (toStatus : Word → Status) : M Unit := do
  runCommand cmd
  let v ← readResult
  continueIfSuccess (toStatus v)

/-- The handshake with a grammar word, then the wait until the subsystem is no longer busy (R214, R218). -/
def commandAndWait (cmd : Word) : M Unit := do
  runCommand cmd
  waitNotBusy

/-- CMD_LOAD_COMPLETE (R173, R174). -/
def execCmdLoadComplete (s : State) : Host.Outcome State Fault Refusal :=
  runWord (commandAndResult s.cfg.cmds.loadComplete fun v => loadStatus (hostResult s.cfg.resp v)) s

/-- CMD_FLASH_INIT (R190, R191). -/
def execCmdFlashInit (s : State) : Host.Outcome State Fault Refusal :=
  runWord (commandAndResult s.cfg.cmds.flashInit fun v => finitStatus (finitResult s.cfg.resp v)) s

/-- CMD_SAVE (R190, R193). -/
def execCmdSave (s : State) : Host.Outcome State Fault Refusal :=
  runWord (commandAndResult s.cfg.cmds.save fun v => saveStatus (hostResult s.cfg.resp v)) s

/-- CMD_ERASE (R195, R198). -/
def execCmdErase (s : State) : Host.Outcome State Fault Refusal :=
  runWord (commandAndResult s.cfg.cmds.erase fun v => eraseStatus (hostResult s.cfg.resp v)) s

/-- CMD_GRAM_DISABLE (R211, R214): it belongs to the optional unit (R210; log entry 34). -/
def execCmdGramDisable (s : State) : Host.Outcome State Fault Refusal :=
  if s.cfg.hasGrammar then runWord (commandAndWait s.cfg.cmds.gramDisable) s else .refused .grammarAbsent

/-- CMD_GRAM_ENABLE (R211, R218): it belongs to the optional unit (R210; log entry 34). -/
def execCmdGramEnable (s : State) : Host.Outcome State Fault Refusal :=
  if s.cfg.hasGrammar then runWord (commandAndWait s.cfg.cmds.gramEnable) s else .refused .grammarAbsent

end Sys2Proof.Machine
end

