-- ==== Sys2Proof/Machine/Wire.lean ====
section
/-! DEFINITION. The wire command words, executed by the reference responder on the transfer in progress
(spec/40_frame_encoder.md R112 to R119). One command word is one step: what the words before a refused one did stands
(R119 leaves it open; DESIGN CHOICE, log entry 41). -/

namespace Sys2Proof.Machine

/-- SELECT_PAGE (R112). -/
def execSelectPage (sel : Byte) (s : State) : Host.Outcome State Fault Refusal :=
  runWire (s.dev.selectPage sel) s

/-- NO_OP (R117). -/
def execNoOp (s : State) : Host.Outcome State Fault Refusal :=
  runWire s.dev.noOp s

/-- CONT_PAGED_WRITE (R118). -/
def execContPagedWrite (cnt : BitVec 7) (s : State) : Host.Outcome State Fault Refusal :=
  runWire (s.dev.contPagedWrite s.cfg cnt) s

/-- DIRECT_READ (R113). -/
def execDirectRead (off cnt : BitVec 7) (s : State) : Host.Outcome State Fault Refusal :=
  runWire (s.dev.directRead s.cfg off cnt) s

/-- DIRECT_WRITE (R114). -/
def execDirectWrite (off cnt : BitVec 7) (s : State) : Host.Outcome State Fault Refusal :=
  runWire (s.dev.directWrite s.cfg off cnt) s

/-- PAGED_READ (R115). -/
def execPagedRead (off cnt : BitVec 7) (s : State) : Host.Outcome State Fault Refusal :=
  runWire (s.dev.pagedRead s.cfg off cnt) s

/-- PAGED_WRITE (R116). -/
def execPagedWrite (off cnt : BitVec 7) (s : State) : Host.Outcome State Fault Refusal :=
  runWire (s.dev.pagedWrite s.cfg off cnt) s

/-- RESERVED (R76, R119, U2): refused. -/
def execReserved (b0 b1 : Byte) (s : State) : Host.Outcome State Fault Refusal :=
  runWire (s.dev.reserved b0 b1) s

end Sys2Proof.Machine
end

