-- ==== Sys2Proof/Machine/Dispatch.lean ====
section
/-! DEFINITION. One arm for each row of spec/opcode_table.json. -/

namespace Sys2Proof.Machine

def exec (i : Instr) (s : State) : Host.Outcome State Fault Refusal :=
  match i with
  | .selectPage sel => Sys2Proof.Machine.execSelectPage sel s
  | .noOp => Sys2Proof.Machine.execNoOp s
  | .contPagedWrite cnt => Sys2Proof.Machine.execContPagedWrite cnt s
  | .directRead off cnt => Sys2Proof.Machine.execDirectRead off cnt s
  | .directWrite off cnt => Sys2Proof.Machine.execDirectWrite off cnt s
  | .pagedRead off cnt => Sys2Proof.Machine.execPagedRead off cnt s
  | .pagedWrite off cnt => Sys2Proof.Machine.execPagedWrite off cnt s
  | .reserved b0 b1 => Sys2Proof.Machine.execReserved b0 b1 s
  | .hdrEncode a rw size => Sys2Proof.Machine.execHdrEncode a rw size s
  | .regWrite a data => Sys2Proof.Machine.execRegWrite a data s
  | .regRead a size => Sys2Proof.Machine.execRegRead a size s
  | .rawWrite data => Sys2Proof.Machine.execRawWrite data s
  | .runCmd cmd => Sys2Proof.Machine.execRunCmd cmd s
  | .bootSwitch => Sys2Proof.Machine.execBootSwitch s
  | .loadImage image => Sys2Proof.Machine.execLoadImage image s
  | .flashSave wantCount => Sys2Proof.Machine.execFlashSave wantCount s
  | .flashErase => Sys2Proof.Machine.execFlashErase s
  | .grammarLoad blob => Sys2Proof.Machine.execGrammarLoad blob s
  | .reqReserved op => Sys2Proof.Machine.execReqReserved op s
  | .cmdLoadComplete => Sys2Proof.Machine.execCmdLoadComplete s
  | .cmdFlashInit => Sys2Proof.Machine.execCmdFlashInit s
  | .cmdSave => Sys2Proof.Machine.execCmdSave s
  | .cmdErase => Sys2Proof.Machine.execCmdErase s
  | .cmdGramDisable => Sys2Proof.Machine.execCmdGramDisable s
  | .cmdGramEnable => Sys2Proof.Machine.execCmdGramEnable s

end Sys2Proof.Machine
end

