-- ==== Sys2Proof/Machine/Fetch.lean ====
section
/-! DEFINITION. What the machine does next: which agent has the turn, what it takes from what is presented, and what
follows the instruction (spec/10_state.md R10 and R29, spec/40_frame_encoder.md R111, spec/70_reset_and_hazards.md R281;
log entries 14, 18, 32). -/

namespace Sys2Proof.Machine

/-- What a step finds to do. -/
inductive Fetch where
  /-- No instruction is taken: this is the step's whole outcome. -/
  | settled (o : Host.Outcome State Fault Refusal)
  /-- The instruction `i` is run on `s`, from which what was taken has gone. -/
  | run (i : Instr) (s : State)

/-- The block waits: for ever in a bus primitive that never returns (R309, U11), else for its next request, which it
does not take while it is busy (R29). -/
def wait (s : State) : Host.Outcome State Fault Refusal :=
  if s.seq.busy ∧ s.env.inFlight ≠ none then .fault .busNeverReturns else .next s

/-- The responder takes the next command word of the transfer in progress (R111). -/
def fetchWire (s : State) : Fetch :=
  match s.dev.rx with
  | [] => .settled (runWire s.dev.close s)
  | b0 :: rest =>
    match decode s.cfg (.wire (b0 :: rest)) with
    | .error e => .settled (.refused (.undecodable e))
    | .ok i => .run i { s with dev := { s.dev with rx := rest.drop 1 } }

/-- The block, idle, takes a request or a host command word. -/
def fetchBlock (code : Code) (s : State) : Fetch :=
  match decode s.cfg code with
  | .error e => .settled (.refused (.undecodable e))
  | .ok i => .run i s

/-- What is presented next is taken: a transfer by the responder, a request or a word by the block if it is not busy. -/
def fetchPresented (s : State) : Fetch :=
  match s.inbox with
  | [] => .settled (wait s)
  | .wire w k :: rest => fetchWire { s with inbox := rest, dev := s.dev.open w k }
  | .request r :: rest =>
    if s.seq.busy then .settled (wait s) else fetchBlock (.request r) { s with inbox := rest }
  | .hostCommand w :: rest =>
    if s.seq.busy then .settled (wait s) else fetchBlock (.hostCommand w) { s with inbox := rest }

/-- What the machine does next: an asserted reset first, then the transfer in progress at the responder, then what is
presented. -/
def fetch (s : State) : Fetch :=
  if s.env.resetIn = some 0 then .settled (.next s.assertReset)
  else if s.dev.rx ≠ [] then fetchWire s
  else fetchPresented s

/-- What follows an instruction: the last command word of a transfer ends the transfer (R111). -/
def after (i : Instr) (o : Host.Outcome State Fault Refusal) : Host.Outcome State Fault Refusal :=
  match i.space, o with
  | .wire, .next s => if s.dev.rx = [] then runWire s.dev.close s else .next s
  | _, o => o

/-- Something presented in front of everything else, so that the very next step takes it: no transfer in progress, the
block idle, no reset asserted. -/
def State.present (s : State) (p : Presented) : State :=
  { s with
    inbox := p :: s.inbox
    seq := { s.seq with busy := false }
    env := { s.env with resetIn := none, inFlight := none }
    dev := { s.dev with rx := [] } }

/-- How a code is presented: a transfer asks for as many bytes as its first command receives (R80). -/
def presentedOf (c : Config) : Code → Presented
  | .request r => .request r
  | .hostCommand w => .hostCommand w
  | .wire bytes =>
    .wire bytes (match bytes with
      | b0 :: b1 :: _ => (decodeWire c.wire b0 b1).receiveBytes
      | _ => 0)

end Sys2Proof.Machine
end

