-- ==== Sys2Proof/Machine/Step.lean ====
section
/-! DEFINITION. One step of the machine: it takes what comes next, runs the instruction, and ends the transfer whose
last command it was. -/

namespace Sys2Proof.Machine

/-- One step. -/
def step (s : State) : Host.Outcome State Fault Refusal :=
  match fetch s with
  | .settled o => o
  | .run i t => after i (exec i t)

/-- The state with an opcode-table word presented next (log entries 17 and 18). A number that stands for nothing
presents nothing. -/
def State.withFetchWord (s : State) (nbits w : Nat) : State :=
  match codeOfTableWord s.cfg nbits w with
  | some code => s.present (presentedOf s.cfg code)
  | none => s

end Sys2Proof.Machine
end

