-- ==== Sys2Proof/Machine/BodyStream.lean ====
section
/-! DEFINITION. The image body stream: what the chunks that LOAD_IMAGE sends contain (spec/46_body_stream.md R230 to
R243). A contract on LOAD_IMAGE's input: the block never looks at these bytes (R55, R127), and the compiler that makes
them is out of scope (spec/00_scope.md R3 (a)). -/

namespace Sys2Proof.Machine

/-! Blocks. -/

/-- What stands in a block: a register write (a header and its payload), a continuation write with its payload, a
padding word. -/
inductive BodyFrame where
  | write (addr : Addr) (payload : List Byte)
  | cont (payload : List Byte)
  | pad
  deriving DecidableEq, Repr

/-- The first `k` bytes are a write header: exactly what `HdrEncode` produces for the address and size they decode to
(R230). -/
def writeHeaderAt (c : WireCfg) (k : Nat) (bs : List Byte) : Option (Addr × Nat) :=
  match frameDecode c (bs.take k) with
  | some (a, .write, size) => if hdrEncode c a .write size = some (bs.take k) then some (a, size) else none
  | _ => none

/-- The payload of `k` bytes that follows a command, and what follows it; none where it is cut off (R80). -/
def takePayload (k : Nat) (frame : List Byte → BodyFrame) (bs : List Byte) : Option (BodyFrame × List Byte) :=
  if bs.length < k then none else some (frame (bs.take k), bs.drop k)

/-- The first frame of a block and what follows it (R231). None for a read, for a reserved word, and for a command word
that no header of `HdrEncode` begins with or that stands without the other half of its header (R230, R231). -/
def frameAt (c : WireCfg) (b0 b1 : Byte) (t : List Byte) : Option (BodyFrame × List Byte) :=
  match decodeWire c b0 b1 with
  | .noOp => some (.pad, t)
  | .contPagedWrite cnt => takePayload ((cnt.toNat + 1) * 2) .cont t
  | _ =>
    match writeHeaderAt c 2 (b0 :: b1 :: t), writeHeaderAt c 4 (b0 :: b1 :: t) with
    | some (a, size), _ => takePayload size (.write a) t
    | none, some (a, size) => takePayload size (.write a) (t.drop 2)
    | none, none => none

/-- The frames of a block; none where it is not made of frames (R231). -/
def framesOf (c : WireCfg) : Nat → List Byte → Option (List BodyFrame)
  | 0, bs => if bs = [] then some [] else none
  | n + 1, bs =>
    match bs with
    | [] => some []
    | [_] => none
    | b0 :: b1 :: t =>
      match frameAt c b0 b1 t with
      | some (f, rest) => (framesOf c n rest).map (f :: ·)
      | none => none

/-- A continuation write. -/
def BodyFrame.isCont : BodyFrame → Bool
  | .cont _ => true
  | .write _ _ | .pad => false

/-- The frames before the padding. -/
def accesses (fs : List BodyFrame) : List BodyFrame := fs.takeWhile fun f => f ≠ .pad

/-- Padding stands only at the end of a block (R231, R232), a continuation only at its beginning (R236). -/
def blockShape (fs : List BodyFrame) : Bool :=
  ((fs.dropWhile fun f => f ≠ .pad).all fun f => f = .pad) && (fs.drop 1).all fun f => !f.isCont

/-- The frames of a well-formed block. -/
def blockFrames (c : WireCfg) (bs : List Byte) : Option (List BodyFrame) :=
  match framesOf c bs.length bs with
  | some fs => if blockShape fs then some fs else none
  | none => none

/-- One block of a body (R231). -/
def isBlock (c : WireCfg) (bs : List Byte) : Bool := (blockFrames c bs).isSome

/-! Bodies. -/

/-- Where a continuation write would land after a frame, as a word offset in the page of the run (R118, R236): behind
a write to a page other than 0, behind a continuation; nowhere after a direct write or padding. A padded block ended
its run: padding is what a flush leaves (R237; DEDUCED, log entry 36). -/
def BodyFrame.runEnd (mark : Option Nat) : BodyFrame → Option Nat
  | .write a payload => if pageOf a = 0#8 then none else some ((offOf a).toNat + payload.length / 2)
  | .cont payload => mark.map (· + payload.length / 2)
  | .pad => none

/-- The run of a block is still open at its end, at this word offset; `mark` is where the block before left off. -/
def openRun (mark : Option Nat) (fs : List BodyFrame) : Option Nat := fs.foldl BodyFrame.runEnd mark

/-- A continuation of a run left open at `mark` stays within the run's window of 128 words (R118, R236). -/
def staysInWindow (mark : Option Nat) (payload : List Byte) : Bool :=
  match mark with
  | some o => decide (o + payload.length / 2 ≤ 128)
  | none => false

/-- A block begins with a continuation only where the block before it ended in the middle of a run, and the data stays
within the same address window; the first block of a body never (R236). -/
def linked : Option Nat → List (List BodyFrame) → Bool
  | _, [] => true
  | mark, fs :: rest =>
    (match fs.head? with
      | some (.cont payload) => staysInWindow mark payload
      | some (.write _ _) | some .pad | none => true) && linked (openRun mark fs) rest

/-- The blocks of a body: a whole number of `IH_BLKWORDS * 2` bytes each, every one well-formed, continuations where
they may stand (R231, R232, R236). -/
def bodyBlocks (c : WireCfg) (blkBytes : Nat) (body : List Byte) : Option (List (List BodyFrame)) :=
  if body.length % blkBytes = 0 then
    match (chunksOf blkBytes body).mapM (blockFrames c) with
    | some blocks => if linked none blocks then some blocks else none
    | none => none
  else none

/-- A body of blocks of `blkBytes` bytes (R231). -/
def isBody (c : WireCfg) (blkBytes : Nat) (body : List Byte) : Bool := (bodyBlocks c blkBytes body).isSome

/-- The tail of a block filled with NO_OP pairs of two bytes (R232, R233). -/
def padBlock (c : WireCfg) (blkBytes : Nat) (bs : List Byte) : List Byte :=
  bs ++ (List.replicate ((blkBytes - bs.length) / 2) (wordBytes c c.nop)).flatten

/-! Firmware bodies. -/

/-- The base of the 256-byte window an address lies in (R215, R234). -/
def windowBase (a : DWord) : DWord := a &&& 0xFFFFFF00#32

/-- The register address of an address's place in its window: page 0xFF and the offset (R215, R234). -/
def windowReg (a : DWord) : Addr := 0xFF#8 ++ a.extractLsb' 0 8

/-- The address-window header of a run of `cnt + 1` words from address `a` on: the base written to the extended-window
address register, then the selection of page 0xFF and the PAGED_WRITE whose offset is the place in the window and whose
count is the run's (R234, R235; the split and the sequence are general knowledge). -/
def windowHeader (c : Config) (a : DWord) (cnt : BitVec 7) : List Byte :=
  header c.wire c.gram.extAddr .write 1 ++ bytes32 c.devEndian (windowBase a) ++
    header c.wire (windowReg a) .write cnt

/-- A run with its address-window header; at most 128 words (R71, R234, R237). -/
def firmwareRun (c : Config) (a : DWord) (data : List Byte) : Option (List Byte) :=
  (countOf data.length).map fun cnt => windowHeader c a cnt ++ data

/-- A run that goes on from the block before (R236). -/
def continuedRun (c : Config) (data : List Byte) : Option (List Byte) :=
  (countOf data.length).map fun cnt => wordBytes c.wire (contWord c.wire cnt) ++ data

/-- The length byte patched into a firmware run: the word count minus one, the top bit set for a new command and clear
for a continuation (R235). -/
def lengthByte (newCommand : Bool) (cnt : BitVec 7) : Byte := BitVec.ofBool newCommand ++ cnt

/-- Two records of a firmware image are contiguous: the second starts where the first ends (R237). -/
def recordsContiguous (addr len next : Nat) : Bool := decide (next = addr + len)

/-- A record of `need` bytes at `next`, after one of `len` bytes at `addr` and with `room` bytes left in the block,
opens a new block with an address-window header: on discontinuity or insufficient space (R237). -/
def opensWindow (addr len next need room : Nat) : Bool :=
  !recordsContiguous addr len next || decide (room < need)

/-- Two addresses are of one register: bit 0 does not count (R57). -/
def sameRegister (a b : Addr) : Bool := pageOf a = pageOf b && offOf a = offOf b

/-- The base write of an address-window header: the address register receives a window base (R234). -/
def isBaseWrite (c : Config) : BodyFrame → Bool
  | .write a payload =>
    sameRegister a c.gram.extAddr && payload = bytes32 c.devEndian (windowBase (val32At c.devEndian payload))
  | .cont _ | .pad => false

/-- A run written at an address of the window, and within it (R215, R234, R236). -/
def isWindowWrite : BodyFrame → Bool
  | .write a payload => pageOf a = 0xFF#8 && decide ((offOf a).toNat + payload.length / 2 ≤ 128)
  | .cont _ | .pad => false

/-- What follows the run that a block of data opens with: a block opens with an address-window header and its run, or
goes on with the run of the block before (R236, R237). None where it opens otherwise. -/
def afterRun (c : Config) : List BodyFrame → Option (List BodyFrame)
  | .cont _ :: rest => some rest
  | f :: g :: rest => if isBaseWrite c f && isWindowWrite g then some rest else none
  | _ => none

/-- A block of data: one run, then padding. A record that does not follow on, or does not fit, has flushed the block and
opened another (R237). -/
def isDataBlock (c : Config) (fs : List BodyFrame) : Bool := afterRun c (accesses fs) = some []

/-- The write of the firmware's execution address (R238). The register and its width are free values: they are not in
the source (N9, log entry 36). -/
def execWrite (c : Config) (address : List Byte) : List Byte :=
  header c.wire Config.execReg .write Config.execWordsPred ++ address

/-- A frame that writes the execution address (R238). -/
def isExecWrite : BodyFrame → Bool
  | .write a payload => sameRegister a Config.execReg && payload.length = (Config.execWordsPred.toNat + 1) * 2
  | .cont _ | .pad => false

/-- The last block: the write of the execution address, after the block's run where it has one, then what the flush pads
(R238). -/
def isEndBlock (c : Config) (fs : List BodyFrame) : Bool :=
  match (afterRun c (accesses fs)).getD (accesses fs) with
  | [f] => isExecWrite f
  | _ => false

/-- A firmware body: every block opens with an address-window header or goes on with a run, and holds no other data; the
last one writes the execution address (R234, R236, R237, R238). -/
def isFirmwareBody (c : Config) (blkBytes : Nat) (body : List Byte) : Bool :=
  match bodyBlocks c.wire blkBytes body with
  | some blocks => blocks.dropLast.all (isDataBlock c) && (blocks.getLast?.map (isEndBlock c)).getD false
  | none => false

/-! Configuration bodies. -/

/-- A register that a configuration block can write: the source has the select-page form only, so none of page 0 (R240,
U8). -/
def pagedRegister (a : Addr) : Bool := pageOf a ≠ 0#8

/-- A configuration block: exactly the 4-byte header `HdrEncode(reg, 1, 2 * count)` of a paged register, the values in
device order, NO_OP pairs to the block's end (R240). None for a register of page 0 (U8, log entry 36), for a count that
has no header, and for values that the block does not hold. -/
def configBlock (c : Config) (blkBytes : Nat) (reg : Addr) (values : List Word) : Option (List Byte) :=
  if pagedRegister reg && decide (4 + 2 * values.length ≤ blkBytes) then
    (hdrEncode c.wire reg .write (2 * values.length)).map fun h =>
      padBlock c.wire blkBytes (h ++ (values.map (bytes16 c.devEndian)).flatten)
  else none

/-- The frames of a configuration block: one select-page and paged-write header with its values, then padding (R240). -/
def isConfigurationBlock (fs : List BodyFrame) : Bool :=
  match accesses fs with
  | [.write a _] => pagedRegister a
  | _ => false

/-- A configuration body: a body of configuration blocks (R240). -/
def isConfigurationBody (c : WireCfg) (blkBytes : Nat) (body : List Byte) : Bool :=
  match bodyBlocks c blkBytes body with
  | some blocks => blocks.all isConfigurationBlock
  | none => false

/-- `GAP_TOL` (R4): the configuration encoder's tolerance, in units. -/
def gapTol : Nat := 2

/-- A hole of a configuration body: the next register is not contiguous with the last one within the tolerance, be it
beyond it or below (R241). The block is then padded and a new one starts at the next register. -/
def isHole (reg next : Nat) : Bool := !(decide (reg ≤ next) && decide (next - reg ≤ gapTol))

/-- R232, R242: the header's total-length field equals the sum of the body bytes. -/
def totalMatches (c : ImgCfg) (image : List Byte) : Bool :=
  decide (imgHdrLen ≤ image.length) && decide ((parseHeader c image).total.toNat = image.length - imgHdrLen)

end Sys2Proof.Machine
end

