-- ==== Sys2Proof/Machine/Transaction.lean ====
section
/-! DEFINITION. The machine at the level of spec/00_scope.md R7: a step of the block is one bus primitive or one
terminal transition. The same sequences and the same endings as `exec`, one step at a time; `exec` is what these steps
come to (log entry 1). -/

namespace Sys2Proof.Machine

/-- What the block does from the moment it is busy: the state it starts in, the sequence, how its end is settled. -/
structure Job where
  start : State
  seq : M Payload
  finish : EStateM.Result Abort State Payload → State

/-- An accepted request. -/
def requestJob (op : BitVec 4) (drivesIt : Bool) (m : M Payload) (s : State) : Job where
  start := s.accept op
  seq := m
  finish := settle drivesIt

/-- A host command word presented on its own (log entry 16). -/
def wordJob (m : M Unit) (s : State) : Job where
  start := s.acceptWord
  seq := do
    m
    return Payload.none
  finish := settleWord

/-- The block's job for an instruction. None for a wire command word, which is the responder's, and for what is refused
by name. -/
def jobOf (i : Instr) (s : State) : Option Job :=
  let c := s.cfg
  match i with
  | .hdrEncode a rw size => some (requestJob 0x0 false (hdrEncodeSeq a rw size) s)
  | .regWrite a data => some (requestJob 0x1 false (regWriteSeq a data) s)
  | .regRead a size => some (requestJob 0x2 false (regReadSeq a size) s)
  | .rawWrite data => some (requestJob 0x3 false (rawWriteSeq data) s)
  | .runCmd cmd => some (requestJob 0x4 false (runCmdSeq cmd) s)
  | .bootSwitch => some (requestJob 0x5 false bootSwitchSeq s)
  | .loadImage image => if zeroBlockImage c image then none else some (requestJob 0x6 true (loadImage image) s)
  | .flashSave wantCount => some (requestJob 0x7 true (flashSave wantCount) s)
  | .flashErase => some (requestJob 0x8 true flashErase s)
  | .grammarLoad blob => some (requestJob 0x9 false (if c.hasGrammar then grammarLoad blob else reservedSeq) s)
  | .reqReserved op => some (requestJob op false reservedSeq s)
  | .cmdLoadComplete =>
    some (wordJob (commandAndResult c.cmds.loadComplete fun v => loadStatus (hostResult c.resp v)) s)
  | .cmdFlashInit => some (wordJob (commandAndResult c.cmds.flashInit fun v => finitStatus (finitResult c.resp v)) s)
  | .cmdSave => some (wordJob (commandAndResult c.cmds.save fun v => saveStatus (hostResult c.resp v)) s)
  | .cmdErase => some (wordJob (commandAndResult c.cmds.erase fun v => eraseStatus (hostResult c.resp v)) s)
  | .cmdGramDisable => if c.hasGrammar then some (wordJob (commandAndWait c.cmds.gramDisable) s) else none
  | .cmdGramEnable => if c.hasGrammar then some (wordJob (commandAndWait c.cmds.gramEnable) s) else none
  | .selectPage _ | .noOp | .contPagedWrite _ | .directRead _ _ | .directWrite _ _ | .pagedRead _ _ | .pagedWrite _ _
  | .reserved _ _ => none

/-- The state with another count down to reset. -/
def State.withResetIn (s : State) (r : Option Nat) : State := { s with env := { s.env with resetIn := r } }

/-- The sequence run for `k` bus primitives: cut before the next one, where there is a next one. -/
def Job.upTo (j : Job) (k : Nat) : EStateM.Result Abort State Payload := j.seq.run (j.start.withResetIn (some k))

/-- How many steps remain to reset after `k` of them. -/
def Job.resetAfter (j : Job) (k : Nat) : Option Nat := j.start.env.resetIn.map (· - k)

/-- The state of a result. -/
def stateOf {α : Type} : EStateM.Result Abort State α → State
  | .ok _ s => s
  | .error _ s => s

/-- The same result with another count down to reset. -/
def withResetIn {α : Type} (r : Option Nat) : EStateM.Result Abort State α → EStateM.Result Abort State α
  | .ok a s => .ok a (s.withResetIn r)
  | .error a s => .error a (s.withResetIn r)

/-- The state of the machine while the block has made `k` bus primitives of the job: still busy (R29). -/
def Job.stateAt (j : Job) (k : Nat) : State := (stateOf (j.upTo k)).withResetIn (j.resetAfter k)

/-- A step of the job leaves it in progress, or ends it in a state. -/
inductive Progress where
  | more
  | ended (s : State)
  deriving DecidableEq, Repr

/-- The step of the job after `k` bus primitives (R7): reset, if it comes now (R281); else the next bus primitive, which
returns or never does (R309); else, where none is left, the terminal transition (R256 to R258). -/
def Job.step (j : Job) (k : Nat) : Progress :=
  if j.start.env.resetIn = some k then .ended (j.stateAt k).resetBlock
  else
    match j.upTo k with
    | .error .cut _ =>
      match j.upTo (k + 1) with
      | .error .hung s => .ended (s.withResetIn (j.resetAfter k))
      | _ => .more
    | r => .ended (j.finish (withResetIn (j.resetAfter k) r))

/-- The machine between two steps: no request in progress, or `k` bus primitives into an instruction that the block took
in state `s`. -/
inductive TState where
  | idle (s : State)
  | busy (i : Instr) (s : State) (k : Nat)
  deriving DecidableEq, Repr

/-- The step of an instruction of the block after `k` bus primitives. -/
def advance (i : Instr) (s : State) (k : Nat) : Host.Outcome TState Fault Refusal :=
  match jobOf i s with
  | some j =>
    match j.step k with
    | .more => .next (.busy i s (k + 1))
    | .ended t => .next (.idle t)
  | none =>
    match exec i s with
    | .next t => .next (.idle t)
    | .fault f => .fault f
    | .refused e => .refused e

/-- One step at the level of R7. A request is accepted with its first step; a command word is one step of the
responder. -/
def tStep : TState → Host.Outcome TState Fault Refusal
  | .busy i s k => advance i s k
  | .idle s =>
    match fetch s with
    | .run i u =>
      match i.space with
      | .request | .hostCommand => advance i u 0
      | .wire =>
        match after i (exec i u) with
        | .next t => .next (.idle t)
        | .fault f => .fault f
        | .refused e => .refused e
    | .settled (.next t) => .next (.idle t)
    | .settled (.fault f) => .fault f
    | .settled (.refused e) => .refused e

/-- The machine's state as the outside sees it: busy while a request is in progress (R29). -/
def TState.view : TState → State
  | .idle s => s
  | .busy i s k =>
    match jobOf i s with
    | some j => j.stateAt k
    | none => s

end Sys2Proof.Machine
end

