-- ==== Sys2Proof/Safety.lean ====
section
/-! DEFINITION. The terms claims are made in: the invariant of the machine, what a request leaves alone, and what
software must guarantee (spec/70_reset_and_hazards.md R290 to R306). -/

namespace Sys2Proof.Machine

/-! The invariant. -/

/-- Every unit but IT is in its idle state (R132, R148, R172, R199, R257). -/
def Seq.unitsIdle (q : Seq) : Prop :=
  q.ra = .idle ∧ q.hc = .idle ∧ q.bm = .idle ∧ q.fl = .idle ∧ q.gl = .idle

/-- The responder's state is one R110 to R119 allow: memory in canonical form inside the register space, dev.sel never
the reserved value, the continuation address on an ordinary page, at most one past its end. -/
def Dev.legal (d : Dev) : Prop :=
  d.mem.wf ∧ (∀ c ∈ d.mem, c.1 < 0xFF00) ∧ d.sel ≠ 0xFE#8 ∧
    ∀ p o, d.cont = some (p, o) → 1 ≤ p ∧ p ≤ 0xFE ∧ o ≤ 128

/-- The holding registers are inside the ranges R14 to R20 give them. -/
def Holding.legal (c : Config) (x : Holding) : Prop :=
  x.hdr.length = 4 ∧ (x.hdrLen = 2 ∨ x.hdrLen = 4) ∧ x.buf.length = c.bufCap ∧ x.bufLen ≤ c.bufCap ∧
    x.pollCnt ≤ c.pollBound ∧ x.blkSize = blockBytes x.ihBlkWords

/-- While IT streams, the cursor and the rest make up the header and the body (R20). -/
def State.cursorLegal (s : State) : Prop :=
  s.seq.it = .streaming → s.x.imgPos.toNat + s.x.imgRem.toNat = 12 + s.x.ihTotal.toNat

/-- The invariant that every step keeps. -/
def State.Inv (s : State) : Prop :=
  s.cfg.wf ∧ s.dev.legal ∧ s.x.legal s.cfg ∧ (s.seq.busy = false → s.seq.unitsIdle ∧ s.env.inFlight = none)

/-! What the environment does with a stretch of bus primitives. -/

/-- The environment's side and the device after the bus primitives that `evs` records, taken in their order from `e` and
`d`. None where the environment answers a transfer otherwise than recorded, lets a primitive never return, or asserts
reset before one. Every kind of environment is meant: answers laid down, the unconstrained oracle, the responder. -/
def replay (c : Config) : List Event → Env → Dev → Option (Env × Dev)
  | [], e, d => some (e, d)
  | .xfer w k n r :: rest, e, d =>
    if e.resetIn = some 0 then none
    else
      match busReply c e d w k with
      | none => none
      | some (n', r', e', d') =>
        if n' = n ∧ r' = r then replay c rest { e'.tick with answered := e'.answered + 1 } d' else none
  | .delay _ :: rest, e, d =>
    if e.resetIn = some 0 ∨ e.script.head? = some .never then none else replay c rest e.tick d

/-- Asked for exactly these bus primitives, the environment answers as recorded and ends up as `e`, the device as
`d`. -/
abbrev State.busAnswers (s : State) (evs : List Event) (e : Env) (d : Dev) : Prop :=
  replay s.cfg evs s.env s.dev = some (e, d)

/-- Asked for exactly these bus primitives and let to take the terminal transition after them, the environment answers
as recorded, asserts no reset, and ends up as `e`, the device as `d` (R7, R281). -/
def State.busCarries (s : State) (evs : List Event) (e : Env) (d : Dev) : Prop :=
  ∃ e', s.busAnswers evs e' d ∧ e'.resetIn ≠ some 0 ∧ e = e'.tick

/-- The bus primitive an event records. -/
def Event.prim : Event → Prim
  | .xfer w k _ _ => .xfer w k
  | .delay ms => .delay ms

/-- The environment never returns from this bus primitive: it was said so, or the reference responder gives no answer
(R119, R309; log entries 12 and 15). -/
def neverReturns (c : Config) (e : Env) (d : Dev) : Prim → Prop
  | .xfer w k => busReply c e d w k = none
  | .delay _ => e.script.head? = some .never

/-- The transfer of a 16-bit read of register `a` that reports `n` units and receives the value `v` (R129). -/
def read16 (c : Config) (a : Addr) (n : Nat) (v : Word) : Event :=
  .xfer (header c.wire a .read 0) 2 n (bytes16 c.devEndian v)

/-- The transfer of a 16-bit write of `v` to register `a` (R128). -/
def write16 (c : Config) (a : Addr) (n : Nat) (v : Word) : Event :=
  .xfer (header c.wire a .write 0 ++ bytes16 c.devEndian v) 0 n []

/-- The transfer of a 32-bit read (R212). -/
def read32 (c : Config) (a : Addr) (n : Nat) (v : DWord) : Event :=
  .xfer (header c.wire a .read 1) 4 n (bytes32 c.devEndian v)

/-- The transfer of a 32-bit write (R212). -/
def write32 (c : Config) (a : Addr) (n : Nat) (v : DWord) : Event :=
  .xfer (header c.wire a .write 1 ++ bytes32 c.devEndian v) 0 n []

/-- The reads of a poll phase, units and value of each, with a delay before every read but the first (R146). -/
def pollEvents (c : Config) (a : Addr) : List (Nat × Word) → List Event
  | [] => []
  | p :: ps => read16 c a p.1 p.2 :: ps.flatMap fun q => [.delay c.pollDelayMs, read16 c a q.1 q.2]

/-- Reads that end a poll phase: every transfer succeeds, the last value passes and no earlier one does. -/
def pollPasses (pass : Word → Bool) : List (Nat × Word) → Bool
  | [] => false
  | [q] => decide (1 ≤ q.1) && pass q.2
  | q :: rest => decide (1 ≤ q.1) && !pass q.2 && pollPasses pass rest

/-- Successful reads none of which passes. -/
def pollFails (pass : Word → Bool) (ps : List (Nat × Word)) : Bool :=
  ps.all fun q => decide (1 ≤ q.1) && !pass q.2

/-- What the bus answers in one handshake: the reads of phase 1, the units of the two writes, the reads of phase 3. -/
structure CmdRun where
  idle : List (Nat × Word)
  wrote : Nat
  notified : Nat
  done : List (Nat × Word)
  deriving DecidableEq, Repr

/-- The handshake succeeds within the bound (R142 to R145). -/
def CmdRun.ok (c : Config) (r : CmdRun) : Bool :=
  pollPasses (fun v => !busyFlag v) r.idle && decide (r.idle.length ≤ c.pollBound) && decide (1 ≤ r.wrote) &&
    decide (1 ≤ r.notified) && pollPasses commandDone r.done && decide (r.done.length ≤ c.pollBound)

/-- The bus primitives of one handshake with the word `cmd` (R141). -/
def CmdRun.events (c : Config) (cmd : Word) (r : CmdRun) : List Event :=
  pollEvents c c.map.swFlags r.idle ++ [write16 c c.map.cmd r.wrote cmd, write16 c c.map.swFlags r.notified 1#16] ++
    pollEvents c c.map.done r.done

/-- What the bus answers in one boot-mode switch: a device in boot mode already, or one that is switched. -/
inductive BootRun where
  | inBootMode (n : Nat) (v : Word)
  | switched (n : Nat) (v : Word) (wrote verified : Nat)
  deriving DecidableEq, Repr

/-- The switch succeeds (R170, R171); the value verified is `BOOT_MAGIC`. -/
def BootRun.ok (c : Config) : BootRun → Bool
  | .inBootMode n v => decide (1 ≤ n) && !appRunning c v
  | .switched n v wrote verified =>
    decide (1 ≤ n) && appRunning c v && decide (1 ≤ wrote) && decide (1 ≤ verified)

/-- The bus primitives of one boot-mode switch (R170). -/
def BootRun.events (c : Config) : BootRun → List Event
  | .inBootMode n v => [read16 c c.map.curFw n v]
  | .switched n v wrote verified =>
    [read16 c c.map.curFw n v, write16 c c.map.rstBoot wrote 1#16, .delay c.bootDelayMs,
      read16 c c.map.bootVerify verified c.map.bootMagic]

/-- What the bus answers while one chunk is sent: the boot-mode switch of a firmware chunk, the units of the raw
write. -/
structure ChunkRun where
  boot : Option BootRun
  sent : Nat
  deriving DecidableEq, Repr

/-- The chunk is sent: a firmware chunk after a successful boot-mode switch, a configuration chunk without one (R167,
R168). -/
def ChunkRun.ok (c : Config) (fw : Bool) (r : ChunkRun) : Bool :=
  decide (1 ≤ r.sent) && (match r.boot with | some b => fw && b.ok c | none => !fw)

/-- The bus primitives of one chunk (R167, R168). -/
def ChunkRun.events (c : Config) (chunk : List Byte) (r : ChunkRun) : List Event :=
  (match r.boot with | some b => b.events c | none => []) ++ [.xfer chunk 0 r.sent []]

/-- The bus primitives of the chunks in their order (R165). -/
def chunkEvents (c : Config) (chunks : List (List Byte)) (runs : List ChunkRun) : List Event :=
  (chunks.zip runs).flatMap fun p => p.2.events c p.1

/-- What the bus answers in flash-init and the read of its result. -/
structure InitRun where
  cmd : CmdRun
  read : Nat
  deriving DecidableEq, Repr

/-- The bus primitives of flash-init when the device answers `v` (R190, R195). -/
def InitRun.events (c : Config) (v : Word) (r : InitRun) : List Event :=
  r.cmd.events c c.cmds.flashInit ++ [read16 c c.map.result r.read v]

/-- What the bus answers to the segment table update: the units of each access, and what the reads received. -/
inductive TableRun where
  /-- The count is 0: an entry is appended. -/
  | empty (read addr size count : Nat)
  /-- The last entry starts where the blob does: its size is written. -/
  | inPlace (read : Nat) (cnt : Word) (last size : Nat)
  /-- The last entry starts elsewhere: an entry is appended. -/
  | append (read : Nat) (cnt : Word) (readLast : Nat) (last : DWord) (addr size count : Nat)
  deriving DecidableEq, Repr

/-- The update succeeds for a blob that starts at `start` (R217). -/
def TableRun.ok (start : DWord) : TableRun → Bool
  | .empty read addr size count => decide (1 ≤ read ∧ 1 ≤ addr ∧ 1 ≤ size ∧ 1 ≤ count)
  | .inPlace read cnt last size => decide (1 ≤ read ∧ cnt ≠ 0#16 ∧ 1 ≤ last ∧ 1 ≤ size)
  | .append read cnt readLast last addr size count =>
    decide (1 ≤ read ∧ cnt ≠ 0#16 ∧ 1 ≤ readLast ∧ last ≠ start ∧ 1 ≤ addr ∧ 1 ≤ size ∧ 1 ≤ count)

/-- The bus primitives of the segment table update (R217). -/
def TableRun.events (c : Config) (start len : DWord) : TableRun → List Event
  | .empty read addr size count =>
    [read16 c c.gram.segCount read 0#16, write32 c (segAddrReg c.gram 0) addr start,
      write32 c (segSizeReg c.gram 0) size len, write16 c c.gram.segCount count 1#16]
  | .inPlace read cnt last size =>
    [read16 c c.gram.segCount read cnt, read32 c (segAddrReg c.gram (cnt.toNat - 1)) last start,
      write32 c (segSizeReg c.gram (cnt.toNat - 1)) size len]
  | .append read cnt readLast last addr size count =>
    [read16 c c.gram.segCount read cnt, read32 c (segAddrReg c.gram (cnt.toNat - 1)) readLast last,
      write32 c (segAddrReg c.gram cnt.toNat) addr start, write32 c (segSizeReg c.gram cnt.toNat) size len,
      write16 c c.gram.segCount count (cnt + 1)]

/-- The bus primitives of the blocks of a blob from device address `a` on: for each the window's base, then the paged
write on page 0xFF; `units` are the units of the two transfers (R215, R216). -/
def blockEvents (c : Config) (a : DWord) : List (List Byte × Nat × Nat) → List Event
  | [] => []
  | (block, base, sent) :: rest =>
    write32 c c.gram.extAddr base (a &&& 0xFFFFFF00#32) ::
      .xfer (header c.wire (0xFF#8 ++ a.extractLsb' 0 8) .write (BitVec.ofNat 7 (block.length / 2 - 1)) ++
        toDev c block) 0 sent [] ::
      blockEvents c (a + BitVec.ofNat 32 block.length) rest

/-! The transitions of the sequencing registers that go with them. -/

/-- A read access (R120). -/
def readMoves : List Move := [Move.ra .check, .ra .header, .ra .xfer, .prim, .ra .toHost, .ra .idle]

/-- A write access (R120). -/
def writeMoves : List Move := [Move.ra .check, .ra .toDev, .ra .header, .ra .xfer, .prim, .ra .idle]

/-- A raw write (R120). -/
def rawMoves : List Move := [Move.ra .check, .ra .xfer, .prim, .ra .idle]

/-- A poll phase of `k` reads: a delay before every read but the first. -/
def pollMoves (k : Nat) : List Move := readMoves ++ (List.replicate (k - 1) (.prim :: readMoves)).flatten

/-- One handshake (R148). -/
def CmdRun.moves (r : CmdRun) : List Move :=
  [Move.hc .waitIdle] ++ pollMoves r.idle.length ++ [Move.hc .writeCmd] ++ writeMoves ++ [Move.hc .notify] ++
    writeMoves ++ [Move.hc .waitDone] ++ pollMoves r.done.length ++ [Move.hc .idle]

/-- One boot-mode switch (R170). -/
def BootRun.moves : BootRun → List Move
  | .inBootMode _ _ => [Move.bm .readFw] ++ readMoves ++ [Move.bm .idle]
  | .switched _ _ _ _ =>
    [Move.bm .readFw] ++ readMoves ++ [Move.bm .reset] ++ writeMoves ++ [Move.bm .delay, .prim, .bm .verify] ++
      readMoves ++ [Move.bm .idle]

/-- One chunk (R120, R170). -/
def ChunkRun.moves (r : ChunkRun) : List Move := (match r.boot with | some b => b.moves | none => []) ++ rawMoves

/-- Flash-init and the read of its result (R190). -/
def InitRun.moves (r : InitRun) : List Move := [Move.fl .init] ++ r.cmd.moves ++ [Move.fl .initResult] ++ readMoves

/-- The segment table update (R217). -/
def TableRun.moves : TableRun → List Move
  | .empty _ _ _ _ => readMoves ++ writeMoves ++ writeMoves ++ writeMoves
  | .inPlace _ _ _ _ => readMoves ++ readMoves ++ writeMoves
  | .append _ _ _ _ _ _ _ => readMoves ++ readMoves ++ writeMoves ++ writeMoves ++ writeMoves

/-- The blocks of a blob, two write accesses each (R215, R216). -/
def blockMoves (k : Nat) : List Move := (List.replicate k (writeMoves ++ writeMoves)).flatten

/-! What a request leaves alone. -/

/-- The block runs undisturbed: no reset is to come (R281 is stated separately). -/
def State.noReset (s : State) : Prop := s.env.resetIn = none

/-- Nothing outside the block's own registers, the record, the bus and the device changed: the parameters and what is
presented are as they were. -/
def State.sameOutside (s t : State) : Prop := t.cfg = s.cfg ∧ t.inbox = s.inbox

/-- Of the holding registers only those of RA and HC may differ: x[ADDR], x[SIZE], x[RW], x[HDR], x[HDRLEN], x[BUF],
x[BUFLEN], x[CMDOP], x[VAL], x[POLLCNT]. -/
def Holding.sameButAccess (x y : Holding) : Prop :=
  y = { x with
    addr := y.addr, size := y.size, rw := y.rw, hdr := y.hdr, hdrLen := y.hdrLen, buf := y.buf, bufLen := y.bufLen,
    cmdOp := y.cmdOp, val := y.val, pollCnt := y.pollCnt }

/-- The image registers and the image cursor are as they were (R19, R20). -/
def Holding.sameImage (x y : Holding) : Prop :=
  y.ihMajor = x.ihMajor ∧ y.ihMinor = x.ihMinor ∧ y.ihType = x.ihType ∧ y.ihEndian = x.ihEndian ∧
    y.ihCode = x.ihCode ∧ y.ihBlkWords = x.ihBlkWords ∧ y.ihTotal = x.ihTotal ∧ y.ihRsvd = x.ihRsvd ∧
    y.blkSize = x.blkSize ∧ y.imgPos = x.imgPos ∧ y.imgRem = x.imgRem

/-- The request's own part of the outcome: the record, the bus's side and the device are those of the bus primitives
`evs`, the sequencing registers moved by `mvs`, and the parameters and what is presented are as they were. -/
structure Ran (s t : State) (evs : List Event) (mvs : List Move) (e : Env) (d : Dev) : Prop where
  history : t.history = s.history ++ evs
  moves : t.moves = s.moves ++ mvs
  env : t.env = e
  dev : t.dev = d
  outside : s.sameOutside t

/-- The response delivered (R12). `raw` is the device's response code, where one was read; without one raw_resp is open
(log entry 22). -/
def State.answered (t : State) (st : Status) (raw : Option Word) (hdr data : List Byte) (count : Option (BitVec 16)) :
    Prop :=
  ∃ r, t.rsp = some r ∧ r.status = st ∧ r.rawValid = raw.isSome ∧ (∀ v, raw = some v → r.rawResp = v) ∧ r.hdr = hdr ∧
    r.data = data ∧ r.count = count

/-- Of the holding registers, those of RA and HC may differ, and the response latches hold what is said: x[STATUS],
x[RAW_RESP] with x[RAW_VALID], x[FLASH_CNT] with count_valid (each as it was where nothing was latched). Every image
register and the image cursor are as they were. -/
def Holding.latched (x y : Holding) (st : Status) (raw : Option Word) (count : Option (BitVec 16)) : Prop :=
  x.sameImage y ∧ y.status = st ∧ y.rawValid = raw.isSome ∧ y.rawResp = raw.getD x.rawResp ∧
    y.countValid = count.isSome ∧ y.flashCnt = count.getD x.flashCnt

/-! How a request fails. -/

/-- `bad` is the transfer of `evs` that comes after `pre`, but it reports no unit (R124). -/
def FailsAfter (evs pre : List Event) (bad : Event) : Prop :=
  ∃ w k n r b post, evs = pre ++ .xfer w k n r :: post ∧ bad = .xfer w k 0 b

/-- What the bus answers in a handshake that uses up the reads of a poll phase: of phase 1, or of phase 3. -/
inductive CmdStuck where
  | waitIdle (reads : List (Nat × Word))
  | waitDone (idle : List (Nat × Word)) (wrote notified : Nat) (reads : List (Nat × Word))
  deriving DecidableEq, Repr

/-- Every transfer succeeds, and `POLL_BOUND` reads of the phase fail its test (R145). -/
def CmdStuck.ok (c : Config) : CmdStuck → Bool
  | .waitIdle reads => pollFails (fun v => !busyFlag v) reads && decide (reads.length = c.pollBound)
  | .waitDone idle wrote notified reads =>
    pollPasses (fun v => !busyFlag v) idle && decide (idle.length ≤ c.pollBound) && decide (1 ≤ wrote) &&
      decide (1 ≤ notified) && pollFails commandDone reads && decide (reads.length = c.pollBound)

/-- Its bus primitives. -/
def CmdStuck.events (c : Config) (cmd : Word) : CmdStuck → List Event
  | .waitIdle reads => pollEvents c c.map.swFlags reads
  | .waitDone idle wrote notified reads =>
    pollEvents c c.map.swFlags idle ++ [write16 c c.map.cmd wrote cmd, write16 c c.map.swFlags notified 1#16] ++
      pollEvents c c.map.done reads

/-- The bus primitives of a boot-mode switch whose verification reads `u` (R170, R171). -/
def bootMismatch (c : Config) (n : Nat) (v : Word) (wrote verified : Nat) (u : Word) : List Event :=
  [read16 c c.map.curFw n v, write16 c c.map.rstBoot wrote 1#16, .delay c.bootDelayMs,
    read16 c c.map.bootVerify verified u]

/-- The two flash sequences. -/
inductive FlashOp where
  | save
  | erase
  deriving DecidableEq, Repr

/-- The instruction is a request for this sequence. -/
def FlashOp.isInstr : FlashOp → Instr → Prop
  | .save, i => ∃ wantCount, i = .flashSave wantCount
  | .erase, i => i = .flashErase

/-- The command word of the sequence (R190, R195). -/
def FlashOp.word (c : Config) : FlashOp → Word
  | .save => c.cmds.save
  | .erase => c.cmds.erase

/-- The write that prepares the command: zeros to the checksum register (R192), the erase-confirm value (R197). -/
def FlashOp.prepEvent (c : Config) (n : Nat) : FlashOp → Event
  | .save =>
    .xfer (header c.wire c.map.chksum .write (BitVec.ofNat 7 (c.map.chksumBytes / 2 - 1)) ++
      List.replicate c.map.chksumBytes 0#8) 0 n []
  | .erase => write16 c c.map.result n c.map.eraseMagic

/-- What the bus answers in a flash sequence up to the read of its result. -/
structure FlashRun where
  /-- FLASH_ERASE's own read of the running-app bit, units and value (R196); FLASH_SAVE has none. -/
  first : Nat × Word
  boot : BootRun
  init : InitRun
  prep : Nat
  cmd : CmdRun
  read : Nat
  deriving DecidableEq, Repr

/-- The read with which only FLASH_ERASE begins (R196). -/
def FlashOp.firstEvents (c : Config) (r : FlashRun) : FlashOp → List Event
  | .save => []
  | .erase => [read16 c c.map.curFw r.first.1 r.first.2]

/-- The boot-mode switch is invoked: by FLASH_ERASE only where it read the bit as set (R190, R196). -/
def FlashOp.switches (c : Config) (r : FlashRun) : FlashOp → Bool
  | .save => true
  | .erase => appRunning c r.first.2

/-- The bus primitives before flash-init. -/
def FlashRun.bootEvents (c : Config) (op : FlashOp) (r : FlashRun) : List Event :=
  op.firstEvents c r ++ if op.switches c r then r.boot.events c else []

/-- The bus primitives up to the read of flash-init's result `v`. -/
def FlashRun.initEvents (c : Config) (op : FlashOp) (v : Word) (r : FlashRun) : List Event :=
  r.bootEvents c op ++ r.init.events c v

/-- The bus primitives up to the read of the sequence's result `v` (R190, R195). -/
def FlashRun.events (c : Config) (op : FlashOp) (v : Word) (r : FlashRun) : List Event :=
  r.initEvents c op c.resp.finitOk ++ [op.prepEvent c r.prep] ++ r.cmd.events c (op.word c) ++
    [read16 c c.map.result r.read v]

/-- Every part of the sequence succeeds; what its results map to is another matter. -/
def FlashRun.ok (c : Config) (op : FlashOp) (r : FlashRun) : Bool :=
  decide (1 ≤ r.first.1) && (!op.switches c r || r.boot.ok c) && r.init.cmd.ok c && decide (1 ≤ r.init.read) &&
    decide (1 ≤ r.prep) && r.cmd.ok c && decide (1 ≤ r.read)

/-- LOAD_IMAGE, FLASH_SAVE and FLASH_ERASE drive IT_STATE (R176, R257). -/
def drivesIt : Instr → Bool
  | .loadImage _ | .flashSave _ | .flashErase => true
  | .hdrEncode _ _ _ | .regWrite _ _ | .regRead _ _ | .rawWrite _ | .runCmd _ | .bootSwitch | .grammarLoad _
  | .reqReserved _ | .selectPage _ | .noOp | .contPagedWrite _ | .directRead _ _ | .directWrite _ _ | .pagedRead _ _
  | .pagedWrite _ _ | .reserved _ _ | .cmdLoadComplete | .cmdFlashInit | .cmdSave | .cmdErase | .cmdGramDisable
  | .cmdGramEnable => false

/-- A request was aborted after the bus primitives `evs` (R256 to R258): answered `st` with the response code `raw`
where one was read and nothing else, not busy, every unit idle, IT_STATE `it`. -/
structure Aborted (s t : State) (evs : List Event) (e : Env) (d : Dev) (st : Status) (raw : Option Word)
    (it : ItState) : Prop where
  history : t.history = s.history ++ evs
  env : t.env = e
  dev : t.dev = d
  outside : s.sameOutside t
  idle : t.seq.busy = false ∧ t.seq.unitsIdle
  it : t.seq.it = it
  status : t.x.status = st
  answered : t.answered st raw [] [] none

/-- How many transfers a stretch of history holds. -/
def xferCount (es : List Event) : Nat := es.countP fun e => match e with | .xfer _ _ _ _ => true | .delay _ => false

/-- How many delays a stretch of history holds. -/
def delayCount (es : List Event) : Nat := es.countP fun e => match e with | .xfer _ _ _ _ => false | .delay _ => true

/-- The bytes of device memory an instruction's own register writes reach, as (first address, how many): a register
access stores from the even address at or below its RegisterAddress (R57). For the instructions whose stores are named
by the spec itself; the bytes of a raw write, of an image and of a blob's table are the caller's or the device's. -/
def storedBytes (c : Config) : Instr → List (Nat × Nat)
  | .regWrite a data => [(2 * (a.toNat / 2), data.length)]
  | .runCmd _ | .cmdLoadComplete | .cmdFlashInit | .cmdSave | .cmdErase | .cmdGramDisable | .cmdGramEnable =>
    [(2 * (c.map.cmd.toNat / 2), 2), (2 * (c.map.swFlags.toNat / 2), 2)]
  | .bootSwitch => [(2 * (c.map.rstBoot.toNat / 2), 2)]
  | .flashSave _ =>
    [(2 * (c.map.rstBoot.toNat / 2), 2), (2 * (c.map.cmd.toNat / 2), 2), (2 * (c.map.swFlags.toNat / 2), 2),
      (2 * (c.map.chksum.toNat / 2), c.map.chksumBytes)]
  | .flashErase =>
    [(2 * (c.map.rstBoot.toNat / 2), 2), (2 * (c.map.cmd.toNat / 2), 2), (2 * (c.map.swFlags.toNat / 2), 2),
      (2 * (c.map.result.toNat / 2), 2)]
  | .hdrEncode _ _ _ | .regRead _ _ | .rawWrite _ | .loadImage _ | .grammarLoad _ | .reqReserved _
  | .selectPage _ | .noOp | .contPagedWrite _ | .directRead _ _
  | .directWrite _ _ | .pagedRead _ _ | .pagedWrite _ _ | .reserved _ _ => []

/-! What software must guarantee. The block checks none of these. -/

/-- R299: a RegisterAddress with bit 0 clear. -/
def evenAddress (a : Addr) : Bool := !a[0]

/-- R298: the access stays inside its page. -/
def insidePage (a : Addr) (size : Nat) : Bool := decide ((a.extractLsb' 0 8).toNat + size ≤ 256)

/-- R297: no direct access whose byte 0 would lie in the special opcode space. -/
def reachable (c : WireCfg) (a : Addr) (rw : Dir) (cnt : BitVec 7) : Bool :=
  !(pageOf a == 0#8) || directReachable c (offOf a) rw cnt

/-- R305: page 0xFF is for the extended window only. -/
def ordinaryPage (a : Addr) : Bool := !(pageOf a == 0xFF#8)

/-- An access software may make (R297 to R300, R305). -/
def safeAccess (c : WireCfg) (a : Addr) (size : Nat) : Bool :=
  let cnt := BitVec.ofNat 7 (size / 2 - 1)
  evenAddress a && insidePage a size && reachable c a .write cnt && reachable c a .read cnt && ordinaryPage a &&
    sizeOk size

/-- R301: an image whose blocks the transport can hold, with a block size unless its body is empty. -/
def safeImage (c : Config) (image : List Byte) : Bool :=
  let h := parseHeader c.img image
  decide ((blockBytes h.blkWords).toNat ≤ c.bufCap) && (h.blkWords != 0#16 || h.total == 0#32)

/-- R215: a block of the extended window does not cross a 256-byte boundary. -/
def safeBlock (a : DWord) (len : Nat) : Bool := decide ((a.extractLsb' 0 8).toNat + len ≤ 256)

end Sys2Proof.Machine
end

