-- ==== Sys2Proof/Certificates/Slice0/Obligations.lean ====
section
/-! DEFINITION. The statements about the model. "The bus answers" in a statement means any environment whatever that
answers the bus primitives named, in their order, as they say (`State.busAnswers`), and then lets the block take its
terminal transition (`State.busCarries`): answers laid down, the unconstrained oracle, or the reference responder. One
`exec` is one whole request (log entry 1). -/

open Sys2Proof Sys2Proof.Machine

/-! ## Encodings and decoding -/

/-- Every well-formed instruction decodes from its own encoding, every operand at every value (R70 to R76, R81, R87,
R90). That the six host command words differ is the model's own premise (log entry 16). -/
def Obligations.DecodeOfEncode : Prop :=
  ∀ (c : Config) (i : Instr), c.wf → c.cmdsDistinct → i.wf c = true → decode c (encode c i) = .ok i

/-- Every 16-bit word is one command and only one: what `Decode` of R75 reads from its two bytes is well-formed and
encodes to those bytes again. -/
def Obligations.EncodeOfDecode : Prop :=
  ∀ (c : Config) (b0 b1 : Byte), c.wf →
    (decodeWire c.wire b0 b1).toInstr.wf c = true ∧
      wordBytes c.wire (encodeWire c.wire (decodeWire c.wire b0 b1)) = [b0, b1]

/-- Words written out by hand from R71 to R76, R90 and the table decode to the instructions they stand for (at the
default parameters). -/
def Obligations.HandWordsDecode : Prop :=
  decodeWire WireCfg.default 0xFE#8 0x03#8 = .selectPage 0x03#8 ∧
  decodeWire WireCfg.default 0xFF#8 0xFF#8 = .noOp ∧
  decodeWire WireCfg.default 0xFB#8 0x02#8 = .contPagedWrite 2#7 ∧
  decodeWire WireCfg.default 0xFB#8 0x82#8 = .reserved 0xFB#8 0x82#8 ∧
  decodeWire WireCfg.default 0x83#8 0x00#8 = .directRead 3#7 0#7 ∧
  decodeWire WireCfg.default 0x99#8 0x80#8 = .directWrite 0x19#7 0#7 ∧
  decodeWire WireCfg.default 0x00#8 0x7F#8 = .pagedRead 0#7 127#7 ∧
  decodeWire WireCfg.default 0x01#8 0x81#8 = .pagedWrite 1#7 1#7 ∧
  decodeRequest { Request.blank 0x4#4 with cmd := 0x000D#16 } = .runCmd 0x000D#16 ∧
  decodeRequest (Request.blank 0x8#4) = .flashErase ∧
  decodeRequest (Request.blank 0xC#4) = .reqReserved 0xC#4

/-- A step runs the decoded instruction: a request or a host command word that an idle block is presented, a command
word of a transfer in progress, and the first command word of a transfer. After a command word the responder ends the
transfer if its bytes are used up (R29, R111; how things are presented is the model's choice, log entry 18). -/
def Obligations.StepRunsInstruction : Prop :=
  ∀ (s : State) (i : Instr), s.env.resetIn ≠ some 0 →
    (∀ r rest, s.dev.rx = [] → s.seq.busy = false → s.inbox = .request r :: rest →
      decode s.cfg (.request r) = .ok i → step s = exec i { s with inbox := rest }) ∧
    (∀ w rest, s.dev.rx = [] → s.seq.busy = false → s.inbox = .hostCommand w :: rest →
      decode s.cfg (.hostCommand w) = .ok i → step s = exec i { s with inbox := rest }) ∧
    (∀ b0 b1 t, s.dev.rx = b0 :: b1 :: t → decode s.cfg (.wire s.dev.rx) = .ok i →
      step s = match exec i { s with dev := { s.dev with rx := t } } with
        | .next u => if u.dev.rx = [] then runWire u.dev.close u else .next u
        | o => o) ∧
    (∀ b0 b1 t k rest, s.dev.rx = [] → s.inbox = .wire (b0 :: b1 :: t) k :: rest →
      decode s.cfg (.wire (b0 :: b1 :: t)) = .ok i →
      step s = match exec i { s with inbox := rest, dev := { s.dev with rx := t, want := k, tx := [] } } with
        | .next u => if u.dev.rx = [] then runWire u.dev.close u else .next u
        | o => o)

/-! ## Reset -/

/-- What reset leaves: not busy, every state register idle, RAW_VALID 0, no response pending, at `State.reset` and
wherever reset is asserted. An asserted reset issues no bus primitive and leaves the device and the parameters as they
were (R28, R280, R281, R282). How a reset is asserted (`Env.resetIn`) and that what is presented (`State.inbox`) stays
through it are the model's choice (log entry 14). The other holding registers' values are the model's choice (log
entries 7 and 8) and are not stated. Stated for a block that does not wait in a bus primitive. -/
def Obligations.AssertedReset : Prop :=
  (State.reset.seq.busy = false ∧ State.reset.seq.unitsIdle ∧ State.reset.seq.it = .idle ∧
    State.reset.x.rawValid = false ∧ State.reset.rsp = none) ∧
  ∀ s : State, s.env.resetIn = some 0 → s.env.inFlight = none →
    ∃ t, step s = .next t ∧ t.seq.busy = false ∧ t.seq.unitsIdle ∧ t.seq.it = .idle ∧ t.x.rawValid = false ∧
      t.rsp = none ∧ t.history = s.history ∧ t.dev = s.dev ∧ s.sameOutside t ∧ t.env.resetIn = none

/-- A reset that is to come after `k` steps of the block, bus primitives and terminal transitions, comes between two
bus primitives or before the terminal transition: an instruction of the block makes no more than `k` primitives; one
that is cut short made exactly `k` and leaves the block as reset does, without a response; one that ended took `k`
less what remains, its terminal transition among them (R7, R281; that `exec` runs the interrupted request as one is
the model's choice, log entries 1 and 14). -/
def Obligations.ResetBetweenPrimitives : Prop :=
  ∀ (s t : State) (i : Instr) (k : Nat), i.space ≠ .wire → s.env.resetIn = some k → exec i s = .next t →
    t.history.length ≤ s.history.length + k ∧
      (t.env.resetIn = none →
        t.history.length = s.history.length + k ∧ t.seq.busy = false ∧ t.seq.unitsIdle ∧ t.seq.it = .idle ∧
          t.x.rawValid = false ∧ t.rsp = none) ∧
      ∀ r, t.env.resetIn = some r → t.seq.busy = false → t.history.length + 1 + r = s.history.length + k

/-- The level of R7: an instruction of the block is as many steps as it makes bus primitives, and one more, the
terminal transition (or the primitive that never returns, or the reset). In between the block is busy, with no
response for a request, and the record is that of the primitives made; the last step reaches the state that `exec`
answers (R7, R29, R293; log entry 1). A request is accepted with its first step. For a host command word presented on
its own, that the block is busy meanwhile and that the response delivered last stays at the port is the model's choice
(log entries 16 and 23). -/
def Obligations.PrimitiveSteps : Prop :=
  (∀ (s t : State) (i : Instr), i.space ≠ .wire → exec i s = .next t →
    ∃ n, t.history.length = s.history.length + n ∧
      (∀ k, k < n → advance i s k = .next (.busy i s (k + 1))) ∧ advance i s n = .next (.idle t) ∧
      ∀ k, k ≤ n →
        let u := (TState.busy i s k).view
        u.seq.busy = true ∧ u.history = t.history.take (s.history.length + k) ∧
          u.rsp = (if i.space = .request then none else s.rsp) ∧ u.env.resetIn = s.env.resetIn.map (· - k)) ∧
  ∀ (s u : State) (i : Instr), fetch s = .run i u → i.space ≠ .wire →
    tStep (.idle s) = advance i u 0 ∧ step s = exec i u

/-! ## FrameEncoder -/

/-- The bytes of a header at the default layout: one access word for page 0, else a SELECT_PAGE word and an access word
(R71, R72, R100 to R104). -/
def Obligations.HeaderBytes : Prop :=
  ∀ (a : Addr) (rw : Dir) (size : Nat), 2 ≤ size → size ≤ 256 → size % 2 = 0 →
    let page := a.extractLsb' 8 8
    let off := a.extractLsb' 1 7
    let w : BitVec 1 := match rw with | .read => 0#1 | .write => 1#1
    let cnt := BitVec.ofNat 7 (size / 2 - 1)
    hdrEncode WireCfg.default a rw size =
      some (if page = 0#8 then [1#1 ++ off, w ++ cnt]
        else [0xFE#8, if page = 0xFF#8 then 0xFF#8 else page - 1, 0#1 ++ off, w ++ cnt])

/-- Decoding a header gives its operands back, for every even address whose direct form is below the special opcode
space (R109; R297). At the default layout that leaves out 0x00F4 to 0x00FE only. -/
def Obligations.HeaderRoundTrip : Prop :=
  (∀ (c : Config) (a : Addr) (rw : Dir) (size : Nat), c.wf → evenAddress a = true →
    reachable c.wire a rw (BitVec.ofNat 7 (size / 2 - 1)) = true → sizeOk size = true →
    (hdrEncode c.wire a rw size).bind (frameDecode c.wire) = some (a, rw, size)) ∧
  (∀ (a : Addr) (rw : Dir) (size : Nat), a.toNat % 2 = 0 → (a.toNat < 0xF4 ∨ 0xFE < a.toNat) → 2 ≤ size →
    size ≤ 256 → size % 2 = 0 →
    (hdrEncode WireCfg.default a rw size).bind (frameDecode WireCfg.default) = some (a, rw, size))

/-- The length law (R107): 2 bytes exactly for page 0; 4 bytes exactly otherwise, whose byte 1 is page - 1, but 0xFF for
page 0xFF; and the count field of the last word is the count, at the default layout the low 7 bits of the last byte. -/
def Obligations.HeaderLength : Prop :=
  ∀ (c : WireCfg) (a : Addr) (rw : Dir) (size : Nat) (h : List Byte), hdrEncode c a rw size = some h →
    (pageOf a = 0#8 → h.length = 2) ∧
    (pageOf a ≠ 0#8 → h.length = 4 ∧ h.getD 1 0 = if pageOf a = 0xFF#8 then 0xFF#8 else pageOf a - 1) ∧
    (c.fieldsApart → (accCnt c (wordOf c (h.getD (h.length - 2) 0) (h.getD (h.length - 1) 0))).toNat = size / 2 - 1) ∧
    (c = WireCfg.default → (h.getLastD 0).toNat % 128 = size / 2 - 1)

/-- The select value (R46): page - 1 on 0x01 to 0xFE, 0xFF for 0xFF; injective on 0x01 to 0xFF; never 0xFE. -/
def Obligations.SelectValueLaw : Prop :=
  (∀ p : Byte, 1#8 ≤ p → p ≤ 0xFE#8 → selectValue p = p - 1) ∧ selectValue 0xFF#8 = 0xFF#8 ∧
    (∀ p q : Byte, p ≠ 0 → q ≠ 0 → selectValue p = selectValue q → p = q) ∧
    ∀ p : Byte, p ≠ 0 → selectValue p ≠ 0xFE#8

/-- HDR_ENCODE of a well-formed size completes: the response carries the header; of the holding registers only x[HDR],
x[HDRLEN] and the response latches change; there is no bus primitive and no transition (R100, R106). That a direct
header leaves the last two bytes of x[HDR] as they were is the model's choice (log entry 40). -/
def Obligations.HdrEncodeCompletes : Prop :=
  ∀ (s : State) (a : Addr) (rw : Dir) (size : BitVec 16) (cnt : BitVec 7), countOf size.toNat = some cnt →
    s.env.resetIn ≠ some 0 →
    ∃ t, exec (.hdrEncode a rw size) s = .next t ∧
      t = { s with
        env := s.env.tick
        x := { s.x with
          hdr := header s.cfg.wire a rw cnt ++ s.x.hdr.drop (header s.cfg.wire a rw cnt).length
          hdrLen := BitVec.ofNat 3 (header s.cfg.wire a rw cnt).length
          status := .success, rawValid := false, countValid := false }
        seq := { s.seq with busy := false, curOp := 0x0#4 }
        rsp := t.rsp } ∧
      t.answered .success none (header s.cfg.wire a rw cnt) [] none

/-- A malformed size (R105): the header function has no value, on a malformed size only; the request HDR_ENCODE answers
INVALID_ARG with no header and does nothing else. -/
def Obligations.HdrEncodeMalformed : Prop :=
  ∀ (s : State) (a : Addr) (rw : Dir) (size : BitVec 16),
    let malformed := size.toNat = 0 ∨ 256 < size.toNat ∨ size.toNat % 2 = 1
    (hdrEncode s.cfg.wire a rw size.toNat = none ↔ malformed) ∧
    (malformed → s.env.resetIn ≠ some 0 →
      ∃ t, exec (.hdrEncode a rw size) s = .next t ∧
        t = { s with
          env := s.env.tick
          x := { s.x with status := .invalidArg, rawValid := false, countValid := false }
          seq := { s.seq with
            busy := false, curOp := 0x0#4, ra := .idle, hc := .idle, bm := .idle, fl := .idle, gl := .idle }
          rsp := t.rsp, moves := s.moves ++ [Move.aborted] } ∧
        t.answered .invalidArg none [] [] none)

/-! ## Byte order -/

/-- `ToHost(ToDev(s)) = s`, whatever the two byte orders; both keep the length (R51, R52). For an odd length, where R6
does not define the swap, this is about the model's choice (log entry 39). -/
def Obligations.ByteOrderRoundTrip : Prop :=
  ∀ (c : Config) (s : List Byte), toHost c (toDev c s) = s ∧ toDev c (toHost c s) = s ∧ (toDev c s).length = s.length ∧
    (c.hostEndian = c.devEndian → toDev c s = s) ∧
    (c.hostEndian ≠ c.devEndian → ∀ i, 2 * i + 1 < s.length →
      (toDev c s).getD (2 * i) 0 = s.getD (2 * i + 1) 0 ∧ (toDev c s).getD (2 * i + 1) 0 = s.getD (2 * i) 0)

/-- A 16-bit value (R53): its host bytes and its wire bytes in each byte order, reading two bytes as a value is the
inverse, and neither the wire image of a value nor the value read from two wire bytes depends on the host's byte
order. -/
def Obligations.ValueWireImage : Prop :=
  (∀ v : Word, bytes16 .big v = [v.extractLsb' 8 8, v.extractLsb' 0 8] ∧
    bytes16 .little v = [v.extractLsb' 0 8, v.extractLsb' 8 8]) ∧
  (∀ (e : Endian) (v : Word) (a b : Byte), val16At e (bytes16 e v) = v ∧ bytes16 e (val16At e [a, b]) = [a, b]) ∧
  ∀ (c : Config) (v : Word) (a b : Byte),
    toDev c (bytes16 c.hostEndian v) = bytes16 c.devEndian v ∧
    val16At c.hostEndian (toHost c [a, b]) = val16At c.devEndian [a, b]

/-! ## RegisterAccess -/

/-- REG_WRITE completes: one transfer of header and payload in device order, SUCCESS; RA's registers hold the access and
nothing else changes (R120, R121, R123, R130, R132). The next state's bus side and device are what the transfer made of
them. That a direct header leaves the last two bytes of x[HDR] as they were is the model's choice (log entry 40). -/
def Obligations.RegWriteCompletes : Prop :=
  ∀ (s : State) (a : Addr) (data : List Byte) (cnt : BitVec 7) (n : Nat) (e : Env) (d : Dev),
    let h := header s.cfg.wire a .write cnt
    countOf data.length = some cnt → 1 ≤ n → s.busCarries [.xfer (h ++ toDev s.cfg data) 0 n []] e d →
    ∃ t, exec (.regWrite a data) s = .next t ∧
      Ran s t [.xfer (h ++ toDev s.cfg data) 0 n []] writeMoves e d ∧
      t.seq = { s.seq with busy := false, curOp := 0x1#4, ra := .idle } ∧
      t.x = { s.x with
        addr := a, size := BitVec.ofNat 16 data.length, rw := .write
        hdr := h ++ s.x.hdr.drop h.length, hdrLen := BitVec.ofNat 3 h.length
        buf := toDev s.cfg data ++ s.x.buf.drop data.length, bufLen := data.length
        status := .success, rawValid := false, countValid := false } ∧
      t.answered .success none [] [] none

/-- REG_READ completes: one transfer of the header that receives `size` bytes, answered in host order (R120, R125, R126,
R130, R132). That a direct header leaves the last two bytes of x[HDR] as they were is the model's choice (log entry
40). -/
def Obligations.RegReadCompletes : Prop :=
  ∀ (s : State) (a : Addr) (size : BitVec 16) (cnt : BitVec 7) (n : Nat) (r : List Byte) (e : Env) (d : Dev),
    let h := header s.cfg.wire a .read cnt
    countOf size.toNat = some cnt → 1 ≤ n → r.length = size.toNat →
    s.busCarries [.xfer h size.toNat n r] e d →
    ∃ t, exec (.regRead a size) s = .next t ∧ Ran s t [.xfer h size.toNat n r] readMoves e d ∧
      t.seq = { s.seq with busy := false, curOp := 0x2#4, ra := .idle } ∧
      t.x = { s.x with
        addr := a, size := size, rw := .read
        hdr := h ++ s.x.hdr.drop h.length, hdrLen := BitVec.ofNat 3 h.length
        buf := r ++ s.x.buf.drop r.length, bufLen := r.length
        status := .success, rawValid := false, countValid := false } ∧
      t.answered .success none [] (toHost s.cfg r) none

/-- RAW_WRITE completes: one transfer of the bytes as they stand (R120, R127, R130). -/
def Obligations.RawWriteCompletes : Prop :=
  ∀ (s : State) (data : List Byte) (n : Nat) (e : Env) (d : Dev),
    1 ≤ data.length → data.length ≤ s.cfg.bufCap → 1 ≤ n → s.busCarries [.xfer data 0 n []] e d →
    ∃ t, exec (.rawWrite data) s = .next t ∧ Ran s t [.xfer data 0 n []] rawMoves e d ∧
      t.seq = { s.seq with busy := false, curOp := 0x3#4, ra := .idle } ∧
      t.x = { s.x with
        buf := data ++ s.x.buf.drop data.length, bufLen := data.length
        status := .success, rawValid := false, countValid := false } ∧
      t.answered .success none [] [] none

/-- A size RA refuses answers INVALID_ARG before any bus primitive: REG_WRITE and REG_READ of a size that is 0, odd or
above 256, RAW_WRITE of no byte or more than the buffer holds (R122, R127, R130, R251). -/
def Obligations.AccessSizeRefused : Prop :=
  ∀ s : State, s.env.resetIn ≠ some 0 →
    (∀ a data, (data.length = 0 ∨ 256 < data.length ∨ data.length % 2 = 1) →
      ∃ t, exec (.regWrite a data) s = .next t ∧ Ran s t [] [Move.ra .check, .aborted] s.env.tick s.dev ∧
        t.answered .invalidArg none [] [] none) ∧
    (∀ a size, (size.toNat = 0 ∨ 256 < size.toNat ∨ size.toNat % 2 = 1) →
      ∃ t, exec (.regRead a size) s = .next t ∧ Ran s t [] [Move.ra .check, .aborted] s.env.tick s.dev ∧
        t.answered .invalidArg none [] [] none) ∧
    (∀ data, (data.length = 0 ∨ s.cfg.bufCap < data.length) →
      ∃ t, exec (.rawWrite data) s = .next t ∧ Ran s t [] [Move.ra .check, .aborted] s.env.tick s.dev ∧
        t.answered .invalidArg none [] [] none)

/-- A transfer that reports fewer than one unit answers INTERNAL_ERR; the bytes received are discarded and nothing is
repeated: exactly that one transfer happened (R124, R130, R131, R256, R257). -/
def Obligations.TransferFailureReported : Prop :=
  ∀ (s : State) (e : Env) (d : Dev),
    (∀ a data cnt, countOf data.length = some cnt →
      let ev := Event.xfer (header s.cfg.wire a .write cnt ++ toDev s.cfg data) 0 0 []
      s.busCarries [ev] e d →
      ∃ t, exec (.regWrite a data) s = .next t ∧
        Ran s t [ev] [Move.ra .check, .ra .toDev, .ra .header, .ra .xfer, .prim, .aborted] e d ∧
        t.answered .internalErr none [] [] none) ∧
    (∀ a size cnt r, countOf size.toNat = some cnt →
      let ev := Event.xfer (header s.cfg.wire a .read cnt) size.toNat 0 r
      s.busCarries [ev] e d →
      ∃ t, exec (.regRead a size) s = .next t ∧
        Ran s t [ev] [Move.ra .check, .ra .header, .ra .xfer, .prim, .aborted] e d ∧
        t.x.buf = s.x.buf ∧ t.answered .internalErr none [] [] none) ∧
    (∀ data, 1 ≤ data.length → data.length ≤ s.cfg.bufCap →
      s.busCarries [.xfer data 0 0 []] e d →
      ∃ t, exec (.rawWrite data) s = .next t ∧
        Ran s t [.xfer data 0 0 []] [Move.ra .check, .ra .xfer, .prim, .aborted] e d ∧
        t.answered .internalErr none [] [] none)

/-- Writing N bytes at an address and reading N bytes there returns the bytes written, at the reference responder,
whatever the host's byte order (R52). The address and size are ones software may use (R297 to R300, R305). -/
def Obligations.WriteThenRead : Prop :=
  ∀ (s : State) (a : Addr) (data : List Byte), s.Inv → s.env.script = [] → s.env.device = .responder → s.noReset →
    safeAccess s.cfg.wire a data.length = true →
    ∃ t u, exec (.regWrite a data) s = .next t ∧ exec (.regRead a (BitVec.ofNat 16 data.length)) t = .next u ∧
      t.answered .success none [] [] none ∧ u.answered .success none [] data none ∧
      ∀ b, (b < a.toNat ∨ a.toNat + data.length ≤ b) → u.dev.mem.read b = s.dev.mem.read b

/-! ## HostCommandProtocol -/

/-- RUN_CMD completes: exactly the reads of the two phases with their delays and the two writes between them, SUCCESS,
no response code read; x[CMDOP] holds the word, x[VAL] 0, x[POLLCNT] the reads of phase 3, RA and HC are idle; no other
holding register but those of RA changes (R141 to R146, R148, R151). -/
def Obligations.RunCmdCompletes : Prop :=
  ∀ (s : State) (cmd : Word) (r : CmdRun) (e : Env) (d : Dev), r.ok s.cfg = true →
    s.busCarries (r.events s.cfg cmd) e d →
    ∃ t, exec (.runCmd cmd) s = .next t ∧ Ran s t (r.events s.cfg cmd) r.moves e d ∧
      t.seq = { s.seq with busy := false, curOp := 0x4#4, ra := .idle, hc := .idle } ∧
      s.x.latched t.x .success none none ∧ t.x.cmdOp = cmd ∧ t.x.val = 0#16 ∧ t.x.pollCnt = r.done.length ∧
      t.answered .success none [] [] none

/-- The bound is exact (R145, R152): as many failing reads as `POLL_BOUND` says, and RESOURCE_ERR right after the last.
In phase 1 nothing was written; in phase 3 the command and the notify were. -/
def Obligations.RunCmdBound : Prop :=
  ∀ (s : State) (cmd : Word) (e : Env) (d : Dev), 1 ≤ s.cfg.pollBound →
    (∀ ps, pollFails (fun v => !busyFlag v) ps = true → ps.length = s.cfg.pollBound →
      s.busCarries (pollEvents s.cfg s.cfg.map.swFlags ps) e d →
      ∃ t, exec (.runCmd cmd) s = .next t ∧
        Ran s t (pollEvents s.cfg s.cfg.map.swFlags ps)
          ([Move.hc .waitIdle] ++ pollMoves ps.length ++ [Move.aborted]) e d ∧
        t.seq.busy = false ∧ t.seq.unitsIdle ∧ t.x.pollCnt = s.cfg.pollBound ∧
        t.answered .resourceErr none [] [] none) ∧
    (∀ (ps qs : List (Nat × Word)) (n m : Nat), pollPasses (fun v => !busyFlag v) ps = true →
      ps.length ≤ s.cfg.pollBound → 1 ≤ n → 1 ≤ m → pollFails commandDone qs = true → qs.length = s.cfg.pollBound →
      let evs := pollEvents s.cfg s.cfg.map.swFlags ps ++
        [write16 s.cfg s.cfg.map.cmd n cmd, write16 s.cfg s.cfg.map.swFlags m 1#16] ++
        pollEvents s.cfg s.cfg.map.done qs
      s.busCarries evs e d →
      ∃ t, exec (.runCmd cmd) s = .next t ∧ t.history = s.history ++ evs ∧ t.env = e ∧ t.dev = d ∧
        t.seq.busy = false ∧ t.seq.unitsIdle ∧ t.x.pollCnt = s.cfg.pollBound ∧ t.answered .resourceErr none [] [] none)

/-- A failed transfer ends RUN_CMD with INTERNAL_ERR at once, whichever it is of the transfers of a handshake: a poll
read of phase 1 or of phase 3, however many reads came before it in its phase (it is not counted as "still busy" and
not repeated), the command write, the notify write; what came before is not undone (R147, R256, R257, R260, R264). -/
def Obligations.RunCmdTransferFails : Prop :=
  ∀ (s : State) (cmd : Word) (r : CmdRun) (pre : List Event) (bad : Event) (e : Env) (d : Dev), r.ok s.cfg = true →
    FailsAfter (r.events s.cfg cmd) pre bad → s.busCarries (pre ++ [bad]) e d →
    ∃ t, exec (.runCmd cmd) s = .next t ∧ Aborted s t (pre ++ [bad]) e d .internalErr none s.seq.it ∧ t.x.cmdOp = cmd

/-- However one RUN_CMD ends, it makes at most `2 * POLL_BOUND + 2` transfers and `2 * (POLL_BOUND - 1)` delays
(R308). -/
def Obligations.RunCmdCounts : Prop :=
  ∀ (s t : State) (cmd : Word), 1 ≤ s.cfg.pollBound → exec (.runCmd cmd) s = .next t →
    ∃ evs, t.history = s.history ++ evs ∧ xferCount evs ≤ 2 * s.cfg.pollBound + 2 ∧
      delayCount evs ≤ 2 * (s.cfg.pollBound - 1)

/-! ## ImageTransport and the boot-mode transition controller -/

/-- BOOT_SWITCH completes, on a device in boot mode with one read, on a running one with the reset, the delay and the
verification; BM_STATE ends idle (R170, R171, R172). -/
def Obligations.BootSwitchCompletes : Prop :=
  ∀ (s : State) (r : BootRun) (e : Env) (d : Dev), r.ok s.cfg = true → s.busCarries (r.events s.cfg) e d →
    ∃ t, exec .bootSwitch s = .next t ∧ Ran s t (r.events s.cfg) r.moves e d ∧
      t.seq = { s.seq with busy := false, curOp := 0x5#4, ra := .idle, bm := .idle } ∧
      s.x.latched t.x .success none none ∧ t.x.cmdOp = s.x.cmdOp ∧ t.x.pollCnt = s.x.pollCnt ∧
      t.answered .success none [] [] none

/-- BOOT_SWITCH fails with INTERNAL_ERR on a device that does not show the magic value after the delay, after one
verification, and on any of its transfers that fails: the read of the running-app bit, the write of the reset, the read
of the verification (R170, R171, R252, R256, R257). -/
def Obligations.BootSwitchFails : Prop :=
  ∀ (s : State) (e : Env) (d : Dev),
    (∀ (n w m : Nat) (v u : Word), 1 ≤ n → 1 ≤ w → 1 ≤ m → appRunning s.cfg v = true → u ≠ s.cfg.map.bootMagic →
      s.busCarries (bootMismatch s.cfg n v w m u) e d →
      ∃ t, exec .bootSwitch s = .next t ∧
        Aborted s t (bootMismatch s.cfg n v w m u) e d .internalErr none s.seq.it) ∧
    (∀ (r : BootRun) (pre : List Event) (bad : Event), r.ok s.cfg = true → FailsAfter (r.events s.cfg) pre bad →
      s.busCarries (pre ++ [bad]) e d →
      ∃ t, exec .bootSwitch s = .next t ∧ Aborted s t (pre ++ [bad]) e d .internalErr none s.seq.it)

/-- LOAD_IMAGE of a configuration image completes: every chunk in order, one raw write each, no boot-mode check, no
command, SUCCESS, IT Done, the cursor past the body, the image registers as the header says (R160 to R168, R175 to
R178). -/
def Obligations.LoadConfigurationCompletes : Prop :=
  ∀ (s : State) (image : List Byte) (runs : List ChunkRun) (e : Env) (d : Dev),
    let h := parseHeader s.cfg.img image
    let chunks := chunksOf (blockBytes h.blkWords).toNat (imageBody h image)
    12 ≤ image.length → (blockBytes h.blkWords).toNat ≤ s.cfg.bufCap → h.type = s.cfg.img.cfg →
    h.type ≠ s.cfg.img.fw → 12 + h.total.toNat ≤ image.length → (h.blkWords ≠ 0#16 ∨ h.total = 0#32) →
    runs.length = chunks.length → (∀ r ∈ runs, r.ok s.cfg false = true) →
    s.busCarries (chunkEvents s.cfg chunks runs) e d →
    ∃ t, exec (.loadImage image) s = .next t ∧
      Ran s t (chunkEvents s.cfg chunks runs)
        ([Move.it .idle, .it .headerParsed, .it .streaming] ++ runs.flatMap ChunkRun.moves ++ [Move.it .done]) e d ∧
      chunks.flatten = (image.drop 12).take h.total.toNat ∧
      t.seq.busy = false ∧ t.seq.curOp = 0x6#4 ∧ t.seq.it = .done ∧ (s.seq.unitsIdle → t.seq.unitsIdle) ∧
      t.x.imgPos.toNat = 12 + h.total.toNat ∧ t.x.imgRem = 0#32 ∧ t.x.ihMajor = h.major ∧ t.x.ihMinor = h.minor ∧
      t.x.ihType = h.type ∧ t.x.ihEndian = h.endian ∧ t.x.ihCode = h.code ∧ t.x.ihBlkWords = h.blkWords ∧
      t.x.ihTotal = h.total ∧ t.x.ihRsvd = h.rsvd ∧ t.x.blkSize = blockBytes h.blkWords ∧
      t.x.cmdOp = s.x.cmdOp ∧ t.x.flashCnt = s.x.flashCnt ∧ t.x.rawValid = false ∧ t.x.rawResp = s.x.rawResp ∧
      t.answered .success none [] [] none

/-- LOAD_IMAGE of a firmware image completes: a boot-mode switch and a raw write for every chunk in order, then the
"loading complete" handshake and the read of its result, which is success: SUCCESS, IT Done, the raw code latched
(R160, R165 to R167, R173, R174, R176, R177). That the raw write after the boot-mode switch sends the chunk's own
bytes, and not what the switch's reads left in x[BUF], is the model's choice between R160's line and R166, R167 (log
entry 38). -/
def Obligations.LoadFirmwareCompletes : Prop :=
  ∀ (s : State) (image : List Byte) (runs : List ChunkRun) (r : CmdRun) (n : Nat) (e : Env) (d : Dev),
    let h := parseHeader s.cfg.img image
    let chunks := chunksOf (blockBytes h.blkWords).toNat (imageBody h image)
    let evs := chunkEvents s.cfg chunks runs ++ r.events s.cfg s.cfg.cmds.loadComplete ++
      [read16 s.cfg s.cfg.map.result n s.cfg.resp.success]
    12 ≤ image.length → (blockBytes h.blkWords).toNat ≤ s.cfg.bufCap → h.type = s.cfg.img.fw →
    12 + h.total.toNat ≤ image.length → (h.blkWords ≠ 0#16 ∨ h.total = 0#32) →
    runs.length = chunks.length → (∀ q ∈ runs, q.ok s.cfg true = true) → r.ok s.cfg = true → 1 ≤ n →
    s.busCarries evs e d →
    ∃ t, exec (.loadImage image) s = .next t ∧
      Ran s t evs ([Move.it .idle, .it .headerParsed, .it .streaming] ++ runs.flatMap ChunkRun.moves ++
        [Move.it .concluding] ++ r.moves ++ readMoves ++ [Move.it .done]) e d ∧
      t.seq.busy = false ∧ t.seq.curOp = 0x6#4 ∧ t.seq.it = .done ∧ (s.seq.unitsIdle → t.seq.unitsIdle) ∧
      t.x.imgPos.toNat = 12 + h.total.toNat ∧ t.x.imgRem = 0#32 ∧ t.x.ihType = h.type ∧ t.x.ihTotal = h.total ∧
      t.x.blkSize = blockBytes h.blkWords ∧ t.x.cmdOp = s.cfg.cmds.loadComplete ∧ t.x.flashCnt = s.x.flashCnt ∧
      t.answered .success (some s.cfg.resp.success) [] [] none

/-- The result of "loading complete" that is not success: "incompatible app" answers INCOMPAT_APP, every other value
COMMAND_ERR; IT Failed, the raw code latched (R174, R254, R255, R257, R258). The bytes of the chunks sent before it,
after the boot-mode switches, are the model's choice (log entry 38). -/
def Obligations.LoadResultRaises : Prop :=
  ∀ (s : State) (image : List Byte) (runs : List ChunkRun) (r : CmdRun) (n : Nat) (v : Word) (e : Env) (d : Dev),
    let h := parseHeader s.cfg.img image
    let chunks := chunksOf (blockBytes h.blkWords).toNat (imageBody h image)
    let evs := chunkEvents s.cfg chunks runs ++ r.events s.cfg s.cfg.cmds.loadComplete ++
      [read16 s.cfg s.cfg.map.result n v]
    s.cfg.wf → 12 ≤ image.length → (blockBytes h.blkWords).toNat ≤ s.cfg.bufCap → h.type = s.cfg.img.fw →
    12 + h.total.toNat ≤ image.length → (h.blkWords ≠ 0#16 ∨ h.total = 0#32) →
    runs.length = chunks.length → (∀ q ∈ runs, q.ok s.cfg true = true) → r.ok s.cfg = true → 1 ≤ n →
    v ≠ s.cfg.resp.success → s.busCarries evs e d →
    ∃ t, exec (.loadImage image) s = .next t ∧
      Aborted s t evs e d (if v = s.cfg.resp.incompatApp then .incompatApp else .commandErr) (some v) .failed

/-- LOAD_IMAGE is aborted by the first thing that fails inside it, IT Failed, nothing sent after it, and what was sent
before it the beginning of what the whole load sends: a failed transfer of a chunk, of its boot-mode switch, of the
"loading complete" handshake or of the read of its result answers INTERNAL_ERR; a boot-mode switch of chunk `j` that
does not verify INTERNAL_ERR; a handshake that uses up the reads of a phase RESOURCE_ERR (R147, R169, R171, R253,
R256, R257). The bytes of a firmware chunk, sent after the boot-mode switch, are the model's choice (log entry 38). -/
def Obligations.LoadImageAborts : Prop :=
  ∀ (s : State) (image : List Byte) (runs : List ChunkRun) (r : CmdRun) (n : Nat) (e : Env) (d : Dev),
    let h := parseHeader s.cfg.img image
    let chunks := chunksOf (blockBytes h.blkWords).toNat (imageBody h image)
    let fw := h.type == s.cfg.img.fw
    let sent := chunkEvents s.cfg chunks runs
    let evs := sent ++ (if fw then
      r.events s.cfg s.cfg.cmds.loadComplete ++ [read16 s.cfg s.cfg.map.result n s.cfg.resp.success] else [])
    12 ≤ image.length → (blockBytes h.blkWords).toNat ≤ s.cfg.bufCap →
    (h.type = s.cfg.img.fw ∨ h.type = s.cfg.img.cfg) → 12 + h.total.toNat ≤ image.length →
    (h.blkWords ≠ 0#16 ∨ h.total = 0#32) → runs.length = chunks.length → (∀ q ∈ runs, q.ok s.cfg fw = true) →
    r.ok s.cfg = true → 1 ≤ n →
    (∀ pre bad, FailsAfter evs pre bad → s.busCarries (pre ++ [bad]) e d →
      ∃ t, exec (.loadImage image) s = .next t ∧ Aborted s t (pre ++ [bad]) e d .internalErr none .failed) ∧
    (∀ j m v w q u, fw = true → j < chunks.length → 1 ≤ m → 1 ≤ w → 1 ≤ q → appRunning s.cfg v = true →
      u ≠ s.cfg.map.bootMagic →
      let part := chunkEvents s.cfg (chunks.take j) (runs.take j) ++ bootMismatch s.cfg m v w q u
      s.busCarries part e d →
      ∃ t, exec (.loadImage image) s = .next t ∧ Aborted s t part e d .internalErr none .failed) ∧
    (∀ stuck : CmdStuck, fw = true → stuck.ok s.cfg = true → 1 ≤ s.cfg.pollBound →
      let part := sent ++ stuck.events s.cfg s.cfg.cmds.loadComplete
      s.busCarries part e d →
      ∃ t, exec (.loadImage image) s = .next t ∧ Aborted s t part e d .resourceErr none .failed)

/-- The chunks that LOAD_IMAGE sends (R85, R165, R166): chunk `k` is the `k`-th stretch of `IH_BLKWORDS * 2` bytes of
the `IH_TOTAL` bytes after the header; every chunk is a whole block but the last, which is `IH_TOTAL mod` the block
size where that is not zero; and there are as many as the body needs. -/
def Obligations.ChunkLengths : Prop :=
  ∀ (c : ImgCfg) (image : List Byte),
    let h := parseHeader c image
    let blk := h.blkWords.toNat * 2
    let body := (image.drop 12).take h.total.toNat
    let chunks := chunksOf (blockBytes h.blkWords).toNat (imageBody h image)
    12 + h.total.toNat ≤ image.length → h.blkWords ≠ 0#16 →
    chunks.length = (h.total.toNat + blk - 1) / blk ∧
    (∀ k, k < chunks.length → chunks.getD k [] = (body.drop (k * blk)).take blk) ∧
    (∀ k, k + 1 < chunks.length → (chunks.getD k []).length = blk) ∧
    (h.total ≠ 0#32 →
      (chunks.getLastD []).length = if h.total.toNat % blk = 0 then blk else h.total.toNat % blk) ∧
    chunks.flatten = body

/-- The checks of LOAD_IMAGE in their order (R161, R163, R164, R260): shorter than 12 bytes INVALID_ARG, else a block
above the buffer RESOURCE_ERR, else an unknown type INVALID_ARG, else shorter than the body INVALID_ARG; no bus
primitive, IT Failed. A block size of 0 with a body has no behaviour: refused, once every check passed (R179). -/
def Obligations.LoadChecksInOrder : Prop :=
  ∀ (s : State) (image : List Byte),
    let h := parseHeader s.cfg.img image
    (∀ st : Status,
      (if image.length < 12 then some .invalidArg
        else if s.cfg.bufCap < (blockBytes h.blkWords).toNat then some .resourceErr
        else if h.type ≠ s.cfg.img.fw ∧ h.type ≠ s.cfg.img.cfg then some .invalidArg
        else if image.length < 12 + h.total.toNat then some .invalidArg
        else none) = some st → s.env.resetIn ≠ some 0 →
      ∃ t, exec (.loadImage image) s = .next t ∧ Aborted s t [] s.env.tick s.dev st none .failed) ∧
    (12 ≤ image.length → (h.type = s.cfg.img.fw ∨ h.type = s.cfg.img.cfg) → 12 + h.total.toNat ≤ image.length →
      h.blkWords = 0#16 → h.total ≠ 0#32 → exec (.loadImage image) s = .refused .zeroBlockSize)

/-- The cursor while an image streams: position and rest make up header and body, before and after every step (R20). -/
def Obligations.CursorInvariant : Prop :=
  ∀ s t : State, s.cursorLegal → step s = .next t → t.cursorLegal

/-! ## Flash -/

/-- FLASH_SAVE completes: boot-mode switch, flash-init with result OK, zeros to the checksum register, save with result
success, and the image count where it was asked for (R190 to R194, R199). -/
def Obligations.FlashSaveCompletes : Prop :=
  ∀ (s : State) (want : Bool) (boot : BootRun) (init : InitRun) (zeroed : Nat) (save : CmdRun) (read : Nat) (n : Nat)
    (v : Word) (e : Env) (d : Dev),
    let c := s.cfg
    let evs := boot.events c ++ init.events c c.resp.finitOk ++
      [Event.xfer (header c.wire c.map.chksum .write (BitVec.ofNat 7 (c.map.chksumBytes / 2 - 1)) ++
        List.replicate c.map.chksumBytes 0#8) 0 zeroed []] ++
      save.events c c.cmds.save ++ [read16 c c.map.result read c.resp.success] ++
      (if want then [read16 c c.map.flashCount n v] else [])
    c.wf → boot.ok c = true → init.cmd.ok c = true → 1 ≤ init.read → 1 ≤ zeroed → save.ok c = true → 1 ≤ read → 1 ≤ n →
    s.busCarries evs e d →
    ∃ t, exec (.flashSave want) s = .next t ∧
      Ran s t evs ([Move.it .concluding, .fl .boot] ++ boot.moves ++ init.moves ++ [Move.fl .prep] ++ writeMoves ++
        [Move.fl .cmd] ++ save.moves ++ [Move.fl .result] ++ readMoves ++
        (if want then .fl .count :: readMoves else []) ++ [Move.fl .idle, .it .done]) e d ∧
      t.seq = { s.seq with
        busy := false, curOp := 0x7#4, ra := .idle, hc := .idle, bm := .idle, fl := .idle, it := .done } ∧
      s.x.latched t.x .success (some c.resp.success) (if want then some v else none) ∧ t.x.cmdOp = c.cmds.save ∧
      t.answered .success (some c.resp.success) [] [] (if want then some v else none)

/-- FLASH_ERASE completes: the read of the running-app bit, a boot-mode switch only where it is set (which reads it
again), flash-init with result OK, the erase-confirm value, erase with result success (R195 to R199). -/
def Obligations.FlashEraseCompletes : Prop :=
  ∀ (s : State) (n : Nat) (f : Word) (boot : BootRun) (init : InitRun) (magic : Nat) (erase : CmdRun) (read : Nat)
    (e : Env) (d : Dev),
    let c := s.cfg
    let evs := [read16 c c.map.curFw n f] ++ (if appRunning c f then boot.events c else []) ++
      init.events c c.resp.finitOk ++ [write16 c c.map.result magic c.map.eraseMagic] ++
      erase.events c c.cmds.erase ++ [read16 c c.map.result read c.resp.success]
    1 ≤ n → (appRunning c f = true → boot.ok c = true) → init.cmd.ok c = true → 1 ≤ init.read → 1 ≤ magic →
    erase.ok c = true → 1 ≤ read → s.busCarries evs e d →
    ∃ t, exec .flashErase s = .next t ∧
      Ran s t evs ([Move.it .concluding, .fl .boot] ++ readMoves ++ (if appRunning c f then boot.moves else []) ++
        init.moves ++ [Move.fl .prep] ++ writeMoves ++ [Move.fl .cmd] ++ erase.moves ++ [Move.fl .result] ++
        readMoves ++ [Move.fl .idle, .it .done]) e d ∧
      t.seq = { s.seq with
        busy := false, curOp := 0x8#4, ra := .idle, hc := .idle, bm := if appRunning c f then .idle else s.seq.bm,
        fl := .idle, it := .done } ∧
      s.x.latched t.x .success (some c.resp.success) none ∧ t.x.cmdOp = c.cmds.erase ∧
      t.answered .success (some c.resp.success) [] [] none

/-- The result mappings of FLASH_SAVE and FLASH_ERASE on failure, IT Failed, the raw code latched. A flash-init result
that is not OK ends both alike: "no device" with NO_FLASH_PRESENT, every other value with INTERNAL_ERR, compared in
the flash-init space only. A result of save that is not success: "flash full" answers FLASH_FULL, every other value
COMMAND_ERR. A result of erase that is not success maps to BAD_IMAGE, INCOMPAT_APP, NO_FLASH_PRESENT or COMMAND_ERR
(R191, R193, R198, R200, R252, R254, R255, R257, R258). -/
def Obligations.FlashResultRaises : Prop :=
  ∀ (s : State) (i : Instr) (op : FlashOp) (r : FlashRun) (v : Word) (e : Env) (d : Dev),
    let c := s.cfg
    op.isInstr i → c.wf → r.ok c op = true →
    (v ≠ c.resp.finitOk → s.busCarries (r.initEvents c op v) e d →
      ∃ t, exec i s = .next t ∧ Aborted s t (r.initEvents c op v) e d
        (if v = c.resp.finitNoDev then .noFlashPresent else .internalErr) (some v) .failed) ∧
    (v ≠ c.resp.success → s.busCarries (r.events c op v) e d →
      ∃ t, exec i s = .next t ∧ Aborted s t (r.events c op v) e d
        (match op with
          | .save => if v = c.resp.flashFull then .flashFull else .commandErr
          | .erase =>
            if v = c.resp.badImage then .badImage else if v = c.resp.incompatApp then .incompatApp
            else if v = c.resp.noFlash then .noFlashPresent else .commandErr) (some v) .failed)

/-- FLASH_SAVE and FLASH_ERASE are aborted by the first thing that fails inside them, IT Failed, what was sent before
it the beginning of what the whole operation sends: any failed transfer, the image-count readback of a save that
succeeded among them, answers INTERNAL_ERR; a boot-mode switch that does not verify INTERNAL_ERR; a handshake that
uses up the reads of a phase RESOURCE_ERR. The raw code is the last result read before (R147, R171, R194, R253, R256,
R257, R258). -/
def Obligations.FlashAborts : Prop :=
  ∀ (s : State) (i : Instr) (op : FlashOp) (r : FlashRun) (count : Option (Nat × Word)) (e : Env) (d : Dev),
    let c := s.cfg
    let init := r.initEvents c op c.resp.finitOk
    let result := r.events c op c.resp.success
    let evs := result ++ (match count with | some p => [read16 c c.map.flashCount p.1 p.2] | none => [])
    op.isInstr i → (count = none ∨ i = .flashSave true) → c.wf → r.ok c op = true →
    (∀ pre bad, FailsAfter evs pre bad → s.busCarries (pre ++ [bad]) e d →
      ∃ t, exec i s = .next t ∧ Aborted s t (pre ++ [bad]) e d .internalErr
        (if pre.length < init.length then none else if pre.length < result.length then some c.resp.finitOk
          else some c.resp.success) .failed) ∧
    (∀ m v w q u, 1 ≤ m → 1 ≤ w → 1 ≤ q → appRunning c v = true → u ≠ c.map.bootMagic →
      (op = .erase → appRunning c r.first.2 = true) →
      let part := op.firstEvents c r ++ bootMismatch c m v w q u
      s.busCarries part e d →
      ∃ t, exec i s = .next t ∧ Aborted s t part e d .internalErr none .failed) ∧
    (∀ stuck : CmdStuck, stuck.ok c = true →
      let part := r.bootEvents c op ++ stuck.events c c.cmds.flashInit
      s.busCarries part e d →
      ∃ t, exec i s = .next t ∧ Aborted s t part e d .resourceErr none .failed) ∧
    (∀ stuck : CmdStuck, stuck.ok c = true →
      let part := init ++ [op.prepEvent c r.prep] ++ stuck.events c (op.word c)
      s.busCarries part e d →
      ∃ t, exec i s = .next t ∧ Aborted s t part e d .resourceErr (some c.resp.finitOk) .failed)

/-! ## GrammarSegmentLoader and the reserved operations -/

/-- GRAMMAR_LOAD completes where the unit is present: the capacity reads, disable and wait, every block through the
extended window in order, the segment table, enable and wait, with the transitions of GL_STATE (R211 to R218). The
blob is of even length: an odd one is in GrammarAborts. Where the segment table already counts 0xFFFF entries the
count written back is 0, which R217 does not treat: that is log entry 26 (DEDUCED). That no response is read between
the two commands, as R211 has it against R150 and R64, is the model's choice (log entry 42). -/
def Obligations.GrammarLoadCompletes : Prop :=
  ∀ (s : State) (blob : List Byte) (start max : DWord) (n m : Nat) (off on : CmdRun) (ps qs : List (Nat × Word))
    (units : List (Nat × Nat)) (table : TableRun) (e : Env) (d : Dev),
    let c := s.cfg
    let blocks := chunksOf c.gram.block blob
    let evs := [read32 c c.gram.segStart n start, read32 c c.gram.segMax m max] ++ off.events c c.cmds.gramDisable ++
      pollEvents c c.gram.status ps ++ blockEvents c start (blocks.zip units) ++
      table.events c start (BitVec.ofNat 32 blob.length) ++ on.events c c.cmds.gramEnable ++
      pollEvents c c.gram.status qs
    c.wf → c.hasGrammar = true → blob.length % 2 = 0 → start.toNat + blob.length + 1 ≤ max.toNat → 1 ≤ n → 1 ≤ m →
    off.ok c = true → pollPasses (fun v => v != c.gram.busy) ps = true → ps.length ≤ c.pollBound →
    units.length = blocks.length → (∀ u ∈ units, 1 ≤ u.1 ∧ 1 ≤ u.2) → table.ok start = true → on.ok c = true →
    pollPasses (fun v => v != c.gram.busy) qs = true → qs.length ≤ c.pollBound → s.busCarries evs e d →
    ∃ t, exec (.grammarLoad blob) s = .next t ∧
      Ran s t evs ([Move.gl .capacity] ++ readMoves ++ readMoves ++ [Move.gl .disable] ++ off.moves ++
        [Move.gl .wait1] ++ pollMoves ps.length ++ [Move.gl .stream] ++ blockMoves blocks.length ++ [Move.gl .table] ++
        table.moves ++ [Move.gl .enable] ++ on.moves ++ [Move.gl .wait2] ++ pollMoves qs.length ++
        [Move.gl .idle]) e d ∧
      blocks.flatten = blob ∧
      t.seq = { s.seq with busy := false, curOp := 0x9#4, ra := .idle, hc := .idle, gl := .idle } ∧
      s.x.latched t.x .success none none ∧ t.x.cmdOp = c.cmds.gramEnable ∧ t.answered .success none [] [] none

/-- A blob above `max - start - 1` bytes, or a capacity that would wrap: RESOURCE_ERR after the two reads, nothing
written (R213, R253). -/
def Obligations.GrammarCapacityRefused : Prop :=
  ∀ (s : State) (blob : List Byte) (start max : DWord) (n m : Nat) (e : Env) (d : Dev),
    let evs := [read32 s.cfg s.cfg.gram.segStart n start, read32 s.cfg s.cfg.gram.segMax m max]
    s.cfg.hasGrammar = true → 1 ≤ n → 1 ≤ m → max.toNat < start.toNat + blob.length + 1 → s.busCarries evs e d →
    ∃ t, exec (.grammarLoad blob) s = .next t ∧ Aborted s t evs e d .resourceErr none s.seq.it

/-- GRAMMAR_LOAD is aborted by the first thing that fails inside it, IT_STATE as it was, what was sent before it the
beginning of what the whole load sends: any failed transfer answers INTERNAL_ERR; a handshake or a busy wait that uses
up its reads RESOURCE_ERR; and the last block of a blob of odd length INVALID_ARG, after the window's base was written
for it (R122, R147, R211, R214, R218, R253, R256, R257). Log entries 26 and 42 as in GrammarLoadCompletes. -/
def Obligations.GrammarAborts : Prop :=
  ∀ (s : State) (blob : List Byte) (start max : DWord) (n m : Nat) (off on : CmdRun) (ps qs : List (Nat × Word))
    (units : List (Nat × Nat)) (table : TableRun) (e : Env) (d : Dev),
    let c := s.cfg
    let blocks := chunksOf c.gram.block blob
    let caps := [read32 c c.gram.segStart n start, read32 c c.gram.segMax m max]
    let disabled := caps ++ off.events c c.cmds.gramDisable
    let waited := disabled ++ pollEvents c c.gram.status ps
    let streamed := waited ++ blockEvents c start (blocks.zip units)
    let tabled := streamed ++ table.events c start (BitVec.ofNat 32 blob.length)
    let enabled := tabled ++ on.events c c.cmds.gramEnable
    let evs := enabled ++ pollEvents c c.gram.status qs
    let aborts := fun (part : List Event) (st : Status) => s.busCarries part e d →
      ∃ t, exec (.grammarLoad blob) s = .next t ∧ Aborted s t part e d st none s.seq.it
    c.wf → c.hasGrammar = true → start.toNat + blob.length + 1 ≤ max.toNat → 1 ≤ n → 1 ≤ m →
    off.ok c = true → pollPasses (fun v => v != c.gram.busy) ps = true → ps.length ≤ c.pollBound →
    units.length = blocks.length → (∀ u ∈ units, 1 ≤ u.1 ∧ 1 ≤ u.2) → table.ok start = true → on.ok c = true →
    pollPasses (fun v => v != c.gram.busy) qs = true → qs.length ≤ c.pollBound →
    (blob.length % 2 = 0 → ∀ pre bad, FailsAfter evs pre bad → aborts (pre ++ [bad]) .internalErr) ∧
    (∀ stuck : CmdStuck, stuck.ok c = true → aborts (caps ++ stuck.events c c.cmds.gramDisable) .resourceErr) ∧
    (∀ reads, pollFails (fun v => v != c.gram.busy) reads = true → reads.length = c.pollBound →
      aborts (disabled ++ pollEvents c c.gram.status reads) .resourceErr) ∧
    (∀ stuck : CmdStuck, blob.length % 2 = 0 → stuck.ok c = true →
      aborts (tabled ++ stuck.events c c.cmds.gramEnable) .resourceErr) ∧
    (∀ reads, blob.length % 2 = 0 → pollFails (fun v => v != c.gram.busy) reads = true → reads.length = c.pollBound →
      aborts (enabled ++ pollEvents c c.gram.status reads) .resourceErr) ∧
    (blob.length % 2 = 1 → ∀ base, 1 ≤ base →
      let whole := blocks.dropLast
      aborts (waited ++ blockEvents c start (whole.zip units) ++
        [write32 c c.gram.extAddr base ((start + BitVec.ofNat 32 whole.flatten.length) &&& 0xFFFFFF00#32)])
        .invalidArg)

/-- A reserved operation code, and GRAMMAR_LOAD where the unit is absent, complete with INVALID_ARG and no bus activity;
only the response latches and the bookkeeping of the request change (R90, R251). -/
def Obligations.ReservedOperationsAnswered : Prop :=
  ∀ (s : State) (i : Instr) (op : BitVec 4),
    (i = .reqReserved op ∨ (s.cfg.hasGrammar = false ∧ op = 0x9#4 ∧ ∃ blob, i = .grammarLoad blob)) →
    s.env.resetIn ≠ some 0 →
    ∃ t, exec i s = .next t ∧
      t = { s with
        env := s.env.tick
        x := { s.x with status := .invalidArg, rawValid := false, countValid := false }
        seq := { s.seq with
          busy := false, curOp := op, ra := .idle, hc := .idle, bm := .idle, fl := .idle, gl := .idle }
        rsp := t.rsp, moves := s.moves ++ [Move.aborted] } ∧
      t.answered .invalidArg none [] [] none

/-! ## Host command words on their own

What the block does with one is the model's choice (log entry 16): the handshake and the result mapping are the
spec's (R141, R173, R174, R191, R193, R198, R214, R218). -/

/-- The four numbered words complete: the handshake with the word, the read of the result, which is the code that stands
for success in its space, latched; no request's response is touched. -/
def Obligations.CommandWordsComplete : Prop :=
  ∀ (s : State) (i : Instr) (cmd v : Word) (r : CmdRun) (n : Nat) (e : Env) (d : Dev),
    ((i = .cmdLoadComplete ∧ cmd = s.cfg.cmds.loadComplete ∧ v = s.cfg.resp.success) ∨
      (i = .cmdFlashInit ∧ cmd = s.cfg.cmds.flashInit ∧ v = s.cfg.resp.finitOk) ∨
      (i = .cmdSave ∧ cmd = s.cfg.cmds.save ∧ v = s.cfg.resp.success) ∨
      (i = .cmdErase ∧ cmd = s.cfg.cmds.erase ∧ v = s.cfg.resp.success)) →
    r.ok s.cfg = true → 1 ≤ n → s.busCarries (r.events s.cfg cmd ++ [read16 s.cfg s.cfg.map.result n v]) e d →
    ∃ t, exec i s = .next t ∧
      Ran s t (r.events s.cfg cmd ++ [read16 s.cfg s.cfg.map.result n v]) (r.moves ++ readMoves) e d ∧
      t.seq = { s.seq with busy := false, ra := .idle, hc := .idle } ∧ s.x.sameImage t.x ∧ t.x.cmdOp = cmd ∧
      t.x.val = v ∧ t.x.rawResp = v ∧ t.x.rawValid = true ∧ t.x.status = .success ∧ t.x.flashCnt = s.x.flashCnt ∧
      t.x.countValid = s.x.countValid ∧ t.rsp = s.rsp

/-- The two grammar words complete where the unit is present: the handshake with the word, then the wait until the
status register no longer shows the busy sentinel. Where the unit is absent they are refused by name (log entry 34). -/
def Obligations.GrammarWordsComplete : Prop :=
  (∀ (s : State) (i : Instr) (cmd : Word) (r : CmdRun) (ps : List (Nat × Word)) (e : Env) (d : Dev),
    ((i = .cmdGramDisable ∧ cmd = s.cfg.cmds.gramDisable) ∨ (i = .cmdGramEnable ∧ cmd = s.cfg.cmds.gramEnable)) →
    s.cfg.hasGrammar = true → r.ok s.cfg = true → pollPasses (fun v => v != s.cfg.gram.busy) ps = true →
    ps.length ≤ s.cfg.pollBound →
    s.busCarries (r.events s.cfg cmd ++ pollEvents s.cfg s.cfg.gram.status ps) e d →
    ∃ t, exec i s = .next t ∧
      Ran s t (r.events s.cfg cmd ++ pollEvents s.cfg s.cfg.gram.status ps) (r.moves ++ pollMoves ps.length) e d ∧
      t.seq = { s.seq with busy := false, ra := .idle, hc := .idle } ∧ s.x.sameImage t.x ∧ t.x.cmdOp = cmd ∧
      t.x.pollCnt = ps.length ∧ t.x.rawResp = s.x.rawResp ∧ t.x.rawValid = s.x.rawValid ∧ t.x.status = .success ∧
      t.x.flashCnt = s.x.flashCnt ∧ t.x.countValid = s.x.countValid ∧ t.rsp = s.rsp) ∧
  ∀ s : State, s.cfg.hasGrammar = false →
    exec .cmdGramDisable s = .refused .grammarAbsent ∧ exec .cmdGramEnable s = .refused .grammarAbsent

/-! ## The wire commands at the reference responder -/

/-- SELECT_PAGE loads dev.sel and changes nothing else, but its reserved value is refused; NO_OP changes nothing (R112,
R117). -/
def Obligations.SelectPageAndNoOp : Prop :=
  ∀ s : State,
    (∀ sel : Byte, sel ≠ 0xFE#8 → exec (.selectPage sel) s = .next { s with dev := { s.dev with sel := sel } }) ∧
    exec (.selectPage 0xFE#8) s = .refused .selectReserved ∧ exec .noOp s = .next s

/-- DIRECT_READ and PAGED_READ answer the words of their addresses in device byte order and change nothing else; a
paged read takes the page dev.sel selects (R113, R115). -/
def Obligations.WireReadsComplete : Prop :=
  ∀ (s : State) (off cnt : BitVec 7), off.toNat + cnt.toNat + 1 ≤ 128 → s.dev.rx = [] →
    s.dev.want = (cnt.toNat + 1) * 2 →
    exec (.directRead off cnt) s = .next { s with dev := { s.dev with
      tx := (List.range (cnt.toNat + 1)).flatMap fun j =>
        bytes16 s.cfg.devEndian (s.dev.mem.readWord s.cfg.devEndian ((off.toNat + j) * 2)) } } ∧
    (s.dev.sel ≤ 0xFD#8 →
      exec (.pagedRead off cnt) s = .next { s with dev := { s.dev with
        tx := (List.range (cnt.toNat + 1)).flatMap fun j =>
          bytes16 s.cfg.devEndian
            (s.dev.mem.readWord s.cfg.devEndian ((s.dev.sel.toNat + 1) * 256 + (off.toNat + j) * 2)) } })

/-- DIRECT_WRITE stores its payload words at their addresses, takes the payload from the transfer, and changes nothing
else: not dev.sel, not dev.cont, no other byte of memory (R114). -/
def Obligations.DirectWriteCompletes : Prop :=
  ∀ (s : State) (off cnt : BitVec 7), s.dev.mem.wf → off.toNat + cnt.toNat + 1 ≤ 128 →
    (cnt.toNat + 1) * 2 ≤ s.dev.rx.length →
    ∃ t, exec (.directWrite off cnt) s = .next t ∧
      t = { s with dev := { s.dev with mem := t.dev.mem, rx := s.dev.rx.drop ((cnt.toNat + 1) * 2) } } ∧
      (∀ j, j ≤ cnt.toNat → t.dev.mem.readWord s.cfg.devEndian ((off.toNat + j) * 2) =
        val16 s.cfg.devEndian (s.dev.rx.getD (2 * j) 0) (s.dev.rx.getD (2 * j + 1) 0)) ∧
      ∀ b, (b < off.toNat * 2 ∨ (off.toNat + cnt.toNat + 1) * 2 ≤ b) → t.dev.mem.read b = s.dev.mem.read b

/-- PAGED_WRITE stores its payload words on the page dev.sel selects and sets the continuation address behind them; no
other byte of memory and nothing else changes (R116). -/
def Obligations.PagedWriteCompletes : Prop :=
  ∀ (s : State) (off cnt : BitVec 7), s.dev.mem.wf → s.dev.sel ≤ 0xFD#8 → off.toNat + cnt.toNat + 1 ≤ 128 →
    (cnt.toNat + 1) * 2 ≤ s.dev.rx.length →
    let base := (s.dev.sel.toNat + 1) * 256
    ∃ t, exec (.pagedWrite off cnt) s = .next t ∧
      t = { s with dev := { s.dev with
        mem := t.dev.mem, rx := s.dev.rx.drop ((cnt.toNat + 1) * 2)
        cont := some (s.dev.sel.toNat + 1, off.toNat + cnt.toNat + 1) } } ∧
      (∀ j, j ≤ cnt.toNat → t.dev.mem.readWord s.cfg.devEndian (base + (off.toNat + j) * 2) =
        val16 s.cfg.devEndian (s.dev.rx.getD (2 * j) 0) (s.dev.rx.getD (2 * j + 1) 0)) ∧
      ∀ b, (b < base + off.toNat * 2 ∨ base + (off.toNat + cnt.toNat + 1) * 2 ≤ b) →
        t.dev.mem.read b = s.dev.mem.read b

/-- CONT_PAGED_WRITE stores its payload words where the last paged write ended, on the page still selected, and moves
the continuation address behind them; no other byte of memory and nothing else changes (R118). -/
def Obligations.ContPagedWriteCompletes : Prop :=
  ∀ (s : State) (cnt : BitVec 7) (p o : Nat), s.dev.mem.wf → s.dev.cont = some (p, o) → s.dev.sel ≤ 0xFD#8 →
    p = s.dev.sel.toNat + 1 → o + cnt.toNat + 1 ≤ 128 → (cnt.toNat + 1) * 2 ≤ s.dev.rx.length →
    ∃ t, exec (.contPagedWrite cnt) s = .next t ∧
      t = { s with dev := { s.dev with
        mem := t.dev.mem, rx := s.dev.rx.drop ((cnt.toNat + 1) * 2), cont := some (p, o + cnt.toNat + 1) } } ∧
      (∀ j, j ≤ cnt.toNat → t.dev.mem.readWord s.cfg.devEndian (p * 256 + (o + j) * 2) =
        val16 s.cfg.devEndian (s.dev.rx.getD (2 * j) 0) (s.dev.rx.getD (2 * j + 1) 0)) ∧
      ∀ b, (b < p * 256 + o * 2 ∨ p * 256 + (o + cnt.toNat + 1) * 2 ≤ b) → t.dev.mem.read b = s.dev.mem.read b

/-- What the responder gives no answer to (R76, R111, R114, R115, R116, R118, R119): a reserved command word; an access
past the end of its page, direct, paged or continued; a paged access while the extended window is selected; a write with
too little payload; a read, direct or paged, that is not the last command or whose length was not asked for; a
continuation with nothing to extend; a transfer that asks for bytes and does not end in a read; half a command word. -/
def Obligations.ResponderRefusals : Prop :=
  ∀ (s : State) (off cnt : BitVec 7),
    (∀ b0 b1, exec (.reserved b0 b1) s = .refused (.reservedWord b0 b1)) ∧
    (128 < off.toNat + cnt.toNat + 1 →
      exec (.directRead off cnt) s = .refused .pastPageEnd ∧ exec (.directWrite off cnt) s = .refused .pastPageEnd ∧
      (s.dev.sel ≤ 0xFD#8 →
        exec (.pagedRead off cnt) s = .refused .pastPageEnd ∧ exec (.pagedWrite off cnt) s = .refused .pastPageEnd)) ∧
    (s.dev.sel = 0xFF#8 →
      exec (.pagedRead off cnt) s = .refused .extendedWindow ∧ exec (.pagedWrite off cnt) s = .refused .extendedWindow ∧
      (s.dev.cont ≠ none → exec (.contPagedWrite cnt) s = .refused .extendedWindow)) ∧
    (off.toNat + cnt.toNat + 1 ≤ 128 → s.dev.rx.length < (cnt.toNat + 1) * 2 →
      exec (.directWrite off cnt) s = .refused .truncatedPayload ∧
      (s.dev.sel ≤ 0xFD#8 → exec (.pagedWrite off cnt) s = .refused .truncatedPayload)) ∧
    (off.toNat + cnt.toNat + 1 ≤ 128 → s.dev.rx ≠ [] →
      exec (.directRead off cnt) s = .refused .readNotLast ∧
      (s.dev.sel ≤ 0xFD#8 → exec (.pagedRead off cnt) s = .refused .readNotLast)) ∧
    (off.toNat + cnt.toNat + 1 ≤ 128 → s.dev.rx = [] → s.dev.want ≠ (cnt.toNat + 1) * 2 →
      exec (.directRead off cnt) s = .refused .readLengthMismatch ∧
      (s.dev.sel ≤ 0xFD#8 → exec (.pagedRead off cnt) s = .refused .readLengthMismatch)) ∧
    (s.dev.cont = none → exec (.contPagedWrite cnt) s = .refused .noContinuation) ∧
    (∀ p o, s.dev.cont = some (p, o) → s.dev.sel ≤ 0xFD#8 →
      (p ≠ s.dev.sel.toNat + 1 → exec (.contPagedWrite cnt) s = .refused .noContinuation) ∧
      (p = s.dev.sel.toNat + 1 → 128 < o + cnt.toNat + 1 → exec (.contPagedWrite cnt) s = .refused .pastPageEnd) ∧
      (p = s.dev.sel.toNat + 1 → o + cnt.toNat + 1 ≤ 128 → s.dev.rx.length < (cnt.toNat + 1) * 2 →
        exec (.contPagedWrite cnt) s = .refused .truncatedPayload)) ∧
    (s.env.resetIn ≠ some 0 →
      (∀ i b0 b1 t u, s.dev.rx = b0 :: b1 :: t → decode s.cfg (.wire s.dev.rx) = .ok i →
        exec i { s with dev := { s.dev with rx := t } } = .next u → u.dev.rx = [] → u.dev.tx.length ≠ u.dev.want →
        step s = .refused .nothingToReceive) ∧
      (∀ k rest, s.dev.rx = [] → s.inbox = .wire [] k :: rest → k ≠ 0 → step s = .refused .nothingToReceive) ∧
      (∀ b, s.dev.rx = [b] → step s = .refused (.undecodable .truncatedCommand)))

/-! ## The whole machine -/

/-- The invariant is kept by every step: the parameters keep their premises; device memory keeps its canonical form and
stays inside the register space, dev.sel is never the reserved value; the holding registers keep their widths; and an
idle block has every unit idle and waits in no bus primitive (R14 to R19, R110, R112, R132, R148, R172, R199, R257). -/
def Obligations.InvariantKept : Prop :=
  ∀ s t : State, s.Inv → step s = .next t → t.Inv

/-- The invariant holds after reset (the values of log entries 3, 4 and 7 to 10 among them, which are the model's). -/
def Obligations.InvariantAtReset : Prop := State.reset.Inv

/-- Every step leaves the parameters as they are and only appends to the record (R23, R64, R291, R293). -/
def Obligations.RecordOnlyGrows : Prop :=
  ∀ s t : State, step s = .next t → t.cfg = s.cfg ∧ s.history <+: t.history ∧ s.moves <+: t.moves

/-- Requests other than LOAD_IMAGE, FLASH_SAVE and FLASH_ERASE leave IT_STATE alone however they end, where no reset
comes (R176, R257). So do host command words presented on their own, which is the model's choice: the rules speak of
requests only (log entry 16). -/
def Obligations.ItStateLeftAlone : Prop :=
  ∀ (s t : State) (i : Instr), (∀ image, i ≠ .loadImage image) → (∀ want, i ≠ .flashSave want) → i ≠ .flashErase →
    s.noReset → exec i s = .next t → t.seq.it = s.seq.it

/-- At the reference responder, or any other device, an instruction's register writes store only to their own
registers: every other byte of device memory is as before, however the instruction ends (R121, R143, R170, R192, R197,
R214). What RAW_WRITE, LOAD_IMAGE and GRAMMAR_LOAD store is the caller's bytes' or the extended window's business: the
three are left out. The stores of the six host command words presented on their own are those of the handshake, which is
the model's choice (log entry 16). The addresses written are ones software may use (R297). -/
def Obligations.OnlyOwnRegistersStored : Prop :=
  ∀ (s t : State) (i : Instr) (b : Nat), s.cfg.wf →
    (∀ a ∈ [s.cfg.map.swFlags, s.cfg.map.cmd, s.cfg.map.result, s.cfg.map.rstBoot],
      reachable s.cfg.wire a .write 0#7 = true) →
    reachable s.cfg.wire s.cfg.map.chksum .write (BitVec.ofNat 7 (s.cfg.map.chksumBytes / 2 - 1)) = true →
    (∀ a data cnt, i = .regWrite a data → countOf data.length = some cnt →
      reachable s.cfg.wire a .write cnt = true) →
    i.space ≠ .wire → (∀ data, i ≠ .rawWrite data) → (∀ image, i ≠ .loadImage image) →
    (∀ blob, i ≠ .grammarLoad blob) →
    (∀ p ∈ storedBytes s.cfg i, b < p.1 ∨ p.1 + p.2 ≤ b) → exec i s = .next t →
    t.dev.mem.read b = s.dev.mem.read b

/-- NOT_INIT, BAD_HANDLE, INVALID_STATE and OP_INCOMPLETE are never produced, whatever the request and however it ends;
their codes stay those of the list (R259). -/
def Obligations.StatusesProduced : Prop :=
  (∀ (s t : State) (i : Instr) (r : Response), i.space = .request → exec i s = .next t → t.rsp = some r →
    r.status ∉ [.notInit, .badHandle, .invalidState, .opIncomplete]) ∧
  [Status.notInit, .badHandle, .invalidState, .opIncomplete].map Status.code = [0x0#4, 0x4#4, 0xA#4, 0xB#4]

/-- Every request is answered, once, and the block is idle again, if each bus primitive returns and no reset comes
(R12, R29, R308). The one request without behaviour is left out (R179). -/
def Obligations.EveryRequestAnswered : Prop :=
  ∀ (s : State) (i : Instr), i.space = .request → s.noReset → s.env.device = .unconstrained →
    .never ∉ s.env.script → (∀ image, i = .loadImage image → zeroBlockImage s.cfg image = false) →
    ∃ t r, exec i s = .next t ∧ t.rsp = some r ∧ t.seq.busy = false ∧ t.x.status = r.status

/-- Requests that read no response code for a result mapping answer with raw_valid 0 and no count, however they end
(R12, R151, R258). -/
def Obligations.NoRawCodeWithoutMapping : Prop :=
  ∀ (s t : State) (i : Instr) (r : Response),
    ((∃ a rw size, i = .hdrEncode a rw size) ∨ (∃ a data, i = .regWrite a data) ∨ (∃ a size, i = .regRead a size) ∨
      (∃ data, i = .rawWrite data) ∨ (∃ cmd, i = .runCmd cmd) ∨ i = .bootSwitch ∨ (∃ blob, i = .grammarLoad blob) ∨
      ∃ op, i = .reqReserved op) →
    exec i s = .next t → t.rsp = some r → r.rawValid = false ∧ r.count = none

/-- Whatever request fails, and wherever in it: an answer other than SUCCESS leaves every unit idle, IT Failed for
LOAD_IMAGE, FLASH_SAVE and FLASH_ERASE and as it was for the others, and carries no header, no data and no count; and a
transfer that reports no unit is the last bus primitive of its request and is answered INTERNAL_ERR (R124, R131, R169,
R256, R257, R258). -/
def Obligations.RaiseEnds : Prop :=
  ∀ (s t : State) (i : Instr) (evs : List Event), i.space = .request → s.noReset → exec i s = .next t →
    t.history = s.history ++ evs →
    (∀ r, t.rsp = some r → r.status ≠ .success →
      t.seq.busy = false ∧ t.seq.unitsIdle ∧ t.seq.it = (if drivesIt i then .failed else s.seq.it) ∧ r.hdr = [] ∧
        r.data = [] ∧ r.count = none) ∧
    (∀ pre w k b post, evs = pre ++ .xfer w k 0 b :: post →
      post = [] ∧ ∃ r, t.rsp = some r ∧ r.status = .internalErr)

/-- Whatever bus primitive of an instruction of the block never returns, transfer or delay: take one that some run of
the instruction makes after the primitives `pre`. In an environment that answers those alike and never returns from
that one, the block stays busy, with no response for a request, the record holds `pre` and no more, and the primitive
is in flight (R29, R309). And then it is stuck: a step at a busy block with a primitive in flight is the fault
busNeverReturns (log entry 13), unless the environment asserts reset or sends a transfer to the responder past the
block (log entry 32). That a refusal of the reference responder is such a primitive is log entry 12; that a primitive
which never returned leaves the responder as it was is the model's choice (log entry 41). For a host command word
presented on its own, that the block is busy and that the response delivered last stays is the model's choice (log
entries 16 and 23). -/
def Obligations.HangIsStuck : Prop :=
  (∀ (s t : State) (i : Instr) (pre post : List Event) (p : Event) (e0 e1 : Env) (d1 : Dev), i.space ≠ .wire →
    exec i s = .next t → t.history = s.history ++ pre ++ p :: post → replay s.cfg pre e0 s.dev = some (e1, d1) →
    e1.resetIn ≠ some 0 → neverReturns s.cfg e1 d1 p.prim →
    ∃ u, exec i { s with env := e0 } = .next u ∧ u.seq.busy = true ∧
      u.rsp = (if i.space = .request then none else s.rsp) ∧ u.history = s.history ++ pre ∧ u.dev = d1 ∧
      u.env = { e1 with script := dropNever e1.script, inFlight := some p.prim }) ∧
  (∀ s : State, s.seq.busy = true → s.env.inFlight ≠ none → s.env.resetIn ≠ some 0 → s.dev.rx = [] →
    (∀ w k rest, s.inbox ≠ .wire w k :: rest) → step s = .fault .busNeverReturns)
end

