-- ==== Sys2Proof/Laws/ByteOrder.lean ====
section
/-! SUPPORT. The conversions between byte orders: lengths, inverses, and the wire image of a value. -/

namespace Sys2Proof.Machine

@[simp] theorem swap16_length (s : List Byte) : (swap16 s).length = s.length := by
  induction s using swap16.induct with
  | case1 a b t ih => simp [swap16, ih]
  | case2 t h => rw [swap16]; exact h

@[simp] theorem swap16_swap16 (s : List Byte) : swap16 (swap16 s) = s := by
  induction s using swap16.induct with
  | case1 a b t ih => simp [swap16, ih]
  | case2 t h =>
    have hs : swap16 t = t := by rw [swap16]; exact h
    rw [hs, hs]

@[simp] theorem toDev_length (c : Config) (s : List Byte) : (toDev c s).length = s.length := by
  unfold toDev; split <;> simp

@[simp] theorem toHost_length (c : Config) (s : List Byte) : (toHost c s).length = s.length := by
  unfold toHost; split <;> simp

/-- `ToDev` and `ToHost` are the same function. -/
theorem toHost_eq_toDev (c : Config) (s : List Byte) : toHost c s = toDev c s := rfl

@[simp] theorem toDev_toHost (c : Config) (s : List Byte) : toDev c (toHost c s) = s := by
  unfold toDev toHost; split <;> simp

@[simp] theorem bytes16_length (e : Endian) (v : Word) : (bytes16 e v).length = 2 := by cases e <;> rfl

@[simp] theorem bytes32_length (e : Endian) (v : DWord) : (bytes32 e v).length = 4 := by cases e <;> rfl

theorem extract_append_word (a b : Byte) :
    (a ++ b : Word).extractLsb' 8 8 = a ∧ (a ++ b : Word).extractLsb' 0 8 = b := by
  refine ⟨BitVec.eq_of_toNat_eq ?_, BitVec.eq_of_toNat_eq ?_⟩ <;>
    simp only [BitVec.extractLsb'_toNat, BitVec.toNat_append] <;> have ha := a.isLt <;> have hb := b.isLt <;>
    rw [← Nat.shiftLeft_add_eq_or_of_lt hb, Nat.shiftLeft_eq, Nat.shiftRight_eq_div_pow] <;> omega

theorem append_extract_word (v : Word) : v.extractLsb' 8 8 ++ v.extractLsb' 0 8 = v := by
  ext i hi
  simp only [BitVec.getElem_append, BitVec.getElem_extractLsb']
  split
  · simp [BitVec.getLsbD_eq_getElem hi]
  · rw [show 8 + (i - 8) = i by omega, BitVec.getLsbD_eq_getElem hi]

/-- The value of a value's bytes is the value. -/
@[simp] theorem val16At_bytes16 (e : Endian) (v : Word) : val16At e (bytes16 e v) = v := by
  cases e <;> exact append_extract_word v

/-- The bytes of two bytes' value are those bytes. -/
@[simp] theorem bytes16_val16 (e : Endian) (a b : Byte) : bytes16 e (val16 e a b) = [a, b] := by
  cases e <;> simp [bytes16, val16, extract_append_word]

/-- `ToDev(HostBytes16(v)) = DevBytes16(v)` (R53). -/
@[simp] theorem toDev_bytes16 (c : Config) (v : Word) :
    toDev c (bytes16 c.hostEndian v) = bytes16 c.devEndian v := by
  unfold toDev
  cases h1 : c.hostEndian <;> cases h2 : c.devEndian <;> rfl

/-- The value RegRead16 obtains is `DevVal16` of the wire bytes (R53, R129). -/
theorem val16At_toHost (c : Config) (a b : Byte) :
    val16At c.hostEndian (toHost c [a, b]) = val16 c.devEndian a b := by
  unfold toHost
  cases h1 : c.hostEndian <;> cases h2 : c.devEndian <;> rfl

theorem append_extract_dword (v : DWord) : v.extractLsb' 16 16 ++ v.extractLsb' 0 16 = v := by
  ext i hi
  simp only [BitVec.getElem_append, BitVec.getElem_extractLsb']
  split
  · simp [BitVec.getLsbD_eq_getElem hi]
  · rw [show 16 + (i - 16) = i by omega, BitVec.getLsbD_eq_getElem hi]

/-- The value of a 32-bit value's bytes is the value (R212). -/
@[simp] theorem val32At_bytes32 (e : Endian) (v : DWord) : val32At e (bytes32 e v) = v := by
  cases e <;> simp only [val32At, bytes32, bytes16, val32, val16, List.cons_append, List.nil_append,
    List.getD_cons_zero, List.getD_cons_succ, append_extract_word, append_extract_dword]

end Sys2Proof.Machine
end

