-- ==== Sys2Proof/Laws/CommandWord.lean ====
section
/-! SUPPORT. The fields of a command word read back what was written, at every layout whose fields are apart
(spec/30_encoding.md R70 to R74). -/

namespace Sys2Proof

@[simp] theorem wordBytes_length (c : WireCfg) (w : Word) : (wordBytes c w).length = 2 := rfl

theorem append_extract (w : Word) : w.extractLsb' 8 8 ++ w.extractLsb' 0 8 = w := by
  ext i hi
  simp only [BitVec.getElem_append, BitVec.getElem_extractLsb']
  split
  · simp [BitVec.getLsbD_eq_getElem hi]
  · rw [show 8 + (i - 8) = i by omega, BitVec.getLsbD_eq_getElem hi]

/-- The word of its own two bytes (R70). -/
@[simp] theorem wordOf_bytes (c : WireCfg) (w : Word) : wordOf c (firstByte c w) (secondByte c w) = w := by
  unfold wordOf firstByte secondByte
  cases c.firstHigh <;> exact append_extract w

theorem extract_append_high (a b : Byte) : (a ++ b).extractLsb' 8 8 = a := by
  apply BitVec.eq_of_getLsbD_eq
  intro i hi
  rw [BitVec.getLsbD_extractLsb', BitVec.getLsbD_append]
  simp [hi]

theorem extract_append_low (a b : Byte) : (a ++ b).extractLsb' 0 8 = b := by
  apply BitVec.eq_of_getLsbD_eq
  intro i hi
  rw [BitVec.getLsbD_extractLsb', BitVec.getLsbD_append]
  simp [hi]

/-- The two bytes of a word made of two bytes (R70). -/
@[simp] theorem firstByte_wordOf (c : WireCfg) (b0 b1 : Byte) : firstByte c (wordOf c b0 b1) = b0 := by
  unfold wordOf firstByte
  cases c.firstHigh
  · exact extract_append_low b1 b0
  · exact extract_append_high b0 b1

@[simp] theorem secondByte_wordOf (c : WireCfg) (b0 b1 : Byte) : secondByte c (wordOf c b0 b1) = b1 := by
  unfold wordOf secondByte
  cases c.firstHigh
  · exact extract_append_high b1 b0
  · exact extract_append_low b0 b1

/-- Bit `i` of an ACC word. -/
theorem accWord_bit (c : WireCfg) (direct : Bool) (off : BitVec 7) (rw : Dir) (cnt : BitVec 7) (i : Nat) (hi : i < 16) :
    (accWord c direct off rw cnt).getLsbD i =
      (decide (i = c.wDirect.val) && direct || decide (c.wOffset.val ≤ i) && off.getLsbD (i - c.wOffset.val) ||
        decide (i = c.wWrite.val) && rw.isWrite || decide (c.wCount.val ≤ i) && cnt.getLsbD (i - c.wCount.val)) := by
  have hb (b : Bool) (k : Nat) :
      ((BitVec.ofBool b).setWidth 16 <<< k).getLsbD i = (decide (i = k) && b) := by
    rw [BitVec.getLsbD_shiftLeft, BitVec.getLsbD_setWidth, BitVec.getLsbD_ofBool]
    by_cases h : i = k
    · subst h; simp [hi]
    · by_cases h2 : i < k
      · simp [h, h2]
      · have : ¬ i - k = 0 := by omega
        simp [h, this]
  have hf (v : BitVec 7) (k : Nat) : (v.setWidth 16 <<< k).getLsbD i = (decide (k ≤ i) && v.getLsbD (i - k)) := by
    rw [BitVec.getLsbD_shiftLeft, BitVec.getLsbD_setWidth]
    by_cases h : k ≤ i
    · have h1 : ¬ i < k := by omega
      have h2 : i - k < 16 := by omega
      simp [h, h1, h2, hi]
    · have h1 : i < k := by omega
      simp [h, h1]
  simp only [accWord, BitVec.getLsbD_or, hb, hf]

theorem accDirect_accWord {c : WireCfg} (h : c.fieldsApart) (direct : Bool) (off : BitVec 7) (rw : Dir) (cnt : BitVec 7) :
    accDirect c (accWord c direct off rw cnt) = direct := by
  obtain ⟨h1, h2, h3, -, -, -⟩ := h
  have h1' : c.wDirect.val ≠ c.wWrite.val := fun h => h1 (Fin.ext h)
  rw [accDirect, accWord_bit _ _ _ _ _ _ c.wDirect.isLt]
  have ho : (decide (c.wOffset.val ≤ c.wDirect.val) && off.getLsbD (c.wDirect.val - c.wOffset.val)) = false := by
    rcases h2 with h | h
    · simp; omega
    · rw [BitVec.getLsbD_of_ge _ _ (by omega), Bool.and_false]
  have hc : (decide (c.wCount.val ≤ c.wDirect.val) && cnt.getLsbD (c.wDirect.val - c.wCount.val)) = false := by
    rcases h3 with h | h
    · simp; omega
    · rw [BitVec.getLsbD_of_ge _ _ (by omega), Bool.and_false]
  simp [ho, hc, h1']

theorem accWrite_accWord {c : WireCfg} (h : c.fieldsApart) (direct : Bool) (off : BitVec 7) (rw : Dir) (cnt : BitVec 7) :
    accWrite c (accWord c direct off rw cnt) = rw.isWrite := by
  obtain ⟨h1, -, -, h2, h3, -⟩ := h
  have h1' : c.wWrite.val ≠ c.wDirect.val := fun h => h1 (Fin.ext h.symm)
  rw [accWrite, accWord_bit _ _ _ _ _ _ c.wWrite.isLt]
  have ho : (decide (c.wOffset.val ≤ c.wWrite.val) && off.getLsbD (c.wWrite.val - c.wOffset.val)) = false := by
    rcases h2 with h | h
    · simp; omega
    · rw [BitVec.getLsbD_of_ge _ _ (by omega), Bool.and_false]
  have hc : (decide (c.wCount.val ≤ c.wWrite.val) && cnt.getLsbD (c.wWrite.val - c.wCount.val)) = false := by
    rcases h3 with h | h
    · simp; omega
    · rw [BitVec.getLsbD_of_ge _ _ (by omega), Bool.and_false]
  simp [ho, hc, h1']

theorem accOff_accWord {c : WireCfg} (h : c.fieldsApart) (direct : Bool) (off : BitVec 7) (rw : Dir) (cnt : BitVec 7) :
    accOff c (accWord c direct off rw cnt) = off := by
  obtain ⟨-, h1, -, h2, -, h3⟩ := h
  have := c.wOffset.isLt
  apply BitVec.eq_of_getLsbD_eq
  intro i hi
  rw [accOff, BitVec.getLsbD_extractLsb', accWord_bit _ _ _ _ _ _ (by omega)]
  have hd : ¬ c.wOffset.val + i = c.wDirect.val := by omega
  have hw : ¬ c.wOffset.val + i = c.wWrite.val := by omega
  have hc : (decide (c.wCount.val ≤ c.wOffset.val + i) && cnt.getLsbD (c.wOffset.val + i - c.wCount.val)) = false := by
    rcases h3 with h | h
    · simp; omega
    · rw [BitVec.getLsbD_of_ge _ _ (by omega), Bool.and_false]
  simp [hd, hw, hc, hi]

theorem accCnt_accWord {c : WireCfg} (h : c.fieldsApart) (direct : Bool) (off : BitVec 7) (rw : Dir) (cnt : BitVec 7) :
    accCnt c (accWord c direct off rw cnt) = cnt := by
  obtain ⟨-, -, h1, -, h2, h3⟩ := h
  have := c.wCount.isLt
  apply BitVec.eq_of_getLsbD_eq
  intro i hi
  rw [accCnt, BitVec.getLsbD_extractLsb', accWord_bit _ _ _ _ _ _ (by omega)]
  have hd : ¬ c.wCount.val + i = c.wDirect.val := by omega
  have hw : ¬ c.wCount.val + i = c.wWrite.val := by omega
  have ho : (decide (c.wOffset.val ≤ c.wCount.val + i) && off.getLsbD (c.wCount.val + i - c.wOffset.val)) = false := by
    rcases h3 with h | h
    · rw [BitVec.getLsbD_of_ge _ _ (by omega), Bool.and_false]
    · simp; omega
  simp [hd, hw, ho, hi]

end Sys2Proof
end

