-- ==== Sys2Proof/Laws/Memory.lean ====
section
/-! SUPPORT. The device memory: a read after a write, the other addresses, and the canonical form kept by every
operation. -/

namespace Sys2Proof.Machine

namespace Mem

/-- Nothing is listed at an address below every listed one. -/
theorem read_below {m : Mem} {a : Nat} (h : ∀ c ∈ m, a < c.1) : read m a = unlisted := by
  induction m with
  | nil => rfl
  | cons c t ih =>
    have hc := h c (by simp)
    have : a ≠ c.1 := by omega
    simp only [read, if_neg this]
    exact ih fun d hd => h d (by simp [hd])

/-- A write leaves every other address alone. -/
theorem read_write_other {m : Mem} {a b : Nat} (v : Byte) (h : b ≠ a) : read (write m a v) b = read m b := by
  induction m with
  | nil =>
    simp only [write]
    split <;> simp [read, h]
  | cons c t ih =>
    obtain ⟨x, u⟩ := c
    simp only [write]
    split
    · split <;> simp [read, h]
    · split
      · subst x
        split <;> simp [read, h]
      · simp only [read, ih]

/-- A write then a read of the same address gives the byte written. -/
theorem read_write_same {m : Mem} (hm : m.wf) (a : Nat) (v : Byte) : read (write m a v) a = v := by
  induction m with
  | nil =>
    simp only [write]
    split <;> simp_all [read]
  | cons c t ih =>
    obtain ⟨x, u⟩ := c
    obtain ⟨hp, hz⟩ := hm
    rw [List.pairwise_cons] at hp
    have ht : wf t := ⟨hp.2, fun d hd => hz d (by simp [hd])⟩
    simp only [write]
    split
    · next hlt =>
      split
      · next hv =>
        rw [read_below, hv]
        intro d hd
        rcases List.mem_cons.mp hd with rfl | hd
        · exact hlt
        · exact Nat.lt_trans hlt (hp.1 d hd)
      · simp [read]
    · split
      · next heq =>
        split
        · next hv =>
          subst a
          rw [read_below (fun d hd => hp.1 d hd), hv]
        · simp [read]
      · next hne =>
        simp only [read, if_neg hne]
        exact ih ht

/-- A write lists no address that was not listed, but the one written. -/
theorem mem_write {m : Mem} {a : Nat} {v : Byte} {c : Host.Cell} (h : c ∈ write m a v) : c ∈ m ∨ c = (a, v) := by
  induction m with
  | nil =>
    simp only [write] at h
    split at h <;> simp_all
  | cons d t ih =>
    obtain ⟨x, u⟩ := d
    simp only [write] at h
    split at h
    · split at h
      · exact .inl h
      · rcases List.mem_cons.mp h with rfl | h
        · exact .inr rfl
        · exact .inl h
    · split at h
      · split at h
        · exact .inl (by simp [h])
        · rcases List.mem_cons.mp h with rfl | h
          · exact .inr rfl
          · exact .inl (by simp [h])
      · rcases List.mem_cons.mp h with rfl | h
        · exact .inl (by simp)
        · rcases ih h with h | h
          · exact .inl (by simp [h])
          · exact .inr h

/-- A write keeps the canonical form. -/
theorem write_wf {m : Mem} (hm : m.wf) (a : Nat) (v : Byte) : (write m a v).wf := by
  induction m with
  | nil =>
    simp only [write]
    split <;> simp_all [wf]
  | cons c t ih =>
    obtain ⟨x, u⟩ := c
    have hm' := hm
    obtain ⟨hp, hz⟩ := hm
    rw [List.pairwise_cons] at hp
    have ht : wf t := ⟨hp.2, fun d hd => hz d (by simp [hd])⟩
    simp only [write]
    split
    · next hlt =>
      split
      · exact hm'
      · next hv =>
        refine ⟨List.pairwise_cons.mpr ⟨?_, List.pairwise_cons.mpr hp⟩, ?_⟩
        · intro d hd
          rcases List.mem_cons.mp hd with rfl | hd
          · exact hlt
          · exact Nat.lt_trans hlt (hp.1 d hd)
        · intro d hd
          rcases List.mem_cons.mp hd with rfl | hd
          · exact hv
          · exact hz d hd
    · split
      · next heq =>
        split
        · exact ht
        · next hv =>
          subst a
          refine ⟨List.pairwise_cons.mpr ⟨hp.1, hp.2⟩, ?_⟩
          intro d hd
          rcases List.mem_cons.mp hd with rfl | hd
          · exact hv
          · exact ht.2 d hd
      · next hge hne =>
        obtain ⟨hp', hz'⟩ := ih ht
        refine ⟨List.pairwise_cons.mpr ⟨?_, hp'⟩, ?_⟩
        · intro d hd
          rcases mem_write hd with hd | rfl
          · exact hp.1 d hd
          · show x < a
            omega
        · intro d hd
          rcases List.mem_cons.mp hd with rfl | hd
          · exact hz _ (by simp)
          · exact hz' d hd

/-- Writing a word keeps the canonical form. -/
theorem writeWord_wf {m : Mem} (hm : m.wf) (e : Endian) (a : Nat) (v : Word) : (writeWord e m a v).wf :=
  write_wf (write_wf hm _ _) _ _

/-- Writing words keeps the canonical form. -/
theorem writeWords_wf {m : Mem} (hm : m.wf) (e : Endian) (a : Nat) (bs : List Byte) :
    (writeWords e m a bs).wf := by
  induction m, a, bs using writeWords.induct e with
  | case1 m a b0 b1 t ih => rw [writeWords]; exact ih (writeWord_wf hm _ _ _)
  | case2 bs m a h => rw [writeWords]; exacts [hm, h]

/-- The word written at `a` is the two wire bytes at `a` and `a + 1` (log entry 11). -/
theorem writeWord_val16 (e : Endian) (m : Mem) (a : Nat) (b0 b1 : Byte) :
    writeWord e m a (val16 e b0 b1) = (m.write a b0).write (a + 1) b1 := by
  simp [writeWord]

/-- `MemRead` after `MemWrite` at the same address gives the value written (R110). -/
theorem readWord_writeWord {m : Mem} (hm : m.wf) (e : Endian) (a : Nat) (v : Word) :
    readWord e (writeWord e m a v) a = v := by
  have h1 : read (writeWord e m a v) a = (bytes16 e v).getD 0 0 := by
    rw [writeWord, read_write_other _ (by omega), read_write_same hm]
  have h2 : read (writeWord e m a v) (a + 1) = (bytes16 e v).getD 1 0 := by
    rw [writeWord, read_write_same (write_wf hm _ _)]
  rw [readWord, h1, h2]
  exact val16At_bytes16 e v

/-- `MemWrite` leaves every byte outside its word alone. -/
theorem read_writeWord_other {m : Mem} {e : Endian} {a b : Nat} (v : Word) (h : b < a ∨ a + 2 ≤ b) :
    read (writeWord e m a v) b = read m b := by
  rw [writeWord, read_write_other _ (by omega), read_write_other _ (by omega)]

/-- Writing words leaves every byte outside them alone. -/
theorem read_writeWords_other (e : Endian) (m : Mem) (a : Nat) (bs : List Byte) {b : Nat}
    (h : b < a ∨ a + bs.length ≤ b) : read (writeWords e m a bs) b = read m b := by
  induction m, a, bs using writeWords.induct e with
  | case1 m a b0 b1 t ih =>
    simp only [List.length_cons] at h
    rw [writeWords, ih (by omega), read_writeWord_other _ (by omega)]
  | case2 bs m a hn => rw [writeWords]; exact hn

/-- A list that has no two elements in front has at most one. -/
theorem length_le_one_of_no_pair {s : List Byte} (h : ∀ x y t, s = x :: y :: t → False) : s.length ≤ 1 := by
  match s with
  | [] => simp
  | [_] => simp
  | x :: y :: t => exact (h x y t rfl).elim

/-- Byte `i` of what was written to consecutive words is read back at its address. -/
theorem read_writeWords_inside (e : Endian) {m : Mem} (hm : m.wf) (a : Nat) (bs : List Byte)
    (he : bs.length % 2 = 0) {i : Nat} (hi : i < bs.length) :
    read (writeWords e m a bs) (a + i) = bs.getD i 0 := by
  induction m, a, bs using writeWords.induct e generalizing i with
  | case1 m a b0 b1 t ih =>
    rw [writeWords]
    simp only [List.length_cons] at he hi
    match i with
    | 0 =>
      show read _ a = b0
      rw [read_writeWords_other _ _ _ _ (by omega), writeWord_val16,
        read_write_other _ (by omega), read_write_same hm]
    | 1 =>
      rw [read_writeWords_other _ _ _ _ (by omega), writeWord_val16, read_write_same (write_wf hm _ _)]
      rfl
    | i + 2 =>
      have := ih (writeWord_wf hm _ _ _) (by omega) (i := i) (by omega)
      rw [show a + (i + 2) = a + 2 + i by omega, this]
      rfl
  | case2 =>
    rename_i hn
    have := length_le_one_of_no_pair hn
    omega

@[simp] theorem readWords_length (e : Endian) (m : Mem) (a n : Nat) : (readWords e m a n).length = 2 * n := by
  induction n generalizing a with
  | zero => rfl
  | succ n ih => simp [readWords, ih]; omega

/-- The bytes read from consecutive words are the bytes at their addresses. -/
theorem readWords_getD (e : Endian) (m : Mem) (a n : Nat) {i : Nat} (hi : i < 2 * n) :
    (readWords e m a n).getD i 0 = read m (a + i) := by
  induction n generalizing a i with
  | zero => omega
  | succ n ih =>
    have hb : bytes16 e (readWord e m a) = [read m a, read m (a + 1)] := bytes16_val16 _ _ _
    rw [readWords, hb]
    match i with
    | 0 => rfl
    | 1 => rfl
    | i + 2 =>
      rw [show a + (i + 2) = a + 2 + i by omega, ← ih (a + 2) (by omega)]
      rfl

/-- Reading the words just written gives the payload back (R52, R113, R114). -/
theorem readWords_writeWords (e : Endian) {m : Mem} (hm : m.wf) (a : Nat) (bs : List Byte)
    (he : bs.length % 2 = 0) : readWords e (writeWords e m a bs) a (bs.length / 2) = bs := by
  apply List.ext_getElem
  · simp; omega
  · intro i h1 h2
    have := readWords_getD e (writeWords e m a bs) a (bs.length / 2) (i := i) (by omega)
    rw [read_writeWords_inside e hm a bs he h2] at this
    rwa [List.getD_eq_getElem _ _ h1, List.getD_eq_getElem _ _ h2] at this

/-- Writing words lists no address outside them. -/
theorem mem_writeWords (e : Endian) (m : Mem) (a : Nat) (bs : List Byte) {c : Host.Cell}
    (h : c ∈ writeWords e m a bs) : c ∈ m ∨ (a ≤ c.1 ∧ c.1 < a + bs.length) := by
  induction m, a, bs using writeWords.induct e with
  | case1 m a b0 b1 t ih =>
    rw [writeWords] at h
    simp only [List.length_cons]
    rcases ih h with h | h
    · rw [writeWord_val16] at h
      rcases mem_write h with h | rfl
      · rcases mem_write h with h | rfl
        · exact .inl h
        · exact .inr ⟨by simp, by simp⟩
      · exact .inr ⟨by simp, by simp⟩
    · exact .inr ⟨by omega, by omega⟩
  | case2 bs m a hn => rw [writeWords] at h; exacts [.inl h, hn]

end Mem

end Sys2Proof.Machine
end

