-- ==== Sys2Proof/Laws/Device.lean ====
section
/-! SUPPORT. What the reference responder does with a transfer, and the pieces of a body. -/

namespace Sys2Proof.Machine

/-- Every piece of a body is as long as the block at most. -/
theorem chunksGo_length_le {m n : Nat} {s c : List Byte} (h : c ∈ chunksGo m n s) : c.length ≤ m := by
  induction n generalizing s with
  | zero => simp [chunksGo] at h
  | succ n ih =>
    rw [chunksGo] at h
    split at h
    · simp at h
    · rcases List.mem_cons.mp h with rfl | h
      · simp
      · exact ih h

theorem chunksOf_length_le {m : Nat} {s c : List Byte} (h : c ∈ chunksOf m s) : c.length ≤ m := chunksGo_length_le h

/-- No piece of a body is empty. -/
theorem chunksGo_length_pos {m n : Nat} (hm : 1 ≤ m) {s c : List Byte} (h : c ∈ chunksGo m n s) : 1 ≤ c.length := by
  induction n generalizing s with
  | zero => simp [chunksGo] at h
  | succ n ih =>
    rw [chunksGo] at h
    split at h
    · simp at h
    · next hs =>
      rcases List.mem_cons.mp h with rfl | h
      · have := List.length_pos_iff.mpr hs
        simp
        omega
      · exact ih h

theorem chunksOf_length_pos {m : Nat} (hm : 1 ≤ m) {s c : List Byte} (h : c ∈ chunksOf m s) : 1 ≤ c.length :=
  chunksGo_length_pos hm h

/-- The pieces in their order are the body (R165). -/
theorem chunksGo_flatten {m n : Nat} (hm : 1 ≤ m) {s : List Byte} (hn : s.length ≤ n) : (chunksGo m n s).flatten = s := by
  induction n generalizing s with
  | zero =>
    have : s = [] := List.length_eq_zero_iff.mp (by omega)
    subst this
    rfl
  | succ n ih =>
    rw [chunksGo]
    split
    · next hs => subst hs; rfl
    · next hs =>
      have := List.length_pos_iff.mpr hs
      rw [List.flatten_cons, ih (by simp; omega), List.take_append_drop]

theorem chunksOf_flatten {m : Nat} (hm : 1 ≤ m) (s : List Byte) : (chunksOf m s).flatten = s :=
  chunksGo_flatten hm (Nat.le_refl _)

/-- A whole transfer ends with the bytes that were asked for (R111). -/
theorem close_ok {d d' : Dev} (h : d.close = .ok d') : d'.tx.length = d.want ∧ d' = { d with want := 0 } := by
  unfold Dev.close at h
  split at h
  · next hl => cases h; exact ⟨hl, rfl⟩
  · cases h

theorem answerRead_want {c : Config} {base off n : Nat} {d d' : Dev} (h : d.answerRead c base off n = .ok d') :
    d'.want = d.want := by
  unfold Dev.answerRead at h
  split at h
  · cases h
  · split at h
    · cases h
    · split at h
      · cases h
      · cases h; rfl

theorem storePayload_want {c : Config} {base off n : Nat} {d d' : Dev} (h : d.storePayload c base off n = .ok d') :
    d'.want = d.want := by
  unfold Dev.storePayload at h
  split at h
  · cases h
  · split at h
    · cases h
    · cases h; rfl

/-- A command word leaves alone how many bytes the transfer asks for. -/
theorem execCmd_want {c : Config} {d d' : Dev} {cmd : WireCmd} (h : d.execCmd c cmd = .ok d') : d'.want = d.want := by
  cases cmd with
  | selectPage sel =>
    simp only [Dev.execCmd, Dev.selectPage] at h
    split at h
    · cases h
    · cases h; rfl
  | noOp => cases h; rfl
  | reserved b0 b1 => cases h
  | directRead off cnt => exact answerRead_want h
  | directWrite off cnt => exact storePayload_want h
  | pagedRead off cnt =>
    simp only [Dev.execCmd, Dev.pagedRead] at h
    split at h
    · cases h
    · exact answerRead_want h
  | pagedWrite off cnt =>
    simp only [Dev.execCmd, Dev.pagedWrite] at h
    split at h
    · cases h
    · split at h
      · next hs => have hw := storePayload_want hs; cases h; exact hw
      · cases h
  | contPagedWrite cnt =>
    simp only [Dev.execCmd, Dev.contPagedWrite] at h
    split at h
    · cases h
    · split at h
      · cases h
      · split at h
        · cases h
        · split at h
          · next hs => have hw := storePayload_want hs; cases h; exact hw
          · cases h

theorem parse_length {c : Config} {n : Nat} {d d' : Dev} (h : Dev.parse c n d = .ok d') : d'.tx.length = d.want := by
  induction n generalizing d with
  | zero => cases h
  | succ n ih =>
    rw [Dev.parse] at h
    split at h
    · exact (close_ok h).1
    · cases h
    · split at h
      · next hs => rw [ih h, execCmd_want hs]
      · cases h

/-- The responder answers exactly the bytes asked for (R111). -/
theorem respond_length {c : Config} {w : List Byte} {k : Nat} {d d' : Dev} (h : Dev.respond c w k d = .ok d') :
    d'.tx.length = k := parse_length h

end Sys2Proof.Machine
end

