-- ==== Sys2Proof/Laws/State.lean ====
section
/-! SUPPORT. What each update of the state does to each field, so that no proof unfolds a record update. -/

namespace Sys2Proof.Machine

variable (s : State)

@[simp] theorem State.setRa_cfg (st : RaState) : (s.setRa st).cfg = s.cfg := rfl
@[simp] theorem State.setRa_x (st : RaState) : (s.setRa st).x = s.x := rfl
@[simp] theorem State.setRa_rsp (st : RaState) : (s.setRa st).rsp = s.rsp := rfl
@[simp] theorem State.setRa_history (st : RaState) : (s.setRa st).history = s.history := rfl
@[simp] theorem State.setRa_env (st : RaState) : (s.setRa st).env = s.env := rfl
@[simp] theorem State.setRa_inbox (st : RaState) : (s.setRa st).inbox = s.inbox := rfl
@[simp] theorem State.setRa_dev (st : RaState) : (s.setRa st).dev = s.dev := rfl
@[simp] theorem State.setRa_seq (st : RaState) : (s.setRa st).seq = { s.seq with ra := st } := rfl
@[simp] theorem State.setRa_moves (st : RaState) : (s.setRa st).moves = s.moves ++ [.ra st] := rfl

@[simp] theorem State.setHc_cfg (st : HcState) : (s.setHc st).cfg = s.cfg := rfl
@[simp] theorem State.setHc_x (st : HcState) : (s.setHc st).x = s.x := rfl
@[simp] theorem State.setHc_rsp (st : HcState) : (s.setHc st).rsp = s.rsp := rfl
@[simp] theorem State.setHc_history (st : HcState) : (s.setHc st).history = s.history := rfl
@[simp] theorem State.setHc_env (st : HcState) : (s.setHc st).env = s.env := rfl
@[simp] theorem State.setHc_inbox (st : HcState) : (s.setHc st).inbox = s.inbox := rfl
@[simp] theorem State.setHc_dev (st : HcState) : (s.setHc st).dev = s.dev := rfl
@[simp] theorem State.setHc_seq (st : HcState) : (s.setHc st).seq = { s.seq with hc := st } := rfl
@[simp] theorem State.setHc_moves (st : HcState) : (s.setHc st).moves = s.moves ++ [.hc st] := rfl

@[simp] theorem State.setBm_cfg (st : BmState) : (s.setBm st).cfg = s.cfg := rfl
@[simp] theorem State.setBm_x (st : BmState) : (s.setBm st).x = s.x := rfl
@[simp] theorem State.setBm_rsp (st : BmState) : (s.setBm st).rsp = s.rsp := rfl
@[simp] theorem State.setBm_history (st : BmState) : (s.setBm st).history = s.history := rfl
@[simp] theorem State.setBm_env (st : BmState) : (s.setBm st).env = s.env := rfl
@[simp] theorem State.setBm_inbox (st : BmState) : (s.setBm st).inbox = s.inbox := rfl
@[simp] theorem State.setBm_dev (st : BmState) : (s.setBm st).dev = s.dev := rfl
@[simp] theorem State.setBm_seq (st : BmState) : (s.setBm st).seq = { s.seq with bm := st } := rfl
@[simp] theorem State.setBm_moves (st : BmState) : (s.setBm st).moves = s.moves ++ [.bm st] := rfl

@[simp] theorem State.setIt_cfg (st : ItState) : (s.setIt st).cfg = s.cfg := rfl
@[simp] theorem State.setIt_x (st : ItState) : (s.setIt st).x = s.x := rfl
@[simp] theorem State.setIt_rsp (st : ItState) : (s.setIt st).rsp = s.rsp := rfl
@[simp] theorem State.setIt_history (st : ItState) : (s.setIt st).history = s.history := rfl
@[simp] theorem State.setIt_env (st : ItState) : (s.setIt st).env = s.env := rfl
@[simp] theorem State.setIt_inbox (st : ItState) : (s.setIt st).inbox = s.inbox := rfl
@[simp] theorem State.setIt_dev (st : ItState) : (s.setIt st).dev = s.dev := rfl
@[simp] theorem State.setIt_seq (st : ItState) : (s.setIt st).seq = { s.seq with it := st } := rfl
@[simp] theorem State.setIt_moves (st : ItState) : (s.setIt st).moves = s.moves ++ [.it st] := rfl

@[simp] theorem State.setFl_cfg (st : FlState) : (s.setFl st).cfg = s.cfg := rfl
@[simp] theorem State.setFl_x (st : FlState) : (s.setFl st).x = s.x := rfl
@[simp] theorem State.setFl_rsp (st : FlState) : (s.setFl st).rsp = s.rsp := rfl
@[simp] theorem State.setFl_history (st : FlState) : (s.setFl st).history = s.history := rfl
@[simp] theorem State.setFl_env (st : FlState) : (s.setFl st).env = s.env := rfl
@[simp] theorem State.setFl_inbox (st : FlState) : (s.setFl st).inbox = s.inbox := rfl
@[simp] theorem State.setFl_dev (st : FlState) : (s.setFl st).dev = s.dev := rfl
@[simp] theorem State.setFl_seq (st : FlState) : (s.setFl st).seq = { s.seq with fl := st } := rfl
@[simp] theorem State.setFl_moves (st : FlState) : (s.setFl st).moves = s.moves ++ [.fl st] := rfl

@[simp] theorem State.setGl_cfg (st : GlState) : (s.setGl st).cfg = s.cfg := rfl
@[simp] theorem State.setGl_x (st : GlState) : (s.setGl st).x = s.x := rfl
@[simp] theorem State.setGl_rsp (st : GlState) : (s.setGl st).rsp = s.rsp := rfl
@[simp] theorem State.setGl_history (st : GlState) : (s.setGl st).history = s.history := rfl
@[simp] theorem State.setGl_env (st : GlState) : (s.setGl st).env = s.env := rfl
@[simp] theorem State.setGl_inbox (st : GlState) : (s.setGl st).inbox = s.inbox := rfl
@[simp] theorem State.setGl_dev (st : GlState) : (s.setGl st).dev = s.dev := rfl
@[simp] theorem State.setGl_seq (st : GlState) : (s.setGl st).seq = { s.seq with gl := st } := rfl
@[simp] theorem State.setGl_moves (st : GlState) : (s.setGl st).moves = s.moves ++ [.gl st] := rfl

@[simp] theorem State.setAccess_cfg (a : Addr) (size : BitVec 16) (rw : Dir) : (s.setAccess a size rw).cfg = s.cfg := rfl
@[simp] theorem State.setAccess_seq (a : Addr) (size : BitVec 16) (rw : Dir) : (s.setAccess a size rw).seq = s.seq := rfl
@[simp] theorem State.setAccess_rsp (a : Addr) (size : BitVec 16) (rw : Dir) : (s.setAccess a size rw).rsp = s.rsp := rfl
@[simp] theorem State.setAccess_history (a : Addr) (size : BitVec 16) (rw : Dir) : (s.setAccess a size rw).history = s.history := rfl
@[simp] theorem State.setAccess_moves (a : Addr) (size : BitVec 16) (rw : Dir) : (s.setAccess a size rw).moves = s.moves := rfl
@[simp] theorem State.setAccess_env (a : Addr) (size : BitVec 16) (rw : Dir) : (s.setAccess a size rw).env = s.env := rfl
@[simp] theorem State.setAccess_inbox (a : Addr) (size : BitVec 16) (rw : Dir) : (s.setAccess a size rw).inbox = s.inbox := rfl
@[simp] theorem State.setAccess_dev (a : Addr) (size : BitVec 16) (rw : Dir) : (s.setAccess a size rw).dev = s.dev := rfl
@[simp] theorem State.setAccess_x (a : Addr) (size : BitVec 16) (rw : Dir) : (s.setAccess a size rw).x = { s.x with addr := a, size := size, rw := rw } := rfl

@[simp] theorem State.setHdr_cfg (h : List Byte) : (s.setHdr h).cfg = s.cfg := rfl
@[simp] theorem State.setHdr_seq (h : List Byte) : (s.setHdr h).seq = s.seq := rfl
@[simp] theorem State.setHdr_rsp (h : List Byte) : (s.setHdr h).rsp = s.rsp := rfl
@[simp] theorem State.setHdr_history (h : List Byte) : (s.setHdr h).history = s.history := rfl
@[simp] theorem State.setHdr_moves (h : List Byte) : (s.setHdr h).moves = s.moves := rfl
@[simp] theorem State.setHdr_env (h : List Byte) : (s.setHdr h).env = s.env := rfl
@[simp] theorem State.setHdr_inbox (h : List Byte) : (s.setHdr h).inbox = s.inbox := rfl
@[simp] theorem State.setHdr_dev (h : List Byte) : (s.setHdr h).dev = s.dev := rfl
@[simp] theorem State.setHdr_x (h : List Byte) : (s.setHdr h).x = { s.x with hdr := h ++ s.x.hdr.drop h.length, hdrLen := BitVec.ofNat 3 h.length } := rfl

@[simp] theorem State.setBuf_cfg (bs : List Byte) : (s.setBuf bs).cfg = s.cfg := rfl
@[simp] theorem State.setBuf_seq (bs : List Byte) : (s.setBuf bs).seq = s.seq := rfl
@[simp] theorem State.setBuf_rsp (bs : List Byte) : (s.setBuf bs).rsp = s.rsp := rfl
@[simp] theorem State.setBuf_history (bs : List Byte) : (s.setBuf bs).history = s.history := rfl
@[simp] theorem State.setBuf_moves (bs : List Byte) : (s.setBuf bs).moves = s.moves := rfl
@[simp] theorem State.setBuf_env (bs : List Byte) : (s.setBuf bs).env = s.env := rfl
@[simp] theorem State.setBuf_inbox (bs : List Byte) : (s.setBuf bs).inbox = s.inbox := rfl
@[simp] theorem State.setBuf_dev (bs : List Byte) : (s.setBuf bs).dev = s.dev := rfl
@[simp] theorem State.setBuf_x (bs : List Byte) : (s.setBuf bs).x = { s.x with buf := bs ++ s.x.buf.drop bs.length, bufLen := bs.length } := rfl

@[simp] theorem State.setCmdOp_cfg (v : Word) : (s.setCmdOp v).cfg = s.cfg := rfl
@[simp] theorem State.setCmdOp_seq (v : Word) : (s.setCmdOp v).seq = s.seq := rfl
@[simp] theorem State.setCmdOp_rsp (v : Word) : (s.setCmdOp v).rsp = s.rsp := rfl
@[simp] theorem State.setCmdOp_history (v : Word) : (s.setCmdOp v).history = s.history := rfl
@[simp] theorem State.setCmdOp_moves (v : Word) : (s.setCmdOp v).moves = s.moves := rfl
@[simp] theorem State.setCmdOp_env (v : Word) : (s.setCmdOp v).env = s.env := rfl
@[simp] theorem State.setCmdOp_inbox (v : Word) : (s.setCmdOp v).inbox = s.inbox := rfl
@[simp] theorem State.setCmdOp_dev (v : Word) : (s.setCmdOp v).dev = s.dev := rfl
@[simp] theorem State.setCmdOp_x (v : Word) : (s.setCmdOp v).x = { s.x with cmdOp := v } := rfl

@[simp] theorem State.setVal_cfg (v : Word) : (s.setVal v).cfg = s.cfg := rfl
@[simp] theorem State.setVal_seq (v : Word) : (s.setVal v).seq = s.seq := rfl
@[simp] theorem State.setVal_rsp (v : Word) : (s.setVal v).rsp = s.rsp := rfl
@[simp] theorem State.setVal_history (v : Word) : (s.setVal v).history = s.history := rfl
@[simp] theorem State.setVal_moves (v : Word) : (s.setVal v).moves = s.moves := rfl
@[simp] theorem State.setVal_env (v : Word) : (s.setVal v).env = s.env := rfl
@[simp] theorem State.setVal_inbox (v : Word) : (s.setVal v).inbox = s.inbox := rfl
@[simp] theorem State.setVal_dev (v : Word) : (s.setVal v).dev = s.dev := rfl
@[simp] theorem State.setVal_x (v : Word) : (s.setVal v).x = { s.x with val := v } := rfl

@[simp] theorem State.setPollCnt_cfg (n : Nat) : (s.setPollCnt n).cfg = s.cfg := rfl
@[simp] theorem State.setPollCnt_seq (n : Nat) : (s.setPollCnt n).seq = s.seq := rfl
@[simp] theorem State.setPollCnt_rsp (n : Nat) : (s.setPollCnt n).rsp = s.rsp := rfl
@[simp] theorem State.setPollCnt_history (n : Nat) : (s.setPollCnt n).history = s.history := rfl
@[simp] theorem State.setPollCnt_moves (n : Nat) : (s.setPollCnt n).moves = s.moves := rfl
@[simp] theorem State.setPollCnt_env (n : Nat) : (s.setPollCnt n).env = s.env := rfl
@[simp] theorem State.setPollCnt_inbox (n : Nat) : (s.setPollCnt n).inbox = s.inbox := rfl
@[simp] theorem State.setPollCnt_dev (n : Nat) : (s.setPollCnt n).dev = s.dev := rfl
@[simp] theorem State.setPollCnt_x (n : Nat) : (s.setPollCnt n).x = { s.x with pollCnt := n } := rfl

@[simp] theorem State.setImage_cfg (h : ImgHeader) : (s.setImage h).cfg = s.cfg := rfl
@[simp] theorem State.setImage_seq (h : ImgHeader) : (s.setImage h).seq = s.seq := rfl
@[simp] theorem State.setImage_rsp (h : ImgHeader) : (s.setImage h).rsp = s.rsp := rfl
@[simp] theorem State.setImage_history (h : ImgHeader) : (s.setImage h).history = s.history := rfl
@[simp] theorem State.setImage_moves (h : ImgHeader) : (s.setImage h).moves = s.moves := rfl
@[simp] theorem State.setImage_env (h : ImgHeader) : (s.setImage h).env = s.env := rfl
@[simp] theorem State.setImage_inbox (h : ImgHeader) : (s.setImage h).inbox = s.inbox := rfl
@[simp] theorem State.setImage_dev (h : ImgHeader) : (s.setImage h).dev = s.dev := rfl
@[simp] theorem State.setImage_x (h : ImgHeader) : (s.setImage h).x = { s.x with
    ihMajor := h.major, ihMinor := h.minor, ihType := h.type, ihEndian := h.endian, ihCode := h.code,
    ihBlkWords := h.blkWords, ihTotal := h.total, ihRsvd := h.rsvd } := rfl

@[simp] theorem State.setBlkSize_cfg (v : BitVec 17) : (s.setBlkSize v).cfg = s.cfg := rfl
@[simp] theorem State.setBlkSize_seq (v : BitVec 17) : (s.setBlkSize v).seq = s.seq := rfl
@[simp] theorem State.setBlkSize_rsp (v : BitVec 17) : (s.setBlkSize v).rsp = s.rsp := rfl
@[simp] theorem State.setBlkSize_history (v : BitVec 17) : (s.setBlkSize v).history = s.history := rfl
@[simp] theorem State.setBlkSize_moves (v : BitVec 17) : (s.setBlkSize v).moves = s.moves := rfl
@[simp] theorem State.setBlkSize_env (v : BitVec 17) : (s.setBlkSize v).env = s.env := rfl
@[simp] theorem State.setBlkSize_inbox (v : BitVec 17) : (s.setBlkSize v).inbox = s.inbox := rfl
@[simp] theorem State.setBlkSize_dev (v : BitVec 17) : (s.setBlkSize v).dev = s.dev := rfl
@[simp] theorem State.setBlkSize_x (v : BitVec 17) : (s.setBlkSize v).x = { s.x with blkSize := v } := rfl

@[simp] theorem State.setCursor_cfg (p : BitVec 33) (r : BitVec 32) : (s.setCursor p r).cfg = s.cfg := rfl
@[simp] theorem State.setCursor_seq (p : BitVec 33) (r : BitVec 32) : (s.setCursor p r).seq = s.seq := rfl
@[simp] theorem State.setCursor_rsp (p : BitVec 33) (r : BitVec 32) : (s.setCursor p r).rsp = s.rsp := rfl
@[simp] theorem State.setCursor_history (p : BitVec 33) (r : BitVec 32) : (s.setCursor p r).history = s.history := rfl
@[simp] theorem State.setCursor_moves (p : BitVec 33) (r : BitVec 32) : (s.setCursor p r).moves = s.moves := rfl
@[simp] theorem State.setCursor_env (p : BitVec 33) (r : BitVec 32) : (s.setCursor p r).env = s.env := rfl
@[simp] theorem State.setCursor_inbox (p : BitVec 33) (r : BitVec 32) : (s.setCursor p r).inbox = s.inbox := rfl
@[simp] theorem State.setCursor_dev (p : BitVec 33) (r : BitVec 32) : (s.setCursor p r).dev = s.dev := rfl
@[simp] theorem State.setCursor_x (p : BitVec 33) (r : BitVec 32) : (s.setCursor p r).x = { s.x with imgPos := p, imgRem := r } := rfl

@[simp] theorem State.latch_cfg (v : Word) : (s.latch v).cfg = s.cfg := rfl
@[simp] theorem State.latch_seq (v : Word) : (s.latch v).seq = s.seq := rfl
@[simp] theorem State.latch_rsp (v : Word) : (s.latch v).rsp = s.rsp := rfl
@[simp] theorem State.latch_history (v : Word) : (s.latch v).history = s.history := rfl
@[simp] theorem State.latch_moves (v : Word) : (s.latch v).moves = s.moves := rfl
@[simp] theorem State.latch_env (v : Word) : (s.latch v).env = s.env := rfl
@[simp] theorem State.latch_inbox (v : Word) : (s.latch v).inbox = s.inbox := rfl
@[simp] theorem State.latch_dev (v : Word) : (s.latch v).dev = s.dev := rfl
@[simp] theorem State.latch_x (v : Word) : (s.latch v).x = { s.x with rawResp := v, rawValid := true } := rfl

@[simp] theorem State.clearRaw_cfg : (s.clearRaw).cfg = s.cfg := rfl
@[simp] theorem State.clearRaw_seq : (s.clearRaw).seq = s.seq := rfl
@[simp] theorem State.clearRaw_rsp : (s.clearRaw).rsp = s.rsp := rfl
@[simp] theorem State.clearRaw_history : (s.clearRaw).history = s.history := rfl
@[simp] theorem State.clearRaw_moves : (s.clearRaw).moves = s.moves := rfl
@[simp] theorem State.clearRaw_env : (s.clearRaw).env = s.env := rfl
@[simp] theorem State.clearRaw_inbox : (s.clearRaw).inbox = s.inbox := rfl
@[simp] theorem State.clearRaw_dev : (s.clearRaw).dev = s.dev := rfl
@[simp] theorem State.clearRaw_x : (s.clearRaw).x = { s.x with rawValid := false } := rfl

@[simp] theorem State.setCount_cfg (v : BitVec 16) : (s.setCount v).cfg = s.cfg := rfl
@[simp] theorem State.setCount_seq (v : BitVec 16) : (s.setCount v).seq = s.seq := rfl
@[simp] theorem State.setCount_rsp (v : BitVec 16) : (s.setCount v).rsp = s.rsp := rfl
@[simp] theorem State.setCount_history (v : BitVec 16) : (s.setCount v).history = s.history := rfl
@[simp] theorem State.setCount_moves (v : BitVec 16) : (s.setCount v).moves = s.moves := rfl
@[simp] theorem State.setCount_env (v : BitVec 16) : (s.setCount v).env = s.env := rfl
@[simp] theorem State.setCount_inbox (v : BitVec 16) : (s.setCount v).inbox = s.inbox := rfl
@[simp] theorem State.setCount_dev (v : BitVec 16) : (s.setCount v).dev = s.dev := rfl
@[simp] theorem State.setCount_x (v : BitVec 16) : (s.setCount v).x = { s.x with flashCnt := v, countValid := true } := rfl

@[simp] theorem State.clearCount_cfg : (s.clearCount).cfg = s.cfg := rfl
@[simp] theorem State.clearCount_seq : (s.clearCount).seq = s.seq := rfl
@[simp] theorem State.clearCount_rsp : (s.clearCount).rsp = s.rsp := rfl
@[simp] theorem State.clearCount_history : (s.clearCount).history = s.history := rfl
@[simp] theorem State.clearCount_moves : (s.clearCount).moves = s.moves := rfl
@[simp] theorem State.clearCount_env : (s.clearCount).env = s.env := rfl
@[simp] theorem State.clearCount_inbox : (s.clearCount).inbox = s.inbox := rfl
@[simp] theorem State.clearCount_dev : (s.clearCount).dev = s.dev := rfl
@[simp] theorem State.clearCount_x : (s.clearCount).x = { s.x with countValid := false } := rfl

@[simp] theorem State.logXfer_cfg (w : List Byte) (k n : Nat) (r : List Byte) : (s.logXfer w k n r).cfg = s.cfg := rfl
@[simp] theorem State.logXfer_x (w : List Byte) (k n : Nat) (r : List Byte) : (s.logXfer w k n r).x = s.x := rfl
@[simp] theorem State.logXfer_seq (w : List Byte) (k n : Nat) (r : List Byte) : (s.logXfer w k n r).seq = s.seq := rfl
@[simp] theorem State.logXfer_rsp (w : List Byte) (k n : Nat) (r : List Byte) : (s.logXfer w k n r).rsp = s.rsp := rfl
@[simp] theorem State.logXfer_history (w : List Byte) (k n : Nat) (r : List Byte) : (s.logXfer w k n r).history = s.history ++ [.xfer w k n r] := rfl
@[simp] theorem State.logXfer_moves (w : List Byte) (k n : Nat) (r : List Byte) : (s.logXfer w k n r).moves = s.moves ++ [.prim] := rfl
@[simp] theorem State.logXfer_env (w : List Byte) (k n : Nat) (r : List Byte) : (s.logXfer w k n r).env = { s.env.tick with answered := s.env.answered + 1 } := rfl
@[simp] theorem State.logXfer_inbox (w : List Byte) (k n : Nat) (r : List Byte) : (s.logXfer w k n r).inbox = s.inbox := rfl
@[simp] theorem State.logXfer_dev (w : List Byte) (k n : Nat) (r : List Byte) : (s.logXfer w k n r).dev = s.dev := rfl

@[simp] theorem State.logDelay_cfg (ms : Nat) : (s.logDelay ms).cfg = s.cfg := rfl
@[simp] theorem State.logDelay_x (ms : Nat) : (s.logDelay ms).x = s.x := rfl
@[simp] theorem State.logDelay_seq (ms : Nat) : (s.logDelay ms).seq = s.seq := rfl
@[simp] theorem State.logDelay_rsp (ms : Nat) : (s.logDelay ms).rsp = s.rsp := rfl
@[simp] theorem State.logDelay_history (ms : Nat) : (s.logDelay ms).history = s.history ++ [.delay ms] := rfl
@[simp] theorem State.logDelay_moves (ms : Nat) : (s.logDelay ms).moves = s.moves ++ [.prim] := rfl
@[simp] theorem State.logDelay_env (ms : Nat) : (s.logDelay ms).env = s.env.tick := rfl
@[simp] theorem State.logDelay_inbox (ms : Nat) : (s.logDelay ms).inbox = s.inbox := rfl
@[simp] theorem State.logDelay_dev (ms : Nat) : (s.logDelay ms).dev = s.dev := rfl

@[simp] theorem State.hang_cfg (p : Prim) : (s.hang p).cfg = s.cfg := rfl
@[simp] theorem State.hang_x (p : Prim) : (s.hang p).x = s.x := rfl
@[simp] theorem State.hang_seq (p : Prim) : (s.hang p).seq = s.seq := rfl
@[simp] theorem State.hang_rsp (p : Prim) : (s.hang p).rsp = s.rsp := rfl
@[simp] theorem State.hang_history (p : Prim) : (s.hang p).history = s.history := rfl
@[simp] theorem State.hang_moves (p : Prim) : (s.hang p).moves = s.moves := rfl
@[simp] theorem State.hang_env (p : Prim) : (s.hang p).env =
    { s.env with script := dropNever s.env.script, inFlight := some p } := rfl
@[simp] theorem State.hang_inbox (p : Prim) : (s.hang p).inbox = s.inbox := rfl
@[simp] theorem State.hang_dev (p : Prim) : (s.hang p).dev = s.dev := rfl

@[simp] theorem State.accept_cfg (op : BitVec 4) : (s.accept op).cfg = s.cfg := rfl
@[simp] theorem State.accept_x (op : BitVec 4) : (s.accept op).x = { s.x with rawValid := false, countValid := false } := rfl
@[simp] theorem State.accept_seq (op : BitVec 4) : (s.accept op).seq = { s.seq with busy := true, curOp := op } := rfl
@[simp] theorem State.accept_rsp (op : BitVec 4) : (s.accept op).rsp = none := rfl
@[simp] theorem State.accept_history (op : BitVec 4) : (s.accept op).history = s.history := rfl
@[simp] theorem State.accept_moves (op : BitVec 4) : (s.accept op).moves = s.moves := rfl
@[simp] theorem State.accept_env (op : BitVec 4) : (s.accept op).env = s.env := rfl
@[simp] theorem State.accept_inbox (op : BitVec 4) : (s.accept op).inbox = s.inbox := rfl
@[simp] theorem State.accept_dev (op : BitVec 4) : (s.accept op).dev = s.dev := rfl

@[simp] theorem State.acceptWord_cfg : (s.acceptWord).cfg = s.cfg := rfl
@[simp] theorem State.acceptWord_x : (s.acceptWord).x = s.x := rfl
@[simp] theorem State.acceptWord_seq : (s.acceptWord).seq = { s.seq with busy := true } := rfl
@[simp] theorem State.acceptWord_rsp : (s.acceptWord).rsp = s.rsp := rfl
@[simp] theorem State.acceptWord_history : (s.acceptWord).history = s.history := rfl
@[simp] theorem State.acceptWord_moves : (s.acceptWord).moves = s.moves := rfl
@[simp] theorem State.acceptWord_env : (s.acceptWord).env = s.env := rfl
@[simp] theorem State.acceptWord_inbox : (s.acceptWord).inbox = s.inbox := rfl
@[simp] theorem State.acceptWord_dev : (s.acceptWord).dev = s.dev := rfl

@[simp] theorem State.resetBlock_cfg : (s.resetBlock).cfg = s.cfg := rfl
@[simp] theorem State.resetBlock_x : (s.resetBlock).x = Holding.reset s.cfg.bufCap := rfl
@[simp] theorem State.resetBlock_seq : (s.resetBlock).seq = Seq.reset := rfl
@[simp] theorem State.resetBlock_rsp : (s.resetBlock).rsp = none := rfl
@[simp] theorem State.resetBlock_history : (s.resetBlock).history = s.history := rfl
@[simp] theorem State.resetBlock_moves : (s.resetBlock).moves = s.moves := rfl
@[simp] theorem State.resetBlock_env : (s.resetBlock).env = { s.env with resetIn := none, inFlight := none } := rfl
@[simp] theorem State.resetBlock_inbox : (s.resetBlock).inbox = s.inbox := rfl
@[simp] theorem State.resetBlock_dev : (s.resetBlock).dev = s.dev := rfl

@[simp] theorem State.respond_cfg (st : Status) (p : Payload) : (s.respond st p).cfg = s.cfg := rfl
@[simp] theorem State.respond_x (st : Status) (p : Payload) : (s.respond st p).x = { s.x with status := st } := rfl
@[simp] theorem State.respond_seq (st : Status) (p : Payload) : (s.respond st p).seq = { s.seq with busy := false } := rfl
@[simp] theorem State.respond_rsp (st : Status) (p : Payload) : (s.respond st p).rsp = 
    some {
      status := st, rawValid := s.x.rawValid, rawResp := s.x.rawResp, hdr := p.hdr, data := p.data,
      count := if st = .success ∧ s.x.countValid then some s.x.flashCnt else none } := rfl
@[simp] theorem State.respond_history (st : Status) (p : Payload) : (s.respond st p).history = s.history := rfl
@[simp] theorem State.respond_moves (st : Status) (p : Payload) : (s.respond st p).moves = s.moves := rfl
@[simp] theorem State.respond_env (st : Status) (p : Payload) : (s.respond st p).env = s.env := rfl
@[simp] theorem State.respond_inbox (st : Status) (p : Payload) : (s.respond st p).inbox = s.inbox := rfl
@[simp] theorem State.respond_dev (st : Status) (p : Payload) : (s.respond st p).dev = s.dev := rfl

@[simp] theorem State.settleStatus_cfg (st : Status) : (s.settleStatus st).cfg = s.cfg := rfl
@[simp] theorem State.settleStatus_history (st : Status) : (s.settleStatus st).history = s.history := rfl
@[simp] theorem State.settleStatus_moves (st : Status) : (s.settleStatus st).moves = s.moves := rfl
@[simp] theorem State.settleStatus_inbox (st : Status) : (s.settleStatus st).inbox = s.inbox := rfl
@[simp] theorem State.settleStatus_dev (st : Status) : (s.settleStatus st).dev = s.dev := rfl
@[simp] theorem State.settleStatus_rsp (st : Status) : (s.settleStatus st).rsp = s.rsp := rfl
@[simp] theorem State.settleStatus_env (st : Status) : (s.settleStatus st).env = s.env := rfl
@[simp] theorem State.settleStatus_x (st : Status) : (s.settleStatus st).x = { s.x with status := st } := rfl
@[simp] theorem State.settleStatus_seq (st : Status) : (s.settleStatus st).seq = { s.seq with busy := false } := rfl

@[simp] theorem State.withResetIn_cfg (r : Option Nat) : (s.withResetIn r).cfg = s.cfg := rfl
@[simp] theorem State.withResetIn_history (r : Option Nat) : (s.withResetIn r).history = s.history := rfl
@[simp] theorem State.withResetIn_moves (r : Option Nat) : (s.withResetIn r).moves = s.moves := rfl
@[simp] theorem State.withResetIn_inbox (r : Option Nat) : (s.withResetIn r).inbox = s.inbox := rfl
@[simp] theorem State.withResetIn_dev (r : Option Nat) : (s.withResetIn r).dev = s.dev := rfl
@[simp] theorem State.withResetIn_rsp (r : Option Nat) : (s.withResetIn r).rsp = s.rsp := rfl
@[simp] theorem State.withResetIn_x (r : Option Nat) : (s.withResetIn r).x = s.x := rfl
@[simp] theorem State.withResetIn_seq (r : Option Nat) : (s.withResetIn r).seq = s.seq := rfl
@[simp] theorem State.withResetIn_env (r : Option Nat) : (s.withResetIn r).env = { s.env with resetIn := r } := rfl

/-- Reset comes before the terminal transition (R281). -/
theorem State.terminal_reset {f : State → State} (h : s.env.resetIn = some 0) : s.terminal f = s.resetBlock := by
  rw [State.terminal, if_pos h]

/-- The terminal transition is taken (R7). -/
theorem State.terminal_taken {f : State → State} (h : s.env.resetIn ≠ some 0) :
    s.terminal f = f { s with env := s.env.tick } := by
  rw [State.terminal, if_neg h]

/-! `abort` branches on whether the request drives IT_STATE. -/

section Abort

variable (b : Bool)

@[simp] theorem State.abort_cfg : (s.abort b).cfg = s.cfg := by cases b <;> rfl
@[simp] theorem State.abort_x : (s.abort b).x = s.x := by cases b <;> rfl
@[simp] theorem State.abort_rsp : (s.abort b).rsp = s.rsp := by cases b <;> rfl
@[simp] theorem State.abort_history : (s.abort b).history = s.history := by cases b <;> rfl
@[simp] theorem State.abort_env : (s.abort b).env = s.env := by cases b <;> rfl
@[simp] theorem State.abort_inbox : (s.abort b).inbox = s.inbox := by cases b <;> rfl
@[simp] theorem State.abort_dev : (s.abort b).dev = s.dev := by cases b <;> rfl

/-- R257: every unit idle, IT Failed where the request drives it. -/
@[simp] theorem State.abort_seq : (s.abort b).seq = { s.seq with
    ra := .idle, hc := .idle, bm := .idle, fl := .idle, gl := .idle, it := if b then .failed else s.seq.it } := by
  cases b <;> rfl

@[simp] theorem State.abort_moves :
    (s.abort b).moves = s.moves ++ (if b then [.aborted, .it .failed] else [.aborted]) := by
  cases b <;> simp [State.abort]

end Abort

@[simp] theorem Env.tick_script (e : Env) : e.tick.script = e.script := rfl
@[simp] theorem Env.tick_device (e : Env) : e.tick.device = e.device := rfl
@[simp] theorem Env.tick_answered (e : Env) : e.tick.answered = e.answered := rfl
@[simp] theorem Env.tick_inFlight (e : Env) : e.tick.inFlight = e.inFlight := rfl
@[simp] theorem Env.tick_resetIn (e : Env) : e.tick.resetIn = e.resetIn.map (· - 1) := rfl

/-- Where no reset is to come a tick changes nothing. -/
theorem Env.tick_of_none {e : Env} (h : e.resetIn = none) : e.tick = e := by
  cases e
  simp only at h
  subst h
  rfl

end Sys2Proof.Machine
end

