-- ==== Sys2Proof/Laws/Ops.lean ====
section
/-! SUPPORT. What the shared operations of Machine/Ops.lean can do: how sequences compose, the two bus primitives, and
the stretch of a run that a successful operation makes. -/

namespace Sys2Proof.Machine

/-! Sequences compose. -/

theorem bind_ok {α β : Type} {x : M α} {f : α → M β} {s t : State} {a : α} (h : x.run s = .ok a t) :
    (x >>= f).run s = (f a).run t := by
  show EStateM.bind x f s = _
  unfold EStateM.bind
  rw [show x s = .ok a t from h]
  rfl

theorem bind_error {α β : Type} {x : M α} {f : α → M β} {s t : State} {e : Abort} (h : x.run s = .error e t) :
    (x >>= f).run s = .error e t := by
  show EStateM.bind x f s = _
  unfold EStateM.bind
  rw [show x s = .error e t from h]

theorem pure_run {α : Type} (a : α) (s : State) : (pure a : M α).run s = .ok a s := rfl
theorem update_run (f : State → State) (s : State) : (update f).run s = .ok () (f s) := rfl
theorem config_run (s : State) : config.run s = .ok s.cfg s := rfl
theorem get_run (s : State) : (get : M State).run s = .ok s s := rfl
theorem raise_run {α : Type} (st : Status) (s : State) : (raise st : M α).run s = .error (.raised st) s := rfl

theorem update_bind {β : Type} (f : State → State) (g : Unit → M β) (s : State) :
    (update f >>= g).run s = (g ()).run (f s) := rfl
theorem config_bind {β : Type} (g : Config → M β) (s : State) : (config >>= g).run s = (g s.cfg).run s := rfl
theorem get_bind {β : Type} (g : State → M β) (s : State) : ((get : M State) >>= g).run s = (g s).run s := rfl
theorem pure_bind_run {α β : Type} (a : α) (g : α → M β) (s : State) :
    ((pure a : M α) >>= g).run s = (g a).run s := rfl
theorem raise_bind {α β : Type} (st : Status) (g : α → M β) (s : State) :
    ((raise st : M α) >>= g).run s = .error (.raised st) s := rfl

theorem raiseIf_true {c : Bool} (h : c = true) (st : Status) (s : State) :
    (raiseIf c st).run s = .error (.raised st) s := by subst h; rfl

theorem raiseIf_false {c : Bool} (h : c = false) (st : Status) (s : State) : (raiseIf c st).run s = .ok () s := by
  subst h; rfl

theorem raiseIf_true_bind {β : Type} {c : Bool} (h : c = true) (st : Status) (g : Unit → M β) (s : State) :
    (raiseIf c st >>= g).run s = .error (.raised st) s := by subst h; rfl

theorem raiseIf_false_bind {β : Type} {c : Bool} (h : c = false) (st : Status) (g : Unit → M β) (s : State) :
    (raiseIf c st >>= g).run s = (g ()).run s := by subst h; rfl

/-- A result that maps to SUCCESS lets the sequence go on. -/
theorem continueIfSuccess_success (s : State) : (continueIfSuccess .success).run s = .ok () s := rfl

/-- A result that maps to another status raises it. -/
theorem continueIfSuccess_raise {st : Status} (h : st ≠ .success) (s : State) :
    (continueIfSuccess st).run s = .error (.raised st) s := raiseIf_true (by simpa using h) st s

/-! The bus primitives. -/

@[simp] theorem freeBytes_length (i k : Nat) : (freeBytes i k).length = k := by simp [freeBytes]

/-- The bytes received are as many as were asked for (R6). -/
@[simp] theorem fitAnswer_length (i k : Nat) (r : List Byte) : (fitAnswer i k r).length = k := by
  simp [fitAnswer]

/-- An answer that fits is taken as it is. -/
theorem fitAnswer_of_length {i k : Nat} {r : List Byte} (h : r.length = k) : fitAnswer i k r = r := by
  subst h
  simp [fitAnswer]

/-- Everything a transfer can do: it is cut by a reset before it starts, it hangs, or it is recorded. -/
theorem busXfer_cases (w : List Byte) (k : Nat) (s : State) :
    (s.env.resetIn = some 0 ∧ (busXfer w k).run s = .error .cut s) ∨
    (s.env.resetIn ≠ some 0 ∧ busReply s.cfg s.env s.dev w k = none ∧
      (busXfer w k).run s = .error .hung (s.hang (.xfer w k))) ∨
    ∃ n r e d, s.env.resetIn ≠ some 0 ∧ busReply s.cfg s.env s.dev w k = some (n, r, e, d) ∧
      (busXfer w k).run s = .ok (n, r) ({ s with env := e, dev := d }.logXfer w k n r) := by
  show (_ ∧ busXfer w k s = _) ∨ (_ ∧ _ ∧ busXfer w k s = _) ∨ ∃ n r e d, _ ∧ _ ∧ busXfer w k s = _
  unfold busXfer
  by_cases h : s.env.resetIn = some 0
  · exact .inl ⟨h, by simp [h]⟩
  · cases hb : busReply s.cfg s.env s.dev w k with
    | none => exact .inr (.inl ⟨h, rfl, by simp [h]⟩)
    | some p =>
      obtain ⟨n, r, e, d⟩ := p
      exact .inr (.inr ⟨n, r, e, d, h, rfl, by simp [h]⟩)

/-- Everything a delay can do. -/
theorem delay_cases (ms : Nat) (s : State) :
    (s.env.resetIn = some 0 ∧ (delay ms).run s = .error .cut s) ∨
    (s.env.resetIn ≠ some 0 ∧ s.env.script.head? = some .never ∧ (delay ms).run s = .error .hung (s.hang (.delay ms))) ∨
    (s.env.resetIn ≠ some 0 ∧ s.env.script.head? ≠ some .never ∧ (delay ms).run s = .ok () (s.logDelay ms)) := by
  show (_ ∧ delay ms s = _) ∨ (_ ∧ _ ∧ delay ms s = _) ∨ (_ ∧ _ ∧ delay ms s = _)
  unfold delay
  by_cases h : s.env.resetIn = some 0
  · exact .inl ⟨h, by simp [h]⟩
  · by_cases h2 : s.env.script.head? = some .never
    · exact .inr (.inl ⟨h, h2, by simp [h, h2]⟩)
    · exact .inr (.inr ⟨h, h2, by simp [h, h2]⟩)

theorem replay_append (c : Config) (a b : List Event) (e : Env) (d : Dev) :
    replay c (a ++ b) e d = (replay c a e d).bind fun p => replay c b p.1 p.2 := by
  induction a generalizing e d with
  | nil => rfl
  | cons ev t ih =>
    cases ev with
    | xfer w k n r =>
      simp only [List.cons_append, replay]
      split
      · rfl
      · cases busReply c e d w k with
        | none => rfl
        | some p =>
          obtain ⟨n', r', e', d'⟩ := p
          simp only
          split
          · exact ih _ _
          · rfl
    | delay ms =>
      simp only [List.cons_append, replay]
      split
      · rfl
      · exact ih _ _

/-- Two stretches one after the other. -/
theorem replay_append_some {c : Config} {a b : List Event} {e e' : Env} {d d' : Dev} :
    replay c (a ++ b) e d = some (e', d') ↔ ∃ e1 d1, replay c a e d = some (e1, d1) ∧ replay c b e1 d1 = some (e', d') := by
  rw [replay_append]
  cases replay c a e d with
  | none => simp
  | some p => obtain ⟨e1, d1⟩ := p; simp

theorem replay_cons_some {c : Config} {ev : Event} {b : List Event} {e e' : Env} {d d' : Dev} :
    replay c (ev :: b) e d = some (e', d') ↔
      ∃ e1 d1, replay c [ev] e d = some (e1, d1) ∧ replay c b e1 d1 = some (e', d') :=
  replay_append_some (a := [ev])

/-- A transfer that the environment answers is recorded and gives its answer. -/
theorem busXfer_of_replay {w r : List Byte} {k n : Nat} {s : State} {e : Env} {d : Dev}
    (h : replay s.cfg [.xfer w k n r] s.env s.dev = some (e, d)) :
    (busXfer w k).run s = .ok (n, r) { s with
      history := s.history ++ [.xfer w k n r], moves := s.moves ++ [.prim], env := e, dev := d } := by
  rcases busXfer_cases w k s with ⟨h1, _⟩ | ⟨h1, h2, _⟩ | ⟨n', r', e', d', h1, h2, h3⟩
  · simp [replay, h1] at h
  · simp [replay, h1, h2] at h
  · simp only [replay, h1, h2, if_false] at h
    split at h
    · next heq =>
      obtain ⟨rfl, rfl⟩ := heq
      simp only [Option.some.injEq, Prod.mk.injEq] at h
      obtain ⟨rfl, rfl⟩ := h
      rw [h3]
      rfl
    · cases h

/-- A delay the environment returns from is recorded. -/
theorem delay_of_replay {ms : Nat} {s : State} {e : Env} {d : Dev}
    (h : replay s.cfg [.delay ms] s.env s.dev = some (e, d)) :
    (delay ms).run s = .ok () { s with
      history := s.history ++ [.delay ms], moves := s.moves ++ [.prim], env := e, dev := d } := by
  rcases delay_cases ms s with ⟨h1, _⟩ | ⟨h1, h2, _⟩ | ⟨h1, h2, h3⟩
  · simp [replay, h1] at h
  · simp [replay, h1, h2] at h
  · simp only [replay, h1, h2, or_self, if_false, Option.some.injEq, Prod.mk.injEq] at h
    obtain ⟨rfl, rfl⟩ := h
    rw [h3]
    rfl

/-! A stretch of a run. -/

/-- From `s` to `t` the bus primitives `evs` happened, the sequencing registers moved by `mvs`, and nothing outside the
block but the bus and the device changed. -/
structure Goes (s t : State) (evs : List Event) (mvs : List Move) : Prop where
  cfg : t.cfg = s.cfg
  inbox : t.inbox = s.inbox
  rsp : t.rsp = s.rsp
  history : t.history = s.history ++ evs
  moves : t.moves = s.moves ++ mvs
  bus : replay s.cfg evs s.env s.dev = some (t.env, t.dev)

theorem Goes.refl (s : State) : Goes s s [] [] := ⟨rfl, rfl, rfl, by simp, by simp, rfl⟩

theorem Goes.trans {s t u : State} {e1 e2 : List Event} {m1 m2 : List Move} (h1 : Goes s t e1 m1)
    (h2 : Goes t u e2 m2) : Goes s u (e1 ++ e2) (m1 ++ m2) where
  cfg := h2.cfg.trans h1.cfg
  inbox := h2.inbox.trans h1.inbox
  rsp := h2.rsp.trans h1.rsp
  history := by rw [h2.history, h1.history, List.append_assoc]
  moves := by rw [h2.moves, h1.moves, List.append_assoc]
  bus := replay_append_some.mpr ⟨_, _, h1.bus, by rw [← h1.cfg]; exact h2.bus⟩

/-- What the environment has still to answer after a stretch. -/
theorem Goes.rest {s t : State} {evs rest : List Event} {mvs : List Move} {e : Env} {d : Dev}
    (h : Goes s t evs mvs) (hb : s.busAnswers (evs ++ rest) e d) : t.busAnswers rest e d := by
  obtain ⟨e1, d1, h1, h2⟩ := replay_append_some.mp hb
  rw [h.bus] at h1
  simp only [Option.some.injEq, Prod.mk.injEq] at h1
  obtain ⟨rfl, rfl⟩ := h1
  show replay t.cfg rest t.env t.dev = _
  rw [h.cfg]
  exact h2

/-- What the environment answers to the beginning of a stretch. -/
theorem State.busAnswers_append {s : State} {a b : List Event} {e : Env} {d : Dev} (h : s.busAnswers (a ++ b) e d) :
    ∃ e1 d1, s.busAnswers a e1 d1 := by
  obtain ⟨e1, d1, h1, _⟩ := replay_append_some.mp h
  exact ⟨e1, d1, h1⟩

/-- A write of one sequencing register. -/
theorem Goes.setRa (s : State) (st : RaState) : Goes s (s.setRa st) [] [.ra st] :=
  ⟨rfl, rfl, rfl, by simp, rfl, rfl⟩
theorem Goes.setHc (s : State) (st : HcState) : Goes s (s.setHc st) [] [.hc st] :=
  ⟨rfl, rfl, rfl, by simp, rfl, rfl⟩
theorem Goes.setBm (s : State) (st : BmState) : Goes s (s.setBm st) [] [.bm st] :=
  ⟨rfl, rfl, rfl, by simp, rfl, rfl⟩
theorem Goes.setIt (s : State) (st : ItState) : Goes s (s.setIt st) [] [.it st] :=
  ⟨rfl, rfl, rfl, by simp, rfl, rfl⟩
theorem Goes.setFl (s : State) (st : FlState) : Goes s (s.setFl st) [] [.fl st] :=
  ⟨rfl, rfl, rfl, by simp, rfl, rfl⟩
theorem Goes.setGl (s : State) (st : GlState) : Goes s (s.setGl st) [] [.gl st] :=
  ⟨rfl, rfl, rfl, by simp, rfl, rfl⟩

/-- A write of holding registers. -/
theorem Goes.setX (s : State) (x : Holding) : Goes s { s with x := x } [] [] :=
  ⟨rfl, rfl, rfl, by simp, by simp, rfl⟩

/-- A delay. -/
theorem delay_goes {ms : Nat} {s : State} {e : Env} {d : Dev} (h : s.busAnswers [.delay ms] e d) :
    ∃ t, (delay ms).run s = .ok () t ∧ Goes s t [.delay ms] [.prim] ∧ t.x = s.x ∧ t.seq = s.seq ∧ t.env = e ∧ t.dev = d :=
  ⟨_, delay_of_replay h, ⟨rfl, rfl, rfl, rfl, rfl, h⟩, rfl, rfl, rfl, rfl⟩

end Sys2Proof.Machine
end

