-- ==== Sys2Proof/Laws/RegisterAccess.lean ====
section
/-! SUPPORT. What the register accesses of RegisterAccess do: each equation says it once for every state. -/

namespace Sys2Proof.Machine

/-! Operands. -/

theorem header_length (c : WireCfg) (a : Addr) (rw : Dir) (cnt : BitVec 7) :
    (header c a rw cnt).length = if pageOf a = 0#8 then 2 else 4 := by
  unfold header; split <;> rfl

theorem header_length_cases (c : WireCfg) (a : Addr) (rw : Dir) (cnt : BitVec 7) :
    (header c a rw cnt).length = 2 ∨ (header c a rw cnt).length = 4 := by
  rw [header_length]; split <;> simp

/-- The header FE wrote is the header RA sends. -/
@[simp] theorem hdrBytes_setHdr (c : WireCfg) (a : Addr) (rw : Dir) (cnt : BitVec 7) (s : State) :
    (s.setHdr (header c a rw cnt)).hdrBytes = header c a rw cnt := by
  rcases header_length_cases c a rw cnt with h | h <;>
    simp [State.hdrBytes, State.setHdr, h]

theorem sizeOk_iff {n : Nat} : sizeOk n = true ↔ 2 ≤ n ∧ n ≤ 256 ∧ n % 2 = 0 := by
  simp [sizeOk, and_assoc]

theorem countOf_eq_some {n : Nat} {cnt : BitVec 7} :
    countOf n = some cnt ↔ sizeOk n = true ∧ cnt = BitVec.ofNat 7 (n / 2 - 1) := by
  unfold countOf
  cases h : sizeOk n with
  | true => rw [if_pos rfl]; exact ⟨fun h => ⟨rfl, (Option.some.inj h).symm⟩, fun h => by rw [h.2]⟩
  | false => simp

/-- The count field and the size determine each other (R78, R102). -/
theorem countOf_toNat {n : Nat} {cnt : BitVec 7} (h : countOf n = some cnt) : n = (cnt.toNat + 1) * 2 := by
  obtain ⟨h1, rfl⟩ := countOf_eq_some.mp h
  obtain ⟨h1, h2, h3⟩ := sizeOk_iff.mp h1
  simp only [BitVec.toNat_ofNat]
  omega

theorem countOf_eq_none {n : Nat} : countOf n = none ↔ sizeOk n = false := by
  unfold countOf
  split <;> simp_all

/-- The size register holds an accepted size as it is. -/
theorem sizeReg_of_countOf {n : Nat} {cnt : BitVec 7} (h : countOf n = some cnt) : sizeReg n = BitVec.ofNat 16 n := by
  have := countOf_toNat h
  have := cnt.isLt
  unfold sizeReg
  rw [if_pos (by omega)]

/-! The holding registers after an access. -/

/-- The holding registers after a write access (R132). -/
def Holding.afterWrite (c : Config) (x : Holding) (a : Addr) (cnt : BitVec 7) (data : List Byte) : Holding :=
  let h := header c.wire a .write cnt
  { x with
    addr := a, size := sizeReg data.length, rw := .write
    hdr := h ++ x.hdr.drop h.length, hdrLen := BitVec.ofNat 3 h.length
    buf := toDev c data ++ x.buf.drop data.length, bufLen := data.length }

/-- The holding registers after a read access that received `r` (R132). -/
def Holding.afterRead (c : Config) (x : Holding) (a : Addr) (cnt : BitVec 7) (size : Nat) (r : List Byte) : Holding :=
  let h := header c.wire a .read cnt
  { x with
    addr := a, size := sizeReg size, rw := .read
    hdr := h ++ x.hdr.drop h.length, hdrLen := BitVec.ofNat 3 h.length
    buf := r ++ x.buf.drop r.length, bufLen := r.length }

/-- The state when RA sends the frame of a write access. -/
def State.writeFramed (s : State) (a : Addr) (cnt : BitVec 7) (data : List Byte) : State :=
  { s with
    x := s.x.afterWrite s.cfg a cnt data
    seq := { s.seq with ra := .xfer }
    moves := s.moves ++ [.ra .check, .ra .toDev, .ra .header, .ra .xfer] }

/-- The state when RA sends the header of a read access. -/
def State.readFramed (s : State) (a : Addr) (cnt : BitVec 7) (size : Nat) : State :=
  { s with
    x := { s.x.afterRead s.cfg a cnt size [] with buf := s.x.buf, bufLen := s.x.bufLen }
    seq := { s.seq with ra := .xfer }
    moves := s.moves ++ [.ra .check, .ra .header, .ra .xfer] }

theorem hdr_take (c : WireCfg) (a : Addr) (rw : Dir) (cnt : BitVec 7) (t : List Byte) :
    ((header c a rw cnt ++ t).take (BitVec.ofNat 3 (header c a rw cnt).length).toNat) = header c a rw cnt := by
  rcases header_length_cases c a rw cnt with h | h <;> simp [h]

/-- A write access of an accepted size is one transfer and the test of its result (R121). -/
theorem regWrite_run {s : State} {a : Addr} {data : List Byte} {cnt : BitVec 7} (hc : countOf data.length = some cnt) :
    (regWrite a data).run s =
      (do
        let (n, _) ← busXfer (header s.cfg.wire a .write cnt ++ toDev s.cfg data) 0
        raiseIf (decide (n < 1)) .internalErr
        update (·.setRa .idle) : M Unit).run (s.writeFramed a cnt data) := by
  unfold regWrite
  rw [update_bind, update_bind, hc]
  simp only []
  rw [config_bind, update_bind, update_bind, update_bind]
  unfold buildHeader
  simp only [bind_assoc]
  rw [config_bind, update_bind, update_bind, get_bind]
  have hs : (State.setRa (State.setHdr (((((s.setRa .check).setAccess a (sizeReg data.length) .write).setRa .toDev).setBuf
      (toDev s.cfg data)).setRa .header) (header s.cfg.wire a .write cnt)) .xfer) = s.writeFramed a cnt data := by
    simp [State.setRa, State.setHdr, State.setBuf, State.setAccess, Holding.afterWrite, State.writeFramed]
  have h1 : (s.writeFramed a cnt data).hdrBytes = header s.cfg.wire a .write cnt := hdr_take _ _ _ _ _
  have h2 : (s.writeFramed a cnt data).x.buf.take data.length = toDev s.cfg data := by
    simp [State.writeFramed, Holding.afterWrite]
  show (do
    let (n, _) ← busXfer (State.hdrBytes _ ++ List.take data.length (State.x _).buf) 0
    raiseIf (decide (n < 1)) .internalErr
    update (·.setRa .idle) : M Unit).run _ = _
  erw [hs]
  rw [h1, h2]

/-- A read access of an accepted size is one transfer, the test of its result, and the conversion (R125). -/
theorem regRead_run {s : State} {a : Addr} {size : Nat} {cnt : BitVec 7} (hc : countOf size = some cnt) :
    (regRead a size).run s =
      (do
        let (n, r) ← busXfer (header s.cfg.wire a .read cnt) size
        raiseIf (decide (n < 1)) .internalErr
        update (·.setBuf r)
        update (·.setRa .toHost)
        let out := toHost s.cfg ((← get).x.buf.take size)
        update (·.setRa .idle)
        return out : M (List Byte)).run (s.readFramed a cnt size) := by
  unfold regRead
  rw [update_bind, update_bind, hc]
  simp only []
  rw [config_bind, update_bind]
  unfold buildHeader
  simp only [bind_assoc]
  rw [config_bind, update_bind, update_bind, get_bind]
  have hs : (State.setRa (State.setHdr ((((s.setRa .check).setAccess a (sizeReg size) .read).setRa .header))
      (header s.cfg.wire a .read cnt)) .xfer) = s.readFramed a cnt size := by
    simp [State.setRa, State.setHdr, State.setAccess, Holding.afterRead, State.readFramed]
  have h1 : (s.readFramed a cnt size).hdrBytes = header s.cfg.wire a .read cnt := hdr_take _ _ _ _ _
  erw [hs]
  rw [h1]
  rfl

/-- The state when RA sends the bytes of a raw write. -/
def State.rawFramed (s : State) (data : List Byte) : State :=
  { s with
    x := { s.x with buf := data ++ s.x.buf.drop data.length, bufLen := data.length }
    seq := { s.seq with ra := .xfer }
    moves := s.moves ++ [.ra .check, .ra .xfer] }

/-- A raw write of an accepted length is one transfer and the test of its result (R127). -/
theorem rawWrite_run {s : State} {data : List Byte} (h1 : 1 ≤ data.length) (h2 : data.length ≤ s.cfg.bufCap) :
    (rawWrite data).run s =
      (do
        let (n, _) ← busXfer data 0
        raiseIf (decide (n < 1)) .internalErr
        update (·.setRa .idle) : M Unit).run (s.rawFramed data) := by
  have hd : (decide (data.length = 0) || decide (s.cfg.bufCap < data.length)) = false := by
    rw [Bool.or_eq_false_iff]
    exact ⟨decide_eq_false (by omega), decide_eq_false (by omega)⟩
  unfold rawWrite
  rw [update_bind, config_bind]
  rw [raiseIf_false_bind (by exact hd)]
  rw [update_bind, update_bind, get_bind]
  have hs : (((s.setRa .check).setBuf data).setRa .xfer) = s.rawFramed data := by
    simp [State.setRa, State.setBuf, State.rawFramed]
  erw [hs]
  have h3 : (s.rawFramed data).x.buf.take (s.rawFramed data).x.bufLen = data := by simp [State.rawFramed]
  rw [h3]

/-- A successful write access (R121). -/
theorem regWrite_ok {s : State} {a : Addr} {data : List Byte} {cnt : BitVec 7} {n : Nat} {e : Env} {d : Dev}
    (hc : countOf data.length = some cnt) (hn : 1 ≤ n)
    (hb : s.busAnswers [.xfer (header s.cfg.wire a .write cnt ++ toDev s.cfg data) 0 n []] e d) :
    (regWrite a data).run s = .ok () { s with
      x := s.x.afterWrite s.cfg a cnt data
      seq := { s.seq with ra := .idle }
      history := s.history ++ [.xfer (header s.cfg.wire a .write cnt ++ toDev s.cfg data) 0 n []]
      moves := s.moves ++ writeMoves
      env := e, dev := d } := by
  have hn' : decide (n < 1) = false := by simp; omega
  rw [regWrite_run hc, bind_ok (busXfer_of_replay (s := s.writeFramed a cnt data) hb)]
  simp only []
  rw [raiseIf_false_bind hn', update_run]
  simp [State.setRa, State.writeFramed, writeMoves]

/-- A write access whose transfer fails (R124). -/
theorem regWrite_fail {s : State} {a : Addr} {data : List Byte} {cnt : BitVec 7} {e : Env} {d : Dev}
    (hc : countOf data.length = some cnt)
    (hb : s.busAnswers [.xfer (header s.cfg.wire a .write cnt ++ toDev s.cfg data) 0 0 []] e d) :
    (regWrite a data).run s = .error (.raised .internalErr) { s with
      x := s.x.afterWrite s.cfg a cnt data
      seq := { s.seq with ra := .xfer }
      history := s.history ++ [.xfer (header s.cfg.wire a .write cnt ++ toDev s.cfg data) 0 0 []]
      moves := s.moves ++ [.ra .check, .ra .toDev, .ra .header, .ra .xfer, .prim]
      env := e, dev := d } := by
  rw [regWrite_run hc, bind_ok (busXfer_of_replay (s := s.writeFramed a cnt data) hb)]
  simp only []
  rw [raiseIf_true_bind (by decide)]
  simp [State.writeFramed]

/-- A write access of a size RA refuses (R122): no bus primitive. -/
theorem regWrite_refuse {s : State} {a : Addr} {data : List Byte} (hc : sizeOk data.length = false) :
    (regWrite a data).run s =
      .error (.raised .invalidArg) ((s.setRa .check).setAccess a (sizeReg data.length) .write) := by
  unfold regWrite
  rw [update_bind, update_bind, countOf_eq_none.mpr hc]
  rfl

/-- A successful read access (R125). -/
theorem regRead_ok {s : State} {a : Addr} {size : Nat} {r : List Byte} {cnt : BitVec 7} {n : Nat} {e : Env} {d : Dev}
    (hc : countOf size = some cnt) (hn : 1 ≤ n) (hr : r.length = size)
    (hb : s.busAnswers [.xfer (header s.cfg.wire a .read cnt) size n r] e d) :
    (regRead a size).run s = .ok (toHost s.cfg r) { s with
      x := s.x.afterRead s.cfg a cnt size r
      seq := { s.seq with ra := .idle }
      history := s.history ++ [.xfer (header s.cfg.wire a .read cnt) size n r]
      moves := s.moves ++ readMoves
      env := e, dev := d } := by
  have hn' : decide (n < 1) = false := by simp; omega
  rw [regRead_run hc, bind_ok (busXfer_of_replay (s := s.readFramed a cnt size) hb)]
  simp only []
  rw [raiseIf_false_bind hn', update_bind, update_bind, get_bind, update_bind, pure_run]
  subst hr
  simp [State.setRa, State.setBuf, State.readFramed, Holding.afterRead, readMoves]

/-- A read access whose transfer fails (R124): the bytes received are discarded. -/
theorem regRead_fail {s : State} {a : Addr} {size : Nat} {r : List Byte} {cnt : BitVec 7} {e : Env} {d : Dev}
    (hc : countOf size = some cnt) (hb : s.busAnswers [.xfer (header s.cfg.wire a .read cnt) size 0 r] e d) :
    (regRead a size).run s = .error (.raised .internalErr) { s with
      x := { s.x.afterRead s.cfg a cnt size [] with buf := s.x.buf, bufLen := s.x.bufLen }
      seq := { s.seq with ra := .xfer }
      history := s.history ++ [.xfer (header s.cfg.wire a .read cnt) size 0 r]
      moves := s.moves ++ [.ra .check, .ra .header, .ra .xfer, .prim]
      env := e, dev := d } := by
  rw [regRead_run hc, bind_ok (busXfer_of_replay (s := s.readFramed a cnt size) hb)]
  simp only []
  rw [raiseIf_true_bind (by decide)]
  simp [State.readFramed]

/-- A read access of a size RA refuses (R122): no bus primitive. -/
theorem regRead_refuse {s : State} {a : Addr} {size : Nat} (hc : sizeOk size = false) :
    (regRead a size).run s = .error (.raised .invalidArg) ((s.setRa .check).setAccess a (sizeReg size) .read) := by
  unfold regRead
  rw [update_bind, update_bind, countOf_eq_none.mpr hc]
  rfl

/-- A successful raw write (R127). -/
theorem rawWrite_ok {s : State} {data : List Byte} {n : Nat} {e : Env} {d : Dev}
    (h1 : 1 ≤ data.length) (h2 : data.length ≤ s.cfg.bufCap) (hn : 1 ≤ n)
    (hb : s.busAnswers [.xfer data 0 n []] e d) :
    (rawWrite data).run s = .ok () { s with
      x := { s.x with buf := data ++ s.x.buf.drop data.length, bufLen := data.length }
      seq := { s.seq with ra := .idle }
      history := s.history ++ [.xfer data 0 n []]
      moves := s.moves ++ rawMoves
      env := e, dev := d } := by
  have hn' : decide (n < 1) = false := decide_eq_false (by omega)
  rw [rawWrite_run h1 h2, bind_ok (busXfer_of_replay (s := s.rawFramed data) hb)]
  simp only []
  rw [raiseIf_false_bind hn', update_run]
  simp [State.setRa, State.rawFramed, rawMoves]

/-- A raw write whose transfer fails (R127). -/
theorem rawWrite_fail {s : State} {data : List Byte} {e : Env} {d : Dev}
    (h1 : 1 ≤ data.length) (h2 : data.length ≤ s.cfg.bufCap) (hb : s.busAnswers [.xfer data 0 0 []] e d) :
    (rawWrite data).run s = .error (.raised .internalErr) { s with
      x := { s.x with buf := data ++ s.x.buf.drop data.length, bufLen := data.length }
      seq := { s.seq with ra := .xfer }
      history := s.history ++ [.xfer data 0 0 []]
      moves := s.moves ++ [.ra .check, .ra .xfer, .prim]
      env := e, dev := d } := by
  rw [rawWrite_run h1 h2, bind_ok (busXfer_of_replay (s := s.rawFramed data) hb)]
  simp only []
  rw [raiseIf_true_bind (by decide)]
  simp [State.rawFramed]

/-- A raw write of a length RA refuses (R127). -/
theorem rawWrite_refuse {s : State} {data : List Byte} (h : data.length = 0 ∨ s.cfg.bufCap < data.length) :
    (rawWrite data).run s = .error (.raised .invalidArg) (s.setRa .check) := by
  have hd : (decide (data.length = 0) || decide (s.cfg.bufCap < data.length)) = true := by
    rw [Bool.or_eq_true, decide_eq_true_iff, decide_eq_true_iff]
    exact h
  unfold rawWrite
  rw [update_bind, config_bind]
  exact raiseIf_true_bind hd _ _ _

/-! The internal accesses of 16 and 32 bits. -/

theorem Holding.sameButAccess_refl (x : Holding) : x.sameButAccess x := rfl

theorem Holding.sameButAccess_trans {x y z : Holding} (h1 : x.sameButAccess y) (h2 : y.sameButAccess z) :
    x.sameButAccess z := by
  cases x; cases y; cases z
  simp only [Holding.sameButAccess, Holding.mk.injEq] at *
  simp_all

/-- A successful 16-bit read (R129). -/
theorem regRead16_ok {s : State} {a : Addr} {n : Nat} {v : Word} {e : Env} {d : Dev} (hn : 1 ≤ n)
    (hb : s.busAnswers [read16 s.cfg a n v] e d) :
    (regRead16 a).run s = .ok v { s with
      x := { s.x.afterRead s.cfg a 0 2 (bytes16 s.cfg.devEndian v) with val := v }
      seq := { s.seq with ra := .idle }
      history := s.history ++ [read16 s.cfg a n v]
      moves := s.moves ++ readMoves
      env := e, dev := d } := by
  unfold regRead16
  rw [config_bind, bind_ok (regRead_ok (cnt := 0) rfl hn (bytes16_length _ _) hb)]
  have hv : val16At s.cfg.hostEndian (toHost s.cfg (bytes16 s.cfg.devEndian v)) = v := by
    rw [← toDev_bytes16, toHost_eq_toDev, ← toHost_eq_toDev]
    unfold toHost toDev
    split <;> simp
  simp only [hv]
  rw [update_bind, pure_run]
  rfl

/-- A successful 16-bit read as a stretch of a run. -/
theorem regRead16_goes {s : State} {a : Addr} {n : Nat} {v : Word} {e : Env} {d : Dev} (hn : 1 ≤ n)
    (hb : s.busAnswers [read16 s.cfg a n v] e d) :
    ∃ t, (regRead16 a).run s = .ok v t ∧ Goes s t [read16 s.cfg a n v] readMoves ∧
      t.seq = { s.seq with ra := .idle } ∧ s.x.sameButAccess t.x ∧ t.x.val = v ∧ t.x.cmdOp = s.x.cmdOp ∧
      t.x.pollCnt = s.x.pollCnt ∧ t.env = e ∧ t.dev = d :=
  ⟨_, regRead16_ok hn hb, ⟨rfl, rfl, rfl, rfl, rfl, hb⟩, rfl, rfl, rfl, rfl, rfl, rfl, rfl⟩

/-- A 16-bit read whose transfer fails: x[VAL] is left as it was (R129). -/
theorem regRead16_fail {s : State} {a : Addr} {r : List Byte} {e : Env} {d : Dev}
    (hb : s.busAnswers [.xfer (header s.cfg.wire a .read 0) 2 0 r] e d) :
    ∃ t, (regRead16 a).run s = .error (.raised .internalErr) t ∧
      Goes s t [.xfer (header s.cfg.wire a .read 0) 2 0 r] [.ra .check, .ra .header, .ra .xfer, .prim] ∧
      t.seq = { s.seq with ra := .xfer } ∧ s.x.sameButAccess t.x ∧ t.x.val = s.x.val := by
  unfold regRead16
  rw [config_bind]
  exact ⟨_, bind_error (regRead_fail (cnt := 0) rfl hb), ⟨rfl, rfl, rfl, rfl, rfl, hb⟩, rfl, rfl, rfl⟩

/-- A successful write access as a stretch of a run. -/
theorem regWrite_goes {s : State} {a : Addr} {data : List Byte} {cnt : BitVec 7} {n : Nat} {e : Env} {d : Dev}
    (hc : countOf data.length = some cnt) (hn : 1 ≤ n)
    (hb : s.busAnswers [.xfer (header s.cfg.wire a .write cnt ++ toDev s.cfg data) 0 n []] e d) :
    ∃ t, (regWrite a data).run s = .ok () t ∧
      Goes s t [.xfer (header s.cfg.wire a .write cnt ++ toDev s.cfg data) 0 n []] writeMoves ∧
      t.seq = { s.seq with ra := .idle } ∧ s.x.sameButAccess t.x ∧ t.x.val = s.x.val ∧ t.x.cmdOp = s.x.cmdOp ∧
      t.x.pollCnt = s.x.pollCnt ∧ t.env = e ∧ t.dev = d :=
  ⟨_, regWrite_ok hc hn hb, ⟨rfl, rfl, rfl, rfl, rfl, hb⟩, rfl, rfl, rfl, rfl, rfl, rfl, rfl⟩

/-- A successful 16-bit write (R128). -/
theorem regWrite16_goes {s : State} {a : Addr} {n : Nat} {v : Word} {e : Env} {d : Dev} (hn : 1 ≤ n)
    (hb : s.busAnswers [write16 s.cfg a n v] e d) :
    ∃ t, (regWrite16 a v).run s = .ok () t ∧ Goes s t [write16 s.cfg a n v] writeMoves ∧
      t.seq = { s.seq with ra := .idle } ∧ s.x.sameButAccess t.x ∧ t.x.val = s.x.val ∧ t.x.cmdOp = s.x.cmdOp ∧
      t.x.pollCnt = s.x.pollCnt ∧ t.env = e ∧ t.dev = d := by
  have hc : countOf (bytes16 s.cfg.hostEndian v).length = some 0 := by rw [bytes16_length]; rfl
  have h := regWrite_goes (a := a) hc hn (by rw [toDev_bytes16]; exact hb)
  rw [toDev_bytes16] at h
  exact h

/-- A successful 32-bit read (R212). -/
theorem regRead32_goes {s : State} {a : Addr} {n : Nat} {v : DWord} {e : Env} {d : Dev} (hn : 1 ≤ n)
    (hb : s.busAnswers [read32 s.cfg a n v] e d) :
    ∃ t, (regRead32 a).run s = .ok v t ∧ Goes s t [read32 s.cfg a n v] readMoves ∧
      t.seq = { s.seq with ra := .idle } ∧ s.x.sameButAccess t.x ∧ t.x.val = s.x.val ∧ t.x.cmdOp = s.x.cmdOp ∧
      t.x.pollCnt = s.x.pollCnt ∧ t.env = e ∧ t.dev = d := by
  unfold regRead32
  rw [config_bind, bind_ok (regRead_ok (cnt := 1) rfl hn (bytes32_length _ _) hb), toDev_toHost, val32At_bytes32, pure_run]
  exact ⟨_, rfl, ⟨rfl, rfl, rfl, rfl, rfl, hb⟩, rfl, rfl, rfl, rfl, rfl, rfl, rfl⟩

/-- A successful 32-bit write (R212). -/
theorem regWrite32_goes {s : State} {a : Addr} {n : Nat} {v : DWord} {e : Env} {d : Dev} (hn : 1 ≤ n)
    (hb : s.busAnswers [write32 s.cfg a n v] e d) :
    ∃ t, (regWrite32 a v).run s = .ok () t ∧ Goes s t [write32 s.cfg a n v] writeMoves ∧
      t.seq = { s.seq with ra := .idle } ∧ s.x.sameButAccess t.x ∧ t.x.val = s.x.val ∧ t.x.cmdOp = s.x.cmdOp ∧
      t.x.pollCnt = s.x.pollCnt ∧ t.env = e ∧ t.dev = d := by
  have hc : countOf (toHost s.cfg (bytes32 s.cfg.devEndian v)).length = some 1 := by
    rw [toHost_length, bytes32_length]; rfl
  have h := regWrite_goes (a := a) hc hn (by rw [toDev_toHost]; exact hb)
  rw [toDev_toHost] at h
  unfold regWrite32
  rw [config_bind]
  exact h

/-- A successful raw write as a stretch of a run. -/
theorem rawWrite_goes {s : State} {data : List Byte} {n : Nat} {e : Env} {d : Dev}
    (h1 : 1 ≤ data.length) (h2 : data.length ≤ s.cfg.bufCap) (hn : 1 ≤ n)
    (hb : s.busAnswers [.xfer data 0 n []] e d) :
    ∃ t, (rawWrite data).run s = .ok () t ∧ Goes s t [.xfer data 0 n []] rawMoves ∧
      t.seq = { s.seq with ra := .idle } ∧ s.x.sameButAccess t.x ∧ t.x.val = s.x.val ∧ t.x.cmdOp = s.x.cmdOp ∧
      t.x.pollCnt = s.x.pollCnt ∧ t.env = e ∧ t.dev = d :=
  ⟨_, rawWrite_ok h1 h2 hn hb, ⟨rfl, rfl, rfl, rfl, rfl, hb⟩, rfl, rfl, rfl, rfl, rfl, rfl, rfl⟩

end Sys2Proof.Machine
end

