-- ==== Sys2Proof/Laws/HostCommand.lean ====
section
/-! SUPPORT. What the handshake does: the poll reads, a poll phase that passes or is exhausted, and RunCommand. -/

namespace Sys2Proof.Machine

/-- The first read of a poll phase: no delay before it (R146). -/
theorem pollRead_first {s : State} {a : Addr} {n : Nat} {v : Word} {e : Env} {d : Dev} (hp : s.x.pollCnt = 0)
    (hn : 1 ≤ n) (hb : s.busAnswers [read16 s.cfg a n v] e d) :
    ∃ t, (pollRead a).run s = .ok v t ∧ Goes s t [read16 s.cfg a n v] readMoves ∧
      t.seq = { s.seq with ra := .idle } ∧ s.x.sameButAccess t.x ∧ t.x.val = v ∧ t.x.cmdOp = s.x.cmdOp ∧
      t.x.pollCnt = 1 ∧ t.env = e ∧ t.dev = d := by
  obtain ⟨t, h, hg, hs, hx, hv, hc, hk, he, hd⟩ := regRead16_goes hn hb
  unfold pollRead
  rw [get_bind]
  simp only [hp, lt_irrefl, if_false]
  rw [bind_ok h, update_bind, pure_run]
  refine ⟨_, rfl, ⟨hg.cfg, hg.inbox, hg.rsp, hg.history, hg.moves, hg.bus⟩, hs, ?_, hv, hc, ?_, he, hd⟩
  · exact Holding.sameButAccess_trans hx rfl
  · show t.x.pollCnt + 1 = 1
    rw [hk, hp]

/-- A later read of a poll phase: one delay before it (R146). -/
theorem pollRead_next {s : State} {a : Addr} {n : Nat} {v : Word} {e : Env} {d : Dev} (hp : 0 < s.x.pollCnt)
    (hn : 1 ≤ n) (hb : s.busAnswers [.delay s.cfg.pollDelayMs, read16 s.cfg a n v] e d) :
    ∃ t, (pollRead a).run s = .ok v t ∧
      Goes s t [.delay s.cfg.pollDelayMs, read16 s.cfg a n v] (.prim :: readMoves) ∧
      t.seq = { s.seq with ra := .idle } ∧ s.x.sameButAccess t.x ∧ t.x.val = v ∧ t.x.cmdOp = s.x.cmdOp ∧
      t.x.pollCnt = s.x.pollCnt + 1 ∧ t.env = e ∧ t.dev = d := by
  obtain ⟨e1, d1, h1⟩ := State.busAnswers_append (a := [.delay s.cfg.pollDelayMs]) (b := [read16 s.cfg a n v]) hb
  obtain ⟨u, hu, hgu, hxu, hsu, -, -⟩ := delay_goes h1
  have hb2 : u.busAnswers [read16 u.cfg a n v] e d := by rw [hgu.cfg]; exact hgu.rest hb
  obtain ⟨t, h, hg, hs, hx, hv, hc, hk, he, hd⟩ := regRead16_goes hn hb2
  unfold pollRead
  rw [get_bind]
  simp only [hp, if_true]
  rw [bind_ok hu, bind_ok h, update_bind, pure_run]
  have hg' := hgu.trans hg
  rw [hgu.cfg] at hg'
  refine ⟨_, rfl, ⟨hg'.cfg, hg'.inbox, hg'.rsp, hg'.history, hg'.moves, hg'.bus⟩, ?_, ?_, hv, ?_, ?_, he, hd⟩
  · show t.seq = _
    rw [hs, hsu]
  · rw [← hxu]
    exact Holding.sameButAccess_trans hx rfl
  · show t.x.cmdOp = _
    rw [hc, hxu]
  · show t.x.pollCnt + 1 = _
    rw [hk, hxu]

/-- The events of the later reads of a phase. -/
def laterReads (c : Config) (a : Addr) (ps : List (Nat × Word)) : List Event :=
  ps.flatMap fun q => [.delay c.pollDelayMs, read16 c a q.1 q.2]

/-- The moves of the later reads of a phase. -/
def laterMoves (k : Nat) : List Move := (List.replicate k (.prim :: readMoves)).flatten

theorem laterReads_cons (c : Config) (a : Addr) (q : Nat × Word) (ps : List (Nat × Word)) :
    laterReads c a (q :: ps) = [.delay c.pollDelayMs, read16 c a q.1 q.2] ++ laterReads c a ps := rfl

theorem laterMoves_succ (k : Nat) : laterMoves (k + 1) = (.prim :: readMoves) ++ laterMoves k := rfl

/-- What a loop of later reads reaches: the reads made, and what they leave. -/
structure Polled (s t : State) (a : Addr) (ps : List (Nat × Word)) (e : Env) (d : Dev) : Prop where
  goes : Goes s t (laterReads s.cfg a ps) (laterMoves ps.length)
  seq : t.seq = { s.seq with ra := .idle }
  x : s.x.sameButAccess t.x
  cmdOp : t.x.cmdOp = s.x.cmdOp
  pollCnt : t.x.pollCnt = s.x.pollCnt + ps.length
  val : ∀ q ∈ ps.getLast?, t.x.val = q.2
  env : t.env = e
  dev : t.dev = d

/-- One more read in front. -/
theorem Polled.cons {s u t : State} {a : Addr} {q : Nat × Word} {ps : List (Nat × Word)} {e : Env} {d : Dev}
    (hg : Goes s u [.delay s.cfg.pollDelayMs, read16 s.cfg a q.1 q.2] (.prim :: readMoves))
    (hs : u.seq = { s.seq with ra := .idle }) (hx : s.x.sameButAccess u.x) (hc : u.x.cmdOp = s.x.cmdOp)
    (hk : u.x.pollCnt = s.x.pollCnt + 1) (h : Polled u t a ps e d) (hne : ps ≠ []) : Polled s t a (q :: ps) e d where
  goes := by
    have := hg.trans h.goes
    rw [hg.cfg] at this
    rw [laterReads_cons]
    exact this
  seq := by rw [h.seq, hs]
  x := Holding.sameButAccess_trans hx h.x
  cmdOp := h.cmdOp.trans hc
  pollCnt := by rw [h.pollCnt, hk, List.length_cons]; omega
  val := by
    intro p hp
    refine h.val p ?_
    cases ps with
    | nil => exact absurd rfl hne
    | cons r rs => simpa using hp
  env := h.env
  dev := h.dev

/-- A single later read. -/
theorem Polled.single {s u : State} {a : Addr} {q : Nat × Word} {e : Env} {d : Dev}
    (hg : Goes s u [.delay s.cfg.pollDelayMs, read16 s.cfg a q.1 q.2] (.prim :: readMoves))
    (hs : u.seq = { s.seq with ra := .idle }) (hx : s.x.sameButAccess u.x) (hc : u.x.cmdOp = s.x.cmdOp)
    (hk : u.x.pollCnt = s.x.pollCnt + 1) (hv : u.x.val = q.2) (he : u.env = e) (hd : u.dev = d) :
    Polled s u a [q] e d where
  goes := by
    rw [laterReads_cons]
    simpa [laterReads, laterMoves] using hg
  seq := hs
  x := hx
  cmdOp := hc
  pollCnt := hk
  val := by
    intro p hp
    simp only [List.getLast?_singleton, Option.mem_def, Option.some.injEq] at hp
    rw [hv, hp]
  env := he
  dev := hd

theorem pollPasses_cons {pass : Word → Bool} {q r : Nat × Word} {rs : List (Nat × Word)} :
    pollPasses pass (q :: r :: rs) = true ↔ 1 ≤ q.1 ∧ pass q.2 = false ∧ pollPasses pass (r :: rs) = true := by
  simp [pollPasses, and_assoc]

theorem pollPasses_single {pass : Word → Bool} {q : Nat × Word} :
    pollPasses pass [q] = true ↔ 1 ≤ q.1 ∧ pass q.2 = true := by simp [pollPasses]

/-- A loop that is not the last allowed read, whose read passes. -/
theorem pollLoop_stop {s u : State} {a : Addr} {pass : Word → Bool} {left : Nat} {v : Word}
    (h : (pollRead a).run s = .ok v u) (hp : pass v = true) : (pollLoop a pass left).run s = .ok () u := by
  cases left with
  | zero => unfold pollLoop; rw [bind_ok h]; simp only [hp, if_true]; rfl
  | succ n => unfold pollLoop; rw [bind_ok h]; simp only [hp, if_true]; rfl

/-- A loop whose read does not pass goes on. -/
theorem pollLoop_more {s u : State} {a : Addr} {pass : Word → Bool} {left : Nat} {v : Word}
    (h : (pollRead a).run s = .ok v u) (hp : pass v = false) :
    (pollLoop a pass (left + 1)).run s = (pollLoop a pass left).run u := by
  rw [pollLoop, bind_ok h]
  simp [hp]

/-- A loop whose last allowed read does not pass raises RESOURCE_ERR (R145). -/
theorem pollLoop_last {s u : State} {a : Addr} {pass : Word → Bool} {v : Word}
    (h : (pollRead a).run s = .ok v u) (hp : pass v = false) :
    (pollLoop a pass 0).run s = .error (.raised .resourceErr) u := by
  rw [pollLoop, bind_ok h]
  simp only [hp]
  rfl

/-- Later reads that end in one that passes end the loop with exactly those reads (R145). -/
theorem pollLoop_later_passes {a : Addr} {pass : Word → Bool} {ps : List (Nat × Word)} {e : Env} {d : Dev}
    {left : Nat} {s : State} (hp : 0 < s.x.pollCnt) (hok : pollPasses pass ps = true) (hl : ps.length ≤ left + 1)
    (hb : s.busAnswers (laterReads s.cfg a ps) e d) :
    ∃ t, (pollLoop a pass left).run s = .ok () t ∧ Polled s t a ps e d := by
  induction ps generalizing s left with
  | nil => simp [pollPasses] at hok
  | cons q rest ih =>
    rw [laterReads_cons] at hb
    obtain ⟨e1, d1, h1⟩ := State.busAnswers_append hb
    cases rest with
    | nil =>
      obtain ⟨hn, hq⟩ := pollPasses_single.mp hok
      simp only [laterReads, List.flatMap_nil, List.append_nil] at hb
      obtain ⟨u, hu, hg, hs, hx, hv, hc, hk, he, hd⟩ := pollRead_next hp hn hb
      exact ⟨u, pollLoop_stop hu hq, Polled.single hg hs hx hc hk hv he hd⟩
    | cons r rs =>
      obtain ⟨hn, hq, hok⟩ := pollPasses_cons.mp hok
      obtain ⟨u, hu, hg, hs, hx, hv, hc, hk, he, hd⟩ := pollRead_next hp hn h1
      cases left with
      | zero => simp at hl
      | succ left =>
        have hb2 : u.busAnswers (laterReads u.cfg a (r :: rs)) e d := by rw [hg.cfg]; exact hg.rest hb
        obtain ⟨t, ht, hP⟩ := ih (s := u) (left := left) (by omega) hok (by simpa using hl) hb2
        exact ⟨t, (pollLoop_more hu hq).trans ht, Polled.cons hg hs hx hc hk hP (by simp)⟩

/-- Later reads none of which passes, as many as are allowed, raise RESOURCE_ERR after the last (R145). -/
theorem pollLoop_later_fails {a : Addr} {pass : Word → Bool} {ps : List (Nat × Word)} {e : Env} {d : Dev}
    {left : Nat} {s : State} (hp : 0 < s.x.pollCnt) (hok : pollFails pass ps = true) (hl : ps.length = left + 1)
    (hb : s.busAnswers (laterReads s.cfg a ps) e d) :
    ∃ t, (pollLoop a pass left).run s = .error (.raised .resourceErr) t ∧ Polled s t a ps e d := by
  induction ps generalizing s left with
  | nil => simp at hl
  | cons q rest ih =>
    rw [laterReads_cons] at hb
    obtain ⟨e1, d1, h1⟩ := State.busAnswers_append hb
    simp only [pollFails, List.all_cons, Bool.and_eq_true, decide_eq_true_eq, Bool.not_eq_true'] at hok
    obtain ⟨⟨hn, hq⟩, hok⟩ := hok
    cases rest with
    | nil =>
      simp only [laterReads, List.flatMap_nil, List.append_nil] at hb
      obtain ⟨u, hu, hg, hs, hx, hv, hc, hk, he, hd⟩ := pollRead_next hp hn hb
      have : left = 0 := by simpa using hl.symm
      subst this
      exact ⟨u, pollLoop_last hu hq, Polled.single hg hs hx hc hk hv he hd⟩
    | cons r rs =>
      obtain ⟨u, hu, hg, hs, hx, hv, hc, hk, he, hd⟩ := pollRead_next hp hn h1
      cases left with
      | zero => simp at hl
      | succ left =>
        have hb2 : u.busAnswers (laterReads u.cfg a (r :: rs)) e d := by rw [hg.cfg]; exact hg.rest hb
        obtain ⟨t, ht, hP⟩ := ih (s := u) (left := left) (by omega) (by simpa [pollFails] using hok)
          (by simpa using hl) hb2
        exact ⟨t, (pollLoop_more hu hq).trans ht, Polled.cons hg hs hx hc hk hP (by simp)⟩

/-- What a poll phase leaves: exactly its reads, the last value in x[VAL], their number in x[POLLCNT]. -/
structure Phase (s t : State) (a : Addr) (ps : List (Nat × Word)) (e : Env) (d : Dev) : Prop where
  goes : Goes s t (pollEvents s.cfg a ps) (pollMoves ps.length)
  seq : t.seq = { s.seq with ra := .idle }
  x : s.x.sameButAccess t.x
  cmdOp : t.x.cmdOp = s.x.cmdOp
  pollCnt : t.x.pollCnt = ps.length
  val : ∀ q ∈ ps.getLast?, t.x.val = q.2
  env : t.env = e
  dev : t.dev = d

/-- A poll phase of one read, then later ones. -/
theorem Phase.of_first {s u t : State} {a : Addr} {q : Nat × Word} {ps : List (Nat × Word)} {e : Env} {d : Dev}
    (hg : Goes s u [read16 s.cfg a q.1 q.2] readMoves)
    (hs : u.seq = { s.seq with ra := .idle }) (hx : s.x.sameButAccess u.x) (hc : u.x.cmdOp = s.x.cmdOp)
    (hk : u.x.pollCnt = 1) (h : Polled u t a ps e d) (hne : ps ≠ []) : Phase s t a (q :: ps) e d where
  goes := by
    have := hg.trans h.goes
    rw [hg.cfg] at this
    exact this
  seq := by rw [h.seq, hs]
  x := Holding.sameButAccess_trans hx h.x
  cmdOp := h.cmdOp.trans hc
  pollCnt := by rw [h.pollCnt, hk, List.length_cons]; omega
  val := by
    intro p hp
    refine h.val p ?_
    cases ps with
    | nil => exact absurd rfl hne
    | cons r rs => simpa using hp
  env := h.env
  dev := h.dev

/-- A poll phase of one read. -/
theorem Phase.single {s u : State} {a : Addr} {q : Nat × Word} {e : Env} {d : Dev}
    (hg : Goes s u [read16 s.cfg a q.1 q.2] readMoves)
    (hs : u.seq = { s.seq with ra := .idle }) (hx : s.x.sameButAccess u.x) (hc : u.x.cmdOp = s.x.cmdOp)
    (hk : u.x.pollCnt = 1) (hv : u.x.val = q.2) (he : u.env = e) (hd : u.dev = d) : Phase s u a [q] e d where
  goes := by simpa [pollEvents, pollMoves] using hg
  seq := hs
  x := hx
  cmdOp := hc
  pollCnt := hk
  val := by
    intro p hp
    simp only [List.getLast?_singleton, Option.mem_def, Option.some.injEq] at hp
    rw [hv, hp]
  env := he
  dev := hd

/-- The count is cleared before a phase (R268). -/
theorem Phase.of_cleared {s t : State} {a : Addr} {ps : List (Nat × Word)} {e : Env} {d : Dev}
    (h : Phase (s.setPollCnt 0) t a ps e d) : Phase s t a ps e d where
  goes := ⟨h.goes.cfg, h.goes.inbox, h.goes.rsp, h.goes.history, h.goes.moves, h.goes.bus⟩
  seq := h.seq
  x := Holding.sameButAccess_trans (y := (s.setPollCnt 0).x) rfl h.x
  cmdOp := h.cmdOp
  pollCnt := h.pollCnt
  val := h.val
  env := h.env
  dev := h.dev

theorem pollPhase_run (s : State) (a : Addr) (pass : Word → Bool) :
    (pollPhase a pass).run s = (pollLoop a pass (s.cfg.pollBound - 1)).run (s.setPollCnt 0) := by
  unfold pollPhase
  rw [config_bind, update_bind]

/-- A phase that passes within the bound (R142, R144, R145). -/
theorem pollPhase_passes {s : State} {a : Addr} {pass : Word → Bool} {ps : List (Nat × Word)} {e : Env} {d : Dev}
    (hok : pollPasses pass ps = true) (hl : ps.length ≤ s.cfg.pollBound)
    (hb : s.busAnswers (pollEvents s.cfg a ps) e d) :
    ∃ t, (pollPhase a pass).run s = .ok () t ∧ Phase s t a ps e d := by
  rw [pollPhase_run]
  have hb' : (s.setPollCnt 0).busAnswers (pollEvents s.cfg a ps) e d := hb
  cases ps with
  | nil => simp [pollPasses] at hok
  | cons q rest =>
    cases rest with
    | nil =>
      obtain ⟨hn, hq⟩ := pollPasses_single.mp hok
      obtain ⟨u, hu, hg, hs, hx, hv, hc, hk, he, hd⟩ := pollRead_first (s := s.setPollCnt 0) rfl hn hb'
      exact ⟨u, pollLoop_stop hu hq, (Phase.single hg hs hx hc hk hv he hd).of_cleared⟩
    | cons r rs =>
      obtain ⟨hn, hq, hok⟩ := pollPasses_cons.mp hok
      obtain ⟨e1, d1, h1⟩ := State.busAnswers_append (s := s.setPollCnt 0) (a := [read16 s.cfg a q.1 q.2])
        (b := laterReads s.cfg a (r :: rs)) hb'
      obtain ⟨u, hu, hg, hs, hx, hv, hc, hk, he, hd⟩ := pollRead_first (s := s.setPollCnt 0) rfl hn h1
      obtain ⟨m, hm⟩ : ∃ m, s.cfg.pollBound - 1 = m + 1 := ⟨s.cfg.pollBound - 2, by simp at hl; omega⟩
      have hb2 : u.busAnswers (laterReads u.cfg a (r :: rs)) e d := by
        rw [hg.cfg]
        exact hg.rest (rest := laterReads s.cfg a (r :: rs)) hb'
      obtain ⟨t, ht, hP⟩ := pollLoop_later_passes (left := m) (by omega) hok (by simp at hl ⊢; omega) hb2
      rw [hm]
      exact ⟨t, (pollLoop_more hu hq).trans ht, (Phase.of_first hg hs hx hc hk hP (by simp)).of_cleared⟩

/-- A phase that exhausts the bound: exactly `POLL_BOUND` reads, then RESOURCE_ERR (R145). -/
theorem pollPhase_fails {s : State} {a : Addr} {pass : Word → Bool} {ps : List (Nat × Word)} {e : Env} {d : Dev}
    (hok : pollFails pass ps = true) (hl : ps.length = s.cfg.pollBound) (hpos : 1 ≤ s.cfg.pollBound)
    (hb : s.busAnswers (pollEvents s.cfg a ps) e d) :
    ∃ t, (pollPhase a pass).run s = .error (.raised .resourceErr) t ∧ Phase s t a ps e d := by
  rw [pollPhase_run]
  have hb' : (s.setPollCnt 0).busAnswers (pollEvents s.cfg a ps) e d := hb
  cases ps with
  | nil => simp at hl; omega
  | cons q rest =>
    simp only [pollFails, List.all_cons, Bool.and_eq_true, decide_eq_true_eq, Bool.not_eq_true'] at hok
    obtain ⟨⟨hn, hq⟩, hok⟩ := hok
    cases rest with
    | nil =>
      obtain ⟨u, hu, hg, hs, hx, hv, hc, hk, he, hd⟩ := pollRead_first (s := s.setPollCnt 0) rfl hn hb'
      have : s.cfg.pollBound - 1 = 0 := by simp at hl; omega
      rw [this]
      exact ⟨u, pollLoop_last hu hq, (Phase.single hg hs hx hc hk hv he hd).of_cleared⟩
    | cons r rs =>
      obtain ⟨e1, d1, h1⟩ := State.busAnswers_append (s := s.setPollCnt 0) (a := [read16 s.cfg a q.1 q.2])
        (b := laterReads s.cfg a (r :: rs)) hb'
      obtain ⟨u, hu, hg, hs, hx, hv, hc, hk, he, hd⟩ := pollRead_first (s := s.setPollCnt 0) rfl hn h1
      obtain ⟨m, hm⟩ : ∃ m, s.cfg.pollBound - 1 = m + 1 := ⟨s.cfg.pollBound - 2, by simp at hl; omega⟩
      have hb2 : u.busAnswers (laterReads u.cfg a (r :: rs)) e d := by
        rw [hg.cfg]
        exact hg.rest (rest := laterReads s.cfg a (r :: rs)) hb'
      obtain ⟨t, ht, hP⟩ := pollLoop_later_fails (pass := pass) (left := m) (by omega)
        (by simpa [pollFails] using hok) (by simp at hl ⊢; omega) hb2
      rw [hm]
      exact ⟨t, (pollLoop_more hu hq).trans ht, (Phase.of_first hg hs hx hc hk hP (by simp)).of_cleared⟩

/-! The handshake. -/

/-- The value a passing phase ends with passes. -/
theorem pollPasses_last {pass : Word → Bool} {ps : List (Nat × Word)} (h : pollPasses pass ps = true) :
    ∃ q, ps.getLast? = some q ∧ pass q.2 = true := by
  induction ps with
  | nil => simp [pollPasses] at h
  | cons q rest ih =>
    cases rest with
    | nil => exact ⟨q, rfl, (pollPasses_single.mp h).2⟩
    | cons r rs =>
      obtain ⟨p, hp, h2⟩ := ih (pollPasses_cons.mp h).2.2
      exact ⟨p, by simpa using hp, h2⟩

/-- The conditions of a successful handshake, one by one. -/
theorem CmdRun.ok_iff {c : Config} {r : CmdRun} :
    r.ok c = true ↔ pollPasses (fun v => !busyFlag v) r.idle = true ∧ r.idle.length ≤ c.pollBound ∧ 1 ≤ r.wrote ∧
      1 ≤ r.notified ∧ pollPasses commandDone r.done = true ∧ r.done.length ≤ c.pollBound := by
  simp [CmdRun.ok, and_assoc]

/-- What a successful handshake leaves (R132, R148): the word in x[CMDOP], 0 in x[VAL], the reads of phase 3 in
x[POLLCNT], RA and HC idle. -/
structure Commanded (s t : State) (cmd : Word) (r : CmdRun) (e : Env) (d : Dev) : Prop where
  goes : Goes s t (r.events s.cfg cmd) r.moves
  seq : t.seq = { s.seq with ra := .idle, hc := .idle }
  x : s.x.sameButAccess t.x
  cmdOp : t.x.cmdOp = cmd
  pollCnt : t.x.pollCnt = r.done.length
  val : t.x.val = 0#16
  env : t.env = e
  dev : t.dev = d

/-- A successful handshake (R141). -/
theorem runCommand_ok {s : State} {cmd : Word} {r : CmdRun} {e : Env} {d : Dev} (hok : r.ok s.cfg = true)
    (hb : s.busAnswers (r.events s.cfg cmd) e d) :
    ∃ t, (runCommand cmd).run s = .ok () t ∧ Commanded s t cmd r e d := by
  obtain ⟨h1, hl1, h2, h3, h4, hl4⟩ := CmdRun.ok_iff.mp hok
  have hev : r.events s.cfg cmd = pollEvents s.cfg s.cfg.map.swFlags r.idle ++
      ([write16 s.cfg s.cfg.map.cmd r.wrote cmd] ++ ([write16 s.cfg s.cfg.map.swFlags r.notified 1#16] ++
        pollEvents s.cfg s.cfg.map.done r.done)) := by simp [CmdRun.events]
  rw [hev] at hb
  -- phase 1
  let s1 := (s.setCmdOp cmd).setHc .waitIdle
  have hb1 : s1.busAnswers _ e d := hb
  have g1 : Goes s s1 [] [.hc .waitIdle] := ⟨rfl, rfl, rfl, by simp [s1], rfl, rfl⟩
  obtain ⟨e1, d1, ha1⟩ := State.busAnswers_append hb1
  obtain ⟨s2, r2, p2⟩ := pollPhase_passes (s := s1) (a := s.cfg.map.swFlags) h1 hl1 ha1
  have g2 := g1.trans p2.goes
  have hb2 := p2.goes.rest hb1
  -- phase 2
  have g3 := g2.trans (Goes.setHc s2 .writeCmd)
  have c2 : s2.cfg = s.cfg := g2.cfg
  obtain ⟨e3, d3, ha3⟩ := State.busAnswers_append (s := s2.setHc .writeCmd) hb2
  obtain ⟨s4, r4, g4, q4, x4, v4, o4, k4, -, -⟩ :=
    regWrite16_goes (s := s2.setHc .writeCmd) (a := s.cfg.map.cmd) (v := cmd) h2
      (by show State.busAnswers (s2.setHc .writeCmd) [write16 s2.cfg _ _ _] _ _
          rw [c2]
          exact ha3)
  replace g4 : Goes (s2.setHc .writeCmd) s4 [write16 s.cfg s.cfg.map.cmd r.wrote cmd] writeMoves := by
    have := g4
    rwa [show (s2.setHc .writeCmd).cfg = s.cfg from c2] at this
  have hb4 := g4.rest (s := s2.setHc .writeCmd) hb2
  have g5 := (g3.trans g4).trans (Goes.setHc s4 .notify)
  have c4 : s4.cfg = s.cfg := (g3.trans g4).cfg
  obtain ⟨e5, d5, ha5⟩ := State.busAnswers_append (s := s4.setHc .notify) hb4
  obtain ⟨s6, r6, g6, q6, x6, v6, o6, k6, -, -⟩ :=
    regWrite16_goes (s := s4.setHc .notify) (a := s.cfg.map.swFlags) (v := 1#16) h3
      (by show State.busAnswers (s4.setHc .notify) [write16 s4.cfg _ _ _] _ _
          rw [c4]
          exact ha5)
  replace g6 : Goes (s4.setHc .notify) s6 [write16 s.cfg s.cfg.map.swFlags r.notified 1#16] writeMoves := by
    have := g6
    rwa [show (s4.setHc .notify).cfg = s.cfg from c4] at this
  have hb6 := g6.rest (s := s4.setHc .notify) hb4
  -- phase 3
  have g7 := (g5.trans g6).trans (Goes.setHc s6 .waitDone)
  have c6 : s6.cfg = s.cfg := (g5.trans g6).cfg
  obtain ⟨s8, r8, p8⟩ := pollPhase_passes (s := s6.setHc .waitDone) (a := s.cfg.map.done) h4
    (by rw [show (s6.setHc .waitDone).cfg = s.cfg from c6]; exact hl4)
    (by rw [show (s6.setHc .waitDone).cfg = s.cfg from c6]; exact hb6)
  have g9 := (g7.trans p8.goes).trans (Goes.setHc s8 .idle)
  refine ⟨s8.setHc .idle, ?_, ?_⟩
  · unfold runCommand
    rw [config_bind, update_bind, update_bind]
    rw [bind_ok r2, update_bind, bind_ok r4, update_bind, bind_ok r6, update_bind, bind_ok r8, update_run]
  · constructor
    · rw [show (s6.setHc .waitDone).cfg = s.cfg from c6] at g9
      have : Goes s (s8.setHc .idle) (([] ++ pollEvents s.cfg s.cfg.map.swFlags r.idle) ++ [] ++
          [write16 s.cfg s.cfg.map.cmd r.wrote cmd] ++ [] ++ [write16 s.cfg s.cfg.map.swFlags r.notified 1#16] ++ [] ++
          pollEvents s.cfg s.cfg.map.done r.done ++ []) _ := g9
      simpa [hev, CmdRun.moves] using this
    · have q2 : s2.seq = { s.seq with ra := .idle, hc := .waitIdle } := p2.seq
      simp only [State.setHc_seq, p8.seq, q6, q4, q2]
    · have x1 : s.x.sameButAccess s1.x := rfl
      exact Holding.sameButAccess_trans x1 (Holding.sameButAccess_trans p2.x (Holding.sameButAccess_trans x4
        (Holding.sameButAccess_trans x6 p8.x)))
    · show s8.x.cmdOp = _
      rw [p8.cmdOp]
      show s6.x.cmdOp = _
      rw [o6]
      show s4.x.cmdOp = _
      rw [o4]
      exact p2.cmdOp
    · exact p8.pollCnt
    · obtain ⟨q, hq, hq2⟩ := pollPasses_last h4
      have := p8.val q (by rw [hq]; rfl)
      show s8.x.val = _
      rw [this]
      simpa [commandDone] using hq2
    · exact p8.env
    · exact p8.dev

/-- A handshake that exhausts the bound in phase 1: nothing was written (R145, R152). -/
theorem runCommand_idle_fails {s : State} {cmd : Word} {ps : List (Nat × Word)} {e : Env} {d : Dev}
    (hf : pollFails (fun v => !busyFlag v) ps = true) (hl : ps.length = s.cfg.pollBound) (hpos : 1 ≤ s.cfg.pollBound)
    (hb : s.busAnswers (pollEvents s.cfg s.cfg.map.swFlags ps) e d) :
    ∃ t, (runCommand cmd).run s = .error (.raised .resourceErr) t ∧
      Goes s t (pollEvents s.cfg s.cfg.map.swFlags ps) ([.hc .waitIdle] ++ pollMoves ps.length) ∧
      t.seq = { s.seq with ra := .idle, hc := .waitIdle } ∧ s.x.sameButAccess t.x ∧ t.x.cmdOp = cmd ∧
      t.x.pollCnt = s.cfg.pollBound ∧ t.env = e ∧ t.dev = d := by
  let s1 := (s.setCmdOp cmd).setHc .waitIdle
  have hb1 : s1.busAnswers _ e d := hb
  have g1 : Goes s s1 [] [.hc .waitIdle] := ⟨rfl, rfl, rfl, by simp [s1], rfl, rfl⟩
  obtain ⟨s2, r2, p2⟩ := pollPhase_fails (s := s1) (a := s.cfg.map.swFlags) hf hl hpos hb1
  refine ⟨s2, ?_, g1.trans p2.goes, p2.seq, Holding.sameButAccess_trans (x := s.x) (y := s1.x) rfl p2.x, p2.cmdOp,
    by rw [p2.pollCnt, hl], p2.env, p2.dev⟩
  unfold runCommand
  rw [config_bind, update_bind, update_bind, bind_error r2]

/-- The read of a response: latched whatever it maps to (R258). -/
theorem readResult_ok {s : State} {n : Nat} {v : Word} {e : Env} {d : Dev} (hn : 1 ≤ n)
    (hb : s.busAnswers [read16 s.cfg s.cfg.map.result n v] e d) :
    ∃ t, readResult.run s = .ok v t ∧ Goes s t [read16 s.cfg s.cfg.map.result n v] readMoves ∧
      t.seq = { s.seq with ra := .idle } ∧
      (∃ y, s.x.sameButAccess y ∧ t.x = { y with rawResp := v, rawValid := true } ∧ y.val = v ∧
        y.cmdOp = s.x.cmdOp ∧ y.pollCnt = s.x.pollCnt) ∧ t.env = e ∧ t.dev = d := by
  obtain ⟨t, h, hg, hs, hx, hv, hc, hk, he, hd⟩ := regRead16_goes hn hb
  unfold readResult
  rw [config_bind, bind_ok h, update_bind, pure_run]
  exact ⟨_, rfl, ⟨hg.cfg, hg.inbox, hg.rsp, hg.history, hg.moves, hg.bus⟩, hs, ⟨t.x, hx, rfl, hv, hc, hk⟩, he, hd⟩

end Sys2Proof.Machine
end

