-- ==== Sys2Proof/Laws/Keeps.lean ====
section
/-! SUPPORT. Predicates that every sequence of the block keeps, however it ends: what holds before and is kept by each
register write and each bus primitive holds after. -/

namespace Sys2Proof.Machine

/-- The state reached satisfies `Q` where the sequence ended normally, and `P` where it was cut short. -/
def Ends {α : Type} (P Q : State → Prop) (r : EStateM.Result Abort State α) : Prop :=
  match r with
  | .ok _ t => Q t
  | .error _ t => P t

/-- `m` keeps `P`, whether it ends normally or is cut short. -/
def Keeps {α : Type} (P : State → Prop) (m : M α) : Prop := ∀ s, P s → Ends P P (m.run s)

/-- Kept by what RA writes, and by every bus primitive. The scratch buffer is given at most 256 bytes or its own
capacity. -/
structure RaStable (P : State → Prop) : Prop where
  ra : ∀ s st, P s → P (s.setRa st)
  access : ∀ s a size rw, P s → P (s.setAccess a size rw)
  hdr : ∀ s c a rw cnt, P s → P (s.setHdr (header c a rw cnt))
  buf : ∀ s bs, bs.length ≤ 256 ∨ bs.length ≤ s.cfg.bufCap → P s → P (s.setBuf bs)
  val : ∀ s v, P s → P (s.setVal v)
  xfer : ∀ s w k n r e d, s.env.resetIn ≠ some 0 → busReply s.cfg s.env s.dev w k = some (n, r, e, d) → P s →
    P ({ s with env := e, dev := d }.logXfer w k n r)
  delay : ∀ s ms, s.env.resetIn ≠ some 0 → P s → P (s.logDelay ms)
  hang : ∀ s p, s.env.resetIn ≠ some 0 → P s → P (s.hang p)

/-- Kept, besides, by what HC and the boot-mode controller write. -/
structure HcStable (P : State → Prop) : Prop extends RaStable P where
  hc : ∀ s st, P s → P (s.setHc st)
  bm : ∀ s st, P s → P (s.setBm st)
  cmdOp : ∀ s v, P s → P (s.setCmdOp v)
  pollCnt : ∀ s n, n ≤ max 1 s.cfg.pollBound → P s → P (s.setPollCnt n)

/-- Kept, besides, by the response latches. -/
structure LatchStable (P : State → Prop) : Prop extends HcStable P where
  latch : ∀ s v, P s → P (s.latch v)
  clearRaw : ∀ s, P s → P s.clearRaw
  count : ∀ s v, P s → P (s.setCount v)
  clearCount : ∀ s, P s → P s.clearCount
  fl : ∀ s st, P s → P (s.setFl st)
  it : ∀ s st, P s → P (s.setIt st)
  gl : ∀ s st, P s → P (s.setGl st)

/-- Kept by every register write and every bus primitive. -/
structure Stable (P : State → Prop) : Prop extends LatchStable P where
  image : ∀ s h, P s → P ((s.setImage h).setBlkSize (blockBytes h.blkWords))
  cursor : ∀ s pos rem, P s → P (s.setCursor pos rem)

/-- The bytes received are as many as were asked for (R6), whoever answers. -/
theorem busReply_length {c : Config} {e e' : Env} {d d' : Dev} {w r : List Byte} {k n : Nat}
    (h : busReply c e d w k = some (n, r, e', d')) : r.length = k := by
  unfold busReply at h
  split at h
  · cases h
  · cases h; simp
  · split at h
    · cases h; simp
    · split at h
      · next d1 hd =>
        cases h
        exact respond_length hd
      · cases h

theorem Keeps.pure {α : Type} {P : State → Prop} (a : α) : Keeps P (pure a : M α) := fun _ h => h

theorem Keeps.raise {α : Type} {P : State → Prop} (st : Status) : Keeps P (raise st : M α) := fun _ h => h

theorem Keeps.raiseIf {P : State → Prop} (c : Bool) (st : Status) : Keeps P (raiseIf c st) := by
  cases c <;> exact fun _ h => h

theorem Keeps.continueIfSuccess {P : State → Prop} (st : Status) : Keeps P (continueIfSuccess st) :=
  Keeps.raiseIf _ _

theorem Keeps.config {P : State → Prop} : Keeps P config := fun _ h => h

theorem Keeps.get {P : State → Prop} : Keeps P (get : M State) := fun _ h => h

theorem Keeps.update {P : State → Prop} {f : State → State} (h : ∀ s, P s → P (f s)) : Keeps P (update f) := h

theorem Keeps.bind {α β : Type} {P : State → Prop} {m : M α} {f : α → M β} (h1 : Keeps P m)
    (h2 : ∀ a, Keeps P (f a)) : Keeps P (m >>= f) := by
  intro s hs
  have := h1 s hs
  cases hm : m.run s with
  | ok a t =>
    rw [bind_ok hm]
    rw [hm] at this
    exact h2 a t this
  | error e t =>
    rw [bind_error hm]
    rw [hm] at this
    exact this

/-- As `Keeps.bind`, where the value of the first part is known to satisfy `Q`. -/
theorem Keeps.bind_val {α β : Type} {P : State → Prop} {Q : α → Prop} {m : M α} {f : α → M β} (h1 : Keeps P m)
    (hq : ∀ s a t, m.run s = .ok a t → Q a) (h2 : ∀ a, Q a → Keeps P (f a)) : Keeps P (m >>= f) := by
  intro s hs
  have := h1 s hs
  cases hm : m.run s with
  | ok a t =>
    rw [bind_ok hm]
    rw [hm] at this
    exact h2 a (hq s a t hm) t this
  | error e t =>
    rw [bind_error hm]
    rw [hm] at this
    exact this

/-- What holds after the first part lets the second part end as said. -/
theorem Keeps.bind_at {α β : Type} {P Q R : State → Prop} {m : M α} {f : α → M β} {s : State}
    (h1 : Ends P Q (m.run s)) (h2 : ∀ a t, Q t → Ends P R ((f a).run t)) : Ends P R ((m >>= f).run s) := by
  cases hm : m.run s with
  | ok a t =>
    rw [bind_ok hm]
    rw [hm] at h1
    exact h2 a t h1
  | error e t =>
    rw [bind_error hm]
    rw [hm] at h1
    exact h1

/-- A predicate kept holds, in part, where the run is cut short. -/
theorem Keeps.at {α : Type} {P Q : State → Prop} {m : M α} (h : Keeps (fun t => P t ∧ Q t) m) {s : State}
    (hs : P s ∧ Q s) : Ends P (fun t => P t ∧ Q t) (m.run s) := by
  have := h s hs
  cases hm : m.run s with
  | ok a t => rw [hm] at this; exact this
  | error e t => rw [hm] at this; exact this.1

/-- Of two predicates kept, the first. -/
theorem Keeps.left_at {α : Type} {P Q : State → Prop} {m : M α} {s : State}
    (h : Ends (fun t => P t ∧ Q t) (fun t => P t ∧ Q t) (m.run s)) : Ends P P (m.run s) := by
  cases hm : m.run s with
  | ok a t => rw [hm] at h; exact h.1
  | error e t => rw [hm] at h; exact h.1

theorem Keeps.ite {α : Type} {P : State → Prop} {c : Prop} [Decidable c] {a b : M α} (h1 : Keeps P a)
    (h2 : Keeps P b) : Keeps P (if c then a else b) := by split <;> assumption

namespace RaStable

variable {P : State → Prop} (h : RaStable P)

include h

theorem busXfer (w : List Byte) (k : Nat) : Keeps P (busXfer w k) := by
  intro s hs
  rcases busXfer_cases w k s with ⟨-, h1⟩ | ⟨h0, -, h1⟩ | ⟨n, r, e, d, h0, h2, h1⟩
  · rw [h1]; exact hs
  · rw [h1]; exact h.hang _ _ h0 hs
  · rw [h1]; exact h.xfer _ _ _ _ _ _ _ h0 h2 hs

theorem delayOp (ms : Nat) : Keeps P (Sys2Proof.Machine.delay ms) := by
  intro s hs
  rcases delay_cases ms s with ⟨-, h1⟩ | ⟨h0, -, h1⟩ | ⟨h0, -, h1⟩
  · rw [h1]; exact hs
  · rw [h1]; exact h.hang _ _ h0 hs
  · rw [h1]; exact h.delay _ _ h0 hs

theorem setRa (st : RaState) : Keeps P (update (·.setRa st)) := Keeps.update fun s => h.ra s _

theorem buildHeader (a : Addr) (rw : Dir) (cnt : BitVec 7) : Keeps P (buildHeader a rw cnt) :=
  Keeps.bind Keeps.config fun _ => Keeps.update fun _ => h.hdr _ _ _ _ _

theorem regWrite (a : Addr) (data : List Byte) : Keeps P (regWrite a data) := by
  unfold Machine.regWrite
  refine Keeps.bind (h.setRa _) fun _ => Keeps.bind (Keeps.update fun _ => h.access _ _ _ _) fun _ => ?_
  cases hc : countOf data.length with
  | none => exact Keeps.raise _
  | some cnt =>
    have hl : data.length ≤ 256 := (sizeOk_iff.mp (countOf_eq_some.mp hc).1).2.1
    exact Keeps.bind Keeps.config fun _ => Keeps.bind (h.setRa _) fun _ =>
      Keeps.bind (Keeps.update fun _ => h.buf _ _ (.inl (by rw [toDev_length]; exact hl))) fun _ =>
      Keeps.bind (h.setRa _) fun _ => Keeps.bind (h.buildHeader _ _ _) fun _ => Keeps.bind (h.setRa _) fun _ =>
      Keeps.bind Keeps.get fun _ => Keeps.bind (h.busXfer _ _) fun _ => Keeps.bind (Keeps.raiseIf _ _) fun _ => h.setRa _

theorem regRead (a : Addr) (size : Nat) : Keeps P (regRead a size) := by
  unfold Machine.regRead
  refine Keeps.bind (h.setRa _) fun _ => Keeps.bind (Keeps.update fun _ => h.access _ _ _ _) fun _ => ?_
  cases hc : countOf size with
  | none => exact Keeps.raise _
  | some cnt =>
    have hl : size ≤ 256 := (sizeOk_iff.mp (countOf_eq_some.mp hc).1).2.1
    refine Keeps.bind Keeps.config fun _ => Keeps.bind (h.setRa _) fun _ => Keeps.bind (h.buildHeader _ _ _) fun _ =>
      Keeps.bind (h.setRa _) fun _ => Keeps.bind Keeps.get fun _ =>
      Keeps.bind_val (Q := fun p => p.2.length = size) (h.busXfer _ _) (fun s p t hp => ?_) fun p hp =>
      Keeps.bind (Keeps.raiseIf _ _) fun _ =>
      Keeps.bind (Keeps.update fun _ => h.buf _ _ (.inl (by rw [hp]; exact hl))) fun _ => Keeps.bind (h.setRa _) fun _ =>
      Keeps.bind Keeps.get fun _ => Keeps.bind (h.setRa _) fun _ => Keeps.pure _
    rcases busXfer_cases _ size s with ⟨-, h1⟩ | ⟨-, -, h1⟩ | ⟨n, r, e, d, -, h2, h1⟩
    · rw [h1] at hp; cases hp
    · rw [h1] at hp; cases hp
    · rw [h1] at hp
      cases hp
      exact busReply_length h2

theorem rawWrite (data : List Byte) : Keeps P (rawWrite data) := by
  intro s hs
  unfold Machine.rawWrite
  rw [update_bind, config_bind]
  have h0 := h.ra s .check hs
  cases hc : (decide (data.length = 0) || decide ((s.setRa .check).cfg.bufCap < data.length)) with
  | true =>
    rw [raiseIf_true_bind rfl]
    exact h0
  | false =>
    rw [raiseIf_false_bind rfl]
    have hl : data.length ≤ s.cfg.bufCap := by
      simp only [Bool.or_eq_false_iff, decide_eq_false_iff_not] at hc
      exact Nat.le_of_not_lt hc.2
    rw [update_bind]
    exact (Keeps.bind (h.setRa .xfer) fun _ => Keeps.bind Keeps.get fun _ => Keeps.bind (h.busXfer _ _) fun _ =>
      Keeps.bind (Keeps.raiseIf _ _) fun _ => h.setRa _) _ (h.buf _ data (.inr hl) h0)

theorem regWrite16 (a : Addr) (v : Word) : Keeps P (regWrite16 a v) :=
  Keeps.bind Keeps.config fun _ => h.regWrite _ _

theorem regRead16 (a : Addr) : Keeps P (regRead16 a) :=
  Keeps.bind Keeps.config fun _ => Keeps.bind (h.regRead _ _) fun _ => Keeps.bind (Keeps.update fun _ => h.val _ _) fun _ => Keeps.pure _

theorem regWrite32 (a : Addr) (v : DWord) : Keeps P (regWrite32 a v) :=
  Keeps.bind Keeps.config fun _ => h.regWrite _ _

theorem regRead32 (a : Addr) : Keeps P (regRead32 a) :=
  Keeps.bind Keeps.config fun _ => Keeps.bind (h.regRead _ _) fun _ => Keeps.pure _

/-- One poll read keeps `P` and counts one. -/
theorem pollRead {c : Config} {k : Nat} (hp : ∀ s, P s → s.cfg = c ∧ s.x.pollCnt = k → P (s.setPollCnt (k + 1)))
    (a : Addr) (s : State) (hs : P s) (hk : s.cfg = c ∧ s.x.pollCnt = k) :
    Ends P (fun t => P t ∧ t.cfg = c ∧ t.x.pollCnt = k + 1) ((Machine.pollRead a).run s) := by
  have h' : RaStable (fun t => P t ∧ t.cfg = c ∧ t.x.pollCnt = k) := {
    ra := fun s st hs => ⟨h.ra s st hs.1, hs.2⟩
    access := fun s a size rw hs => ⟨h.access s a size rw hs.1, hs.2⟩
    hdr := fun s c a rw cnt hs => ⟨h.hdr s c a rw cnt hs.1, hs.2⟩
    buf := fun s bs hb hs => ⟨h.buf s bs hb hs.1, hs.2⟩
    val := fun s v hs => ⟨h.val s v hs.1, hs.2⟩
    xfer := fun s w k n r e d h0 hb hs => ⟨h.xfer s w k n r e d h0 hb hs.1, hs.2⟩
    delay := fun s ms h0 hs => ⟨h.delay s ms h0 hs.1, hs.2⟩
    hang := fun s p h0 hs => ⟨h.hang s p h0 hs.1, hs.2⟩ }
  have hr (u : State) (hu : P u ∧ u.cfg = c ∧ u.x.pollCnt = k) :
      Ends P (fun t => P t ∧ t.cfg = c ∧ t.x.pollCnt = k + 1) ((do
        let v ← Machine.regRead16 a
        update fun t => t.setPollCnt (t.x.pollCnt + 1)
        return v : M Word).run u) :=
    Keeps.bind_at ((h'.regRead16 a).at hu) fun v t ht => by
      rw [update_bind, pure_run]
      have h1 := hp t ht.1 ht.2
      rw [← ht.2.2] at h1 ⊢
      exact ⟨h1, ht.2.1, rfl⟩
  unfold Machine.pollRead
  rw [get_bind]
  split
  · exact Keeps.bind_at ((h'.delayOp _).at ⟨hs, hk⟩) fun _ t ht => hr t ht
  · exact hr s ⟨hs, hk⟩

end RaStable

namespace HcStable

variable {P : State → Prop} (h : HcStable P)

include h

theorem setHc (st : HcState) : Keeps P (update (·.setHc st)) := Keeps.update fun s => h.hc s _
theorem setBm (st : BmState) : Keeps P (update (·.setBm st)) := Keeps.update fun s => h.bm s _

theorem pollLoop (a : Addr) (pass : Word → Bool) (left : Nat) (c : Config) (k : Nat) (s : State) (hs : P s)
    (hk : s.cfg = c ∧ s.x.pollCnt = k) (hl : k + left + 1 ≤ max 1 c.pollBound) :
    Ends P P ((pollLoop a pass left).run s) := by
  induction left generalizing k s with
  | zero =>
    have hr := h.toRaStable.pollRead (c := c) (k := k)
      (fun s hs hk => h.pollCnt s _ (by rw [hk.1]; omega) hs) a s hs hk
    unfold Machine.pollLoop
    cases hm : (Machine.pollRead a).run s with
    | ok v t =>
      rw [bind_ok hm]
      rw [hm] at hr
      cases pass v <;> exact hr.1
    | error e t =>
      rw [bind_error hm]
      rw [hm] at hr
      exact hr
  | succ n ih =>
    have hr := h.toRaStable.pollRead (c := c) (k := k)
      (fun s hs hk => h.pollCnt s _ (by rw [hk.1]; omega) hs) a s hs hk
    unfold Machine.pollLoop
    cases hm : (Machine.pollRead a).run s with
    | ok v t =>
      rw [bind_ok hm]
      rw [hm] at hr
      cases pass v with
      | true => exact hr.1
      | false => exact ih (k + 1) t hr.1 hr.2 (by omega)
    | error e t =>
      rw [bind_error hm]
      rw [hm] at hr
      exact hr

theorem pollPhase (a : Addr) (pass : Word → Bool) : Keeps P (pollPhase a pass) := by
  intro s hs
  unfold Machine.pollPhase
  rw [config_bind, update_bind]
  exact h.pollLoop a pass (s.cfg.pollBound - 1) s.cfg 0 (s.setPollCnt 0) (h.pollCnt s 0 (Nat.zero_le _) hs) ⟨rfl, rfl⟩
    (by omega)

theorem runCommand (cmd : Word) : Keeps P (runCommand cmd) :=
  Keeps.bind Keeps.config fun _ => Keeps.bind (Keeps.update fun _ => h.cmdOp _ _) fun _ => Keeps.bind (h.setHc _) fun _ =>
  Keeps.bind (h.pollPhase _ _) fun _ => Keeps.bind (h.setHc _) fun _ => Keeps.bind (h.regWrite16 _ _) fun _ =>
  Keeps.bind (h.setHc _) fun _ => Keeps.bind (h.regWrite16 _ _) fun _ => Keeps.bind (h.setHc _) fun _ =>
  Keeps.bind (h.pollPhase _ _) fun _ => h.setHc _

theorem bootSwitch : Keeps P bootSwitch := by
  unfold Machine.bootSwitch
  refine Keeps.bind Keeps.config fun _ => Keeps.bind (h.setBm _) fun _ => Keeps.bind (h.regRead16 _) fun _ => ?_
  split
  · exact Keeps.bind (h.setBm _) fun _ => Keeps.bind (h.regWrite16 _ _) fun _ => Keeps.bind (h.setBm _) fun _ =>
      Keeps.bind (h.delayOp _) fun _ => Keeps.bind (h.setBm _) fun _ => Keeps.bind (h.regRead16 _) fun _ =>
      Keeps.bind (Keeps.raiseIf _ _) fun _ => h.setBm _
  · exact h.setBm _

end HcStable

namespace LatchStable

variable {P : State → Prop} (h : LatchStable P)

include h

theorem setFl (st : FlState) : Keeps P (update (·.setFl st)) := Keeps.update fun s => h.fl s _
theorem setIt (st : ItState) : Keeps P (update (·.setIt st)) := Keeps.update fun s => h.it s _
theorem setGl (st : GlState) : Keeps P (update (·.setGl st)) := Keeps.update fun s => h.gl s _

theorem readResult : Keeps P readResult :=
  Keeps.bind Keeps.config fun _ => Keeps.bind (h.regRead16 _) fun _ =>
  Keeps.bind (Keeps.update fun _ => h.latch _ _) fun _ => Keeps.pure _

theorem concludeLoad : Keeps P concludeLoad :=
  Keeps.bind Keeps.config fun _ => Keeps.bind (h.setIt _) fun _ => Keeps.bind (h.runCommand _) fun _ =>
  Keeps.bind h.readResult fun _ => Keeps.continueIfSuccess _

theorem flashInit : Keeps P flashInit :=
  Keeps.bind Keeps.config fun _ => Keeps.bind (h.setFl _) fun _ => Keeps.bind (h.runCommand _) fun _ =>
  Keeps.bind (h.setFl _) fun _ => Keeps.bind h.readResult fun _ => Keeps.continueIfSuccess _

theorem readCount : Keeps P readCount :=
  Keeps.bind Keeps.config fun _ => Keeps.bind (h.setFl _) fun _ => Keeps.bind (h.regRead16 _) fun _ =>
  Keeps.update fun _ => h.count _ _

theorem flashSave (wantCount : Bool) : Keeps P (flashSave wantCount) := by
  unfold Machine.flashSave
  refine Keeps.bind Keeps.config fun _ => Keeps.bind (h.setIt _) fun _ =>
    Keeps.bind (Keeps.update h.clearRaw) fun _ => Keeps.bind (Keeps.update h.clearCount) fun _ =>
    Keeps.bind (h.setFl _) fun _ => Keeps.bind h.bootSwitch fun _ =>
    Keeps.bind h.flashInit fun _ => Keeps.bind (h.setFl _) fun _ => Keeps.bind (h.regWrite _ _) fun _ =>
    Keeps.bind (h.setFl _) fun _ => Keeps.bind (h.runCommand _) fun _ => Keeps.bind (h.setFl _) fun _ =>
    Keeps.bind h.readResult fun _ => Keeps.bind (Keeps.continueIfSuccess _) fun _ => ?_
  split
  · exact Keeps.bind h.readCount fun _ => Keeps.bind (h.setFl _) fun _ => Keeps.bind (h.setIt _) fun _ => Keeps.pure _
  · exact Keeps.bind (h.setFl _) fun _ => Keeps.bind (h.setIt _) fun _ => Keeps.pure _

theorem flashErase : Keeps P flashErase := by
  unfold Machine.flashErase
  have hr (c : Config) : Keeps P (do
      Machine.flashInit
      update (·.setFl .prep)
      Machine.regWrite16 c.map.result c.map.eraseMagic
      update (·.setFl .cmd)
      Machine.runCommand c.cmds.erase
      update (·.setFl .result)
      let v ← Machine.readResult
      Sys2Proof.Machine.continueIfSuccess (eraseStatus (hostResult c.resp v))
      update (·.setFl .idle)
      update (·.setIt .done)
      return Payload.none) :=
    Keeps.bind h.flashInit fun _ => Keeps.bind (h.setFl _) fun _ => Keeps.bind (h.regWrite16 _ _) fun _ =>
    Keeps.bind (h.setFl _) fun _ => Keeps.bind (h.runCommand _) fun _ => Keeps.bind (h.setFl _) fun _ =>
    Keeps.bind h.readResult fun _ => Keeps.bind (Keeps.continueIfSuccess _) fun _ => Keeps.bind (h.setFl _) fun _ =>
    Keeps.bind (h.setIt _) fun _ => Keeps.pure _
  refine Keeps.bind Keeps.config fun _ => Keeps.bind (h.setIt _) fun _ =>
    Keeps.bind (Keeps.update h.clearRaw) fun _ => Keeps.bind (h.setFl _) fun _ => Keeps.bind (h.regRead16 _) fun _ => ?_
  split
  · exact Keeps.bind h.bootSwitch fun _ => hr _
  · exact hr _

theorem waitNotBusy : Keeps P waitNotBusy := Keeps.bind Keeps.config fun _ => h.pollPhase _ _

theorem extWrite (a : DWord) (bytes : List Byte) : Keeps P (extWrite a bytes) :=
  Keeps.bind Keeps.config fun _ => Keeps.bind (h.regWrite32 _ _) fun _ => h.regWrite _ _

theorem sendBlocks (a : DWord) (blocks : List (List Byte)) : Keeps P (sendBlocks a blocks) := by
  induction blocks generalizing a with
  | nil => exact Keeps.pure _
  | cons b t ih => exact Keeps.bind (h.extWrite _ _) fun _ => ih _

theorem appendSegment (cnt : Word) (start len : DWord) : Keeps P (appendSegment cnt start len) :=
  Keeps.bind Keeps.config fun _ => Keeps.bind (h.regWrite32 _ _) fun _ => Keeps.bind (h.regWrite32 _ _) fun _ =>
  h.regWrite16 _ _

theorem updateTable (start len : DWord) : Keeps P (updateTable start len) := by
  unfold Machine.updateTable
  refine Keeps.bind Keeps.config fun _ => Keeps.bind (h.regRead16 _) fun _ => ?_
  split
  · exact h.appendSegment _ _ _
  · refine Keeps.bind (h.regRead32 _) fun _ => ?_
    split
    · exact h.regWrite32 _ _
    · exact h.appendSegment _ _ _

theorem grammarLoad (blob : List Byte) : Keeps P (grammarLoad blob) :=
  Keeps.bind Keeps.config fun _ => Keeps.bind (h.setGl _) fun _ => Keeps.bind (h.regRead32 _) fun _ =>
  Keeps.bind (h.regRead32 _) fun _ => Keeps.bind (Keeps.raiseIf _ _) fun _ => Keeps.bind (h.setGl _) fun _ =>
  Keeps.bind (h.runCommand _) fun _ => Keeps.bind (h.setGl _) fun _ => Keeps.bind h.waitNotBusy fun _ =>
  Keeps.bind (h.setGl _) fun _ => Keeps.bind (h.sendBlocks _ _) fun _ => Keeps.bind (h.setGl _) fun _ =>
  Keeps.bind (h.updateTable _ _) fun _ => Keeps.bind (h.setGl _) fun _ => Keeps.bind (h.runCommand _) fun _ =>
  Keeps.bind (h.setGl _) fun _ => Keeps.bind h.waitNotBusy fun _ => Keeps.bind (h.setGl _) fun _ => Keeps.pure _

theorem commandAndResult (cmd : Word) (f : Word → Status) : Keeps P (commandAndResult cmd f) :=
  Keeps.bind (h.runCommand _) fun _ => Keeps.bind h.readResult fun _ => Keeps.continueIfSuccess _

theorem commandAndWait (cmd : Word) : Keeps P (commandAndWait cmd) :=
  Keeps.bind (h.runCommand _) fun _ => h.waitNotBusy

end LatchStable

namespace Stable

variable {P : State → Prop} (h : Stable P)

include h

theorem setIt' (st : ItState) : Keeps P (update (·.setIt st)) := h.toLatchStable.setIt st

theorem sendChunk (fw : Bool) {chunk : List Byte}
    (hl : ∀ s, P s → chunk.length ≤ 256 ∨ chunk.length ≤ s.cfg.bufCap) : Keeps P (sendChunk fw chunk) := by
  unfold Machine.sendChunk
  refine Keeps.bind (Keeps.update fun s hs => h.buf s _ (hl s hs) hs) fun _ => ?_
  have hr : Keeps P (do
      Machine.rawWrite chunk
      update fun s => s.setCursor (s.x.imgPos + BitVec.ofNat 33 chunk.length)
        (s.x.imgRem - BitVec.ofNat 32 chunk.length)) :=
    Keeps.bind (h.rawWrite _) fun _ => Keeps.update fun s hs => h.cursor s _ _ hs
  split
  · exact Keeps.bind h.bootSwitch fun _ => hr
  · exact hr

theorem sendChunks (fw : Bool) {chunks : List (List Byte)}
    (hl : ∀ c ∈ chunks, ∀ s, P s → c.length ≤ 256 ∨ c.length ≤ s.cfg.bufCap) : Keeps P (sendChunks fw chunks) := by
  induction chunks with
  | nil => exact Keeps.pure _
  | cons c t ih =>
    exact Keeps.bind (h.sendChunk _ (hl c (by simp))) fun _ => ih fun d hd => hl d (by simp [hd])

/-- The configuration never changes inside a sequence: a kept predicate may know it. -/
theorem withCfg (c : Config) : Stable (fun s => P s ∧ s.cfg = c) where
  ra := fun s st hs => ⟨h.ra s st hs.1, hs.2⟩
  access := fun s a size rw hs => ⟨h.access s a size rw hs.1, hs.2⟩
  hdr := fun s c a rw cnt hs => ⟨h.hdr s c a rw cnt hs.1, hs.2⟩
  buf := fun s bs hb hs => ⟨h.buf s bs hb hs.1, hs.2⟩
  val := fun s v hs => ⟨h.val s v hs.1, hs.2⟩
  xfer := fun s w k n r e d h0 hb hs => ⟨h.xfer s w k n r e d h0 hb hs.1, hs.2⟩
  delay := fun s ms h0 hs => ⟨h.delay s ms h0 hs.1, hs.2⟩
  hang := fun s p h0 hs => ⟨h.hang s p h0 hs.1, hs.2⟩
  hc := fun s st hs => ⟨h.hc s st hs.1, hs.2⟩
  bm := fun s st hs => ⟨h.bm s st hs.1, hs.2⟩
  cmdOp := fun s v hs => ⟨h.cmdOp s v hs.1, hs.2⟩
  pollCnt := fun s n hn hs => ⟨h.pollCnt s n hn hs.1, hs.2⟩
  latch := fun s v hs => ⟨h.latch s v hs.1, hs.2⟩
  clearRaw := fun s hs => ⟨h.clearRaw s hs.1, hs.2⟩
  count := fun s v hs => ⟨h.count s v hs.1, hs.2⟩
  clearCount := fun s hs => ⟨h.clearCount s hs.1, hs.2⟩
  fl := fun s st hs => ⟨h.fl s st hs.1, hs.2⟩
  it := fun s st hs => ⟨h.it s st hs.1, hs.2⟩
  gl := fun s st hs => ⟨h.gl s st hs.1, hs.2⟩
  image := fun s i hs => ⟨h.image s i hs.1, hs.2⟩
  cursor := fun s pos rem hs => ⟨h.cursor s pos rem hs.1, hs.2⟩

theorem loadImage (image : List Byte) : Keeps P (loadImage image) := by
  intro s hs
  unfold Machine.loadImage
  rw [update_bind, update_bind]
  have h0 := h.clearRaw _ (h.it s .idle hs)
  cases hc : decide (image.length < imgHdrLen) with
  | true =>
    rw [raiseIf_true_bind rfl]
    exact h0
  | false =>
    rw [raiseIf_false_bind rfl, config_bind, update_bind, update_bind, update_bind]
    have h1 := h.it _ .headerParsed (h.image _ (parseHeader s.cfg.img image) h0)
    cases hb : decide (s.cfg.bufCap < (blockBytes (parseHeader s.cfg.img image).blkWords).toNat) with
    | true =>
      rw [raiseIf_true_bind (by exact hb)]
      exact h1
    | false =>
      rw [raiseIf_false_bind (by exact hb)]
      have hle : (blockBytes (parseHeader s.cfg.img image).blkWords).toNat ≤ s.cfg.bufCap :=
        Nat.le_of_not_lt (by simpa using hb)
      have h' := h.withCfg s.cfg
      have hrest : ∀ fw, Keeps (fun t => P t ∧ t.cfg = s.cfg) (do
          Machine.sendChunks fw (chunksOf (blockBytes (parseHeader s.cfg.img image).blkWords).toNat
            (imageBody (parseHeader s.cfg.img image) image))
          if fw then Machine.concludeLoad
          update (·.setIt .done)
          return Payload.none) := by
        intro fw
        refine Keeps.bind (h'.sendChunks fw fun c hc t ht => .inr ?_) fun _ => ?_
        · rw [ht.2]
          exact Nat.le_trans (chunksOf_length_le hc) hle
        · split
          · exact Keeps.bind h'.concludeLoad fun _ => Keeps.bind (h'.setIt' _) fun _ => Keeps.pure _
          · exact Keeps.bind (h'.setIt' _) fun _ => Keeps.pure _
      have hall := Keeps.bind (Keeps.raiseIf (P := fun t => P t ∧ t.cfg = s.cfg)
          (!typeKnown s.cfg.img (parseHeader s.cfg.img image)) .invalidArg) fun _ =>
        Keeps.bind (Keeps.raiseIf (P := fun t => P t ∧ t.cfg = s.cfg)
          (decide (image.length < imgHdrLen + (parseHeader s.cfg.img image).total.toNat)) .invalidArg) fun _ =>
        Keeps.bind (Keeps.update (f := (·.setCursor (BitVec.ofNat 33 imgHdrLen) (parseHeader s.cfg.img image).total))
          fun t ht => h'.cursor t _ _ ht) fun _ =>
        Keeps.bind (h'.setIt' .streaming) fun _ => hrest ((parseHeader s.cfg.img image).type == s.cfg.img.fw)
      exact Keeps.left_at (hall _ ⟨h1, rfl⟩)

end Stable

/-! The whole instruction. -/

/-- Kept, besides, by accepting a request, answering it, failing, and reset. -/
structure Whole (P : State → Prop) : Prop extends Stable P where
  accept : ∀ s op, P s → P (s.accept op)
  acceptWord : ∀ s, P s → P s.acceptWord
  failed : ∀ s, P s → P (s.abort false)
  respond : ∀ s st p, P s → P (s.respond st p)
  settled : ∀ s st, P s → P (s.settleStatus st)
  tick : ∀ s, s.env.resetIn ≠ some 0 → P s → P { s with env := s.env.tick }
  reset : ∀ s, P s → P s.resetBlock

namespace Whole

variable {P : State → Prop} (h : Whole P)

include h

theorem abort (s : State) (drivesIt : Bool) (hs : P s) : P (s.abort drivesIt) := by
  unfold State.abort
  cases drivesIt with
  | true => exact h.it _ _ (h.failed _ hs)
  | false => exact h.failed _ hs

/-- A terminal transition whose own effect keeps `P`. -/
theorem terminal {f : State → State} (hf : ∀ s, P s → P (f s)) {s : State} (hs : P s) : P (s.terminal f) := by
  by_cases h0 : s.env.resetIn = some 0
  · rw [s.terminal_reset h0]
    exact h.reset _ hs
  · rw [s.terminal_taken h0]
    exact hf _ (h.tick _ h0 hs)

theorem runRequest {op : BitVec 4} {drivesIt : Bool} {m : M Payload} (hm : Keeps P m) {s t : State}
    (ht : runRequest op drivesIt m s = .next t) (hs : P s) : P t := by
  unfold Machine.runRequest at ht
  injection ht with ht
  subst ht
  have := hm _ (h.accept s op hs)
  unfold settle
  cases hr : m.run (s.accept op) with
  | ok p u => rw [hr] at this; exact h.terminal (fun _ hs => h.respond _ _ _ hs) this
  | error e u =>
    rw [hr] at this
    cases e with
    | raised st => exact h.terminal (fun _ hs => h.respond _ _ _ (h.abort _ _ hs)) this
    | hung => exact this
    | cut => exact h.reset _ this

theorem runWord {m : M Unit} (hm : Keeps P m) {s t : State} (ht : runWord m s = .next t) (hs : P s) : P t := by
  unfold Machine.runWord at ht
  injection ht with ht
  subst ht
  have := hm _ (h.acceptWord s hs)
  unfold settleWord
  cases hr : m.run s.acceptWord with
  | ok p u => rw [hr] at this; exact h.terminal (fun _ hs => h.settled _ _ hs) this
  | error e u =>
    rw [hr] at this
    cases e with
    | raised st => exact h.terminal (fun _ hs => h.settled _ _ (h.abort _ _ hs)) this
    | hung => exact this
    | cut => exact h.reset _ this

/-- What such a predicate says before a request or a host command word it says after. -/
theorem exec {i : Instr} (hi : i.space ≠ .wire) {s t : State} (ht : exec i s = .next t) (hs : P s) : P t := by
  have hst : Stable P := h.toStable
  cases i with
  | selectPage _ | noOp | contPagedWrite _ | directRead _ _ | directWrite _ _ | pagedRead _ _ | pagedWrite _ _
    | reserved _ _ => exact absurd rfl hi
  | hdrEncode a rw size =>
    refine h.runRequest ?_ ht hs
    unfold hdrEncodeSeq
    cases countOf size.toNat with
    | none => exact Keeps.raise _
    | some cnt => exact Keeps.bind (hst.buildHeader _ _ _) fun _ => Keeps.bind Keeps.get fun _ => Keeps.pure _
  | regWrite a data => exact h.runRequest (Keeps.bind (hst.regWrite _ _) fun _ => Keeps.pure _) ht hs
  | regRead a size => exact h.runRequest (Keeps.bind (hst.regRead _ _) fun _ => Keeps.pure _) ht hs
  | rawWrite data => exact h.runRequest (Keeps.bind (hst.rawWrite _) fun _ => Keeps.pure _) ht hs
  | runCmd cmd => exact h.runRequest (Keeps.bind (hst.runCommand _) fun _ => Keeps.pure _) ht hs
  | bootSwitch => exact h.runRequest (Keeps.bind hst.bootSwitch fun _ => Keeps.pure _) ht hs
  | loadImage image =>
    simp only [Machine.exec, execLoadImage] at ht
    split at ht
    · cases ht
    · exact h.runRequest (hst.loadImage _) ht hs
  | flashSave w => exact h.runRequest (hst.flashSave _) ht hs
  | flashErase => exact h.runRequest hst.flashErase ht hs
  | grammarLoad blob =>
    refine h.runRequest ?_ ht hs
    split
    · exact hst.grammarLoad _
    · exact Keeps.raise _
  | reqReserved op => exact h.runRequest (Keeps.raise _) ht hs
  | cmdLoadComplete => exact h.runWord (hst.commandAndResult _ _) ht hs
  | cmdFlashInit => exact h.runWord (hst.commandAndResult _ _) ht hs
  | cmdSave => exact h.runWord (hst.commandAndResult _ _) ht hs
  | cmdErase => exact h.runWord (hst.commandAndResult _ _) ht hs
  | cmdGramDisable =>
    simp only [Machine.exec, execCmdGramDisable] at ht
    split at ht
    · exact h.runWord (hst.commandAndWait _) ht hs
    · cases ht
  | cmdGramEnable =>
    simp only [Machine.exec, execCmdGramEnable] at ht
    split at ht
    · exact h.runWord (hst.commandAndWait _) ht hs
    · cases ht

end Whole

end Sys2Proof.Machine
end

