-- ==== Sys2Proof/Laws/PerInstr.lean ====
section
/-! SUPPORT. A statement made per instruction: the code of an instruction lies in the space of its row. -/

namespace Sys2Proof.Laws.EncodeSpace

/-- What `encode` writes for an instruction is presented in the space of its opcode-table row: a wire command word, a
request or a host command word. -/
def Statement (i : Instr) : Prop := ∀ c : Config, (encode c i).space = i.space

theorem selectPage (sel : Byte) : Statement (.selectPage sel) := fun _ => rfl
theorem noOp : Statement .noOp := fun _ => rfl
theorem contPagedWrite (cnt : BitVec 7) : Statement (.contPagedWrite cnt) := fun _ => rfl
theorem directRead (off cnt : BitVec 7) : Statement (.directRead off cnt) := fun _ => rfl
theorem directWrite (off cnt : BitVec 7) : Statement (.directWrite off cnt) := fun _ => rfl
theorem pagedRead (off cnt : BitVec 7) : Statement (.pagedRead off cnt) := fun _ => rfl
theorem pagedWrite (off cnt : BitVec 7) : Statement (.pagedWrite off cnt) := fun _ => rfl
theorem reserved (b0 b1 : Byte) : Statement (.reserved b0 b1) := fun _ => rfl
theorem hdrEncode (addr : Addr) (rw : Dir) (size : BitVec 16) : Statement (.hdrEncode addr rw size) := fun _ => rfl
theorem regWrite (addr : Addr) (data : List Byte) : Statement (.regWrite addr data) := fun _ => rfl
theorem regRead (addr : Addr) (size : BitVec 16) : Statement (.regRead addr size) := fun _ => rfl
theorem rawWrite (data : List Byte) : Statement (.rawWrite data) := fun _ => rfl
theorem runCmd (cmd : Word) : Statement (.runCmd cmd) := fun _ => rfl
theorem bootSwitch : Statement .bootSwitch := fun _ => rfl
theorem loadImage (image : List Byte) : Statement (.loadImage image) := fun _ => rfl
theorem flashSave (wantCount : Bool) : Statement (.flashSave wantCount) := fun _ => rfl
theorem flashErase : Statement .flashErase := fun _ => rfl
theorem grammarLoad (blob : List Byte) : Statement (.grammarLoad blob) := fun _ => rfl
theorem reqReserved (op : BitVec 4) : Statement (.reqReserved op) := fun _ => rfl
theorem cmdLoadComplete : Statement .cmdLoadComplete := fun _ => rfl
theorem cmdFlashInit : Statement .cmdFlashInit := fun _ => rfl
theorem cmdSave : Statement .cmdSave := fun _ => rfl
theorem cmdErase : Statement .cmdErase := fun _ => rfl
theorem cmdGramDisable : Statement .cmdGramDisable := fun _ => rfl
theorem cmdGramEnable : Statement .cmdGramEnable := fun _ => rfl

end Sys2Proof.Laws.EncodeSpace
end

