-- ==== Sys2Proof/Laws/Sequences.lean ====
section
/-! SUPPORT. What the shared parts of the longer sequences do: the boot-mode switch, flash-init, the chunks of an image,
the wait of the grammar loader, one block of the extended window. -/

namespace Sys2Proof.Machine

/-- Answers to a stretch, at a state of the same configuration, environment and device. -/
theorem State.busAnswers_congr {s t : State} {evs : List Event} {e : Env} {d : Dev} (hc : t.cfg = s.cfg)
    (he : t.env = s.env) (hd : t.dev = s.dev) (h : s.busAnswers evs e d) : t.busAnswers evs e d := by
  unfold State.busAnswers
  rw [hc, he, hd]
  exact h

/-- A write of sequencing registers and of `moves` in the middle of a stretch. -/
theorem Goes.setSeq {s t : State} {evs : List Event} {mvs : List Move} (h : Goes s t evs mvs) (q : Seq)
    (m : Move) : Goes s { t with seq := q, moves := t.moves ++ [m] } evs (mvs ++ [m]) :=
  ⟨h.cfg, h.inbox, h.rsp, h.history, by rw [h.moves, List.append_assoc], h.bus⟩

/-- A write of holding registers in the middle of a stretch. -/
theorem Goes.setHolding {s t : State} {evs : List Event} {mvs : List Move} (h : Goes s t evs mvs) (x : Holding) :
    Goes s { t with x := x } evs mvs := ⟨h.cfg, h.inbox, h.rsp, h.history, h.moves, h.bus⟩

/-- A successful boot-mode switch (R170 to R172). -/
theorem bootSwitch_ok {s : State} {r : BootRun} {e : Env} {d : Dev} (hok : r.ok s.cfg = true)
    (hb : s.busAnswers (r.events s.cfg) e d) :
    ∃ t, bootSwitch.run s = .ok () t ∧ Goes s t (r.events s.cfg) r.moves ∧
      t.seq = { s.seq with ra := .idle, bm := .idle } ∧ s.x.sameButAccess t.x ∧ t.x.cmdOp = s.x.cmdOp ∧
      t.x.pollCnt = s.x.pollCnt ∧ t.env = e ∧ t.dev = d := by
  unfold bootSwitch
  rw [config_bind, update_bind]
  have g0 := Goes.setBm s .readFw
  cases r with
  | inBootMode n v =>
    simp only [BootRun.ok, Bool.and_eq_true, decide_eq_true_eq, Bool.not_eq_true'] at hok
    obtain ⟨t, h, hg, hs, hx, hv, hc, hk, he, hd⟩ :=
      regRead16_goes (s := s.setBm .readFw) (a := s.cfg.map.curFw) (v := v) hok.1 hb
    have hno : ¬ appRunning s.cfg v = true := by rw [hok.2]; decide
    rw [bind_ok h]
    simp only [if_neg hno]
    rw [update_run]
    have g := (g0.trans hg).setSeq { t.seq with bm := .idle } (.bm .idle)
    refine ⟨_, rfl, g, ?_, hx, hc, hk, he, hd⟩
    simp only [State.setBm_seq, hs]
  | switched n v wrote verified =>
    simp only [BootRun.ok, Bool.and_eq_true, decide_eq_true_eq] at hok
    obtain ⟨⟨⟨hn, hv⟩, hw⟩, hf⟩ := hok
    have hb0 : (s.setBm .readFw).busAnswers ([read16 s.cfg s.cfg.map.curFw n v] ++
      ([write16 s.cfg s.cfg.map.rstBoot wrote 1#16] ++ ([.delay s.cfg.bootDelayMs] ++
        [read16 s.cfg s.cfg.map.bootVerify verified s.cfg.map.bootMagic]))) e d := hb
    obtain ⟨e1, d1, ha1⟩ := State.busAnswers_append hb0
    obtain ⟨t1, r1, g1, q1, x1, -, c1, k1, -, -⟩ :=
      regRead16_goes (s := s.setBm .readFw) (a := s.cfg.map.curFw) (v := v) hn ha1
    have hb1 := g1.rest hb0
    have f1 : t1.cfg = s.cfg := g1.cfg
    obtain ⟨e2, d2, ha2⟩ := State.busAnswers_append hb1
    obtain ⟨t2, r2, g2, q2, x2, -, c2, k2, -, -⟩ :=
      regWrite16_goes (s := t1.setBm .reset) (a := s.cfg.map.rstBoot) (v := 1#16) hw
        (by rw [show (t1.setBm .reset).cfg = s.cfg from f1]; exact ha2)
    rw [show (t1.setBm .reset).cfg = s.cfg from f1] at g2
    have hb2 := g2.rest (s := t1.setBm .reset) hb1
    have f2 : t2.cfg = s.cfg := g2.cfg.trans f1
    obtain ⟨e3, d3, ha3⟩ := State.busAnswers_append hb2
    obtain ⟨t3, r3, g3, x3, q3, -, -⟩ := delay_goes (s := t2.setBm .delay) ha3
    have hb3 := g3.rest (s := t2.setBm .delay) hb2
    have f3 : t3.cfg = s.cfg := g3.cfg.trans f2
    obtain ⟨t4, r4, g4, q4, x4, -, c4, k4, he, hd⟩ :=
      regRead16_goes (s := t3.setBm .verify) (a := s.cfg.map.bootVerify) (v := s.cfg.map.bootMagic) hf
        (by rw [show (t3.setBm .verify).cfg = s.cfg from f3]; exact hb3)
    rw [show (t3.setBm .verify).cfg = s.cfg from f3] at g4
    rw [bind_ok r1]
    simp only [if_pos hv]
    rw [update_bind, bind_ok r2, update_bind, bind_ok r3, update_bind, bind_ok r4]
    rw [raiseIf_false_bind (by simp), update_run]
    have g := ((((((g0.trans g1).trans (Goes.setBm t1 .reset)).trans g2).trans (Goes.setBm t2 .delay)).trans g3).trans
      (Goes.setBm t3 .verify)).trans g4
    have g' : Goes s (t4.setBm .idle) _ _ := g.setSeq { t4.seq with bm := .idle } (.bm .idle)
    refine ⟨_, rfl, ?_, ?_, ?_, ?_, ?_, he, hd⟩
    · simpa [BootRun.events, BootRun.moves] using g'
    · simp only [State.setBm_seq, q4, q3, q2, q1]
    · exact Holding.sameButAccess_trans x1 (Holding.sameButAccess_trans x2
        (by show t2.x.sameButAccess t4.x; rw [show t2.x = t3.x from x3.symm]; exact x4))
    · show t4.x.cmdOp = _
      rw [c4]
      show t3.x.cmdOp = _
      rw [x3]
      show t2.x.cmdOp = _
      rw [c2]
      exact c1
    · show t4.x.pollCnt = _
      rw [k4]
      show t3.x.pollCnt = _
      rw [x3]
      show t2.x.pollCnt = _
      rw [k2]
      exact k1

/-- Flash-init, and the read and latch of its result; what the result maps to comes after (R190, R191). -/
theorem flashInit_run {s : State} {r : InitRun} {v : Word} {e : Env} {d : Dev} (hok : r.cmd.ok s.cfg = true)
    (hn : 1 ≤ r.read) (hb : s.busAnswers (r.events s.cfg v) e d) :
    ∃ t y, flashInit.run s = (continueIfSuccess (finitStatus (finitResult s.cfg.resp v))).run t ∧
      Goes s t (r.events s.cfg v) r.moves ∧ t.seq = { s.seq with ra := .idle, hc := .idle, fl := .initResult } ∧
      s.x.sameButAccess y ∧ t.x = { y with rawResp := v, rawValid := true } ∧ t.env = e ∧ t.dev = d := by
  have hb0 : (s.setFl .init).busAnswers (r.cmd.events s.cfg s.cfg.cmds.flashInit ++
    [read16 s.cfg s.cfg.map.result r.read v]) e d := hb
  obtain ⟨e1, d1, ha1⟩ := State.busAnswers_append hb0
  obtain ⟨t1, r1, C⟩ := runCommand_ok (s := s.setFl .init) hok ha1
  have hb1 := C.goes.rest hb0
  have f1 : t1.cfg = s.cfg := C.goes.cfg
  obtain ⟨t2, r2, g2, q2, ⟨y, xy, hy, -, -, -⟩, he, hd⟩ := readResult_ok (s := t1.setFl .initResult) hn
    (by rw [show (t1.setFl .initResult).cfg = s.cfg from f1]; exact hb1)
  rw [show (t1.setFl .initResult).cfg = s.cfg from f1] at g2
  refine ⟨t2, y, ?_, ?_, ?_, Holding.sameButAccess_trans C.x xy, hy, he, hd⟩
  · unfold flashInit
    rw [config_bind, update_bind, bind_ok r1, update_bind, bind_ok r2]
  · have g := (((Goes.setFl s .init).trans C.goes).trans (Goes.setFl t1 .initResult)).trans g2
    simpa [InitRun.events, InitRun.moves] using g
  · rw [q2]
    simp only [State.setFl_seq, C.seq]

/-- One chunk (R166 to R168). -/
theorem sendChunk_ok {s : State} {fw : Bool} {chunk : List Byte} {r : ChunkRun} {e : Env} {d : Dev}
    (hok : r.ok s.cfg fw = true) (h1 : 1 ≤ chunk.length) (h2 : chunk.length ≤ s.cfg.bufCap)
    (hb : s.busAnswers (r.events s.cfg chunk) e d) :
    ∃ t y, (sendChunk fw chunk).run s = .ok () t ∧ Goes s t (r.events s.cfg chunk) r.moves ∧
      t.seq = { s.seq with ra := .idle, bm := if fw then .idle else s.seq.bm } ∧ s.x.sameButAccess y ∧
      t.x = { y with
        imgPos := s.x.imgPos + BitVec.ofNat 33 chunk.length, imgRem := s.x.imgRem - BitVec.ofNat 32 chunk.length } ∧
      t.env = e ∧ t.dev = d := by
  have h0 : s.x.sameButAccess (s.setBuf chunk).x := rfl
  unfold sendChunk
  rw [update_bind]
  cases hboot : r.boot with
  | none =>
    have hfw : fw = false := by
      simp only [ChunkRun.ok, hboot, Bool.and_eq_true, Bool.not_eq_true'] at hok
      exact hok.2
    subst hfw
    have hn : 1 ≤ r.sent := by
      simp only [ChunkRun.ok, Bool.and_eq_true, decide_eq_true_eq] at hok
      exact hok.1
    have hev : r.events s.cfg chunk = [.xfer chunk 0 r.sent []] := by simp [ChunkRun.events, hboot]
    rw [hev] at hb ⊢
    obtain ⟨t, hr, hg, hq, hx, -, -, -, he, hd⟩ := rawWrite_goes (s := s.setBuf chunk) h1 h2 hn hb
    simp only [Bool.false_eq_true, if_false]
    rw [bind_ok hr, update_run]
    have hx' := Holding.sameButAccess_trans h0 hx
    refine ⟨_, t.x, rfl, ?_, hq, hx', ?_, he, hd⟩
    · have g : Goes s t _ _ := ⟨hg.cfg, hg.inbox, hg.rsp, hg.history, hg.moves, hg.bus⟩
      have : r.moves = rawMoves := by simp [ChunkRun.moves, hboot]
      rw [this]
      exact g.setHolding _
    · have e1 : t.x.imgPos = s.x.imgPos := by rw [hx']
      have e2 : t.x.imgRem = s.x.imgRem := by rw [hx']
      simp only [State.setCursor, e1, e2]
  | some b =>
    simp only [ChunkRun.ok, hboot, Bool.and_eq_true, decide_eq_true_eq] at hok
    obtain ⟨hn, hfw, hbk⟩ := hok
    subst hfw
    have hev : r.events s.cfg chunk = b.events s.cfg ++ [.xfer chunk 0 r.sent []] := by
      simp [ChunkRun.events, hboot]
    rw [hev] at hb ⊢
    have hb0 : (s.setBuf chunk).busAnswers (b.events s.cfg ++ [.xfer chunk 0 r.sent []]) e d := hb
    obtain ⟨e1, d1, ha1⟩ := State.busAnswers_append hb0
    obtain ⟨t1, r1, g1, q1, x1, -, -, -, -⟩ := bootSwitch_ok (s := s.setBuf chunk) hbk ha1
    have hb1 := g1.rest hb0
    obtain ⟨t, hr, hg, hq, hx, -, -, -, he, hd⟩ := rawWrite_goes h1 (by rw [g1.cfg]; exact h2) hn hb1
    simp only [if_true]
    rw [bind_ok r1, bind_ok hr, update_run]
    have hx' := Holding.sameButAccess_trans h0 (Holding.sameButAccess_trans x1 hx)
    refine ⟨_, t.x, rfl, ?_, ?_, hx', ?_, he, hd⟩
    · have g' := g1.trans hg
      have g : Goes s t _ _ := ⟨g'.cfg, g'.inbox, g'.rsp, g'.history, g'.moves, g'.bus⟩
      have : r.moves = b.moves ++ rawMoves := by simp [ChunkRun.moves, hboot]
      rw [this]
      exact g.setHolding _
    · show t.seq = _
      rw [hq, q1]
      rfl
    · have e1 : t.x.imgPos = s.x.imgPos := by rw [hx']
      have e2 : t.x.imgRem = s.x.imgRem := by rw [hx']
      simp only [State.setCursor, e1, e2]

/-- What the streaming of chunks leaves: the cursor moved by all of them (R20, R165). -/
structure Streamed (s t : State) (fw : Bool) (chunks : List (List Byte)) (runs : List ChunkRun) (e : Env) (d : Dev) :
    Prop where
  goes : Goes s t (chunkEvents s.cfg chunks runs) (runs.flatMap ChunkRun.moves)
  seq : chunks ≠ [] → t.seq = { s.seq with ra := .idle, bm := if fw then .idle else s.seq.bm }
  idle : chunks = [] → t = s
  x : ∃ y, s.x.sameButAccess y ∧ t.x = { y with
    imgPos := s.x.imgPos + BitVec.ofNat 33 chunks.flatten.length
    imgRem := s.x.imgRem - BitVec.ofNat 32 chunks.flatten.length }
  env : t.env = e
  dev : t.dev = d

/-- The streaming loop sends every chunk, in order (R165). -/
theorem sendChunks_ok {s : State} {fw : Bool} {chunks : List (List Byte)} {runs : List ChunkRun} {e : Env} {d : Dev}
    (hlen : runs.length = chunks.length) (hok : ∀ r ∈ runs, r.ok s.cfg fw = true)
    (hc : ∀ c ∈ chunks, 1 ≤ c.length ∧ c.length ≤ s.cfg.bufCap)
    (hb : s.busAnswers (chunkEvents s.cfg chunks runs) e d) :
    ∃ t, (sendChunks fw chunks).run s = .ok () t ∧ Streamed s t fw chunks runs e d := by
  induction chunks generalizing s runs with
  | nil =>
    have : runs = [] := List.length_eq_zero_iff.mp (by simpa using hlen)
    subst this
    refine ⟨s, rfl, ⟨Goes.refl s, fun h => absurd rfl h, fun _ => rfl, ⟨s.x, rfl, ?_⟩, ?_, ?_⟩⟩
    · simp
    all_goals
      simp only [State.busAnswers, chunkEvents, List.zip_nil_left, List.flatMap_nil, replay, Option.some.injEq,
        Prod.mk.injEq] at hb
    · exact hb.1
    · exact hb.2
  | cons chunk rest ih =>
    cases runs with
    | nil => simp at hlen
    | cons r rs =>
      have hev : chunkEvents s.cfg (chunk :: rest) (r :: rs) = r.events s.cfg chunk ++ chunkEvents s.cfg rest rs := rfl
      rw [hev] at hb
      obtain ⟨e1, d1, ha⟩ := State.busAnswers_append hb
      obtain ⟨h1, h2⟩ := hc chunk (by simp)
      obtain ⟨u, y, hu, gu, qu, xy, xu, -, -⟩ := sendChunk_ok (hok r (by simp)) h1 h2 ha
      have hb1 := gu.rest hb
      have fu : u.cfg = s.cfg := gu.cfg
      obtain ⟨t, ht, S⟩ := ih (s := u) (runs := rs) (by simpa using hlen)
        (fun q hq => by rw [fu]; exact hok q (by simp [hq])) (fun c hcm => by rw [fu]; exact hc c (by simp [hcm]))
        (by rw [fu]; exact hb1)
      refine ⟨t, by rw [sendChunks, bind_ok hu, ht], ?_⟩
      have hp : u.x.imgPos = s.x.imgPos + BitVec.ofNat 33 chunk.length := by rw [xu]
      have hr : u.x.imgRem = s.x.imgRem - BitVec.ofNat 32 chunk.length := by rw [xu]
      constructor
      · have g := gu.trans S.goes
        rw [fu] at g
        rw [hev]
        exact g
      · intro _
        by_cases hrest : rest = []
        · rw [S.idle hrest, qu]
        · rw [S.seq hrest, qu]
          cases fw <;> rfl
      · intro h
        cases h
      · obtain ⟨z, uz, hz⟩ := S.x
        refine ⟨{ z with imgPos := s.x.imgPos, imgRem := s.x.imgRem }, ?_, ?_⟩
        · have hyp : y.imgPos = s.x.imgPos := by rw [xy]
          have hyr : y.imgRem = s.x.imgRem := by rw [xy]
          refine Holding.sameButAccess_trans xy ?_
          rw [uz, xu, Holding.sameButAccess]
          simp only [hyp, hyr]
        · rw [hz, hp, hr]
          simp only [List.flatten_cons, List.length_append, BitVec.ofNat_add, BitVec.add_assoc, BitVec.sub_sub]
      · exact S.env
      · exact S.dev

end Sys2Proof.Machine
end

