-- ==== Sys2Proof/Laws/Transaction.lean ====
section
/-! SUPPORT. What every sequence of the block can do, said once: it asks for one bus primitive after another, which one it
asks for next depends on the answers so far alone, and it stops at the first that is cut by reset, never returns, or
reports no unit (spec/00_scope.md R7, spec/60_exceptions.md R256 and R257). -/

namespace Sys2Proof.Machine

/-- The state with another bus side and another device. -/
def State.withBus (s : State) (e : Env) (d : Dev) : State := { s with env := e, dev := d }

section

variable (s : State) (e : Env) (d : Dev)

@[simp] theorem State.withBus_cfg : (s.withBus e d).cfg = s.cfg := rfl
@[simp] theorem State.withBus_x : (s.withBus e d).x = s.x := rfl
@[simp] theorem State.withBus_seq : (s.withBus e d).seq = s.seq := rfl
@[simp] theorem State.withBus_rsp : (s.withBus e d).rsp = s.rsp := rfl
@[simp] theorem State.withBus_history : (s.withBus e d).history = s.history := rfl
@[simp] theorem State.withBus_moves : (s.withBus e d).moves = s.moves := rfl
@[simp] theorem State.withBus_env : (s.withBus e d).env = e := rfl
@[simp] theorem State.withBus_inbox : (s.withBus e d).inbox = s.inbox := rfl
@[simp] theorem State.withBus_dev : (s.withBus e d).dev = d := rfl
@[simp] theorem State.withBus_withBus (e' : Env) (d' : Dev) : (s.withBus e d).withBus e' d' = s.withBus e' d' := rfl
@[simp] theorem State.withBus_self : s.withBus s.env s.dev = s := rfl

end

/-- From `s` to `u` the bus primitives `evs` were recorded; the parameters, what is presented, the response and the busy
register are as they were. -/
structure Along (s u : State) (evs : List Event) : Prop where
  cfg : u.cfg = s.cfg
  inbox : u.inbox = s.inbox
  rsp : u.rsp = s.rsp
  busy : u.seq.busy = s.seq.busy
  history : u.history = s.history ++ evs

theorem Along.refl (s : State) : Along s s [] := ⟨rfl, rfl, rfl, rfl, by simp⟩

theorem Along.trans {s t u : State} {a b : List Event} (h1 : Along s t a) (h2 : Along t u b) : Along s u (a ++ b) :=
  ⟨h2.cfg.trans h1.cfg, h2.inbox.trans h1.inbox, h2.rsp.trans h1.rsp, h2.busy.trans h1.busy,
    by rw [h2.history, h1.history, List.append_assoc]⟩

/-- A result with another bus side and another device. -/
def withBus {α : Type} (e : Env) (d : Dev) : EStateM.Result Abort State α → EStateM.Result Abort State α
  | .ok a s => .ok a (s.withBus e d)
  | .error a s => .error a (s.withBus e d)

/-- The sequence went to its end or raised a status. -/
def Final {α : Type} : EStateM.Result Abort State α → Prop
  | .ok _ _ => True
  | .error (.raised _) _ => True
  | .error .hung _ => False
  | .error .cut _ => False

/-- After the bus primitives `pre`, whoever answers them, `m` asks for the primitive `p`: reset before it cuts the
sequence there, a primitive that never returns hangs it there, a transfer that reports no unit raises INTERNAL_ERR. -/
def Asks {α : Type} (m : M α) (s : State) (pre : List Event) (p : Prim) : Prop :=
  ∃ u, Along s u pre ∧ ∀ e d e1 d1, replay s.cfg pre e d = some (e1, d1) →
    (e1.resetIn = some 0 → m.run (s.withBus e d) = .error .cut (u.withBus e1 d1)) ∧
    (e1.resetIn ≠ some 0 → neverReturns s.cfg e1 d1 p →
      m.run (s.withBus e d) = .error .hung ((u.withBus e1 d1).hang p)) ∧
    ∀ w k r e2 d2, e1.resetIn ≠ some 0 → p = .xfer w k → busReply s.cfg e1 d1 w k = some (0, r, e2, d2) →
      ∃ v, m.run (s.withBus e d) = .error (.raised .internalErr) v ∧ Along s v (pre ++ [.xfer w k 0 r]) ∧
        v.env = { e2.tick with answered := e2.answered + 1 } ∧ v.dev = d2

/-- After the bus primitives `evs`, whoever answers them, `m` ends as `r`. -/
def DoneAs {α : Type} (m : M α) (s : State) (evs : List Event) (r : EStateM.Result Abort State α) : Prop :=
  Final r ∧ Along s (stateOf r) evs ∧
    ∀ e d e1 d1, replay s.cfg evs e d = some (e1, d1) → m.run (s.withBus e d) = withBus e1 d1 r

/-- Before each of the bus primitives `evs` it is that primitive that `m` asks for. -/
def AsksAlong {α : Type} (m : M α) (s : State) (evs : List Event) : Prop :=
  ∀ pre ev post, evs = pre ++ ev :: post → Asks m s pre ev.prim

/-- In this environment `m` asks for some bus primitives one after the other, and then ends, or asks for one that is cut
by reset or never returns. -/
def ScriptedIn {α : Type} (m : M α) (s : State) (e : Env) (d : Dev) : Prop :=
  ∃ evs e1 d1, replay s.cfg evs e d = some (e1, d1) ∧ AsksAlong m s evs ∧
    ((∃ r, DoneAs m s evs r) ∨ ∃ p, Asks m s evs p ∧ (e1.resetIn = some 0 ∨ neverReturns s.cfg e1 d1 p))

/-- So it is in every environment. -/
def Scripted {α : Type} (m : M α) : Prop := ∀ s e d, ScriptedIn m s e d

namespace Scripted

theorem asksAlong_nil {α : Type} (m : M α) (s : State) : AsksAlong m s [] := by
  intro pre ev post h
  cases pre <;> cases h

/-- A sequence that ends at once and leaves the bus alone. -/
theorem of_done {α : Type} {m : M α} (h : ∀ s, ∃ r, DoneAs m s [] r) : Scripted m :=
  fun s e d => ⟨[], e, d, rfl, asksAlong_nil m s, .inl (h s)⟩

theorem pure {α : Type} (a : α) : Scripted (Pure.pure a : M α) :=
  of_done fun s => ⟨.ok a s, trivial, Along.refl s, fun _ _ _ _ h => by cases h; rfl⟩

theorem raise {α : Type} (st : Status) : Scripted (raise st : M α) :=
  of_done fun s => ⟨.error (.raised st) s, trivial, Along.refl s, fun _ _ _ _ h => by cases h; rfl⟩

theorem raiseIf (c : Bool) (st : Status) : Scripted (raiseIf c st) := by
  cases c
  · exact pure ()
  · exact raise st

theorem continueIfSuccess (st : Status) : Scripted (continueIfSuccess st) := raiseIf _ _

theorem config : Scripted config :=
  of_done fun s => ⟨.ok s.cfg s, trivial, Along.refl s, fun _ _ _ _ h => by cases h; rfl⟩

/-- A register write, which knows nothing of the bus. -/
theorem update {f : State → State} (hb : ∀ s e d, f (s.withBus e d) = (f s).withBus e d) (hf : ∀ s, Along s (f s) []) :
    Scripted (update f) :=
  of_done fun s => ⟨.ok () (f s), trivial, hf s, fun _ _ _ _ h => by
    cases h
    show EStateM.Result.ok () (f _) = _
    rw [hb]
    rfl⟩

theorem asks_bind {α β : Type} {m : M α} {f : α → M β} {s : State} {pre : List Event} {p : Prim} (h : Asks m s pre p) :
    Asks (m >>= f) s pre p := by
  obtain ⟨u, hu, h⟩ := h
  refine ⟨u, hu, fun e d e1 d1 hr => ?_⟩
  obtain ⟨h1, h2, h3⟩ := h e d e1 d1 hr
  refine ⟨fun h0 => bind_error (h1 h0), fun h0 hn => bind_error (h2 h0 hn), fun w k r e2 d2 h0 hp hb => ?_⟩
  obtain ⟨v, hv, ha⟩ := h3 w k r e2 d2 h0 hp hb
  exact ⟨v, bind_error hv, ha⟩

/-- What the second part asks for, after the first part has ended. -/
theorem asks_after {α β : Type} {m : M α} {f : α → M β} {s u : State} {a : α} {evs pre : List Event} {p : Prim}
    (hd : DoneAs m s evs (.ok a u)) (h : Asks (f a) u pre p) : Asks (m >>= f) s (evs ++ pre) p := by
  obtain ⟨-, ha, hd⟩ := hd
  obtain ⟨v, hv, h⟩ := h
  have hc : u.cfg = s.cfg := ha.cfg
  refine ⟨v, ha.trans hv, fun e d e2 d2 hr => ?_⟩
  obtain ⟨e1, d1, hr1, hr2⟩ := replay_append_some.mp hr
  obtain ⟨h1, h2, h3⟩ := h e1 d1 e2 d2 (by rw [hc]; exact hr2)
  have hm : m.run (s.withBus e d) = .ok a (u.withBus e1 d1) := hd e d e1 d1 hr1
  rw [hc] at h2 h3
  rw [bind_ok hm]
  refine ⟨h1, h2, fun w k r e3 d3 h0 hp hb => ?_⟩
  obtain ⟨z, hz, hzv, hze⟩ := h3 w k r e3 d3 h0 hp hb
  exact ⟨z, hz, by rw [List.append_assoc]; exact ha.trans hzv, hze⟩

/-- A first part that ended, and a second part. -/
theorem bind_done {α β : Type} {m : M α} {f : α → M β} {s u : State} {a : α} {evs : List Event} {e e1 : Env} {d d1 : Dev}
    (hr : replay s.cfg evs e d = some (e1, d1)) (hal : AsksAlong (m >>= f) s evs) (hd : DoneAs m s evs (.ok a u))
    (h2 : Scripted (f a)) : ScriptedIn (m >>= f) s e d := by
  have hc : u.cfg = s.cfg := hd.2.1.cfg
  obtain ⟨evs2, e2, d2, hr2, hal2, hend2⟩ := h2 u e1 d1
  rw [hc] at hr2
  refine ⟨evs ++ evs2, e2, d2, replay_append_some.mpr ⟨e1, d1, hr, hr2⟩, ?_, ?_⟩
  · intro pre ev post he
    rcases List.append_eq_append_iff.mp he with ⟨as, rfl, has⟩ | ⟨as, rfl, has⟩
    · exact asks_after hd (hal2 as ev post has)
    · cases as with
      | nil =>
        have hd' : DoneAs m s pre (.ok a u) := by simpa using hd
        have := asks_after (f := f) hd' (hal2 [] ev post has.symm)
        simpa using this
      | cons x xs =>
        simp only [List.cons_append, List.cons.injEq] at has
        obtain ⟨rfl, -⟩ := has
        exact hal pre ev xs rfl
  · rcases hend2 with ⟨r2, hf, hal3, hd2⟩ | ⟨p, hp, hstop⟩
    · refine .inl ⟨r2, hf, hd.2.1.trans hal3, fun e' d' e2' d2' h' => ?_⟩
      obtain ⟨e1', d1', ha, hb⟩ := replay_append_some.mp h'
      have hm : m.run (s.withBus e' d') = .ok a (u.withBus e1' d1') := hd.2.2 e' d' e1' d1' ha
      rw [bind_ok hm]
      exact hd2 e1' d1' e2' d2' (by rw [hc]; exact hb)
    · rw [hc] at hstop
      exact .inr ⟨p, asks_after hd hp, hstop⟩

/-- One part after the other. -/
theorem bind {α β : Type} {m : M α} {f : α → M β} (h1 : Scripted m) (h2 : ∀ a, Scripted (f a)) :
    Scripted (m >>= f) := by
  intro s e d
  obtain ⟨evs, e1, d1, hr, hal, hend⟩ := h1 s e d
  have hal' : AsksAlong (m >>= f) s evs := fun pre ev post he => asks_bind (hal pre ev post he)
  rcases hend with ⟨r, hd⟩ | ⟨p, hp, hstop⟩
  · cases r with
    | error a u =>
      cases a with
      | raised st =>
        exact ⟨evs, e1, d1, hr, hal', .inl ⟨.error (.raised st) u, trivial, hd.2.1, fun e' d' e1' d1' h' =>
          bind_error (hd.2.2 e' d' e1' d1' h')⟩⟩
      | hung => exact hd.1.elim
      | cut => exact hd.1.elim
    | ok a u => exact bind_done hr hal' hd (h2 a)
  · exact ⟨evs, e1, d1, hr, hal', .inr ⟨p, asks_bind hp, hstop⟩⟩

/-- A read of registers, which knows nothing of the bus. -/
theorem get_bind {α : Type} {f : State → M α} (hf : ∀ s e d, f (s.withBus e d) = f s) (h : ∀ s, Scripted (f s)) :
    Scripted (get >>= f) := by
  intro s e d
  have hrun (e' : Env) (d' : Dev) : ((get : M State) >>= f).run (s.withBus e' d') = (f s).run (s.withBus e' d') := by
    rw [Machine.get_bind, hf]
  obtain ⟨evs, e1, d1, hr, hal, hend⟩ := h s s e d
  have tr {pre : List Event} {p : Prim} (ha : Asks (f s) s pre p) : Asks (get >>= f) s pre p := by
    obtain ⟨u, hu, ha⟩ := ha
    refine ⟨u, hu, fun e' d' e1' d1' h' => ?_⟩
    rw [hrun]
    exact ha e' d' e1' d1' h'
  refine ⟨evs, e1, d1, hr, fun pre ev post he => tr (hal pre ev post he), ?_⟩
  rcases hend with ⟨r, hf', hal', hd⟩ | ⟨p, hp, hstop⟩
  · exact .inl ⟨r, hf', hal', fun e' d' e1' d1' h' => by rw [hrun]; exact hd e' d' e1' d1' h'⟩
  · exact .inr ⟨p, tr hp, hstop⟩

theorem ite {α : Type} {c : Prop} [Decidable c] {a b : M α} (h1 : Scripted a) (h2 : Scripted b) :
    Scripted (if c then a else b) := by split <;> assumption

theorem congr {α : Type} {m m' : M α} (h : ∀ s, m.run s = m'.run s) (h' : Scripted m') : Scripted m := by
  rw [show m = m' from funext h]
  exact h'

/-! The bus primitives. -/

theorem asks_delay (ms : Nat) (s : State) : Asks (Sys2Proof.Machine.delay ms) s [] (.delay ms) := by
  refine ⟨s, Along.refl s, fun e d e1 d1 h => ?_⟩
  cases h
  rcases delay_cases ms (s.withBus e d) with ⟨h0, hr⟩ | ⟨h0, hn, hr⟩ | ⟨h0, hn, hr⟩
  · exact ⟨fun _ => hr, fun h => absurd h0 h, fun _ _ _ _ _ h => absurd h0 h⟩
  · exact ⟨fun h => absurd h h0, fun _ _ => hr, fun _ _ _ _ _ _ hp => by cases hp⟩
  · exact ⟨fun h => absurd h h0, fun _ h => absurd h hn, fun _ _ _ _ _ _ hp => by cases hp⟩

theorem delay (ms : Nat) : Scripted (Sys2Proof.Machine.delay ms) := by
  intro s e d
  rcases delay_cases ms (s.withBus e d) with ⟨h0, -⟩ | ⟨h0, hn, -⟩ | ⟨h0, hn, -⟩
  · exact ⟨[], e, d, rfl, asksAlong_nil _ _, .inr ⟨_, asks_delay ms s, .inl h0⟩⟩
  · exact ⟨[], e, d, rfl, asksAlong_nil _ _, .inr ⟨_, asks_delay ms s, .inr hn⟩⟩
  · have hr : replay s.cfg [.delay ms] e d = some (e.tick, d) := by
      have h0' : e.resetIn ≠ some 0 := h0
      have hn' : e.script.head? ≠ some .never := hn
      simp [replay, h0', hn']
    refine ⟨[.delay ms], e.tick, d, hr, ?_, .inl ⟨.ok () (s.logDelay ms), trivial, ⟨rfl, rfl, rfl, rfl, rfl⟩, ?_⟩⟩
    · intro pre ev post he
      cases pre with
      | nil =>
        cases he
        exact asks_delay ms s
      | cons x xs => cases xs <;> cases he
    · intro e' d' e1 d1 h
      exact delay_of_replay (s := s.withBus e' d') h

theorem asks_xfer {α : Type} {w : List Byte} {k : Nat} {f : Nat × List Byte → M α} (s : State)
    (h0 : ∀ r t, (f (0, r)).run t = .error (.raised .internalErr) t) :
    Asks (busXfer w k >>= f) s [] (.xfer w k) := by
  refine ⟨s, Along.refl s, fun e d e1 d1 h => ?_⟩
  cases h
  rcases busXfer_cases w k (s.withBus e d) with ⟨h0', hr⟩ | ⟨h0', hn, hr⟩ | ⟨n, r, e2, d2, h0', hn, hr⟩
  · exact ⟨fun _ => bind_error hr, fun h => absurd h0' h, fun _ _ _ _ _ h => absurd h0' h⟩
  · refine ⟨fun h => absurd h h0', fun _ _ => bind_error hr, fun w' k' r e2 d2 _ hp hb => ?_⟩
    cases hp
    exact absurd (hb.symm.trans hn) (by simp)
  · refine ⟨fun h => absurd h h0', fun _ h => absurd (h.symm.trans hn) (by simp), fun w' k' r' e2' d2' _ hp hb => ?_⟩
    cases hp
    have hb' : some (0, r', e2', d2') = some (n, r, e2, d2) := hb.symm.trans hn
    cases hb'
    rw [bind_ok hr, h0]
    exact ⟨_, rfl, ⟨rfl, rfl, rfl, rfl, rfl⟩, rfl, rfl⟩

/-- A transfer whose result is tested: no unit raises INTERNAL_ERR, else the sequence goes on (R124). -/
theorem xfer {α : Type} {w : List Byte} {k : Nat} {f : Nat × List Byte → M α}
    (h0 : ∀ r t, (f (0, r)).run t = .error (.raised .internalErr) t) (h1 : ∀ n r, 1 ≤ n → Scripted (f (n, r))) :
    Scripted (busXfer w k >>= f) := by
  intro s e d
  rcases busXfer_cases w k (s.withBus e d) with ⟨hr0, -⟩ | ⟨hr0, hn, -⟩ | ⟨n, r, e2, d2, hr0, hn, -⟩
  · exact ⟨[], e, d, rfl, asksAlong_nil _ _, .inr ⟨_, asks_xfer s h0, .inl hr0⟩⟩
  · exact ⟨[], e, d, rfl, asksAlong_nil _ _, .inr ⟨_, asks_xfer s h0, .inr hn⟩⟩
  · have hn' : busReply s.cfg e d w k = some (n, r, e2, d2) := hn
    have hr0' : e.resetIn ≠ some 0 := hr0
    have hr : replay s.cfg [.xfer w k n r] e d = some ({ e2.tick with answered := e2.answered + 1 }, d2) := by
      simp only [replay, hr0', hn', if_false, and_self, if_true]
    have hal : AsksAlong (busXfer w k >>= f) s [.xfer w k n r] := by
      intro pre ev post he
      cases pre with
      | nil =>
        cases he
        exact asks_xfer s h0
      | cons x xs => cases xs <;> cases he
    have hd : DoneAs (busXfer w k) s [.xfer w k n r] (.ok (n, r) (s.logXfer w k n r)) :=
      ⟨trivial, ⟨rfl, rfl, rfl, rfl, rfl⟩, fun e' d' e1 d1 h => busXfer_of_replay (s := s.withBus e' d') h⟩
    rcases Nat.eq_zero_or_pos n with rfl | hpos
    · refine ⟨_, _, _, hr, hal, .inl ⟨.error (.raised .internalErr) (s.logXfer w k 0 r), trivial, hd.2.1,
        fun e' d' e1 d1 h => ?_⟩⟩
      have := hd.2.2 e' d' e1 d1 h
      rw [bind_ok this, h0]
      rfl
    · exact bind_done hr hal hd (h1 n r hpos)

/-! The sequences. -/

theorem setRa (st : RaState) : Scripted (Sys2Proof.Machine.update (·.setRa st)) :=
  update (fun _ _ _ => rfl) fun _ => ⟨rfl, rfl, rfl, rfl, by simp⟩

theorem buildHeader (a : Addr) (rw : Dir) (cnt : BitVec 7) : Scripted (buildHeader a rw cnt) :=
  bind config fun _ => update (fun _ _ _ => rfl) fun _ => ⟨rfl, rfl, rfl, rfl, by simp⟩

/-- The test that follows every transfer. -/
theorem tested {α : Type} {g : List Byte → M α} (w : List Byte) (k : Nat) (hg : ∀ r, Scripted (g r)) :
    Scripted (busXfer w k >>= fun p => do
      Sys2Proof.Machine.raiseIf (decide (p.1 < 1)) .internalErr
      g p.2) :=
  xfer (fun _ _ => rfl) fun _ r _ => bind (raiseIf _ _) fun _ => hg r

theorem regWrite (a : Addr) (data : List Byte) : Scripted (regWrite a data) := by
  unfold Machine.regWrite
  refine bind (setRa _) fun _ => bind (update (fun _ _ _ => rfl) fun _ => ⟨rfl, rfl, rfl, rfl, by simp⟩) fun _ => ?_
  cases countOf data.length with
  | none => exact raise _
  | some cnt =>
    exact bind config fun _ => bind (setRa _) fun _ =>
      bind (update (fun _ _ _ => rfl) fun _ => ⟨rfl, rfl, rfl, rfl, by simp⟩) fun _ => bind (setRa _) fun _ =>
      bind (buildHeader _ _ _) fun _ => bind (setRa _) fun _ => get_bind (fun _ _ _ => rfl) fun _ =>
      tested (g := fun _ => Machine.update (·.setRa .idle)) _ _ fun _ => setRa _

theorem regRead (a : Addr) (size : Nat) : Scripted (regRead a size) := by
  unfold Machine.regRead
  refine bind (setRa _) fun _ => bind (update (fun _ _ _ => rfl) fun _ => ⟨rfl, rfl, rfl, rfl, by simp⟩) fun _ => ?_
  cases countOf size with
  | none => exact raise _
  | some cnt =>
    exact bind config fun c => bind (setRa _) fun _ => bind (buildHeader _ _ _) fun _ => bind (setRa _) fun _ =>
      get_bind (fun _ _ _ => rfl) fun _ =>
      tested (g := fun r => do
        Machine.update (·.setBuf r)
        Machine.update (·.setRa .toHost)
        let out := toHost c ((← get).x.buf.take size)
        Machine.update (·.setRa .idle)
        return out) _ _ fun _ =>
        bind (update (fun _ _ _ => rfl) fun _ => ⟨rfl, rfl, rfl, rfl, by simp⟩) fun _ => bind (setRa _) fun _ =>
        get_bind (fun _ _ _ => rfl) fun _ => bind (setRa _) fun _ => pure _

theorem rawWrite (data : List Byte) : Scripted (rawWrite data) :=
  bind (setRa _) fun _ => bind config fun _ => bind (raiseIf _ _) fun _ =>
  bind (update (fun _ _ _ => rfl) fun _ => ⟨rfl, rfl, rfl, rfl, by simp⟩) fun _ => bind (setRa _) fun _ =>
  get_bind (fun _ _ _ => rfl) fun _ => tested (g := fun _ => Machine.update (·.setRa .idle)) _ _ fun _ => setRa _

theorem regWrite16 (a : Addr) (v : Word) : Scripted (regWrite16 a v) := bind config fun _ => regWrite _ _

theorem regRead16 (a : Addr) : Scripted (regRead16 a) :=
  bind config fun _ => bind (regRead _ _) fun _ =>
  bind (update (fun _ _ _ => rfl) fun _ => ⟨rfl, rfl, rfl, rfl, by simp⟩) fun _ => pure _

theorem regWrite32 (a : Addr) (v : DWord) : Scripted (regWrite32 a v) := bind config fun _ => regWrite _ _

theorem regRead32 (a : Addr) : Scripted (regRead32 a) := bind config fun _ => bind (regRead _ _) fun _ => pure _

theorem pollRead (a : Addr) : Scripted (pollRead a) := by
  have hr : Scripted (do
      let v ← Machine.regRead16 a
      Machine.update fun t => t.setPollCnt (t.x.pollCnt + 1)
      return v) :=
    bind (regRead16 _) fun _ =>
    bind (update (fun _ _ _ => rfl) fun _ => ⟨rfl, rfl, rfl, rfl, by simp⟩) fun _ => pure _
  unfold Machine.pollRead
  refine get_bind (fun _ _ _ => rfl) fun s => ?_
  split
  · exact bind (delay _) fun _ => hr
  · exact hr

theorem pollLoop (a : Addr) (pass : Word → Bool) (left : Nat) : Scripted (pollLoop a pass left) := by
  induction left with
  | zero =>
    unfold Machine.pollLoop
    exact bind (pollRead _) fun _ => ite (pure _) (raise _)
  | succ n ih =>
    unfold Machine.pollLoop
    exact bind (pollRead _) fun _ => ite (pure _) ih

theorem pollPhase (a : Addr) (pass : Word → Bool) : Scripted (pollPhase a pass) :=
  bind config fun _ => bind (update (fun _ _ _ => rfl) fun _ => ⟨rfl, rfl, rfl, rfl, by simp⟩) fun _ => pollLoop _ _ _

theorem setHc (st : HcState) : Scripted (Machine.update (·.setHc st)) :=
  update (fun _ _ _ => rfl) fun _ => ⟨rfl, rfl, rfl, rfl, by simp⟩
theorem setBm (st : BmState) : Scripted (Machine.update (·.setBm st)) :=
  update (fun _ _ _ => rfl) fun _ => ⟨rfl, rfl, rfl, rfl, by simp⟩
theorem setIt (st : ItState) : Scripted (Machine.update (·.setIt st)) :=
  update (fun _ _ _ => rfl) fun _ => ⟨rfl, rfl, rfl, rfl, by simp⟩
theorem setFl (st : FlState) : Scripted (Machine.update (·.setFl st)) :=
  update (fun _ _ _ => rfl) fun _ => ⟨rfl, rfl, rfl, rfl, by simp⟩
theorem setGl (st : GlState) : Scripted (Machine.update (·.setGl st)) :=
  update (fun _ _ _ => rfl) fun _ => ⟨rfl, rfl, rfl, rfl, by simp⟩
theorem clearRaw : Scripted (Machine.update (·.clearRaw)) :=
  update (fun _ _ _ => rfl) fun _ => ⟨rfl, rfl, rfl, rfl, by simp⟩

theorem runCommand (cmd : Word) : Scripted (runCommand cmd) :=
  bind config fun _ => bind (update (fun _ _ _ => rfl) fun _ => ⟨rfl, rfl, rfl, rfl, by simp⟩) fun _ =>
  bind (setHc _) fun _ => bind (pollPhase _ _) fun _ => bind (setHc _) fun _ => bind (regWrite16 _ _) fun _ =>
  bind (setHc _) fun _ => bind (regWrite16 _ _) fun _ => bind (setHc _) fun _ => bind (pollPhase _ _) fun _ => setHc _

theorem readResult : Scripted readResult :=
  bind config fun _ => bind (regRead16 _) fun _ =>
  bind (update (fun _ _ _ => rfl) fun _ => ⟨rfl, rfl, rfl, rfl, by simp⟩) fun _ => pure _

theorem bootSwitch : Scripted bootSwitch := by
  unfold Machine.bootSwitch
  refine bind config fun _ => bind (setBm _) fun _ => bind (regRead16 _) fun _ => ?_
  split
  · exact bind (setBm _) fun _ => bind (regWrite16 _ _) fun _ => bind (setBm _) fun _ => bind (delay _) fun _ =>
      bind (setBm _) fun _ => bind (regRead16 _) fun _ => bind (raiseIf _ _) fun _ => setBm _
  · exact setBm _

theorem sendChunk (fw : Bool) (chunk : List Byte) : Scripted (sendChunk fw chunk) := by
  unfold Machine.sendChunk
  have hr : Scripted (do
      Machine.rawWrite chunk
      Machine.update fun s => s.setCursor (s.x.imgPos + BitVec.ofNat 33 chunk.length)
        (s.x.imgRem - BitVec.ofNat 32 chunk.length)) :=
    bind (rawWrite _) fun _ => update (fun _ _ _ => rfl) fun _ => ⟨rfl, rfl, rfl, rfl, by simp⟩
  refine bind (update (fun _ _ _ => rfl) fun _ => ⟨rfl, rfl, rfl, rfl, by simp⟩) fun _ => ?_
  split
  · exact bind bootSwitch fun _ => hr
  · exact hr

theorem sendChunks (fw : Bool) (chunks : List (List Byte)) : Scripted (sendChunks fw chunks) := by
  induction chunks with
  | nil => exact pure _
  | cons c t ih => exact bind (sendChunk _ _) fun _ => ih

theorem concludeLoad : Scripted concludeLoad :=
  bind config fun _ => bind (setIt _) fun _ => bind (runCommand _) fun _ => bind readResult fun _ =>
  continueIfSuccess _

theorem loadImage (image : List Byte) : Scripted (loadImage image) := by
  unfold Machine.loadImage
  refine bind (setIt _) fun _ => bind clearRaw fun _ => bind (raiseIf _ _) fun _ => bind config fun _ =>
    bind (update (fun _ _ _ => rfl) fun _ => ⟨rfl, rfl, rfl, rfl, by simp⟩) fun _ => bind (setIt _) fun _ =>
    bind (update (fun _ _ _ => rfl) fun _ => ⟨rfl, rfl, rfl, rfl, by simp⟩) fun _ => bind (raiseIf _ _) fun _ =>
    bind (raiseIf _ _) fun _ => bind (raiseIf _ _) fun _ =>
    bind (update (fun _ _ _ => rfl) fun _ => ⟨rfl, rfl, rfl, rfl, by simp⟩) fun _ => bind (setIt _) fun _ =>
    bind (sendChunks _ _) fun _ => ?_
  split
  · exact bind concludeLoad fun _ => bind (setIt _) fun _ => pure _
  · exact bind (setIt _) fun _ => pure _

theorem flashInit : Scripted flashInit :=
  bind config fun _ => bind (setFl _) fun _ => bind (runCommand _) fun _ => bind (setFl _) fun _ =>
  bind readResult fun _ => continueIfSuccess _

theorem readCount : Scripted readCount :=
  bind config fun _ => bind (setFl _) fun _ => bind (regRead16 _) fun _ =>
  update (fun _ _ _ => rfl) fun _ => ⟨rfl, rfl, rfl, rfl, by simp⟩

theorem flashSave (wantCount : Bool) : Scripted (flashSave wantCount) := by
  unfold Machine.flashSave
  refine bind config fun _ => bind (setIt _) fun _ => bind clearRaw fun _ =>
    bind (update (fun _ _ _ => rfl) fun _ => ⟨rfl, rfl, rfl, rfl, by simp⟩) fun _ => bind (setFl _) fun _ =>
    bind bootSwitch fun _ => bind flashInit fun _ => bind (setFl _) fun _ => bind (regWrite _ _) fun _ =>
    bind (setFl _) fun _ => bind (runCommand _) fun _ => bind (setFl _) fun _ => bind readResult fun _ =>
    bind (continueIfSuccess _) fun _ => ?_
  split
  · exact bind readCount fun _ => bind (setFl _) fun _ => bind (setIt _) fun _ => pure _
  · exact bind (setFl _) fun _ => bind (setIt _) fun _ => pure _

theorem flashErase : Scripted flashErase := by
  unfold Machine.flashErase
  have hr (c : Config) : Scripted (do
      Machine.flashInit
      Machine.update (·.setFl .prep)
      Machine.regWrite16 c.map.result c.map.eraseMagic
      Machine.update (·.setFl .cmd)
      Machine.runCommand c.cmds.erase
      Machine.update (·.setFl .result)
      let v ← Machine.readResult
      Machine.continueIfSuccess (eraseStatus (hostResult c.resp v))
      Machine.update (·.setFl .idle)
      Machine.update (·.setIt .done)
      return Payload.none) :=
    bind flashInit fun _ => bind (setFl _) fun _ => bind (regWrite16 _ _) fun _ => bind (setFl _) fun _ =>
    bind (runCommand _) fun _ => bind (setFl _) fun _ => bind readResult fun _ => bind (continueIfSuccess _) fun _ =>
    bind (setFl _) fun _ => bind (setIt _) fun _ => pure _
  refine bind config fun _ => bind (setIt _) fun _ => bind clearRaw fun _ => bind (setFl _) fun _ =>
    bind (regRead16 _) fun _ => ?_
  split
  · exact bind bootSwitch fun _ => hr _
  · exact hr _

theorem waitNotBusy : Scripted waitNotBusy := bind config fun _ => pollPhase _ _

theorem extWrite (a : DWord) (bytes : List Byte) : Scripted (extWrite a bytes) :=
  bind config fun _ => bind (regWrite32 _ _) fun _ => regWrite _ _

theorem sendBlocks (a : DWord) (blocks : List (List Byte)) : Scripted (sendBlocks a blocks) := by
  induction blocks generalizing a with
  | nil => exact pure _
  | cons b t ih => exact bind (extWrite _ _) fun _ => ih _

theorem appendSegment (cnt : Word) (start len : DWord) : Scripted (appendSegment cnt start len) :=
  bind config fun _ => bind (regWrite32 _ _) fun _ => bind (regWrite32 _ _) fun _ => regWrite16 _ _

theorem updateTable (start len : DWord) : Scripted (updateTable start len) :=
  bind config fun _ => bind (regRead16 _) fun _ => ite (appendSegment _ _ _) <|
  bind (regRead32 _) fun _ => ite (regWrite32 _ _) (appendSegment _ _ _)

theorem grammarLoad (blob : List Byte) : Scripted (grammarLoad blob) :=
  bind config fun _ => bind (setGl _) fun _ => bind (regRead32 _) fun _ => bind (regRead32 _) fun _ =>
  bind (raiseIf _ _) fun _ => bind (setGl _) fun _ => bind (runCommand _) fun _ => bind (setGl _) fun _ =>
  bind waitNotBusy fun _ => bind (setGl _) fun _ => bind (sendBlocks _ _) fun _ => bind (setGl _) fun _ =>
  bind (updateTable _ _) fun _ => bind (setGl _) fun _ => bind (runCommand _) fun _ => bind (setGl _) fun _ =>
  bind waitNotBusy fun _ => bind (setGl _) fun _ => pure _

theorem commandAndResult (cmd : Word) (f : Word → Status) : Scripted (commandAndResult cmd f) :=
  bind (runCommand _) fun _ => bind readResult fun _ => continueIfSuccess _

theorem commandAndWait (cmd : Word) : Scripted (commandAndWait cmd) := bind (runCommand _) fun _ => waitNotBusy

theorem hdrEncodeSeq (a : Addr) (rw : Dir) (size : BitVec 16) : Scripted (hdrEncodeSeq a rw size) := by
  unfold Machine.hdrEncodeSeq
  cases countOf size.toNat with
  | none => exact raise _
  | some cnt => exact bind (buildHeader _ _ _) fun _ => get_bind (fun _ _ _ => rfl) fun _ => pure _

/-- Every job of the block. -/
theorem job {i : Instr} {s : State} {j : Job} (h : jobOf i s = some j) : Scripted j.seq := by
  cases i with
  | selectPage _ | noOp | contPagedWrite _ | directRead _ _ | directWrite _ _ | pagedRead _ _ | pagedWrite _ _
    | reserved _ _ => cases h
  | hdrEncode a rw size => cases h; exact hdrEncodeSeq _ _ _
  | regWrite a data => cases h; exact bind (regWrite _ _) fun _ => pure _
  | regRead a size => cases h; exact bind (regRead _ _) fun _ => pure _
  | rawWrite data => cases h; exact bind (rawWrite _) fun _ => pure _
  | runCmd cmd => cases h; exact bind (runCommand _) fun _ => pure _
  | bootSwitch => cases h; exact bind bootSwitch fun _ => pure _
  | loadImage image =>
    simp only [jobOf] at h
    split at h
    · cases h
    · cases h; exact loadImage _
  | flashSave w => cases h; exact flashSave _
  | flashErase => cases h; exact flashErase
  | grammarLoad blob =>
    cases h
    exact ite (grammarLoad _) (raise _)
  | reqReserved op => cases h; exact raise _
  | cmdLoadComplete => cases h; exact bind (commandAndResult _ _) fun _ => pure _
  | cmdFlashInit => cases h; exact bind (commandAndResult _ _) fun _ => pure _
  | cmdSave => cases h; exact bind (commandAndResult _ _) fun _ => pure _
  | cmdErase => cases h; exact bind (commandAndResult _ _) fun _ => pure _
  | cmdGramDisable =>
    simp only [jobOf] at h
    split at h
    · cases h; exact bind (commandAndWait _) fun _ => pure _
    · cases h
  | cmdGramEnable =>
    simp only [jobOf] at h
    split at h
    · cases h; exact bind (commandAndWait _) fun _ => pure _
    · cases h

end Scripted

/-! `exec` and the jobs. -/

theorem settleWord_job (m : M Unit) (s : State) :
    settleWord ((do m; return Payload.none : M Payload).run s) = settleWord (m.run s) := by
  cases h : m.run s with
  | ok u t => rw [bind_ok h]; rfl
  | error e t => rw [bind_error h]; cases e <;> rfl

theorem exec_word (m : M Unit) (s : State) :
    runWord m s = .next ((wordJob m s).finish ((wordJob m s).seq.run (wordJob m s).start)) :=
  congrArg Host.Outcome.next (settleWord_job m s.acceptWord).symm

/-- An instruction of the block is its job run to the end. -/
theorem exec_of_job {i : Instr} {s : State} {j : Job} (h : jobOf i s = some j) :
    exec i s = .next (j.finish (j.seq.run j.start)) := by
  cases i with
  | selectPage _ | noOp | contPagedWrite _ | directRead _ _ | directWrite _ _ | pagedRead _ _ | pagedWrite _ _
    | reserved _ _ => cases h
  | hdrEncode _ _ _ | regWrite _ _ | regRead _ _ | rawWrite _ | runCmd _ | bootSwitch | flashSave _ | flashErase
    | grammarLoad _ | reqReserved _ => cases h; rfl
  | cmdLoadComplete | cmdFlashInit | cmdSave | cmdErase => cases h; exact exec_word _ _
  | loadImage image =>
    simp only [jobOf] at h
    split at h
    · cases h
    · next hz => cases h; simp only [exec, execLoadImage, hz]; rfl
  | cmdGramDisable =>
    simp only [jobOf] at h
    split at h
    · next hg => cases h; simp only [exec, execCmdGramDisable, hg, if_true]; exact exec_word _ _
    · cases h
  | cmdGramEnable =>
    simp only [jobOf] at h
    split at h
    · next hg => cases h; simp only [exec, execCmdGramEnable, hg, if_true]; exact exec_word _ _
    · cases h

/-- An instruction of the block that gives a next state has a job. -/
theorem job_of_exec {i : Instr} {s t : State} (hi : i.space ≠ .wire) (h : exec i s = .next t) :
    ∃ j, jobOf i s = some j := by
  cases i with
  | selectPage _ | noOp | contPagedWrite _ | directRead _ _ | directWrite _ _ | pagedRead _ _ | pagedWrite _ _
    | reserved _ _ => exact absurd rfl hi
  | hdrEncode _ _ _ | regWrite _ _ | regRead _ _ | rawWrite _ | runCmd _ | bootSwitch | flashSave _ | flashErase
    | grammarLoad _ | reqReserved _ | cmdLoadComplete | cmdFlashInit | cmdSave | cmdErase => exact ⟨_, rfl⟩
  | loadImage image =>
    simp only [exec, execLoadImage] at h
    simp only [jobOf]
    split at h
    · cases h
    · next hz => rw [if_neg hz]; exact ⟨_, rfl⟩
  | cmdGramDisable =>
    simp only [exec, execCmdGramDisable] at h
    simp only [jobOf]
    split at h
    · next hg => rw [if_pos hg]; exact ⟨_, rfl⟩
    · cases h
  | cmdGramEnable =>
    simp only [exec, execCmdGramEnable] at h
    simp only [jobOf]
    split at h
    · next hg => rw [if_pos hg]; exact ⟨_, rfl⟩
    · cases h

end Sys2Proof.Machine
end

