-- ==== Sys2Proof/Tests/Slice0.lean ====
section
/-! SUPPORT. Tests on single steps, and for every statement with hypotheses a concrete case that meets them all. Expected
values are those of spec/95_test_vectors.md where a vector is named, else worked out by hand from the rules named. -/

open Sys2Proof Sys2Proof.Machine

namespace Sys2Proof.Tests

-- One test after the other: a hundred of them at once would each hold a thread waiting for the kernel.
set_option Elab.async false

/-- A controller with every OPEN parameter chosen: a little-endian host, two reads to a poll phase, the grammar unit
present. The other parameters are the defaults of R5. -/
def tc : Config where
  wire := WireCfg.default
  hostEndian := .little
  devEndian := .big
  bufCap := 256
  pollBound := 2
  pollDelayMs := 7
  bootDelayMs := 50
  map := {
    swFlags := 0x0006#16, cmd := 0x0032#16, result := 0x0034#16, done := 0x0032#16, curFw := 0x0028#16,
    appBit := 15, rstBoot := 0x0014#16, bootVerify := 0x0034#16, bootMagic := 0xD3D3#16,
    chksum := 0x0008#16, chksumBytes := 2, flashCount := 0x0026#16, eraseMagic := 0xAA55#16 }
  cmds := {
    loadComplete := 0x000D#16, flashInit := 0x000B#16, save := 0x0004#16, erase := 0x0009#16,
    gramDisable := 0x0020#16, gramEnable := 0x0021#16 }
  resp := {
    success := 0x0000#16, badImage := 0x0001#16, flashFull := 0x0003#16, noFlash := 0x0006#16,
    incompatApp := 0x000B#16, finitOk := 0x0002#16, finitNoDev := 0x0001#16 }
  img := { order := .big, majorHigh := true, typeLo := 6, typeWidth := 2, endianBit := 5, fw := 0#8, cfg := 1#8 }
  hasGrammar := true
  gram := {
    segStart := 0x0200#16, segMax := 0x0204#16, segCount := 0x0208#16,
    segTable := [(0x0300#16, 0x0304#16), (0x0308#16, 0x030C#16)], status := 0x020A#16, busy := 0xBEEF#16, block := 4
    extAddr := 0x000C#16 }

/-- After reset, with the bus's answers laid down. -/
def on (script : List BusAnswer) : State where
  cfg := tc
  x := Holding.reset 256
  seq := Seq.reset
  rsp := none
  history := []
  moves := []
  env := { Env.reset with script := script }
  inbox := []
  dev := Dev.reset

/-- The same with the reference responder attached. -/
def attached (dev : Dev) : State := { on [] with env := { Env.reset with device := .responder }, dev := dev }

/-- A transfer answered with one unit and these bytes. -/
def ok (r : List Byte) : BusAnswer := .done 1 r

/-- The answers that make a stretch of bus primitives happen. -/
def answersOf (evs : List Event) : List BusAnswer :=
  evs.filterMap fun ev => match ev with | .xfer _ _ n r => some (.done n r) | .delay _ => none

/-- Some environment answers this stretch of bus primitives and lets the terminal transition follow: the one that lays down
its answers. -/
def Meets (evs : List Event) : Prop := ∃ e d, (on (answersOf evs)).busCarries evs e d

theorem meets {evs : List Event}
    (h : ((replay tc evs (on (answersOf evs)).env Dev.reset).map fun p => decide (p.1.resetIn ≠ some 0)) = some true) :
    Meets evs := by
  obtain ⟨p, hp, hr⟩ := Option.map_eq_some_iff.mp h
  exact ⟨p.1.tick, p.2, p.1, hp, of_decide_eq_true hr, rfl⟩

/-- The `k`-th of these events as a transfer that reports no unit. -/
def failed (evs : List Event) (k : Nat) : Event :=
  match evs.getD k (.delay 0) with
  | .xfer w j _ r => .xfer w j 0 r
  | .delay ms => .delay ms

/-- The `k`-th of these bus primitives can fail. -/
def CanFail (evs : List Event) (k : Nat) : Prop :=
  FailsAfter evs (evs.take k) (failed evs k) ∧ Meets (evs.take k ++ [failed evs k])

theorem canFail {evs : List Event} {k : Nat}
    (h : xferCount (evs.drop k |>.take 1) = 1)
    (hm : ((replay tc (evs.take k ++ [failed evs k]) (on (answersOf (evs.take k ++ [failed evs k]))).env Dev.reset).map
      fun p => decide (p.1.resetIn ≠ some 0)) = some true) : CanFail evs k := by
  refine ⟨?_, meets hm⟩
  cases hd : evs.drop k with
  | nil => simp [hd, xferCount] at h
  | cons ev post =>
    have he : evs = evs.take k ++ ev :: post := by rw [← hd, List.take_append_drop]
    have hg : evs.getD k (.delay 0) = ev := by
      have h2 : evs[k]? = some ev := by rw [← List.head?_drop, hd]; rfl
      rw [List.getD_eq_getElem?_getD, h2]
      rfl
    cases ev with
    | delay ms => simp [hd, xferCount] at h
    | xfer w j n r => exact ⟨w, j, n, r, r, post, he, by rw [failed, hg]⟩

/-- What a step leaves to see: the transfers and delays made, and the response. -/
def seen (o : Host.Outcome State Fault Refusal) : Option (List Event × Option Response) :=
  match o with
  | .next s => some (s.history, s.rsp)
  | _ => none

/-- A field of the next state. -/
def nextOf {α : Type} (f : State → α) (o : Host.Outcome State Fault Refusal) : Option α :=
  match o with
  | .next s => some (f s)
  | _ => none

/-- The refusal, where there is one. -/
def refusal (o : Host.Outcome State Fault Refusal) : Option Refusal :=
  match o with
  | .refused r => some r
  | _ => none

/-- A response with nothing but a status. -/
def plain (st : Status) : Response where
  status := st
  rawValid := false
  rawResp := 0
  hdr := []
  data := []
  count := none

/-! ## Well-formedness and decoding -/

theorem test_wf_direct_edge : (Instr.directRead 0x79#7 0#7).wf tc = true ∧ (Instr.directWrite 0x79#7 0#7).wf tc = true := by
  decide +kernel
theorem test_wf_refuses_direct_read_special : (Instr.directRead 0x7A#7 0#7).wf tc = false := by decide +kernel
theorem test_wf_refuses_direct_write_special : (Instr.directWrite 0x7F#7 0#7).wf tc = false := by decide +kernel
theorem test_wf_refuses_reserved_defined :
    (Instr.reserved 0xFE#8 0x00#8).wf tc = false ∧ (Instr.reserved 0xFF#8 0xFF#8).wf tc = false ∧
      (Instr.reserved 0xFB#8 0x7F#8).wf tc = false ∧ (Instr.reserved 0x99#8 0x80#8).wf tc = false := by decide +kernel
theorem test_wf_reserved_edge :
    (Instr.reserved 0xFA#8 0x00#8).wf tc = true ∧ (Instr.reserved 0xFB#8 0x80#8).wf tc = true ∧
      (Instr.reserved 0xFF#8 0xFE#8).wf tc = true := by decide +kernel
theorem test_wf_refuses_req_reserved_defined : (Instr.reqReserved 0x9#4).wf tc = false := by decide +kernel

-- Words written out from R71 to R76: bit fields by hand.
theorem test_decode_select_page : decode tc (.wire [0xFE#8, 0x12#8]) = .ok (.selectPage 0x12#8) := by rfl
theorem test_decode_no_op : decode tc (.wire [0xFF#8, 0xFF#8]) = .ok .noOp := by rfl
theorem test_decode_cont : decode tc (.wire [0xFB#8, 0b00000011#8]) = .ok (.contPagedWrite 3#7) := by rfl
theorem test_decode_direct_read : decode tc (.wire [0b10000011#8, 0b00000000#8]) = .ok (.directRead 3#7 0#7) := by rfl
theorem test_decode_direct_write :
    decode tc (.wire [0b10011001#8, 0b10000001#8]) = .ok (.directWrite 0x19#7 1#7) := by rfl
theorem test_decode_paged_read : decode tc (.wire [0b00000001#8, 0b01111111#8]) = .ok (.pagedRead 1#7 127#7) := by rfl
theorem test_decode_paged_write : decode tc (.wire [0b01111111#8, 0b10000000#8]) = .ok (.pagedWrite 127#7 0#7) := by
  rfl
theorem test_decode_reserved :
    decode tc (.wire [0xFA#8, 0x80#8]) = .ok (.reserved 0xFA#8 0x80#8) ∧
      decode tc (.wire [0xFF#8, 0x00#8]) = .ok (.reserved 0xFF#8 0x00#8) := ⟨rfl, rfl⟩
theorem test_decode_truncated : decode tc (.wire [0xFE#8]) = .error .truncatedCommand := by rfl

/-- A controller whose command words go low byte first, with the fields of an access word elsewhere (R5 group A). -/
def otherLayout : WireCfg where
  firstHigh := false
  wDirect := 7
  wOffset := 8
  wWrite := 15
  wCount := 0
  selectPage := 0xFE#8
  contWr := 0xFB#8
  nop := 0xFFFF#16
  specialLo := 0xFA#8

-- DIRECT_WRITE off 0x19 cnt 1: 1 0011001 | 1 0000001, low byte first.
theorem test_other_layout :
    Config.wf { tc with wire := otherLayout } ∧
      wordBytes otherLayout (encodeWire otherLayout (.directWrite 0x19#7 1#7)) = [0x81#8, 0x99#8] ∧
      decodeWire otherLayout 0x81#8 0x99#8 = .directWrite 0x19#7 1#7 := by decide +kernel

/-- A request record with every operand set. -/
def full (op : BitVec 4) : Request where
  op := op
  addr := 0x0102#16
  rw := .write
  size := 4#16
  cmd := 0x0009#16
  wantCount := true
  data := [1, 2]

theorem test_decode_requests :
    ([0x0#4, 0x1#4, 0x2#4, 0x3#4, 0x4#4, 0x5#4, 0x6#4, 0x7#4, 0x8#4, 0x9#4, 0xA#4, 0xF#4].map fun op =>
      decodeRequest (full op)) =
      [.hdrEncode 0x0102#16 .write 4#16, .regWrite 0x0102#16 [1, 2], .regRead 0x0102#16 4#16, .rawWrite [1, 2],
        .runCmd 0x0009#16, .bootSwitch, .loadImage [1, 2], .flashSave true, .flashErase, .grammarLoad [1, 2],
        .reqReserved 0xA#4, .reqReserved 0xF#4] := by decide +kernel

theorem test_decode_host_words :
    ([0x000D#16, 0x000B#16, 0x0004#16, 0x0009#16, 0x0020#16, 0x0021#16].map fun w => (decode tc (.hostCommand w)).toOption) =
      [some .cmdLoadComplete, some .cmdFlashInit, some .cmdSave, some .cmdErase, some .cmdGramDisable,
        some .cmdGramEnable] := by decide +kernel
theorem test_decode_unknown_host_word : decode tc (.hostCommand 0x1234#16) = .error (.unknownHostCommand 0x1234#16) := by
  rfl

-- The opcode table's own numbers.
theorem test_table_words :
    decodeTableWord 8 0x4 = some (.runCmd 0) ∧ decodeTableWord 8 0xC = some (.reqReserved 0xC#4) ∧
      decodeTableWord 16 0xFE00 = some (.selectPage 0) ∧ decodeTableWord 16 0x8000 = some (.directRead 0 0) ∧
      decodeTableWord 16 0x000D = some .cmdLoadComplete := by decide +kernel

/-! ## Single steps: wire commands at the responder (vectors P1 to P5 and R112 to R119) -/

/-- A responder with a transfer in progress. -/
def dev (sel : Byte) (mem : Mem) (cont : Option (Nat × Nat)) (rx : List Byte) (want : Nat) : Dev where
  sel := sel
  mem := mem
  cont := cont
  rx := rx
  want := want
  tx := []

theorem test_select_page : nextOf (·.dev.sel) (exec (.selectPage 0x12#8) (on [])) = some 0x12#8 := by decide +kernel
theorem test_select_page_reserved : refusal (exec (.selectPage 0xFE#8) (on [])) = some .selectReserved := by decide +kernel
theorem test_no_op : nextOf (·.dev) (exec .noOp (attached (dev 3 [(4, 5)] none [1, 2] 0))) =
    some (dev 3 [(4, 5)] none [1, 2] 0) := by decide +kernel
theorem test_direct_write : nextOf (·.dev) (exec (.directWrite 0x19#7 0#7) (attached (dev 0 [] none [0x00, 0x0D, 7] 0))) =
    some (dev 0 [(0x33, 0x0D)] none [7] 0) := by decide +kernel
theorem test_direct_read : nextOf (·.dev.tx) (exec (.directRead 0x19#7 0#7) (attached (dev 0 [(0x33, 0x0D)] none [] 2))) =
    some [0x00, 0x0D] := by decide +kernel
theorem test_paged_write :
    nextOf (·.dev) (exec (.pagedWrite 1#7 1#7) (attached (dev 0 [] none [0x12, 0x34, 0x56, 0x78] 0))) =
      some (dev 0 [(0x102, 0x12), (0x103, 0x34), (0x104, 0x56), (0x105, 0x78)] (some (1, 3)) [] 0) := by decide +kernel
theorem test_paged_read :
    nextOf (·.dev.tx) (exec (.pagedRead 1#7 0#7) (attached (dev 0 [(0x102, 0x12), (0x103, 0x34)] none [] 2))) =
      some [0x12, 0x34] := by decide +kernel
theorem test_cont_paged_write :
    nextOf (·.dev) (exec (.contPagedWrite 0#7) (attached (dev 0 [] (some (1, 3)) [0x9A, 0xBC] 0))) =
      some (dev 0 [(0x106, 0x9A), (0x107, 0xBC)] (some (1, 4)) [] 0) := by decide +kernel
theorem test_cont_paged_write_other_page :
    refusal (exec (.contPagedWrite 0#7) (attached (dev 4 [] (some (1, 3)) [0x9A, 0xBC] 0))) = some .noContinuation := by
  decide +kernel
theorem test_reserved : refusal (exec (.reserved 0xFA#8 0#8) (on [])) = some (.reservedWord 0xFA#8 0#8) := by decide +kernel

/-! ## Single steps: requests -/

-- R100 to R105.
theorem test_hdr_encode : (seen (exec (.hdrEncode 0x0102#16 .write 4#16) (on []))) =
    some ([], some { plain .success with hdr := [0xFE, 0x00, 0x01, 0x81] }) := by decide +kernel
theorem test_hdr_encode_odd_size : (seen (exec (.hdrEncode 0x0102#16 .write 3#16) (on []))) =
    some ([], some (plain .invalidArg)) := by decide +kernel
-- V23.
theorem test_reg_write : seen (exec (.regWrite 0x0102#16 [0x34, 0x12]) (on [ok []])) =
    some ([.xfer [0xFE, 0x00, 0x01, 0x80, 0x12, 0x34] 0 1 []], some (plain .success)) := by decide +kernel
theorem test_reg_read : seen (exec (.regRead 0x0102#16 2#16) (on [ok [0x12, 0x34]])) =
    some ([.xfer [0xFE, 0x00, 0x01, 0x00] 2 1 [0x12, 0x34]], some { plain .success with data := [0x34, 0x12] }) := by
  decide +kernel
theorem test_reg_read_no_unit : seen (exec (.regRead 0x0034#16 2#16) (on [.done 0 [1, 2]])) =
    some ([.xfer [0x9A, 0x00] 2 0 [1, 2]], some (plain .internalErr)) := by decide +kernel
theorem test_raw_write : seen (exec (.rawWrite [0xFE, 0x00, 0x01]) (on [ok []])) =
    some ([.xfer [0xFE, 0x00, 0x01] 0 1 []], some (plain .success)) := by decide +kernel
-- V34.
theorem test_run_cmd : seen (exec (.runCmd 0x0004#16) (on [ok [0, 0], ok [], ok [], ok [0, 0]])) =
    some ([.xfer [0x83, 0x00] 2 1 [0, 0], .xfer [0x99, 0x80, 0x00, 0x04] 0 1 [], .xfer [0x83, 0x80, 0x00, 0x01] 0 1 [],
      .xfer [0x99, 0x00] 2 1 [0, 0]], some (plain .success)) := by decide +kernel
theorem test_run_cmd_bound : seen (exec (.runCmd 0x0004#16) (on [ok [0, 1], ok [0, 1]])) =
    some ([.xfer [0x83, 0x00] 2 1 [0, 1], .delay 7, .xfer [0x83, 0x00] 2 1 [0, 1]], some (plain .resourceErr)) := by
  decide +kernel
-- V41.
theorem test_boot_switch : seen (exec .bootSwitch (on [ok [0x80, 1], ok [], ok [0xD3, 0xD3]])) =
    some ([.xfer [0x94, 0x00] 2 1 [0x80, 1], .xfer [0x8A, 0x80, 0x00, 0x01] 0 1 [], .delay 50,
      .xfer [0x9A, 0x00] 2 1 [0xD3, 0xD3]], some (plain .success)) := by decide +kernel
theorem test_boot_switch_no_magic :
    nextOf (fun s => (s.rsp, s.seq.bm)) (exec .bootSwitch (on [ok [0x80, 1], ok [], ok [0, 0]])) =
      some (some (plain .internalErr), .idle) := by decide +kernel

/-- A configuration image: two chunks of four bytes. -/
def cfgImage : List Byte := [0x12, 0x40, 0, 0, 0, 2, 0, 0, 0, 8, 0, 0] ++ [1, 2, 3, 4, 5, 6, 7, 8]
/-- A firmware image: one chunk of two bytes and one byte past the body. -/
def fwImage : List Byte := [0x12, 0x00, 0, 0, 0, 1, 0, 0, 0, 2, 0, 0] ++ [0xAB, 0xCD, 0xEE]

theorem test_load_image : seen (exec (.loadImage cfgImage) (on [ok [], ok []])) =
    some ([.xfer [1, 2, 3, 4] 0 1 [], .xfer [5, 6, 7, 8] 0 1 []], some (plain .success)) := by decide +kernel
theorem test_load_image_short :
    nextOf (fun s => (s.rsp, s.seq.it)) (exec (.loadImage (cfgImage.take 19)) (on [])) =
      some (some (plain .invalidArg), .failed) := by decide +kernel

/-- The answers to one handshake that succeeds at once. -/
def handshake : List BusAnswer := [ok [0, 0], ok [], ok [], ok [0, 0]]

theorem test_flash_save :
    nextOf (fun s => (s.rsp, s.seq.it))
      (exec (.flashSave true) (on ([ok [0, 0]] ++ handshake ++ [ok [0, 2], ok []] ++ handshake ++ [ok [0, 0], ok [0, 5]]))) =
      some (some { plain .success with rawValid := true, count := some 5 }, .done) := by decide +kernel
theorem test_flash_erase_no_device :
    nextOf (fun s => (s.rsp, s.seq.it)) (exec .flashErase (on ([ok [0, 0]] ++ handshake ++ [ok [0, 1]]))) =
      some (some { plain .noFlashPresent with rawValid := true, rawResp := 1 }, .failed) := by decide +kernel
theorem test_grammar_load_no_room :
    seen (exec (.grammarLoad [1, 2, 3, 4]) (on [ok [0, 0, 0x10, 0], ok [0, 0, 0x10, 4]])) =
      some ([.xfer [0xFE, 0x01, 0x00, 0x01] 4 1 [0, 0, 0x10, 0], .xfer [0xFE, 0x01, 0x02, 0x01] 4 1 [0, 0, 0x10, 4]],
        some (plain .resourceErr)) := by decide +kernel
theorem test_req_reserved : seen (exec (.reqReserved 0xB#4) (on [])) = some ([], some (plain .invalidArg)) := by decide +kernel

/-! ## Single steps: host command words -/

theorem test_cmd_load_complete :
    nextOf (fun s => (s.x.status, s.x.rawResp, s.rsp)) (exec .cmdLoadComplete (on (handshake ++ [ok [0, 0x0B]]))) =
      some (.incompatApp, 0x000B#16, none) := by decide +kernel
theorem test_cmd_flash_init :
    nextOf (fun s => (s.x.status, s.x.cmdOp)) (exec .cmdFlashInit (on (handshake ++ [ok [0, 2]]))) =
      some (.success, 0x000B#16) := by decide +kernel
theorem test_cmd_save :
    nextOf (fun s => (s.x.status, s.x.cmdOp)) (exec .cmdSave (on (handshake ++ [ok [0, 3]]))) =
      some (.flashFull, 0x0004#16) := by decide +kernel
theorem test_cmd_erase :
    nextOf (fun s => (s.x.status, s.x.cmdOp)) (exec .cmdErase (on (handshake ++ [ok [0, 6]]))) =
      some (.noFlashPresent, 0x0009#16) := by decide +kernel
theorem test_cmd_gram_disable :
    nextOf (fun s => (s.x.status, s.x.cmdOp, s.x.pollCnt))
      (exec .cmdGramDisable (on (handshake ++ [ok [0xBE, 0xEF], ok [0, 0]]))) = some (.success, 0x0020#16, 2) := by decide +kernel
theorem test_cmd_gram_enable :
    nextOf (fun s => (s.x.status, s.x.cmdOp)) (exec .cmdGramEnable (on (handshake ++ [ok [0, 0]]))) =
      some (.success, 0x0021#16) := by decide +kernel

/-! ## Witnesses: every statement's hypotheses can be met together

Each theorem names the statement it is for. A statement with several clauses has a case for each, at the ends of its
ranges. -/

theorem witness_DecodeOfEncode :
    tc.wf ∧ tc.cmdsDistinct ∧ (Instr.directRead 0x79#7 127#7).wf tc = true ∧ (Instr.reserved 0xFB#8 0x80#8).wf tc = true ∧
      (Instr.reqReserved 0xA#4).wf tc = true ∧ Instr.cmdGramEnable.wf tc = true := by decide +kernel

theorem witness_EncodeOfDecode : tc.wf := by decide +kernel

/-- Something presented to an idle block or to the responder. -/
def presented (inbox : List Presented) (rx : List Byte) : State :=
  { on [] with inbox := inbox, dev := dev 0 [] none rx 0 }

theorem witness_StepRunsInstruction :
    (presented [.request (full 0x4)] []).env.resetIn ≠ some 0 ∧ (presented [.request (full 0x4)] []).dev.rx = [] ∧
      (presented [.request (full 0x4)] []).seq.busy = false ∧
      decode tc (.request (full 0x4)) = .ok (.runCmd 0x0009#16) ∧
      decode tc (.hostCommand 0x0004#16) = .ok .cmdSave ∧
      (presented [] [0xFE, 0x12, 0xFF, 0xFF]).dev.rx = [0xFE#8, 0x12#8, 0xFF#8, 0xFF#8] ∧
      decode tc (.wire [0xFE#8, 0x12#8, 0xFF#8, 0xFF#8]) = .ok (.selectPage 0x12#8) ∧
      (presented [.wire [0xFF, 0xFF] 0] []).inbox = [.wire [0xFF#8, 0xFF#8] 0] ∧
      decode tc (.wire [0xFF#8, 0xFF#8]) = .ok .noOp := by
  refine ⟨?_, ?_, ?_, ?_, ?_, ?_, ?_, ?_, ?_⟩ <;> first | rfl | decide +kernel

/-- Reset is to come after `k` steps of the block. -/
def resetAfter (k : Nat) (script : List BusAnswer) : State :=
  { on script with env := { Env.reset with script := script, resetIn := some k } }

theorem witness_AssertedReset : (resetAfter 0 []).env.resetIn = some 0 ∧ (resetAfter 0 []).env.inFlight = none := ⟨rfl, rfl⟩

theorem witness_ResetBetweenPrimitives :
    nextOf (·.env.resetIn) (exec (.runCmd 0x0004#16) (resetAfter 2 handshake)) = some none ∧
      nextOf (·.env.resetIn) (exec (.runCmd 0x0004#16) (resetAfter 0 [])) = some none ∧
      nextOf (·.env.resetIn) (exec (.runCmd 0x0004#16) (resetAfter 5 handshake)) = some (some 0) := by decide +kernel

-- R281: a reset after the last primitive, the request still busy, abandons it without a response.
theorem test_reset_before_response :
    seen (exec (.regRead 0x0102#16 2#16) (resetAfter 1 [ok [0x12, 0x34]])) =
      some ([.xfer [0xFE, 0x00, 0x01, 0x00] 2 1 [0x12, 0x34]], none) := by decide +kernel

-- R309 and R281: after a reset cuts the primitive that never returned, the next request runs.
theorem test_hang_is_over :
    nextOf (fun s => (s.seq.busy, s.env.script)) (exec (.regRead 0x0102#16 2#16) (on [.never, ok []])) =
      some (true, [ok []]) := by decide +kernel

theorem witness_PrimitiveSteps :
    (Instr.regRead 0x0102#16 2#16).space ≠ .wire ∧
      (match tStep (.idle { on [ok [1, 2]] with inbox := [.request { full 0x2 with size := 2 }] }) with
        | .next (.busy i u k) => decide (i = .regRead 0x0102#16 2#16 ∧ k = 1) &&
          (match tStep (.busy i u k) with
            | .next (.idle t) => decide (t.rsp = some { plain .success with data := [2, 1] })
            | _ => false)
        | _ => false) = true := by decide +kernel

theorem witness_HeaderBytes : 2 ≤ 2 ∧ 2 ≤ 256 ∧ 2 % 2 = 0 ∧ 256 ≤ 256 ∧ 256 % 2 = 0 := by decide +kernel

theorem witness_HeaderRoundTrip :
    tc.wf ∧ evenAddress 0x00F2#16 = true ∧ reachable tc.wire 0x00F2#16 .read 0 = true ∧ evenAddress 0xFFFE#16 = true ∧
      reachable tc.wire 0xFFFE#16 .write 127 = true ∧ sizeOk 2 = true ∧ sizeOk 256 = true ∧
      (0x00F2#16).toNat < 0xF4 ∧ 0xFE < (0x0100#16).toNat := by decide +kernel

theorem witness_HeaderLength :
    (hdrEncode tc.wire 0x0002#16 .read 2 = some [0x81#8, 0x00#8] ∧ pageOf 0x0002#16 = 0#8) ∧
      hdrEncode tc.wire 0xFF10#16 .write 256 = some [0xFE#8, 0xFF#8, 0x08#8, 0xFF#8] ∧ pageOf 0xFF10#16 ≠ 0#8 ∧ tc.wire.fieldsApart ∧
      tc.wire = WireCfg.default := by
  decide +kernel

theorem witness_HdrEncodeCompletes : countOf (2#16).toNat = some 0#7 ∧ countOf (256#16).toNat = some 127#7 := by decide +kernel
theorem witness_HdrEncodeMalformed : (0#16).toNat = 0 ∧ 256 < (258#16).toNat ∧ (3#16).toNat % 2 = 1 := by decide +kernel

theorem witness_RegWriteCompletes :
    countOf [0x34#8, 0x12#8].length = some 0#7 ∧
      Meets [.xfer (header tc.wire 0x0102#16 .write 0#7 ++ toDev tc [0x34, 0x12]) 0 1 []] :=
  ⟨by decide +kernel, meets (by decide +kernel)⟩

theorem witness_RegReadCompletes :
    countOf (2#16).toNat = some 0#7 ∧ [0x12#8, 0x34#8].length = (2#16).toNat ∧
      Meets [.xfer (header tc.wire 0x0102#16 .read 0#7) 2 1 [0x12, 0x34]] :=
  ⟨by decide +kernel, by decide +kernel, meets (by decide +kernel)⟩

theorem witness_RawWriteCompletes :
    1 ≤ (List.replicate 256 0xAA#8).length ∧ (List.replicate 256 0xAA#8).length ≤ tc.bufCap ∧
      Meets [.xfer (List.replicate 256 0xAA#8) 0 1 []] := ⟨by decide +kernel, by decide +kernel, meets (by decide +kernel)⟩

theorem witness_AccessSizeRefused :
    ([] : List Byte).length = 0 ∧ 256 < (List.replicate 257 0#8).length ∧ [0#8].length % 2 = 1 ∧
      (0#16).toNat = 0 ∧ 256 < (257#16).toNat ∧ (1#16).toNat % 2 = 1 ∧ tc.bufCap < (List.replicate 257 0#8).length := by
  decide +kernel

theorem witness_TransferFailureReported :
    (countOf [1#8, 2#8].length = some 0#7 ∧
      Meets [.xfer (header tc.wire 0x0102#16 .write 0#7 ++ toDev tc [1, 2]) 0 0 []]) ∧
    (countOf (2#16).toNat = some 0#7 ∧ Meets [.xfer (header tc.wire 0x0102#16 .read 0#7) 2 0 [9, 9]]) ∧
    Meets [.xfer [1, 2, 3] 0 0 []] :=
  ⟨⟨by decide +kernel, meets (by decide +kernel)⟩, ⟨by decide +kernel, meets (by decide +kernel)⟩, meets (by decide +kernel)⟩

theorem witness_WriteThenRead :
    (attached Dev.reset).Inv ∧ (attached Dev.reset).env.script = [] ∧ (attached Dev.reset).env.device = .responder ∧
      (attached Dev.reset).noReset ∧ safeAccess tc.wire 0x0102#16 2 = true ∧ safeAccess tc.wire 0xFE00#16 256 = true ∧
      safeAccess tc.wire 0x00F2#16 14 = true := by
  refine ⟨⟨by decide +kernel, ⟨by decide +kernel, by decide +kernel, by decide +kernel, ?_⟩,
    ⟨by decide +kernel, by decide +kernel, by decide +kernel, by decide +kernel, by decide +kernel, by decide +kernel⟩,
    fun _ => ⟨⟨rfl, rfl, rfl, rfl, rfl⟩, rfl⟩⟩, rfl, rfl, rfl, by decide +kernel⟩
  intro p o h
  cases h

/-- A handshake that takes every read the bound allows. -/
def slow : CmdRun where
  idle := [(1, 0x0001), (1, 0x0002)]
  wrote := 1
  notified := 1
  done := [(1, 0x0005), (1, 0x0000)]

/-- One that takes the fewest. -/
def quick : CmdRun where
  idle := [(1, 0x0000)]
  wrote := 1
  notified := 1
  done := [(1, 0x0000)]

theorem witness_RunCmdCompletes : slow.ok tc = true ∧ Meets (slow.events tc 0x0004#16) := ⟨by decide +kernel, meets (by decide +kernel)⟩

theorem witness_RunCmdBound :
    1 ≤ tc.pollBound ∧
    (pollFails (fun v => !busyFlag v) [(1, 0x0001), (1, 0x0003)] = true ∧
      Meets (pollEvents tc tc.map.swFlags [(1, 0x0001), (1, 0x0003)])) ∧
    pollPasses (fun v => !busyFlag v) slow.idle = true ∧ slow.idle.length ≤ tc.pollBound ∧
    pollFails commandDone [(1, 0x0001), (1, 0x8000)] = true ∧
    Meets (pollEvents tc tc.map.swFlags slow.idle ++
      [write16 tc tc.map.cmd 1 0x0004#16, write16 tc tc.map.swFlags 1 1#16] ++
      pollEvents tc tc.map.done [(1, 0x0001), (1, 0x8000)]) :=
  ⟨by decide +kernel, ⟨by decide +kernel, meets (by decide +kernel)⟩, by decide +kernel, by decide +kernel, by decide +kernel, meets (by decide +kernel)⟩

-- The first read of each phase, a later one of each, the command write, the notify write.
theorem witness_RunCmdTransferFails :
    slow.ok tc = true ∧ CanFail (slow.events tc 4#16) 0 ∧ CanFail (slow.events tc 4#16) 2 ∧
      CanFail (slow.events tc 4#16) 3 ∧ CanFail (slow.events tc 4#16) 4 ∧ CanFail (slow.events tc 4#16) 5 ∧
      CanFail (slow.events tc 4#16) 7 := by
  refine ⟨by decide +kernel, ?_, ?_, ?_, ?_, ?_, ?_⟩ <;> exact canFail (by decide +kernel) (by decide +kernel)

theorem witness_RunCmdCounts :
    1 ≤ tc.pollBound ∧
      nextOf (fun s => (xferCount s.history, delayCount s.history))
        (exec (.runCmd 0x0004#16) (on (answersOf (slow.events tc 0x0004#16)))) = some (6, 2) := by decide +kernel

/-- A running device that switches to boot mode. -/
def switching : BootRun := .switched 1 0x8001 1 1
/-- A device that is in boot mode. -/
def staying : BootRun := .inBootMode 1 0x7FFF

theorem witness_BootSwitchCompletes :
    (switching.ok tc = true ∧ Meets (switching.events tc)) ∧ staying.ok tc = true ∧ Meets (staying.events tc) :=
  ⟨⟨by decide +kernel, meets (by decide +kernel)⟩, by decide +kernel, meets (by decide +kernel)⟩

theorem witness_BootSwitchFails :
    (appRunning tc 0x8000#16 = true ∧ 0xD3D2#16 ≠ tc.map.bootMagic ∧ Meets (bootMismatch tc 1 0x8000#16 1 1 0xD3D2#16)) ∧
      switching.ok tc = true ∧ CanFail (switching.events tc) 0 ∧ CanFail (switching.events tc) 3 :=
  ⟨⟨by decide +kernel, by decide +kernel, meets (by decide +kernel)⟩, by decide +kernel,
    canFail (by decide +kernel) (by decide +kernel), canFail (by decide +kernel) (by decide +kernel)⟩

/-- A header alone: type in the upper two bits of byte 1, block words, total length. -/
def headerOf (type : Byte) (words : Byte) (total : Byte) : List Byte := [0x12, type, 0, 0, 0, words, 0, 0, 0, total, 0, 0]

/-- The bus primitives of a whole firmware load. -/
def fwLoad (v : Word) : List Event :=
  chunkEvents tc (chunksOf 2 [0xAB, 0xCD]) [⟨some switching, 1⟩] ++ slow.events tc tc.cmds.loadComplete ++
    [read16 tc tc.map.result 1 v]

theorem witness_LoadConfigurationCompletes :
    (12 ≤ cfgImage.length ∧ (blockBytes (parseHeader tc.img cfgImage).blkWords).toNat ≤ tc.bufCap ∧
      (parseHeader tc.img cfgImage).type = tc.img.cfg ∧ (parseHeader tc.img cfgImage).type ≠ tc.img.fw ∧
      12 + (parseHeader tc.img cfgImage).total.toNat ≤ cfgImage.length ∧
      (parseHeader tc.img cfgImage).blkWords ≠ 0#16 ∧
      chunksOf (blockBytes (parseHeader tc.img cfgImage).blkWords).toNat (imageBody (parseHeader tc.img cfgImage) cfgImage) =
        [[1, 2, 3, 4], [5, 6, 7, 8]] ∧ (⟨none, 1⟩ : ChunkRun).ok tc false = true) ∧
      Meets (chunkEvents tc [[1, 2, 3, 4], [5, 6, 7, 8]] [⟨none, 1⟩, ⟨none, 1⟩]) := ⟨by decide +kernel, meets (by decide +kernel)⟩

theorem witness_LoadFirmwareCompletes :
    (12 ≤ fwImage.length ∧ (blockBytes (parseHeader tc.img fwImage).blkWords).toNat ≤ tc.bufCap ∧
      (parseHeader tc.img fwImage).type = tc.img.fw ∧ 12 + (parseHeader tc.img fwImage).total.toNat ≤ fwImage.length ∧
      (parseHeader tc.img fwImage).blkWords ≠ 0#16 ∧
      chunksOf (blockBytes (parseHeader tc.img fwImage).blkWords).toNat (imageBody (parseHeader tc.img fwImage) fwImage) =
        chunksOf 2 [0xAB, 0xCD] ∧ (⟨some switching, 1⟩ : ChunkRun).ok tc true = true ∧ slow.ok tc = true) ∧
      Meets (fwLoad tc.resp.success) := ⟨by decide +kernel, meets (by decide +kernel)⟩

theorem witness_LoadResultRaises :
    tc.wf ∧ tc.resp.incompatApp ≠ tc.resp.success ∧ tc.resp.flashFull ≠ tc.resp.success ∧
      Meets (fwLoad tc.resp.incompatApp) ∧ Meets (fwLoad tc.resp.flashFull) :=
  ⟨by decide +kernel, by decide +kernel, by decide +kernel, meets (by decide +kernel), meets (by decide +kernel)⟩

/-- A handshake whose phase 1, or whose phase 3, uses up its reads. -/
def stuckIdle : CmdStuck := .waitIdle [(1, 0x0001), (1, 0x0003)]
def stuckDone : CmdStuck := .waitDone slow.idle 1 1 [(1, 0x0001), (1, 0x8000)]

-- With the premises of the two completion statements: the chunk, the read of the result; a switch that does not verify; a
-- handshake that is stuck.
theorem witness_LoadImageAborts :
    CanFail (chunkEvents tc [[1, 2, 3, 4], [5, 6, 7, 8]] [⟨none, 1⟩, ⟨none, 1⟩]) 1 ∧ CanFail (fwLoad tc.resp.success) 4 ∧
      CanFail (fwLoad tc.resp.success) 13 ∧ (fwLoad tc.resp.success).length = 14 ∧ 1 ≤ tc.pollBound ∧
      (0 < (chunksOf 2 [0xAB#8, 0xCD#8]).length ∧ appRunning tc 0x8001#16 = true ∧ 0#16 ≠ tc.map.bootMagic ∧
        Meets (chunkEvents tc ((chunksOf 2 [0xAB, 0xCD]).take 0) [] ++ bootMismatch tc 1 0x8001#16 1 1 0#16)) ∧
      stuckDone.ok tc = true ∧
      Meets (chunkEvents tc (chunksOf 2 [0xAB, 0xCD]) [⟨some switching, 1⟩] ++
        stuckDone.events tc tc.cmds.loadComplete) :=
  ⟨canFail (by decide +kernel) (by decide +kernel), canFail (by decide +kernel) (by decide +kernel),
    canFail (by decide +kernel) (by decide +kernel), by decide +kernel, by decide +kernel,
    ⟨by decide +kernel, by decide +kernel, by decide +kernel, meets (by decide +kernel)⟩, by decide +kernel,
    meets (by decide +kernel)⟩

-- A body that the block size divides, and one it does not (R166).
theorem witness_ChunkLengths :
    (12 + (parseHeader tc.img cfgImage).total.toNat ≤ cfgImage.length ∧ (parseHeader tc.img cfgImage).blkWords ≠ 0#16 ∧
      (parseHeader tc.img cfgImage).total.toNat % 4 = 0) ∧
    12 + (parseHeader tc.img (headerOf 0x40 2 7 ++ cfgImage)).total.toNat ≤ (headerOf 0x40 2 7 ++ cfgImage).length ∧
      (parseHeader tc.img (headerOf 0x40 2 7 ++ cfgImage)).blkWords ≠ 0#16 ∧
      (parseHeader tc.img (headerOf 0x40 2 7 ++ cfgImage)).total.toNat % 4 = 3 := by decide +kernel

theorem witness_LoadChecksInOrder :
    (headerOf 0 1 0).dropLast.length < 12 ∧
    ¬(headerOf 0x80 129 0).length < 12 ∧
      tc.bufCap < (blockBytes (parseHeader tc.img (headerOf 0x80 129 0)).blkWords).toNat ∧
    ¬tc.bufCap < (blockBytes (parseHeader tc.img (headerOf 0x80 128 2)).blkWords).toNat ∧
      (parseHeader tc.img (headerOf 0x80 128 2)).type ≠ tc.img.fw ∧
      (parseHeader tc.img (headerOf 0x80 128 2)).type ≠ tc.img.cfg ∧
    (parseHeader tc.img (headerOf 0x40 1 1)).type = tc.img.cfg ∧
      (headerOf 0x40 1 1).length < 12 + (parseHeader tc.img (headerOf 0x40 1 1)).total.toNat ∧
    12 ≤ (headerOf 0x40 0 1 ++ [7]).length ∧ (parseHeader tc.img (headerOf 0x40 0 1 ++ [7])).type = tc.img.cfg ∧
      12 + (parseHeader tc.img (headerOf 0x40 0 1 ++ [7])).total.toNat ≤ (headerOf 0x40 0 1 ++ [7]).length ∧
      (parseHeader tc.img (headerOf 0x40 0 1 ++ [7])).blkWords = 0#16 ∧
      (parseHeader tc.img (headerOf 0x40 0 1 ++ [7])).total ≠ 0#32 := by decide +kernel

/-- An idle block to which a configuration image is presented; the second transfer never returns. -/
def loading : State := { on [ok [], .never] with inbox := [.request { full 0x6 with data := cfgImage }] }

theorem witness_CursorInvariant :
    loading.cursorLegal ∧
      nextOf (fun s => (s.seq.it, s.x.imgPos.toNat, s.x.imgRem.toNat)) (step loading) = some (.streaming, 16, 4) :=
  ⟨fun h => absurd h (by decide +kernel), by decide +kernel⟩

/-- The bus primitives of a flash save up to the read of its result. -/
def saving (v : Word) : List Event :=
  switching.events tc ++ (⟨slow, 1⟩ : InitRun).events tc tc.resp.finitOk ++
    [.xfer (header tc.wire tc.map.chksum .write (BitVec.ofNat 7 (tc.map.chksumBytes / 2 - 1)) ++
      List.replicate tc.map.chksumBytes 0#8) 0 1 []] ++
    quick.events tc tc.cmds.save ++ [read16 tc tc.map.result 1 v]

theorem witness_FlashSaveCompletes :
    tc.wf ∧ switching.ok tc = true ∧ slow.ok tc = true ∧ quick.ok tc = true ∧
      Meets (saving tc.resp.success ++ [read16 tc tc.map.flashCount 1 0x0003#16]) ∧ Meets (saving tc.resp.success ++ []) :=
  ⟨by decide +kernel, by decide +kernel, by decide +kernel, by decide +kernel, meets (by decide +kernel), meets (by decide +kernel)⟩

/-- The bus primitives of a flash erase from flash-init on. -/
def erasing (v : Word) : List Event :=
  (⟨slow, 1⟩ : InitRun).events tc tc.resp.finitOk ++ [write16 tc tc.map.result 1 tc.map.eraseMagic] ++
    quick.events tc tc.cmds.erase ++ [read16 tc tc.map.result 1 v]

theorem witness_FlashEraseCompletes :
    (appRunning tc 0x8000#16 = true ∧ switching.ok tc = true ∧
      Meets ([read16 tc tc.map.curFw 1 0x8000#16] ++ switching.events tc ++ erasing tc.resp.success)) ∧
    appRunning tc 0#16 = false ∧ Meets ([read16 tc tc.map.curFw 1 0#16] ++ [] ++ erasing tc.resp.success) :=
  ⟨⟨by decide +kernel, by decide +kernel, meets (by decide +kernel)⟩, by decide +kernel, meets (by decide +kernel)⟩

/-- A flash sequence in a device that switches to boot mode, and one in a device that is in boot mode. -/
def flashA : FlashRun := { first := (1, 0x8000), boot := switching, init := ⟨slow, 1⟩, prep := 1, cmd := quick, read := 1 }
def flashB : FlashRun := { first := (1, 0), boot := staying, init := ⟨quick, 1⟩, prep := 1, cmd := slow, read := 1 }

theorem witness_FlashResultRaises :
    (FlashOp.save.isInstr (.flashSave true) ∧ FlashOp.erase.isInstr .flashErase ∧ tc.wf ∧ flashA.ok tc .save = true ∧
      flashA.ok tc .erase = true ∧ flashB.ok tc .erase = true) ∧
    (tc.resp.finitNoDev ≠ tc.resp.finitOk ∧ Meets (flashA.initEvents tc .save tc.resp.finitNoDev) ∧
      0x0009#16 ≠ tc.resp.finitOk ∧ Meets (flashB.initEvents tc .erase 0x0009#16)) ∧
    (tc.resp.flashFull ≠ tc.resp.success ∧ Meets (flashA.events tc .save tc.resp.flashFull) ∧
      Meets (flashA.events tc .save tc.resp.noFlash)) ∧
    Meets (flashA.events tc .erase tc.resp.badImage) ∧ Meets (flashB.events tc .erase tc.resp.incompatApp) ∧
      Meets (flashB.events tc .erase tc.resp.noFlash) ∧ Meets (flashB.events tc .erase tc.resp.flashFull) :=
  ⟨⟨⟨_, rfl⟩, rfl, by decide +kernel, by decide +kernel, by decide +kernel, by decide +kernel⟩,
    ⟨by decide +kernel, meets (by decide +kernel), by decide +kernel, meets (by decide +kernel)⟩,
    ⟨by decide +kernel, meets (by decide +kernel), meets (by decide +kernel)⟩, meets (by decide +kernel),
    meets (by decide +kernel), meets (by decide +kernel), meets (by decide +kernel)⟩

-- The first transfer; the read of flash-init's result and the write after it; the result; the count.
theorem witness_FlashAborts :
    CanFail (flashA.events tc .save tc.resp.success) 0 ∧
    CanFail (flashA.events tc .erase tc.resp.success) ((flashA.initEvents tc .erase tc.resp.finitOk).length - 1) ∧
    CanFail (flashB.events tc .save tc.resp.success) (flashB.initEvents tc .save tc.resp.finitOk).length ∧
    CanFail (flashB.events tc .erase tc.resp.success) ((flashB.events tc .erase tc.resp.success).length - 1) ∧
    CanFail (flashB.events tc .save tc.resp.success ++ [read16 tc tc.map.flashCount 1 3#16])
      (flashB.events tc .save tc.resp.success).length ∧
    (appRunning tc flashA.first.2 = true ∧ Meets (FlashOp.erase.firstEvents tc flashA ++
      bootMismatch tc 1 0x8001#16 1 1 0#16) ∧ Meets (FlashOp.save.firstEvents tc flashA ++
      bootMismatch tc 1 0x8001#16 1 1 0#16)) ∧
    (stuckIdle.ok tc = true ∧ Meets (flashA.bootEvents tc .save ++ stuckIdle.events tc tc.cmds.flashInit)) ∧
    Meets (flashB.initEvents tc .erase tc.resp.finitOk ++ [FlashOp.erase.prepEvent tc 1] ++
      stuckDone.events tc (FlashOp.erase.word tc)) :=
  ⟨canFail (by decide +kernel) (by decide +kernel), canFail (by decide +kernel) (by decide +kernel),
    canFail (by decide +kernel) (by decide +kernel), canFail (by decide +kernel) (by decide +kernel),
    canFail (by decide +kernel) (by decide +kernel),
    ⟨by decide +kernel, meets (by decide +kernel), meets (by decide +kernel)⟩,
    ⟨by decide +kernel, meets (by decide +kernel)⟩, meets (by decide +kernel)⟩

/-- The beginning of a grammar load at 0x00123440: the capacity; then disabled and no longer busy. -/
def gramCaps : List Event := [read32 tc tc.gram.segStart 1 0x00123440#32, read32 tc tc.gram.segMax 1 0x00123447#32]
def gramWaited : List Event :=
  gramCaps ++ slow.events tc tc.cmds.gramDisable ++ pollEvents tc tc.gram.status [(1, 0xBEEF), (1, 0)]

/-- The load of six bytes in blocks of four up to the segment table, and to its end. -/
def gramTabled (table : TableRun) : List Event :=
  gramWaited ++ blockEvents tc 0x00123440#32 ((chunksOf tc.gram.block [1, 2, 3, 4, 5, 6]).zip [(1, 1), (1, 1)]) ++
    table.events tc 0x00123440#32 6#32
def grammar (table : TableRun) : List Event :=
  gramTabled table ++ quick.events tc tc.cmds.gramEnable ++ pollEvents tc tc.gram.status [(1, 0)]

/-- The three ways to update the table. -/
def tables : List TableRun :=
  [.empty 1 1 1 1, .inPlace 1 0x0002 1 1, .append 1 0x0001 1 0x00123000#32 1 1 1]

theorem witness_GrammarLoadCompletes :
    (tc.wf ∧ tc.hasGrammar = true ∧ (0x00123440#32).toNat + 6 + 1 ≤ (0x00123447#32).toNat ∧
      (chunksOf tc.gram.block [1, 2, 3, 4, 5, 6]).length = 2 ∧
      pollPasses (fun v => v != tc.gram.busy) [(1, 0xBEEF), (1, 0)] = true ∧
      (tables.all fun t => t.ok 0x00123440#32) = true) ∧
    Meets (grammar (.empty 1 1 1 1)) ∧ Meets (grammar (.inPlace 1 0x0002 1 1)) ∧
    Meets (grammar (.append 1 0x0001 1 0x00123000#32 1 1 1)) :=
  ⟨by decide +kernel, meets (by decide +kernel), meets (by decide +kernel), meets (by decide +kernel)⟩

theorem witness_GrammarCapacityRefused :
    tc.hasGrammar = true ∧ (0x1004#32).toNat < (0x1000#32).toNat + [1#8, 2#8, 3#8, 4#8].length + 1 ∧
      Meets [read32 tc tc.gram.segStart 1 0x1000#32, read32 tc tc.gram.segMax 1 0x1004#32] :=
  ⟨by decide +kernel, by decide +kernel, meets (by decide +kernel)⟩

-- A failed read of the capacity, of the wait, of the table; the stuck handshakes and waits; a blob of five bytes.
theorem witness_GrammarAborts :
    (CanFail (grammar (.empty 1 1 1 1)) 1 ∧ CanFail (grammar (.empty 1 1 1 1)) 10 ∧
      CanFail (grammar (.empty 1 1 1 1)) 17 ∧ [1#8, 2#8, 3#8, 4#8, 5#8, 6#8].length % 2 = 0) ∧
    Meets (gramCaps ++ stuckIdle.events tc tc.cmds.gramDisable) ∧
    (pollFails (fun v => v != tc.gram.busy) [(1, 0xBEEF), (1, 0xBEEF)] = true ∧
      Meets (gramCaps ++ slow.events tc tc.cmds.gramDisable ++
        pollEvents tc tc.gram.status [(1, 0xBEEF), (1, 0xBEEF)])) ∧
    (stuckDone.ok tc = true ∧ Meets (gramTabled (.empty 1 1 1 1) ++ stuckDone.events tc tc.cmds.gramEnable)) ∧
    Meets (gramTabled (.inPlace 1 0x0002 1 1) ++ quick.events tc tc.cmds.gramEnable ++
      pollEvents tc tc.gram.status [(1, 0xBEEF), (1, 0xBEEF)]) ∧
    ([1#8, 2#8, 3#8, 4#8, 5#8].length % 2 = 1 ∧
      (chunksOf tc.gram.block [1, 2, 3, 4, 5]).dropLast = [[1, 2, 3, 4]] ∧
      Meets (gramWaited ++ blockEvents tc 0x00123440#32 ([[1, 2, 3, 4]].zip [(1, 1), (1, 1)]) ++
        [write32 tc tc.gram.extAddr 1 ((0x00123440#32 + BitVec.ofNat 32 4) &&& 0xFFFFFF00#32)])) :=
  ⟨⟨canFail (by decide +kernel) (by decide +kernel), canFail (by decide +kernel) (by decide +kernel),
    canFail (by decide +kernel) (by decide +kernel), by decide +kernel⟩, meets (by decide +kernel),
    ⟨by decide +kernel, meets (by decide +kernel)⟩, ⟨by decide +kernel, meets (by decide +kernel)⟩,
    meets (by decide +kernel), by decide +kernel, by decide +kernel, meets (by decide +kernel)⟩

-- R211: the odd block is INVALID_ARG from ExtWrite, after the window's base.
theorem test_grammar_load_odd :
    nextOf (fun t => (t.rsp, t.seq.gl, t.history.length)) (exec (.grammarLoad [1, 2, 3, 4, 5])
      (on (answersOf (gramWaited ++ blockEvents tc 0x00123440#32 [([1, 2, 3, 4], 1, 1)] ++
        [write32 tc tc.gram.extAddr 1 0x00123400#32])))) =
      some (some (plain .invalidArg), .idle, 16) := by decide +kernel

/-- A controller without the grammar unit. -/
def without : State := { on [] with cfg := { tc with hasGrammar := false } }

theorem witness_ReservedOperationsAnswered :
    (∃ op, Instr.reqReserved 0xA#4 = .reqReserved op) ∧ without.cfg.hasGrammar = false := ⟨⟨_, rfl⟩, rfl⟩

theorem witness_CommandWordsComplete :
    slow.ok tc = true ∧ Meets (slow.events tc tc.cmds.loadComplete ++ [read16 tc tc.map.result 1 tc.resp.success]) ∧
      Meets (slow.events tc tc.cmds.flashInit ++ [read16 tc tc.map.result 1 tc.resp.finitOk]) ∧
      Meets (quick.events tc tc.cmds.save ++ [read16 tc tc.map.result 1 tc.resp.success]) ∧
      Meets (quick.events tc tc.cmds.erase ++ [read16 tc tc.map.result 1 tc.resp.success]) :=
  ⟨by decide +kernel, meets (by decide +kernel), meets (by decide +kernel), meets (by decide +kernel), meets (by decide +kernel)⟩

theorem witness_GrammarWordsComplete :
    without.cfg.hasGrammar = false ∧ tc.hasGrammar = true ∧ quick.ok tc = true ∧ pollPasses (fun v => v != tc.gram.busy) [(1, 0xBEEF), (1, 0)] = true ∧
      Meets (quick.events tc tc.cmds.gramDisable ++ pollEvents tc tc.gram.status [(1, 0xBEEF), (1, 0)]) ∧
      Meets (quick.events tc tc.cmds.gramEnable ++ pollEvents tc tc.gram.status [(1, 0xBEEF), (1, 0)]) :=
  ⟨rfl, by decide +kernel, by decide +kernel, by decide +kernel, meets (by decide +kernel), meets (by decide +kernel)⟩

theorem witness_WireReadsComplete :
    (126#7).toNat + (1#7).toNat + 1 ≤ 128 ∧ (attached (dev 0xFD [] none [] 4)).dev.rx = [] ∧
      (attached (dev 0xFD [] none [] 4)).dev.want = ((1#7).toNat + 1) * 2 ∧
      (attached (dev 0xFD [] none [] 4)).dev.sel ≤ 0xFD#8 := by decide +kernel

theorem witness_DirectWriteCompletes :
    (attached (dev 0 [(2, 7)] none [1, 2, 3, 4] 0)).dev.mem.wf ∧ (126#7).toNat + (1#7).toNat + 1 ≤ 128 ∧
      ((1#7).toNat + 1) * 2 ≤ (attached (dev 0 [(2, 7)] none [1, 2, 3, 4] 0)).dev.rx.length := by decide +kernel

theorem witness_PagedWriteCompletes :
    (attached (dev 0xFD [(2, 7)] none [1, 2, 3, 4] 0)).dev.mem.wf ∧
      (attached (dev 0xFD [(2, 7)] none [1, 2, 3, 4] 0)).dev.sel ≤ 0xFD#8 ∧ (126#7).toNat + (1#7).toNat + 1 ≤ 128 ∧
      ((1#7).toNat + 1) * 2 ≤ (attached (dev 0xFD [(2, 7)] none [1, 2, 3, 4] 0)).dev.rx.length := by decide +kernel

theorem witness_ContPagedWriteCompletes :
    (dev 0xFD [] (some (0xFE, 127)) [1, 2] 0).mem.wf ∧ (dev 0xFD [] (some (0xFE, 127)) [1, 2] 0).cont = some (0xFE, 127) ∧
      (dev 0xFD [] (some (0xFE, 127)) [1, 2] 0).sel ≤ 0xFD#8 ∧ 0xFE = (0xFD#8).toNat + 1 ∧
      127 + (0#7).toNat + 1 ≤ 128 ∧ ((0#7).toNat + 1) * 2 ≤ (dev 0xFD [] (some (0xFE, 127)) [1, 2] 0).rx.length := by
  decide +kernel

theorem witness_ResponderRefusals :
    128 < (127#7).toNat + (1#7).toNat + 1 ∧ (dev 0xFF [] (some (1, 3)) [] 0).sel = 0xFF#8 ∧
      (dev 0xFF [] (some (1, 3)) [] 0).cont ≠ none ∧ (dev 0xFD [] none [1] 0).sel ≤ 0xFD#8 ∧
      ((127#7).toNat + (0#7).toNat + 1 ≤ 128 ∧ (dev 0xFD [] none [1] 0).rx.length < ((0#7).toNat + 1) * 2) ∧
      (dev 0xFD [] none [1] 0).rx ≠ [] ∧ (dev 0xFD [] none [] 4).rx = [] ∧
      (dev 0xFD [] none [] 4).want ≠ ((0#7).toNat + 1) * 2 ∧ (dev 0 [] none [] 4).cont = none ∧
      (dev 4 [] (some (1, 3)) [] 0).cont = some (1, 3) ∧ 1 ≠ (4#8).toNat + 1 ∧
      ((dev 0 [] (some (1, 128)) [1] 0).cont = some (1, 128) ∧ 1 = (0#8).toNat + 1 ∧ 128 < 128 + (0#7).toNat + 1) ∧
      127 + (0#7).toNat + 1 ≤ 128 ∧ (dev 0 [] (some (1, 127)) [1] 0).rx.length < ((0#7).toNat + 1) * 2 := by
  decide +kernel

-- R111: a transfer that asks for bytes and ends in a NO_OP, one that is empty, one of half a command word.
theorem witness_ResponderRefusals_end :
    refusal (step (attached (dev 0 [] none [0xFF, 0xFF] 2))) = some .nothingToReceive ∧
      refusal (step { attached Dev.reset with inbox := [.wire [] 2] }) = some .nothingToReceive ∧
      refusal (step (attached (dev 0 [] none [0xFF] 0))) = some (.undecodable .truncatedCommand) := by decide +kernel

/-- The responder attached, and a write to it presented. -/
def writing : State := { attached Dev.reset with inbox := [.request { full 0x1 with data := [1, 2] }] }

theorem witness_InvariantKept :
    writing.Inv ∧ nextOf (·.dev.mem) (step writing) = some [(0x102, 2), (0x103, 1)] :=
  ⟨witness_WriteThenRead.1, by decide +kernel⟩

theorem witness_RecordOnlyGrows : nextOf (·.history.length) (step loading) = some 1 := by decide +kernel

theorem witness_ItStateLeftAlone :
    (on handshake).noReset ∧ nextOf (·.seq.it) (exec (.runCmd 0x0004#16) (on handshake)) = some .idle :=
  ⟨rfl, by decide +kernel⟩

theorem witness_OnlyOwnRegistersStored :
    tc.wf ∧
      (∀ a ∈ [tc.map.swFlags, tc.map.cmd, tc.map.result, tc.map.rstBoot], reachable tc.wire a .write 0#7 = true) ∧
      reachable tc.wire tc.map.chksum .write (BitVec.ofNat 7 (tc.map.chksumBytes / 2 - 1)) = true ∧
      countOf [1#8, 2#8].length = some 0#7 ∧ reachable tc.wire 0x0102#16 .write 0#7 = true ∧
      (∀ p ∈ storedBytes tc (.regWrite 0x0102#16 [1, 2]), 0x101 < p.1 ∨ p.1 + p.2 ≤ 0x101) ∧
      (∀ p ∈ storedBytes tc (.regWrite 0x0102#16 [1, 2]), 0x104 < p.1 ∨ p.1 + p.2 ≤ 0x104) ∧
      nextOf (·.dev.mem) (exec (.regWrite 0x0102#16 [1, 2]) (attached (dev 0 [(0x104, 9)] none [] 0))) =
        some [(0x102, 2), (0x103, 1), (0x104, 9)] := by
  refine ⟨?_, by simpa using (by decide +kernel :
    [tc.map.swFlags, tc.map.cmd, tc.map.result, tc.map.rstBoot].all (reachable tc.wire · .write 0#7) = true), ?_, ?_, ?_, ?_, ?_, ?_⟩ <;>
    decide +kernel

theorem witness_StatusesProduced :
    (Instr.runCmd 0x0004#16).space = .request ∧
      nextOf (·.rsp) (exec (.runCmd 0x0004#16) (on handshake)) = some (some (plain .success)) := by decide +kernel

theorem witness_EveryRequestAnswered :
    (Instr.loadImage cfgImage).space = .request ∧ (on []).noReset ∧ (on []).env.device = .unconstrained ∧
      .never ∉ (on []).env.script ∧ zeroBlockImage tc cfgImage = false :=
  ⟨rfl, rfl, rfl, by decide +kernel, by decide +kernel⟩

theorem witness_NoRawCodeWithoutMapping :
    nextOf (·.rsp) (exec (.runCmd 0x0004#16) (on handshake)) = some (some (plain .success)) := by decide +kernel

theorem witness_RaiseEnds :
    (Instr.flashSave true).space = .request ∧ (on [.done 0 [0, 0]]).noReset ∧
      nextOf (fun t => (t.history, t.rsp)) (exec (.flashSave true) (on [.done 0 [0, 0]])) =
        some ([] ++ Event.xfer (header tc.wire tc.map.curFw .read 0) 2 0 [0, 0] :: [], some (plain .internalErr)) :=
  ⟨rfl, rfl, by decide +kernel⟩

/-- A block that waits in a bus primitive. -/
def waiting : State :=
  { on [] with
    seq := { Seq.reset with busy := true }
    env := { Env.reset with inFlight := some (.delay 7) }
    inbox := [.request (full 0x4)] }

-- RUN_CMD with a first read that says busy: the delay after it never returns, and the read after that.
theorem witness_HangIsStuck :
    (nextOf (·.history) (exec (.runCmd 0x0004#16) (on (answersOf (slow.events tc 0x0004#16)))) =
        some ((slow.events tc 0x0004#16).take 1 ++ Event.delay 7 :: (slow.events tc 0x0004#16).drop 2) ∧
      ((replay tc ((slow.events tc 0x0004#16).take 1) (on [ok [0, 1], .never]).env Dev.reset).map fun p =>
        decide (p.1.resetIn ≠ some 0 ∧ p.1.script.head? = some .never)) = some true) ∧
      waiting.seq.busy = true ∧ waiting.env.inFlight ≠ none ∧ waiting.env.resetIn ≠ some 0 ∧ waiting.dev.rx = [] ∧
      ∀ w k rest, waiting.inbox ≠ .wire w k :: rest :=
  ⟨⟨by decide +kernel, by decide +kernel⟩, rfl, by decide +kernel, by decide +kernel, rfl, fun _ _ _ h => by cases h⟩

/-- A block of 14 bytes that opens a window at 0x00123400 and writes two words from word `off` of it on (R234). -/
def windowBlock (off : Byte) : List Byte :=
  [0x86, 0x81, 0x00, 0x12, 0x34, 0x00, 0xFE, 0xFF, off, 0x81, 0xAA, 0xBB, 0xCC, 0xDD]

/-- A block of 14 bytes that goes on with five words and pads (R233, R236). -/
def contBlock : List Byte := [0xFB, 0x04, 1, 2, 3, 4, 5, 6, 7, 8, 9, 10, 0xFF, 0xFF]

/-- R236: a continuation stays within the window's 128 words; words 123 to 127 do, words 124 to 128 do not. -/
theorem test_cont_within_window :
    isBody tc.wire 14 (windowBlock 0x79 ++ contBlock) = true ∧
      isBody tc.wire 14 (windowBlock 0x7A ++ contBlock) = false ∧ isBody tc.wire 14 contBlock = false := by
  decide +kernel

/-- R237: a block of a firmware's data opens with a window header or a continuation; a write elsewhere does not do. -/
theorem test_data_block_opens_window :
    (blockFrames tc.wire (windowBlock 0x00)).map (isDataBlock tc) = some true ∧
      (blockFrames tc.wire contBlock).map (isDataBlock tc) = some true ∧
      (blockFrames tc.wire [0xFE, 0x00, 0x01, 0x80, 0x12, 0x34]).map (isDataBlock tc) = some false ∧
      (blockFrames tc.wire (windowBlock 0x00 ++ [0x80, 0x80, 0x12, 0x34])).map (isDataBlock tc) = some false := by
  decide +kernel

/-- R238: the last block may end its run with the write of the execution address, whatever register and width that is. -/
theorem test_end_block (address : List Byte) (h : address.length = (Config.execWordsPred.toNat + 1) * 2) :
    isEndBlock tc [.cont [0, 1], .write Config.execReg address, .pad] = true ∧
      isEndBlock tc [.write Config.execReg address] = true ∧ isEndBlock tc [.cont [0, 1], .pad] = false := by
  simp [isEndBlock, afterRun, accesses, isExecWrite, sameRegister, h]

/-- R240, with the two blocks of spec/95_test_vectors.md S7: the select-page form, padded; no block for a register of page
0, nor for three values in 8 bytes. -/
theorem test_config_block :
    configBlock tc 8 0x0202#16 [0x1111#16] = some [0xFE, 0x01, 0x01, 0x80, 0x11, 0x11, 0xFF, 0xFF] ∧
      configBlock tc 8 0x0210#16 [0x2222#16] = some [0xFE, 0x01, 0x08, 0x80, 0x22, 0x22, 0xFF, 0xFF] ∧
      configBlock tc 8 0x0002#16 [0x1111#16] = none ∧ configBlock tc 8 0x0202#16 [1#16, 2#16, 3#16] = none := by
  decide +kernel

/-- R240: a block that begins with a direct header is no configuration block. -/
theorem test_config_body :
    isConfigurationBody tc.wire 8 [0xFE, 1, 1, 0x80, 0x11, 0x11, 0xFF, 0xFF, 0xFE, 1, 8, 0x80, 0x22, 0x22, 0xFF, 0xFF] =
        true ∧
      isConfigurationBody tc.wire 8 [0x81, 0x80, 0x11, 0x11, 0xFF, 0xFF, 0xFF, 0xFF] = false ∧
      isBody tc.wire 8 [0x81, 0x80, 0x11, 0x11, 0xFF, 0xFF, 0xFF, 0xFF] = true := by
  decide +kernel

end Sys2Proof.Tests
end

section
/-! SUPPORT. How the answers of the environment depend on the reset that is to come: not at all, but for the count down
(spec/00_scope.md R7, spec/70_reset_and_hazards.md R281). -/

namespace Sys2Proof.Machine

/-- The bus side with another count down to reset. -/
def Env.withResetIn (e : Env) (r : Option Nat) : Env := { e with resetIn := r }

@[simp] theorem Env.withResetIn_resetIn (e : Env) (r : Option Nat) : (e.withResetIn r).resetIn = r := rfl
@[simp] theorem Env.withResetIn_withResetIn (e : Env) (r r' : Option Nat) :
    (e.withResetIn r).withResetIn r' = e.withResetIn r' := rfl
@[simp] theorem Env.withResetIn_script (e : Env) (r : Option Nat) : (e.withResetIn r).script = e.script := rfl
@[simp] theorem Env.withResetIn_answered (e : Env) (r : Option Nat) : (e.withResetIn r).answered = e.answered := rfl
@[simp] theorem Env.withResetIn_self (e : Env) : e.withResetIn e.resetIn = e := rfl

@[simp] theorem Env.withResetIn_tick (e : Env) (r : Option Nat) : e.tick.withResetIn r = e.withResetIn r := rfl

/-- A step goes by: one less remains. -/
@[simp] theorem Env.tick_withResetIn_succ (e : Env) (k : Nat) :
    (e.withResetIn (some (k + 1))).tick = e.withResetIn (some k) := rfl

@[simp] theorem State.resetBlock_withResetIn (s : State) (r : Option Nat) :
    (s.withResetIn r).resetBlock = s.resetBlock := rfl

/-- A reply leaves the count down as it is. -/
theorem busReply_resetIn {c : Config} {e e' : Env} {d d' : Dev} {w b : List Byte} {k n : Nat}
    (h : busReply c e d w k = some (n, b, e', d')) : e'.resetIn = e.resetIn := by
  unfold busReply at h
  split at h
  · cases h
  · cases h; rfl
  · split at h
    · cases h; rfl
    · split at h
      · cases h; rfl
      · cases h

/-- A reply does not depend on the count down. -/
theorem busReply_withResetIn (c : Config) (e : Env) (d : Dev) (w : List Byte) (k : Nat) (r : Option Nat) :
    busReply c (e.withResetIn r) d w k =
      (busReply c e d w k).map fun p => (p.1, p.2.1, p.2.2.1.withResetIn r, p.2.2.2) := by
  obtain ⟨script, device, answered, resetIn, inFlight⟩ := e
  cases script with
  | cons a rest => cases a <;> rfl
  | nil =>
    cases device with
    | unconstrained => rfl
    | responder =>
      simp only [busReply, Env.withResetIn]
      cases Dev.respond c w k d <;> rfl

theorem neverReturns_withResetIn (c : Config) (e : Env) (d : Dev) (p : Prim) (r : Option Nat) :
    neverReturns c (e.withResetIn r) d p ↔ neverReturns c e d p := by
  cases p with
  | xfer w k => simp [neverReturns, busReply_withResetIn]
  | delay ms => exact Iff.rfl

/-- One bus primitive is answered only before reset, counts one down to it, and is answered alike whenever reset comes
after it. -/
theorem replay_single_resetIn {c : Config} {ev : Event} {e e1 : Env} {d d1 : Dev}
    (h : replay c [ev] e d = some (e1, d1)) :
    e.resetIn ≠ some 0 ∧ e1.resetIn = e.resetIn.map (· - 1) ∧
      ∀ k, replay c [ev] (e.withResetIn (some (k + 1))) d = some (e1.withResetIn (some k), d1) := by
  cases ev with
  | delay ms =>
    simp only [replay] at h
    split at h
    · cases h
    · next h0 =>
      cases h
      rw [not_or] at h0
      exact ⟨h0.1, rfl, fun k => by simp [replay, h0.2]⟩
  | xfer w k n r =>
    simp only [replay] at h
    split at h
    · cases h
    · next h0 =>
      cases hb : busReply c e d w k with
      | none => simp [hb] at h
      | some p =>
        obtain ⟨n', r', e', d'⟩ := p
        simp only [hb] at h
        split at h
        · next heq =>
          cases h
          refine ⟨h0, by simp [busReply_resetIn hb], fun k => ?_⟩
          simp only [replay, busReply_withResetIn, hb, heq]
          simp [Env.withResetIn]
        · cases h

/-- A stretch of bus primitives is answered only before reset, and counts its length down to it. -/
theorem replay_resetIn {c : Config} {evs : List Event} {e e1 : Env} {d d1 : Dev}
    (h : replay c evs e d = some (e1, d1)) :
    e1.resetIn = e.resetIn.map (· - evs.length) ∧ ∀ k, e.resetIn = some k → evs.length ≤ k := by
  induction evs generalizing e d with
  | nil =>
    cases h
    simp
  | cons ev rest ih =>
    obtain ⟨e2, d2, hev, hrest⟩ := replay_cons_some.mp h
    obtain ⟨h0, h2, -⟩ := replay_single_resetIn hev
    obtain ⟨h1, hle⟩ := ih hrest
    cases hr : e.resetIn with
    | none => simp [h1, h2, hr]
    | some k =>
      have hk : k ≠ 0 := fun hz => h0 (by rw [hr, hz])
      have hlen : rest.length ≤ k - 1 := hle (k - 1) (by simp [h2, hr])
      simp only [h1, h2, hr, Option.map_some, List.length_cons, Option.some.injEq]
      refine ⟨by omega, fun k' hk' => by omega⟩

/-- A stretch of bus primitives is answered alike whenever reset comes after it. -/
theorem replay_withResetIn {c : Config} {evs : List Event} {e e1 : Env} {d d1 : Dev}
    (h : replay c evs e d = some (e1, d1)) (k : Nat) :
    replay c evs (e.withResetIn (some (evs.length + k))) d = some (e1.withResetIn (some k), d1) := by
  induction evs generalizing e d with
  | nil =>
    cases h
    simp [replay]
  | cons ev rest ih =>
    obtain ⟨e2, d2, hev, hrest⟩ := replay_cons_some.mp h
    obtain ⟨-, -, hany⟩ := replay_single_resetIn hev
    have hlen : (ev :: rest).length + k = rest.length + k + 1 := by simp only [List.length_cons]; omega
    rw [hlen]
    exact replay_cons_some.mpr ⟨_, _, hany _, ih hrest⟩

end Sys2Proof.Machine
end

section
/-! SUPPORT. The course of a job: the bus primitives it makes in its environment, and how it ends after them
(spec/00_scope.md R7, spec/60_exceptions.md R256 to R258, spec/70_reset_and_hazards.md R281). -/

namespace Sys2Proof.Machine

/-! The results of a sequence. -/

theorem stateOf_withBus {α : Type} (e : Env) (d : Dev) (r : EStateM.Result Abort State α) :
    stateOf (withBus e d r) = (stateOf r).withBus e d := by cases r <;> rfl

theorem withResetIn_withBus {α : Type} (e : Env) (d : Dev) (i : Option Nat) (r : EStateM.Result Abort State α) :
    withResetIn i (withBus e d r) = withBus (e.withResetIn i) d r := by cases r <;> rfl

theorem Final.withBus {α : Type} {r : EStateM.Result Abort State α} (h : Final r) (e : Env) (d : Dev) :
    Final (withBus e d r) := by
  rcases r with _ | ⟨_ | _ | _, _⟩ <;> exact h

theorem Final.ne_cut {α : Type} {r : EStateM.Result Abort State α} (h : Final r) (u : State) : r ≠ .error .cut u := by
  rintro rfl
  exact h

theorem Final.ne_hung {α : Type} {r : EStateM.Result Abort State α} (h : Final r) (u : State) :
    r ≠ .error .hung u := by
  rintro rfl
  exact h

/-- The bus side and the device are no part of what `Along` compares. -/
theorem Along.withBus {s u : State} {evs : List Event} (h : Along s u evs) (e : Env) (d : Dev) :
    Along s (u.withBus e d) evs := ⟨h.cfg, h.inbox, h.rsp, h.busy, h.history⟩

/-! How the end of a job is settled. -/

/-- How the block settles the end of a sequence: a primitive that never returns leaves it waiting, a reset resets it,
else the terminal transition `g` is due, which makes no bus primitive (R256 to R258, R281, R309). -/
structure Settles (f : EStateM.Result Abort State Payload → State) : Prop where
  hung : ∀ u, f (.error .hung u) = u
  cut : ∀ u, f (.error .cut u) = u.resetBlock
  final : ∀ r, Final r →
    ∃ g : State → State, (∀ v, (g v).history = v.history ∧ (g v).env = v.env) ∧ f r = (stateOf r).terminal g

theorem settles_settle (drivesIt : Bool) : Settles (settle drivesIt) where
  hung _ := rfl
  cut _ := rfl
  final r hr := by
    rcases r with ⟨p, u⟩ | ⟨st | _ | _, u⟩
    · exact ⟨(·.respond .success p), by simp, rfl⟩
    · exact ⟨fun t => (t.abort drivesIt).respond st Payload.none, by simp, rfl⟩
    · exact hr.elim
    · exact hr.elim

theorem settles_settleWord : Settles settleWord where
  hung _ := rfl
  cut _ := rfl
  final r hr := by
    rcases r with ⟨_, u⟩ | ⟨st | _ | _, u⟩
    · exact ⟨(·.settleStatus .success), by simp, rfl⟩
    · exact ⟨fun t => (t.abort false).settleStatus st, by simp, rfl⟩
    · exact hr.elim
    · exact hr.elim

/-- A job is that of a request, or that of a host command word on its own. -/
theorem jobOf_request_or_word {i : Instr} {s : State} {j : Job} (h : jobOf i s = some j) :
    (i.space = .request ∧ ∃ op b m, j = requestJob op b m s) ∨ (i.space = .hostCommand ∧ ∃ m, j = wordJob m s) := by
  cases i with
  | selectPage _ | noOp | contPagedWrite _ | directRead _ _ | directWrite _ _ | pagedRead _ _ | pagedWrite _ _
    | reserved _ _ => cases h
  | hdrEncode _ _ _ | regWrite _ _ | regRead _ _ | rawWrite _ | runCmd _ | bootSwitch | flashSave _ | flashErase
    | grammarLoad _ | reqReserved _ => cases h; exact .inl ⟨rfl, _, _, _, rfl⟩
  | loadImage image =>
    simp only [jobOf] at h
    split at h
    · cases h
    · cases h; exact .inl ⟨rfl, _, _, _, rfl⟩
  | cmdLoadComplete | cmdFlashInit | cmdSave | cmdErase => cases h; exact .inr ⟨rfl, _, rfl⟩
  | cmdGramDisable | cmdGramEnable =>
    simp only [jobOf] at h
    split at h
    · cases h; exact .inr ⟨rfl, _, rfl⟩
    · cases h

theorem settles_of_jobOf {i : Instr} {s : State} {j : Job} (h : jobOf i s = some j) : Settles j.finish := by
  rcases jobOf_request_or_word h with ⟨-, op, b, m, rfl⟩ | ⟨-, m, rfl⟩
  · exact settles_settle b
  · exact settles_settleWord

/-- The state a job of `i` starts in: busy, no response pending for a request (R29; log entries 16 and 23). -/
structure Accepted (i : Instr) (s u : State) : Prop where
  busy : u.seq.busy = true
  rsp : u.rsp = if i.space = .request then none else s.rsp
  history : u.history = s.history
  env : u.env = s.env

theorem accepted_of_jobOf {i : Instr} {s : State} {j : Job} (h : jobOf i s = some j) : Accepted i s j.start := by
  rcases jobOf_request_or_word h with ⟨hi, op, b, m, rfl⟩ | ⟨hi, m, rfl⟩ <;>
    exact ⟨rfl, by rw [hi]; rfl, rfl, rfl⟩

/-! The course of a job. -/

/-- In its environment the job makes the bus primitives `evs`, after which the bus side is `e` and the device `d`: then
it ends, or the next primitive is cut by reset or never returns. -/
structure Job.Course (j : Job) (evs : List Event) (e : Env) (d : Dev) : Prop where
  bus : j.start.busAnswers evs e d
  asks : AsksAlong j.seq j.start evs
  ending : (∃ r, DoneAs j.seq j.start evs r) ∨
    ∃ p, Asks j.seq j.start evs p ∧ (e.resetIn = some 0 ∨ neverReturns j.start.cfg e d p)

theorem course_of_jobOf {i : Instr} {s : State} {j : Job} (h : jobOf i s = some j) : ∃ evs e d, j.Course evs e d := by
  obtain ⟨evs, e, d, hbus, hasks, hend⟩ := Scripted.job h j.start j.start.env j.start.dev
  exact ⟨evs, e, d, hbus, hasks, hend⟩

theorem Asks.cut {α : Type} {m : M α} {s : State} {pre : List Event} {p : Prim} (h : Asks m s pre p) {e e1 : Env}
    {d d1 : Dev} (hr : replay s.cfg pre e d = some (e1, d1)) (h0 : e1.resetIn = some 0) :
    ∃ u, Along s u pre ∧ u.env = e1 ∧ m.run (s.withBus e d) = .error .cut u := by
  obtain ⟨u, hu, hask⟩ := h
  exact ⟨_, hu.withBus e1 d1, rfl, (hask e d e1 d1 hr).1 h0⟩

section

variable {j : Job} {evs : List Event} {e : Env} {d : Dev}

/-- Where reset comes after `k` steps, the run up to `k` bus primitives is the run itself. -/
theorem Job.upTo_of_resetIn {k : Nat} (h : j.start.env.resetIn = some k) : j.upTo k = j.seq.run j.start := by
  rw [Job.upTo, ← h]
  rfl

/-- Where a primitive is asked for after `pre`, the job run up to there is cut. -/
theorem Job.upTo_of_asks {pre : List Event} {p : Prim} (ha : Asks j.seq j.start pre p)
    (hb : j.start.busAnswers pre e d) : ∃ u, Along j.start u pre ∧ j.upTo pre.length = .error .cut u := by
  obtain ⟨u, hu, -, hcut⟩ := ha.cut (replay_withResetIn hb 0) rfl
  exact ⟨u, hu, hcut⟩

/-- Where the job is done after `evs`, it is done in the run up to there too. -/
theorem Job.upTo_of_done {r : EStateM.Result Abort State Payload} (hd : DoneAs j.seq j.start evs r)
    (hb : j.start.busAnswers evs e d) : j.upTo evs.length = withBus (e.withResetIn (some 0)) d r :=
  hd.2.2 _ _ _ _ (replay_withResetIn hb 0)

namespace Job.Course

variable (c : j.Course evs e d)

include c

theorem resetIn : e.resetIn = j.resetAfter evs.length := (replay_resetIn c.bus).1

/-- No more bus primitives than the steps that remain to reset (R281). -/
theorem length_le {k : Nat} (h : j.start.env.resetIn = some k) : evs.length ≤ k := (replay_resetIn c.bus).2 k h

/-- Reset comes next exactly where the primitives are as many as the steps that remained. -/
theorem resetIn_zero_iff : e.resetIn = some 0 ↔ j.start.env.resetIn = some evs.length := by
  rw [c.resetIn, Job.resetAfter]
  cases hk : j.start.env.resetIn with
  | none => simp
  | some k =>
    have := c.length_le hk
    simp only [Option.map_some, Option.some.injEq]
    omega

/-- Before each of the primitives the job asks for one. -/
theorem asks_at {k : Nat} (hk : k < evs.length) :
    ∃ e1 d1 p, j.start.busAnswers (evs.take k) e1 d1 ∧ Asks j.seq j.start (evs.take k) p := by
  have hsplit : evs = evs.take k ++ evs[k] :: evs.drop (k + 1) := by simp
  obtain ⟨e1, d1, hb⟩ := State.busAnswers_append (hsplit ▸ c.bus)
  exact ⟨e1, d1, _, hb, c.asks _ _ _ hsplit⟩

/-- After some of the primitives the job asks for one more, or is done. -/
theorem asks_or_done {k : Nat} (hk : k ≤ evs.length) : ∃ e1 d1, j.start.busAnswers (evs.take k) e1 d1 ∧
    ((∃ p, Asks j.seq j.start (evs.take k) p) ∨ ∃ r, DoneAs j.seq j.start (evs.take k) r) := by
  rcases Nat.lt_or_eq_of_le hk with hlt | rfl
  · obtain ⟨e1, d1, p, hb, ha⟩ := c.asks_at hlt
    exact ⟨e1, d1, hb, .inl ⟨p, ha⟩⟩
  · rw [List.take_length]
    refine ⟨e, d, c.bus, ?_⟩
    rcases c.ending with hd | ⟨p, ha, -⟩
    · exact .inr hd
    · exact .inl ⟨p, ha⟩

/-- The run up to `k` primitives made the first `k`, and does not hang. -/
theorem upTo {k : Nat} (hk : k ≤ evs.length) :
    Along j.start (stateOf (j.upTo k)) (evs.take k) ∧ ∀ u, j.upTo k ≠ .error .hung u := by
  have hlen : (evs.take k).length = k := by simpa using hk
  obtain ⟨e1, d1, hb, ⟨p, ha⟩ | ⟨r, hd⟩⟩ := c.asks_or_done hk
  · obtain ⟨u, hu, hcut⟩ := Job.upTo_of_asks ha hb
    rw [← hlen, hcut, hlen]
    exact ⟨hu, fun _ h => by cases h⟩
  · have hdone := Job.upTo_of_done hd hb
    rw [hlen] at hdone
    obtain ⟨hfin, hal, -⟩ := hd
    rw [hdone, stateOf_withBus]
    exact ⟨hal.withBus _ _, (hfin.withBus _ _).ne_hung⟩

/-- The record in between is that of the primitives made (R7, R24). -/
theorem along_stateAt {k : Nat} (hk : k ≤ evs.length) : Along j.start (j.stateAt k) (evs.take k) :=
  (c.upTo hk).1.withBus _ _

/-- Each of the primitives is a step (R7). -/
theorem step_more {k : Nat} (hk : k < evs.length) : j.step k = .more := by
  have hreset : j.start.env.resetIn ≠ some k := fun h => Nat.not_le.mpr hk (c.length_le h)
  have hlen : (evs.take k).length = k := by simpa using hk.le
  obtain ⟨e1, d1, p, hb, ha⟩ := c.asks_at hk
  obtain ⟨u, -, hcut⟩ := Job.upTo_of_asks ha hb
  rw [hlen] at hcut
  simp only [Job.step, if_neg hreset, hcut]
  split
  · next v hv => exact absurd hv ((c.upTo hk).2 v)
  · rfl

/-- How the job ends: cut by reset, in a primitive that never returns, or with the terminal transition due. -/
theorem run_cases :
    (e.resetIn = some 0 ∧ ∃ u, Along j.start u evs ∧ u.env = e ∧ j.seq.run j.start = .error .cut u) ∨
    (e.resetIn ≠ some 0 ∧ ∃ u p, Along j.start u evs ∧ j.seq.run j.start = .error .hung ((u.withBus e d).hang p) ∧
      (∃ v, j.upTo evs.length = .error .cut v) ∧
      j.upTo (evs.length + 1) = .error .hung ((u.withBus (e.withResetIn (some 1)) d).hang p)) ∨
    ∃ r, Final r ∧ Along j.start (stateOf r) evs ∧ j.seq.run j.start = withBus e d r ∧
      j.upTo evs.length = withBus (e.withResetIn (some 0)) d r := by
  rcases c.ending with ⟨r, hd⟩ | ⟨p, ha, hstop⟩
  · exact .inr (.inr ⟨r, hd.1, hd.2.1, hd.2.2 _ _ _ _ c.bus, Job.upTo_of_done hd c.bus⟩)
  · by_cases h0 : e.resetIn = some 0
    · exact .inl ⟨h0, ha.cut c.bus h0⟩
    · have hnever := hstop.resolve_left h0
      obtain ⟨v, -, hcut⟩ := Job.upTo_of_asks ha c.bus
      obtain ⟨u, hu, hask⟩ := ha
      refine .inr (.inl ⟨h0, u, p, hu, (hask _ _ _ _ c.bus).2.1 h0 hnever, ⟨v, hcut⟩, ?_⟩)
      refine (hask _ _ _ _ (replay_withResetIn c.bus 1)).2.1 (by simp) ?_
      exact (neverReturns_withResetIn _ _ _ _ _).mpr hnever

/-- The state a job ends in: reset, waiting in a primitive, or after the terminal transition, a step more (R7, R281,
R309). -/
theorem finish_cases (hf : Settles j.finish) : ∃ u, Along j.start u evs ∧ u.env = e ∧
    ((e.resetIn = some 0 ∧ j.finish (j.seq.run j.start) = u.resetBlock) ∨
    (e.resetIn ≠ some 0 ∧ ∃ p, j.finish (j.seq.run j.start) = u.hang p) ∨
    (e.resetIn ≠ some 0 ∧ (j.finish (j.seq.run j.start)).history = u.history ∧
      (j.finish (j.seq.run j.start)).env = u.env.tick)) := by
  rcases c.run_cases with ⟨h0, u, hu, he, hrun⟩ | ⟨h0, u, p, hu, hrun, -⟩ | ⟨r, hfin, hal, hrun, -⟩
  · exact ⟨u, hu, he, .inl ⟨h0, by rw [hrun, hf.cut]⟩⟩
  · exact ⟨_, hu.withBus e d, rfl, .inr (.inl ⟨h0, p, by rw [hrun, hf.hung]⟩)⟩
  · obtain ⟨g, hg, hend⟩ := hf.final _ (hfin.withBus e d)
    rw [stateOf_withBus] at hend
    refine ⟨_, hal.withBus e d, rfl, ?_⟩
    rw [hrun, hend]
    by_cases h0 : e.resetIn = some 0
    · exact .inl ⟨h0, State.terminal_reset _ h0⟩
    · rw [State.terminal_taken _ h0]
      exact .inr (.inr ⟨h0, (hg _).1, (hg _).2⟩)

theorem finish_history (hf : Settles j.finish) :
    (j.finish (j.seq.run j.start)).history = j.start.history ++ evs := by
  obtain ⟨u, hu, -, ⟨-, h⟩ | ⟨-, p, h⟩ | ⟨-, h, -⟩⟩ := c.finish_cases hf
  · rw [h, State.resetBlock_history, hu.history]
  · rw [h, State.hang_history, hu.history]
  · rw [h, hu.history]

/-- Where reset comes after the primitives, the last step is the reset (R281). -/
theorem finish_of_reset (hf : Settles j.finish) (h0 : e.resetIn = some 0) :
    j.finish (j.seq.run j.start) = (j.stateAt evs.length).resetBlock := by
  rw [Job.stateAt, State.resetBlock_withResetIn, Job.upTo_of_resetIn (c.resetIn_zero_iff.mp h0)]
  rcases c.run_cases with ⟨-, u, -, -, hrun⟩ | ⟨h, -⟩ | ⟨r, hfin, -, hrun, -⟩
  · rw [hrun, hf.cut]
    rfl
  · exact absurd h0 h
  · obtain ⟨g, -, hend⟩ := hf.final _ (hfin.withBus e d)
    rw [hrun, hend, State.terminal_reset]
    rw [stateOf_withBus]
    exact h0

/-- The step after the primitives is the last, and ends where the whole job does (R7). -/
theorem step_last (hf : Settles j.finish) : j.step evs.length = .ended (j.finish (j.seq.run j.start)) := by
  by_cases h0 : e.resetIn = some 0
  · rw [Job.step, if_pos (c.resetIn_zero_iff.mp h0), c.finish_of_reset hf h0]
  · rw [Job.step, if_neg (mt c.resetIn_zero_iff.mpr h0)]
    rcases c.run_cases with ⟨h, -⟩ | ⟨-, u, p, -, hrun, ⟨v, hcut⟩, hhung⟩ | ⟨r, hfin, -, hrun, hdone⟩
    · exact absurd h h0
    · simp only [hcut, hhung, hrun, hf.hung, ← c.resetIn]
      rfl
    · have hne := (hfin.withBus (e.withResetIn (some 0)) d).ne_cut
      rw [hdone]
      split
      · next v hv => exact absurd hv (hne v)
      · rw [withResetIn_withBus, Env.withResetIn_withResetIn, ← c.resetIn, Env.withResetIn_self, hrun]

end Job.Course

end

/-! The statements. -/

/-- An instruction of the block that is run in one go: its job, and the course of that. -/
theorem course_of_exec {i : Instr} {s t : State} (hi : i.space ≠ .wire) (h : exec i s = .next t) :
    ∃ j evs e d, jobOf i s = some j ∧ j.Course evs e d ∧ t = j.finish (j.seq.run j.start) := by
  obtain ⟨j, hj⟩ := job_of_exec hi h
  obtain ⟨evs, e, d, c⟩ := course_of_jobOf hj
  rw [exec_of_job hj] at h
  injection h with h
  exact ⟨j, evs, e, d, hj, c, h.symm⟩

theorem advance_of_more {i : Instr} {s : State} {j : Job} (hj : jobOf i s = some j) {k : Nat} (h : j.step k = .more) :
    advance i s k = .next (.busy i s (k + 1)) := by
  simp only [advance, hj, h]

theorem advance_of_ended {i : Instr} {s t : State} {j : Job} (hj : jobOf i s = some j) {k : Nat}
    (h : j.step k = .ended t) : advance i s k = .next (.idle t) := by
  simp only [advance, hj, h]

theorem view_busy {i : Instr} {s : State} {j : Job} (hj : jobOf i s = some j) (k : Nat) :
    (TState.busy i s k).view = j.stateAt k := by
  simp only [TState.view, hj]

/-- An idle machine that takes an instruction of the block makes its first step (R29). -/
theorem tStep_of_fetch {i : Instr} {s u : State} (hf : fetch s = .run i u) (hi : i.space ≠ .wire) :
    tStep (.idle s) = advance i u 0 := by
  simp only [tStep, hf]
  cases hs : i.space with
  | wire => exact absurd hs hi
  | request | hostCommand => rfl

/-- Nothing follows an instruction of the block. -/
theorem step_of_fetch {i : Instr} {s u : State} (hf : fetch s = .run i u) (hi : i.space ≠ .wire) :
    step s = exec i u := by
  simp only [step, hf]
  cases hs : i.space with
  | wire => exact absurd hs hi
  | request | hostCommand => simp only [after, hs]

/-- Settles O6, by the three ways a job ends: reset, a primitive that never returns, the terminal transition. -/
theorem resetBetweenPrimitives : Obligations.ResetBetweenPrimitives := by
  intro s t i k hi hk ht
  obtain ⟨j, evs, e, d, hj, c, rfl⟩ := course_of_exec hi ht
  have hf := settles_of_jobOf hj
  have ha := accepted_of_jobOf hj
  rw [← ha.env] at hk
  have hle : evs.length ≤ k := c.length_le hk
  have hreset : e.resetIn = some (k - evs.length) := by rw [c.resetIn, Job.resetAfter, hk]; rfl
  have hlen : (j.finish (j.seq.run j.start)).history.length = s.history.length + evs.length := by
    rw [c.finish_history hf, List.length_append, ha.history]
  refine ⟨by omega, ?_⟩
  obtain ⟨u, hu, rfl, ⟨h0, h⟩ | ⟨h0, p, h⟩ | ⟨h0, -, henv⟩⟩ := c.finish_cases hf
  · have hz : k - evs.length = 0 := Option.some.inj (hreset.symm.trans h0)
    refine ⟨fun _ => ⟨by omega, ?_⟩, fun r hr => ?_⟩
    · rw [h]
      exact ⟨rfl, ⟨rfl, rfl, rfl, rfl, rfl⟩, rfl, rfl, rfl⟩
    · rw [h] at hr
      cases hr
  · rw [h] at hlen ⊢
    have hin : (u.hang p).env.resetIn = some (k - evs.length) := hreset
    have hbusy : (u.hang p).seq.busy = true := hu.busy.trans ha.busy
    exact ⟨fun hn => absurd (hin.symm.trans hn) (by simp), fun r _ hb => absurd (hbusy.symm.trans hb) (by simp)⟩
  · have hin : (j.finish (j.seq.run j.start)).env.resetIn = some (k - evs.length - 1) := by
      rw [henv, Env.tick_resetIn, hreset]
      rfl
    have hpos : k - evs.length ≠ 0 := fun hz => h0 (by rw [hreset, hz])
    refine ⟨fun hn => absurd (hin.symm.trans hn) (by simp), fun r hr _ => ?_⟩
    have : k - evs.length - 1 = r := Option.some.inj (hin.symm.trans hr)
    omega

/-- Settles O7, by the course of the instruction's job: a step for each of its primitives, and the last. -/
theorem primitiveSteps : Obligations.PrimitiveSteps := by
  refine ⟨fun s t i hi ht => ?_, fun s u i hf hi => ⟨tStep_of_fetch hf hi, step_of_fetch hf hi⟩⟩
  obtain ⟨j, evs, e, d, hj, c, rfl⟩ := course_of_exec hi ht
  have hf := settles_of_jobOf hj
  have ha := accepted_of_jobOf hj
  have hhist : (j.finish (j.seq.run j.start)).history = s.history ++ evs := by
    rw [c.finish_history hf, ha.history]
  refine ⟨evs.length, by simp [hhist], fun k hk => advance_of_more hj (c.step_more hk),
    advance_of_ended hj (c.step_last hf), fun k hk => ?_⟩
  have hal := c.along_stateAt hk
  rw [view_busy hj]
  refine ⟨hal.busy.trans ha.busy, ?_, hal.rsp.trans ha.rsp, congrArg (fun e => e.resetIn.map (· - k)) ha.env⟩
  rw [hal.history, ha.history, hhist, List.take_length_add_append]

end Sys2Proof.Machine
end

section
/-! SUPPORT. What one step of the machine can do, said once: an asserted reset, a wait, a command word of a transfer at
the responder, or an instruction of the block (spec/10_state.md R29, spec/40_frame_encoder.md R111,
spec/70_reset_and_hazards.md R281). -/

namespace Sys2Proof.Machine

/-! The responder's state stays one R110 to R119 allow. -/

/-- A write stores inside its page, and leaves the select register and the continuation address alone (R114, R116). -/
theorem storePayload_ok {c : Config} {base off n : Nat} {d d' : Dev} (h : d.storePayload c base off n = .ok d') :
    off + n ≤ 128 ∧ ∃ bs : List Byte, bs.length ≤ 2 * n ∧
      d' = { d with mem := d.mem.writeWords c.devEndian (base + 2 * off) bs, rx := d.rx.drop (2 * n) } := by
  unfold Dev.storePayload at h
  split at h
  · cases h
  · next hoff =>
    split at h
    · cases h
    · cases h
      exact ⟨Nat.le_of_not_lt hoff, _, List.length_take_le _ _, rfl⟩

/-- A write on a page below the extended window keeps the responder's state legal. -/
theorem storePayload_legal {c : Config} {base off n : Nat} {d d' : Dev} (h : d.storePayload c base off n = .ok d')
    (hbase : base + 256 ≤ 0xFF00) (hd : d.legal) : d'.legal := by
  obtain ⟨hoff, bs, hbs, rfl⟩ := storePayload_ok h
  obtain ⟨hwf, hin, hsel, hcont⟩ := hd
  refine ⟨Mem.writeWords_wf hwf _ _ _, fun x hx => ?_, hsel, hcont⟩
  rcases Mem.mem_writeWords _ _ _ _ hx with hx | ⟨-, hx⟩
  · exact hin x hx
  · omega

theorem answerRead_legal {c : Config} {base off n : Nat} {d d' : Dev} (h : d.answerRead c base off n = .ok d')
    (hd : d.legal) : d'.legal := by
  unfold Dev.answerRead at h
  split at h
  · cases h
  · split at h
    · cases h
    · split at h
      · cases h
      · cases h
        exact hd

/-- The selected page lies below the extended window where paged accesses are answered (R112, R115). -/
theorem pageBase_le {d : Dev} (h : ¬ 0xFD#8 < d.sel) : d.sel.toNat + 1 ≤ 0xFE ∧ d.pageBase + 256 ≤ 0xFF00 := by
  have hsel : d.sel.toNat ≤ 0xFD := by simpa [BitVec.lt_def] using h
  unfold Dev.pageBase
  omega

/-- A command word keeps the responder's state legal (R110 to R119). -/
theorem execCmd_legal {c : Config} {d d' : Dev} {cmd : WireCmd} (h : d.execCmd c cmd = .ok d') (hd : d.legal) :
    d'.legal := by
  cases cmd with
  | selectPage sel =>
    simp only [Dev.execCmd, Dev.selectPage] at h
    split at h
    · cases h
    · next hsel =>
      cases h
      exact ⟨hd.1, hd.2.1, hsel, hd.2.2.2⟩
  | noOp => cases h; exact hd
  | reserved b0 b1 => cases h
  | directRead off cnt => exact answerRead_legal h hd
  | directWrite off cnt => exact storePayload_legal h (by omega) hd
  | pagedRead off cnt =>
    simp only [Dev.execCmd, Dev.pagedRead] at h
    split at h
    · cases h
    · exact answerRead_legal h hd
  | pagedWrite off cnt =>
    simp only [Dev.execCmd, Dev.pagedWrite] at h
    split at h
    · cases h
    · next hsel =>
      obtain ⟨hpage, hbase⟩ := pageBase_le hsel
      split at h
      · next hs =>
        obtain ⟨hwf, hin, hsel', -⟩ := storePayload_legal hs hbase hd
        have hoff := (storePayload_ok hs).1
        cases h
        refine ⟨hwf, hin, hsel', fun p o hpo => ?_⟩
        cases hpo
        omega
      · cases h
  | contPagedWrite cnt =>
    simp only [Dev.execCmd, Dev.contPagedWrite] at h
    split at h
    · cases h
    · next p o hcont =>
      obtain ⟨hp1, hp2, -⟩ := hd.2.2.2 p o hcont
      split at h
      · cases h
      · split at h
        · cases h
        · split at h
          · next hs =>
            obtain ⟨hwf, hin, hsel', -⟩ := storePayload_legal hs (by omega) hd
            have hoff := (storePayload_ok hs).1
            cases h
            refine ⟨hwf, hin, hsel', fun p' o' hpo => ?_⟩
            cases hpo
            omega
          · cases h

/-- So does the end of a transfer. -/
theorem close_legal {d d' : Dev} (h : d.close = .ok d') (hd : d.legal) : d'.legal := by
  obtain ⟨-, rfl⟩ := close_ok h
  exact hd

theorem parse_legal {c : Config} {n : Nat} {d d' : Dev} (h : Dev.parse c n d = .ok d') (hd : d.legal) : d'.legal := by
  induction n generalizing d with
  | zero => cases h
  | succ n ih =>
    rw [Dev.parse] at h
    split at h
    · exact close_legal h hd
    · cases h
    · split at h
      · next hs => exact ih h (execCmd_legal hs hd)
      · cases h

/-- Whoever answers a transfer, the responder's state stays legal. -/
theorem busReply_legal {c : Config} {e e' : Env} {d d' : Dev} {w r : List Byte} {k n : Nat}
    (h : busReply c e d w k = some (n, r, e', d')) (hd : d.legal) : d'.legal := by
  unfold busReply at h
  split at h
  · cases h
  · cases h; exact hd
  · split at h
    · cases h; exact hd
    · split at h
      · next hr => cases h; exact parse_legal hr hd
      · cases h

/-! Command words at the responder. -/

theorem toInstr_space (cmd : WireCmd) : cmd.toInstr.space = .wire := by cases cmd <;> rfl

theorem exec_toInstr (cmd : WireCmd) (s : State) : exec cmd.toInstr s = runWire (Dev.execCmd s.cfg s.dev cmd) s := by
  cases cmd <;> rfl

theorem runWire_next {r : Except Refusal Dev} {s t : State} (h : runWire r s = .next t) :
    ∃ d, r = .ok d ∧ t = { s with dev := d } := by
  cases r with
  | ok d => cases h; exact ⟨d, rfl, rfl⟩
  | error e => cases h

/-- The end of a transfer whose last command word has been run (R111). -/
def endTransfer : Host.Outcome State Fault Refusal → Host.Outcome State Fault Refusal
  | .next u => if u.dev.rx = [] then runWire u.dev.close u else .next u
  | .fault f => .fault f
  | .refused e => .refused e

theorem after_wire {i : Instr} (hi : i.space = .wire) (o : Host.Outcome State Fault Refusal) :
    after i o = endTransfer o := by
  cases o <;> simp only [after, hi, endTransfer]

theorem after_block {i : Instr} (hi : i.space ≠ .wire) (o : Host.Outcome State Fault Refusal) : after i o = o := by
  cases hs : i.space with
  | wire => exact absurd hs hi
  | request | hostCommand => simp only [after, hs]

theorem endTransfer_next {o : Host.Outcome State Fault Refusal} {t : State} (h : endTransfer o = .next t) :
    ∃ u, o = .next u ∧ (t = u ∨ ∃ d, u.dev.close = .ok d ∧ t = { u with dev := d }) := by
  cases o with
  | fault f => cases h
  | refused e => cases h
  | next u =>
    refine ⟨u, rfl, ?_⟩
    simp only [endTransfer] at h
    split at h
    · exact .inr (runWire_next h)
    · cases h; exact .inl rfl

/-! What is presented to the block. -/

theorem decodeRequest_space (r : Request) : (decodeRequest r).space = .request := by
  unfold decodeRequest
  repeat' split
  all_goals rfl

theorem decodeHostCommand_space {c : CmdWords} {w : Word} {i : Instr} (h : decodeHostCommand c w = .ok i) :
    i.space = .hostCommand := by
  unfold decodeHostCommand at h
  repeat' split at h
  all_goals cases h
  all_goals rfl

/-! The step. -/

/-- What becomes of what a step found to do. -/
def Fetch.outcome : Fetch → Host.Outcome State Fault Refusal
  | .settled o => o
  | .run i s => after i (exec i s)

theorem step_eq_outcome (s : State) : step s = (fetch s).outcome := by
  unfold step
  cases fetch s <;> rfl

theorem fetch_reset {s : State} (h : s.env.resetIn = some 0) : fetch s = .settled (.next s.assertReset) := if_pos h

theorem fetch_transfer {s : State} (h0 : s.env.resetIn ≠ some 0) (h : s.dev.rx ≠ []) : fetch s = fetchWire s := by
  rw [fetch, if_neg h0, if_pos h]

theorem fetch_presented {s : State} (h0 : s.env.resetIn ≠ some 0) (h : s.dev.rx = []) : fetch s = fetchPresented s := by
  rw [fetch, if_neg h0, if_neg (by simp [h])]

/-- The responder runs the next command word on the bytes after it. -/
theorem fetchWire_word {s : State} {b0 b1 : Byte} {t : List Byte} (h : s.dev.rx = b0 :: b1 :: t) :
    fetchWire s = .run (decodeWire s.cfg.wire b0 b1).toInstr { s with dev := { s.dev with rx := t } } := by
  simp only [fetchWire, h, decode, List.drop_one, List.tail_cons]

theorem fetchWire_word_outcome {s : State} {b0 b1 : Byte} {t : List Byte} (h : s.dev.rx = b0 :: b1 :: t) :
    (fetchWire s).outcome =
      endTransfer (exec (decodeWire s.cfg.wire b0 b1).toInstr { s with dev := { s.dev with rx := t } }) := by
  rw [fetchWire_word h]
  exact after_wire (toInstr_space _) _

/-- A turn of the responder changes the responder alone, and keeps its state legal. -/
theorem fetchWire_next {s t : State} (h : (fetchWire s).outcome = .next t) :
    ∃ d, t = { s with dev := d } ∧ (s.dev.legal → d.legal) := by
  match hrx : s.dev.rx with
  | [] =>
    simp only [fetchWire, hrx] at h
    obtain ⟨d, hd, rfl⟩ := runWire_next h
    exact ⟨d, rfl, close_legal hd⟩
  | [b] =>
    simp only [fetchWire, hrx, decode] at h
    cases h
  | b0 :: b1 :: rest =>
    rw [fetchWire_word_outcome hrx, exec_toInstr] at h
    obtain ⟨u, hu, ht⟩ := endTransfer_next h
    obtain ⟨d, hd, rfl⟩ := runWire_next hu
    have hlegal : s.dev.legal → d.legal := fun hs => execCmd_legal hd hs
    rcases ht with rfl | ⟨d', hd', rfl⟩
    · exact ⟨d, rfl, hlegal⟩
    · exact ⟨d', rfl, fun hs => close_legal hd' (hlegal hs)⟩

/-- What a step that answers with a next state did. -/
inductive Stepped (s : State) : State → Prop
  /-- Reset was asserted (R281). -/
  | reset (h : s.env.resetIn = some 0) : Stepped s s.assertReset
  /-- The block waits (R29). -/
  | waits : Stepped s s
  /-- The responder took its turn (R111). -/
  | wire (inbox : List Presented) (d : Dev) (h : s.dev.legal → d.legal) : Stepped s { s with inbox := inbox, dev := d }
  /-- The block, idle, ran an instruction (R29). -/
  | block (i : Instr) (inbox : List Presented) (t : State) (hi : i.space ≠ .wire) (hidle : s.seq.busy = false)
      (h : exec i { s with inbox := inbox } = .next t) : Stepped s t

theorem Stepped.of_wait {s t : State} (h : wait s = .next t) : Stepped s t := by
  unfold wait at h
  split at h
  · cases h
  · cases h; exact .waits

/-- What the block takes it runs. -/
theorem fetchBlock_next {code : Code} {s t : State} (hw : code.space ≠ .wire)
    (h : (fetchBlock code s).outcome = .next t) : ∃ i, i.space ≠ .wire ∧ exec i s = .next t := by
  unfold fetchBlock at h
  split at h
  · cases h
  · next i hdec =>
    have hi : i.space ≠ .wire := by
      cases code with
      | wire bytes => exact absurd rfl hw
      | request r => cases hdec; simp [decodeRequest_space]
      | hostCommand w => simp [decodeHostCommand_space hdec]
    rw [Fetch.outcome, after_block hi] at h
    exact ⟨i, hi, h⟩

theorem Stepped.of_presented {s t : State} (h : (fetchPresented s).outcome = .next t) : Stepped s t := by
  have block {code : Code} {rest : List Presented} (hw : code.space ≠ .wire)
      (h : Fetch.outcome (if s.seq.busy then .settled (wait s) else fetchBlock code { s with inbox := rest }) = .next t) :
      Stepped s t := by
    split at h
    · exact .of_wait h
    · next hbusy =>
      obtain ⟨i, hi, hx⟩ := fetchBlock_next hw h
      exact .block i rest t hi (by simpa using hbusy) hx
  unfold fetchPresented at h
  split at h
  · exact .of_wait h
  · next w k rest _ =>
    obtain ⟨d, rfl, hd⟩ := fetchWire_next h
    exact .wire rest d hd
  · exact block (by simp [Code.space]) h
  · exact block (by simp [Code.space]) h

/-- Everything a step can do. -/
theorem stepped_of_step {s t : State} (h : step s = .next t) : Stepped s t := by
  rw [step_eq_outcome] at h
  by_cases h0 : s.env.resetIn = some 0
  · rw [fetch_reset h0] at h
    cases h
    exact .reset h0
  · by_cases hrx : s.dev.rx = []
    · rw [fetch_presented h0 hrx] at h
      exact .of_presented h
    · rw [fetch_transfer h0 hrx] at h
      obtain ⟨d, rfl, hd⟩ := fetchWire_next h
      exact .wire s.inbox d hd

/-! An asserted reset. -/

/-- An asserted reset is the reset of the block, after the primitive it cut was recorded (R281). -/
theorem assertReset_eq (s : State) : ∃ (u : State) (evs : List Event) (mvs : List Move),
    s.assertReset = u.resetBlock ∧ u.cfg = s.cfg ∧ u.dev = s.dev ∧ u.history = s.history ++ evs ∧
      u.moves = s.moves ++ mvs := by
  unfold State.assertReset
  split
  · exact ⟨_, _, _, rfl, rfl, rfl, rfl, rfl⟩
  · exact ⟨_, _, _, rfl, rfl, rfl, rfl, rfl⟩
  · exact ⟨s, [], [], rfl, rfl, rfl, by simp, by simp⟩

/-- A block that waits in no bus primitive has none to record (R281). -/
theorem assertReset_of_none {s : State} (h : s.env.inFlight = none) : s.assertReset = s.resetBlock := by
  simp only [State.assertReset, h]

end Sys2Proof.Machine
end

section
/-! SUPPORT. Steps of the whole machine: which instruction a step runs, what an asserted reset leaves, and that the record
only grows (spec/10_state.md R23, R24 and R29, spec/70_reset_and_hazards.md R28, R280 to R282, R291, R293). -/

namespace Sys2Proof.Machine

/-! The step that runs an instruction. -/

/-- What an idle block is presented it runs. -/
theorem step_of_presented {s u : State} {i : Instr} (h0 : s.env.resetIn ≠ some 0) (hrx : s.dev.rx = [])
    (hi : i.space ≠ .wire) (h : fetchPresented s = .run i u) : step s = exec i u := by
  rw [step_of_fetch (i := i) (u := u) _ hi]
  rw [fetch_presented h0 hrx, h]

/-- The turn of the responder on a command word, written out. -/
theorem fetchWire_decoded {s : State} {i : Instr} {b0 b1 : Byte} {t : List Byte} (hrx : s.dev.rx = b0 :: b1 :: t)
    (h : decode s.cfg (.wire (b0 :: b1 :: t)) = .ok i) :
    (fetchWire s).outcome = endTransfer (exec i { s with dev := { s.dev with rx := t } }) := by
  cases h
  exact fetchWire_word_outcome hrx

/-- Settles O4, by the four things a step can find to take. -/
theorem stepRunsInstruction : Obligations.StepRunsInstruction := by
  intro s i h0
  refine ⟨fun r rest hrx hidle hin hdec => ?_, fun w rest hrx hidle hin hdec => ?_, fun b0 b1 t hrx hdec => ?_,
    fun b0 b1 t k rest hrx hin hdec => ?_⟩
  · have hi : i.space ≠ .wire := by cases hdec; simp [decodeRequest_space]
    exact step_of_presented h0 hrx hi (by simp [fetchPresented, fetchBlock, hin, hidle, hdec])
  · have hi : i.space ≠ .wire := by simp [decodeHostCommand_space hdec]
    exact step_of_presented h0 hrx hi (by simp [fetchPresented, fetchBlock, hin, hidle, hdec])
  · rw [hrx] at hdec
    rw [step_eq_outcome, fetch_transfer h0 (by simp [hrx]), fetchWire_decoded hrx hdec]
    cases exec i { s with dev := { s.dev with rx := t } } <;> rfl
  · have hf : fetchPresented s =
        fetchWire { s with inbox := rest, dev := { s.dev with rx := b0 :: b1 :: t, want := k, tx := [] } } := by
      simp only [fetchPresented, hin]
      rfl
    have hu := fetchWire_decoded
      (s := { s with inbox := rest, dev := { s.dev with rx := b0 :: b1 :: t, want := k, tx := [] } }) rfl hdec
    rw [step_eq_outcome, fetch_presented h0 hrx, hf, hu]
    cases exec i { s with inbox := rest, dev := { s.dev with rx := t, want := k, tx := [] } } <;> rfl

/-! Reset. -/

/-- Settles O5: an asserted reset is the whole step, and is the reset of the block. -/
theorem assertedReset : Obligations.AssertedReset := by
  refine ⟨⟨rfl, ⟨rfl, rfl, rfl, rfl, rfl⟩, rfl, rfl, rfl⟩, fun s h0 hnone => ⟨s.resetBlock, ?_, rfl,
    ⟨rfl, rfl, rfl, rfl, rfl⟩, rfl, rfl, rfl, rfl, rfl, ⟨rfl, rfl⟩, rfl⟩⟩
  rw [step_eq_outcome, fetch_reset h0, assertReset_of_none hnone]
  rfl

/-! The record only grows. -/

/-- From `s` to `t` the parameters are as they were, and the record was only appended to. -/
structure Grown (s t : State) : Prop where
  cfg : t.cfg = s.cfg
  history : ∃ evs, t.history = s.history ++ evs
  moves : ∃ mvs, t.moves = s.moves ++ mvs

namespace Grown

variable {s u v : State}

theorem refl (s : State) : Grown s s := ⟨rfl, ⟨[], by simp⟩, [], by simp⟩

/-- What appends to the record keeps it grown. -/
theorem append (h : Grown s u) {evs : List Event} {mvs : List Move} (hc : v.cfg = u.cfg)
    (hh : v.history = u.history ++ evs) (hm : v.moves = u.moves ++ mvs) : Grown s v := by
  obtain ⟨hcfg, ⟨es, hes⟩, ms, hms⟩ := h
  exact ⟨hc.trans hcfg, ⟨es ++ evs, by rw [hh, hes, List.append_assoc]⟩, ms ++ mvs,
    by rw [hm, hms, List.append_assoc]⟩

/-- What leaves the record alone keeps it grown. -/
theorem same (h : Grown s u) (hc : v.cfg = u.cfg) (hh : v.history = u.history) (hm : v.moves = u.moves) : Grown s v :=
  h.append (evs := []) (mvs := []) hc (by simp [hh]) (by simp [hm])

/-- So does a transition. -/
theorem move (h : Grown s u) {m : Move} (hc : v.cfg = u.cfg) (hh : v.history = u.history) (hm : v.moves = u.moves ++ [m]) :
    Grown s v :=
  h.append (evs := []) hc (by simp [hh]) hm

/-- Nothing an instruction of the block does takes anything from the record. -/
theorem whole (s : State) : Whole (Grown s) where
  ra _ _ h := h.move rfl rfl rfl
  access _ _ _ _ h := h.same rfl rfl rfl
  hdr _ _ _ _ _ h := h.same rfl rfl rfl
  buf _ _ _ h := h.same rfl rfl rfl
  val _ _ h := h.same rfl rfl rfl
  xfer _ _ _ _ _ _ _ _ _ h := h.append rfl rfl rfl
  delay _ _ _ h := h.append rfl rfl rfl
  hang _ _ _ h := h.same rfl rfl rfl
  hc _ _ h := h.move rfl rfl rfl
  bm _ _ h := h.move rfl rfl rfl
  cmdOp _ _ h := h.same rfl rfl rfl
  pollCnt _ _ _ h := h.same rfl rfl rfl
  latch _ _ h := h.same rfl rfl rfl
  clearRaw _ h := h.same rfl rfl rfl
  count _ _ h := h.same rfl rfl rfl
  clearCount _ h := h.same rfl rfl rfl
  fl _ _ h := h.move rfl rfl rfl
  it _ _ h := h.move rfl rfl rfl
  gl _ _ h := h.move rfl rfl rfl
  image _ _ h := h.same rfl rfl rfl
  cursor _ _ _ h := h.same rfl rfl rfl
  accept _ _ h := h.same rfl rfl rfl
  acceptWord _ h := h.same rfl rfl rfl
  failed _ h := h.move rfl rfl rfl
  respond _ _ _ h := h.same rfl rfl rfl
  settled _ _ h := h.same rfl rfl rfl
  tick _ _ h := h.same rfl rfl rfl
  reset _ h := h.same rfl rfl rfl

end Grown

/-- Every step only appends to the record. -/
theorem grown_of_step {s t : State} (h : step s = .next t) : Grown s t := by
  cases stepped_of_step h with
  | reset _ =>
    obtain ⟨u, evs, mvs, hu, hcfg, -, hhist, hmoves⟩ := assertReset_eq s
    rw [hu]
    exact (Grown.refl s).append hcfg hhist hmoves
  | waits => exact .refl s
  | wire inbox d _ => exact (Grown.refl s).same rfl rfl rfl
  | block i inbox _ hi _ hx => exact (Grown.whole s).exec hi hx ((Grown.refl s).same rfl rfl rfl)

/-- Settles O53: each operation an instruction is made of appends to the record, and so does an asserted reset. -/
theorem recordOnlyGrows : Obligations.RecordOnlyGrows := by
  intro s t h
  obtain ⟨hcfg, ⟨evs, hhist⟩, mvs, hmoves⟩ := grown_of_step h
  exact ⟨hcfg, ⟨evs, hhist.symm⟩, mvs, hmoves.symm⟩

end Sys2Proof.Machine
end

section
/-! SUPPORT. How a sequence ends: the ways a request or a host command word is settled, that every request is answered
where the bus returns, and that a primitive which never returns is the last (spec/10_state.md R12 and R29,
spec/60_exceptions.md R256 to R258, spec/70_reset_and_hazards.md R281, R308 and R309). -/

namespace Sys2Proof.Machine

/-! The endings. -/

section

variable {Q : State → Prop} {drivesIt : Bool} {r : EStateM.Result Abort State Payload}

/-- The four ways a request ends: it waits for ever, reset comes, it is answered, or it failed and is answered. -/
theorem settle_elim (hung : ∀ u, r = .error .hung u → Q u)
    (reset : (∃ u, r = .error .cut u) ∨ (stateOf r).env.resetIn = some 0 → Q (stateOf r).resetBlock)
    (answered : ∀ p u, r = .ok p u → Q ({ u with env := u.env.tick }.respond .success p))
    (failed : ∀ st u, r = .error (.raised st) u →
      Q (({ u with env := u.env.tick }.abort drivesIt).respond st Payload.none)) : Q (settle drivesIt r) := by
  by_cases h0 : (stateOf r).env.resetIn = some 0
  · rcases r with ⟨p, u⟩ | ⟨st | _ | _, u⟩
    · rw [settle, u.terminal_reset h0]; exact reset (.inr h0)
    · rw [settle, u.terminal_reset h0]; exact reset (.inr h0)
    · exact hung u rfl
    · exact reset (.inr h0)
  · rcases r with ⟨p, u⟩ | ⟨st | _ | _, u⟩
    · rw [settle, u.terminal_taken h0]; exact answered p u rfl
    · rw [settle, u.terminal_taken h0]; exact failed st u rfl
    · exact hung u rfl
    · exact reset (.inl ⟨u, rfl⟩)

/-- The four ways a host command word on its own ends (log entry 16). -/
theorem settleWord_elim (hung : ∀ u, r = .error .hung u → Q u)
    (reset : (∃ u, r = .error .cut u) ∨ (stateOf r).env.resetIn = some 0 → Q (stateOf r).resetBlock)
    (settled : ∀ p u, r = .ok p u → Q ({ u with env := u.env.tick }.settleStatus .success))
    (failed : ∀ st u, r = .error (.raised st) u → Q (({ u with env := u.env.tick }.abort false).settleStatus st)) :
    Q (settleWord r) := by
  by_cases h0 : (stateOf r).env.resetIn = some 0
  · rcases r with ⟨p, u⟩ | ⟨st | _ | _, u⟩
    · rw [settleWord, u.terminal_reset h0]; exact reset (.inr h0)
    · rw [settleWord, u.terminal_reset h0]; exact reset (.inr h0)
    · exact hung u rfl
    · exact reset (.inr h0)
  · rcases r with ⟨p, u⟩ | ⟨st | _ | _, u⟩
    · rw [settleWord, u.terminal_taken h0]; exact settled p u rfl
    · rw [settleWord, u.terminal_taken h0]; exact failed st u rfl
    · exact hung u rfl
    · exact reset (.inl ⟨u, rfl⟩)

end

/-! A bus that returns. -/

/-- What bus primitives leave of the environment's side: who answers, the primitive the block waits in, and nothing laid
down that was not before. -/
structure Env.After (e e' : Env) : Prop where
  device : e'.device = e.device
  inFlight : e'.inFlight = e.inFlight
  script : ∀ a ∈ e'.script, a ∈ e.script

theorem Env.After.refl (e : Env) : e.After e := ⟨rfl, rfl, fun _ h => h⟩

theorem Env.After.trans {e1 e2 e3 : Env} (h1 : e1.After e2) (h2 : e2.After e3) : e1.After e3 :=
  ⟨h2.device.trans h1.device, h2.inFlight.trans h1.inFlight, fun a h => h1.script a (h2.script a h)⟩

theorem busReply_after {c : Config} {e e' : Env} {d d' : Dev} {w b : List Byte} {k n : Nat}
    (h : busReply c e d w k = some (n, b, e', d')) : e.After e' := by
  unfold busReply at h
  split at h
  · cases h
  · next hs =>
    cases h
    exact ⟨rfl, rfl, fun a ha => by rw [hs]; exact List.mem_cons_of_mem _ ha⟩
  · split at h
    · cases h; exact .refl _
    · split at h
      · cases h; exact .refl _
      · cases h

theorem replay_after {c : Config} {evs : List Event} {e e1 : Env} {d d1 : Dev}
    (h : replay c evs e d = some (e1, d1)) : e.After e1 := by
  induction evs generalizing e d with
  | nil => cases h; exact .refl _
  | cons ev rest ih =>
    cases ev with
    | delay ms =>
      simp only [replay] at h
      split at h
      · cases h
      · obtain ⟨hdev, hin, hscript⟩ := ih h
        exact ⟨hdev, hin, hscript⟩
    | xfer w k n r =>
      simp only [replay] at h
      split at h
      · cases h
      · split at h
        · cases h
        · next hb =>
          split at h
          · obtain ⟨hdev, hin, hscript⟩ := ih h
            exact (busReply_after hb).trans ⟨hdev, hin, hscript⟩
          · cases h

/-- The environment lets every bus primitive return: the oracle answers, and nothing else was laid down. -/
def Env.Returns (e : Env) : Prop := e.device = .unconstrained ∧ .never ∉ e.script

theorem Env.After.returns {e e' : Env} (h : e.After e') (he : e.Returns) : e'.Returns :=
  ⟨h.device.trans he.1, fun hm => he.2 (h.script _ hm)⟩

theorem Env.Returns.not_never {e : Env} (he : e.Returns) (c : Config) (d : Dev) (p : Prim) :
    ¬ neverReturns c e d p := by
  obtain ⟨hdev, hscript⟩ := he
  cases p with
  | delay ms => exact fun h => hscript (List.mem_of_mem_head? h)
  | xfer w k =>
    show busReply c e d w k ≠ none
    unfold busReply
    split
    · next hs => exact absurd (by rw [hs]; exact List.mem_cons_self) hscript
    · simp
    · simp [hdev]

/-- A request has a job, but for the one without behaviour (R179). -/
theorem jobOf_request {i : Instr} {s : State} (hi : i.space = .request)
    (hz : ∀ image, i = .loadImage image → zeroBlockImage s.cfg image = false) :
    ∃ op b m, jobOf i s = some (requestJob op b m s) := by
  cases i with
  | selectPage _ | noOp | contPagedWrite _ | directRead _ _ | directWrite _ _ | pagedRead _ _ | pagedWrite _ _
    | reserved _ _ | cmdLoadComplete | cmdFlashInit | cmdSave | cmdErase | cmdGramDisable | cmdGramEnable => cases hi
  | hdrEncode _ _ _ | regWrite _ _ | regRead _ _ | rawWrite _ | runCmd _ | bootSwitch | flashSave _ | flashErase
    | grammarLoad _ | reqReserved _ => exact ⟨_, _, _, rfl⟩
  | loadImage image =>
    refine ⟨0x6, true, loadImage image, ?_⟩
    simp only [jobOf, hz image rfl]
    rfl

/-- Where the bus returns and no reset comes, a job runs to its end or raises a status. -/
theorem Job.Course.final_of_returns {j : Job} {evs : List Event} {e : Env} {d : Dev} (c : j.Course evs e d)
    (he : j.start.env.Returns) (h0 : j.start.env.resetIn = none) :
    ∃ r, Final r ∧ j.seq.run j.start = withBus e d r ∧ e.resetIn ≠ some 0 := by
  have hreset : e.resetIn ≠ some 0 := by simp [c.resetIn, Job.resetAfter, h0]
  rcases c.ending with ⟨r, hfin, -, hrun⟩ | ⟨p, -, h | h⟩
  · exact ⟨r, hfin, hrun _ _ _ _ c.bus, hreset⟩
  · exact absurd h hreset
  · exact absurd h (((replay_after c.bus).returns he).not_never _ _ _)

/-- A response stands at the port of an idle block, and x[STATUS] is its status (R12, R29). -/
def State.Answered (t : State) : Prop := ∃ r, t.rsp = some r ∧ t.seq.busy = false ∧ t.x.status = r.status

/-- Settles O57: where every primitive returns and no reset comes, the terminal transition is the only ending. -/
theorem everyRequestAnswered : Obligations.EveryRequestAnswered := by
  intro s i hi h0 hdev hscript hz
  obtain ⟨op, b, m, hj⟩ := jobOf_request hi hz
  obtain ⟨evs, e, d, c⟩ := course_of_jobOf hj
  obtain ⟨r, hfin, hrun, hreset⟩ := c.final_of_returns ⟨hdev, hscript⟩ h0
  have hanswer : (settle b (withBus e d r)).Answered := by
    have hfin' := hfin.withBus e d
    refine settle_elim (fun u hu => absurd hu (hfin'.ne_hung u)) (fun h => ?_) (fun p u _ => ⟨_, rfl, rfl, rfl⟩)
      (fun st u _ => ⟨_, rfl, rfl, rfl⟩)
    rcases h with ⟨u, hu⟩ | h
    · exact absurd hu (hfin'.ne_cut u)
    · rw [stateOf_withBus] at h
      exact absurd h hreset
  rw [exec_of_job hj, hrun]
  obtain ⟨rsp, hrsp⟩ := hanswer
  exact ⟨_, rsp, rfl, hrsp⟩

/-! A bus that does not. -/

theorem start_cfg_of_jobOf {i : Instr} {s : State} {j : Job} (h : jobOf i s = some j) : j.start.cfg = s.cfg := by
  rcases jobOf_request_or_word h with ⟨-, op, b, m, rfl⟩ | ⟨-, m, rfl⟩ <;> rfl

theorem finish_hung_of_jobOf {i : Instr} {s : State} {j : Job} (h : jobOf i s = some j) (u : State) :
    j.finish (.error .hung u) = u := (settles_of_jobOf h).hung u

/-- The job of an instruction depends on the bus side and the device in the state it starts in alone. -/
theorem jobOf_withBus {i : Instr} {s : State} {j : Job} (h : jobOf i s = some j) (e : Env) (d : Dev) :
    jobOf i (s.withBus e d) = some { j with start := j.start.withBus e d } := by
  cases i with
  | selectPage _ | noOp | contPagedWrite _ | directRead _ _ | directWrite _ _ | pagedRead _ _ | pagedWrite _ _
    | reserved _ _ => cases h
  | hdrEncode _ _ _ | regWrite _ _ | regRead _ _ | rawWrite _ | runCmd _ | bootSwitch | flashSave _ | flashErase
    | grammarLoad _ | reqReserved _ | cmdLoadComplete | cmdFlashInit | cmdSave | cmdErase => cases h; rfl
  | loadImage image =>
    simp only [jobOf] at h
    split at h
    · cases h
    · next hz => cases h; exact if_neg hz
  | cmdGramDisable | cmdGramEnable =>
    simp only [jobOf] at h
    split at h
    · next hg => cases h; exact if_pos hg
    · cases h

/-- In an environment that answers the first primitives of a run alike and never returns from the next, the instruction
waits in that one (R309). -/
theorem exec_of_asks {i : Instr} {s : State} {j : Job} (hj : jobOf i s = some j) {pre : List Event} {p : Prim}
    (ha : Asks j.seq j.start pre p) {e0 e1 : Env} {d1 : Dev} (hr : replay s.cfg pre e0 s.dev = some (e1, d1))
    (h0 : e1.resetIn ≠ some 0) (hn : neverReturns s.cfg e1 d1 p) :
    ∃ u, Along j.start u pre ∧ exec i (s.withBus e0 s.dev) = .next ((u.withBus e1 d1).hang p) := by
  rw [← start_cfg_of_jobOf hj] at hr hn
  obtain ⟨u, hu, hask⟩ := ha
  have hrun : j.seq.run (j.start.withBus e0 s.dev) = .error .hung ((u.withBus e1 d1).hang p) :=
    (hask e0 s.dev e1 d1 hr).2.1 h0 hn
  refine ⟨u, hu, ?_⟩
  rw [exec_of_job (jobOf_withBus hj e0 s.dev)]
  simp only [hrun, finish_hung_of_jobOf hj]

/-- A busy block that waits in a primitive takes no step of its own (R309). -/
theorem wait_stuck {s : State} (hbusy : s.seq.busy = true) (hin : s.env.inFlight ≠ none) :
    wait s = .fault .busNeverReturns := if_pos ⟨hbusy, hin⟩

/-- Settles O60: each primitive of a run is one the instruction asks for whatever the environment answers next, and a
block that waits in one takes nothing that is presented to it. -/
theorem hangIsStuck : Obligations.HangIsStuck := by
  constructor
  · intro s t i pre post p e0 e1 d1 hi ht hhist hr h0 hn
    obtain ⟨j, evs, e, d, hj, c, rfl⟩ := course_of_exec hi ht
    have hacc := accepted_of_jobOf hj
    rw [c.finish_history (settles_of_jobOf hj), hacc.history, List.append_assoc] at hhist
    have hevs : evs = pre ++ p :: post := List.append_cancel_left hhist
    obtain ⟨u, hu, hx⟩ := exec_of_asks hj (c.asks pre p post hevs) hr h0 hn
    exact ⟨_, hx, hu.busy.trans hacc.busy, hu.rsp.trans hacc.rsp, by rw [← hacc.history]; exact hu.history, rfl, rfl⟩
  · intro s hbusy hin h0 hrx hwire
    rw [step_eq_outcome, fetch_presented h0 hrx]
    match hbox : s.inbox with
    | [] => simp only [fetchPresented, hbox, Fetch.outcome, wait_stuck hbusy hin]
    | .wire w k :: rest => exact absurd hbox (hwire w k rest)
    | .request r :: rest => simp only [fetchPresented, hbox, hbusy, if_true, Fetch.outcome, wait_stuck hbusy hin]
    | .hostCommand w :: rest => simp only [fetchPresented, hbox, hbusy, if_true, Fetch.outcome, wait_stuck hbusy hin]

end Sys2Proof.Machine
end

section
/-! SUPPORT. What a sequence leaves of the sequencing registers where it ends normally: every unit it used is idle again
(spec/41_register_access.md R132, spec/42_host_command.md R148, spec/43_image_transport.md R172, spec/44_flash_ops.md R199,
spec/60_exceptions.md R257). -/

namespace Sys2Proof.Machine

/-! Two sequences cut behind the boot-mode switch that they make or leave out. -/

/-- What follows the boot-mode check of FLASH_ERASE (R195). -/
def eraseAfterBoot (c : Config) : M Payload := do
  flashInit
  update (·.setFl .prep)
  regWrite16 c.map.result c.map.eraseMagic
  update (·.setFl .cmd)
  runCommand c.cmds.erase
  update (·.setFl .result)
  let v ← readResult
  continueIfSuccess (eraseStatus (hostResult c.resp v))
  update (·.setFl .idle)
  update (·.setIt .done)
  return Payload.none

theorem flashErase_eq : flashErase = (do
    let c ← config
    update (·.setIt .concluding)
    update (·.clearRaw)
    update (·.setFl .boot)
    let f ← regRead16 c.map.curFw
    if appRunning c f then do
      bootSwitch
      eraseAfterBoot c
    else eraseAfterBoot c) := rfl

/-- What follows the boot-mode check of a chunk: the raw write, and the cursor's advance (R167, R168). -/
def sendAfterBoot (chunk : List Byte) : M Unit := do
  rawWrite chunk
  update fun s => s.setCursor (s.x.imgPos + BitVec.ofNat 33 chunk.length) (s.x.imgRem - BitVec.ofNat 32 chunk.length)

theorem sendChunk_eq (fw : Bool) (chunk : List Byte) : sendChunk fw chunk = (do
    update (·.setBuf chunk)
    if fw then do
      bootSwitch
      sendAfterBoot chunk
    else sendAfterBoot chunk) := rfl

/-- Started with the sequencing registers at `q`, the sequence leaves them at `r` if it ends normally. -/
def Leaves {α : Type} (q r : Seq) (m : M α) : Prop := ∀ s, s.seq = q → Ends (fun _ => True) (·.seq = r) (m.run s)

/-- Started with the sequencing registers at `q`, the sequence leaves them there again if it ends normally. -/
abbrev Restores {α : Type} (q : Seq) (m : M α) : Prop := Leaves q q m

namespace Leaves

variable {q r u : Seq} {b : Bool} {op : BitVec 4} {ra : RaState} {hc : HcState} {bm : BmState} {it : ItState}
  {fl : FlState} {gl : GlState}

theorem bind {α β : Type} {m : M α} {f : α → M β} (h1 : Leaves q r m) (h2 : ∀ a, Leaves r u (f a)) :
    Leaves q u (m >>= f) := fun s hs => Keeps.bind_at (h1 s hs) h2

theorem pure {α : Type} (a : α) : Leaves q q (Pure.pure a : M α) := fun _ hs => hs

/-- A raise does not end normally. -/
theorem raise {α : Type} (st : Status) : Leaves q r (raise st : M α) := fun _ _ => trivial

theorem raiseIf (c : Bool) (st : Status) : Leaves q q (raiseIf c st) := by
  cases c
  · exact pure ()
  · exact raise st

theorem continueIfSuccess (st : Status) : Leaves q q (continueIfSuccess st) := raiseIf _ _

theorem config : Leaves q q config := fun _ hs => hs

theorem get : Leaves q q (get : M State) := fun _ hs => hs

/-- A write of holding registers. -/
theorem update {f : State → State} (h : ∀ s, (f s).seq = s.seq) : Leaves q q (update f) := fun s hs => (h s).trans hs

theorem ite {α : Type} {c : Prop} [Decidable c] {a b : M α} (h1 : Leaves q r a) (h2 : Leaves q r b) :
    Leaves q r (if c then a else b) := by split <;> assumption

theorem setRa (st : RaState) :
    Leaves ⟨b, op, ra, hc, bm, it, fl, gl⟩ ⟨b, op, st, hc, bm, it, fl, gl⟩ (Machine.update (·.setRa st)) :=
  fun s hs => by cases s; cases hs; rfl
theorem setHc (st : HcState) :
    Leaves ⟨b, op, ra, hc, bm, it, fl, gl⟩ ⟨b, op, ra, st, bm, it, fl, gl⟩ (Machine.update (·.setHc st)) :=
  fun s hs => by cases s; cases hs; rfl
theorem setBm (st : BmState) :
    Leaves ⟨b, op, ra, hc, bm, it, fl, gl⟩ ⟨b, op, ra, hc, st, it, fl, gl⟩ (Machine.update (·.setBm st)) :=
  fun s hs => by cases s; cases hs; rfl
theorem setIt (st : ItState) :
    Leaves ⟨b, op, ra, hc, bm, it, fl, gl⟩ ⟨b, op, ra, hc, bm, st, fl, gl⟩ (Machine.update (·.setIt st)) :=
  fun s hs => by cases s; cases hs; rfl
theorem setFl (st : FlState) :
    Leaves ⟨b, op, ra, hc, bm, it, fl, gl⟩ ⟨b, op, ra, hc, bm, it, st, gl⟩ (Machine.update (·.setFl st)) :=
  fun s hs => by cases s; cases hs; rfl
theorem setGl (st : GlState) :
    Leaves ⟨b, op, ra, hc, bm, it, fl, gl⟩ ⟨b, op, ra, hc, bm, it, fl, st⟩ (Machine.update (·.setGl st)) :=
  fun s hs => by cases s; cases hs; rfl

theorem busXfer (w : List Byte) (k : Nat) : Leaves q q (busXfer w k) := by
  rintro s rfl
  rcases busXfer_cases w k s with ⟨-, h⟩ | ⟨-, -, h⟩ | ⟨n, r, e, d, -, -, h⟩ <;> rw [h]
  exacts [trivial, trivial, rfl]

theorem delay (ms : Nat) : Leaves q q (Machine.delay ms) := by
  rintro s rfl
  rcases delay_cases ms s with ⟨-, h⟩ | ⟨-, -, h⟩ | ⟨-, -, h⟩ <;> rw [h]
  exacts [trivial, trivial, rfl]

theorem buildHeader (a : Addr) (rw : Dir) (cnt : BitVec 7) : Leaves q q (buildHeader a rw cnt) :=
  bind config fun _ => update fun _ => rfl

/-! RA. -/

theorem regWrite (a : Addr) (data : List Byte) : Restores ⟨b, op, .idle, hc, bm, it, fl, gl⟩ (regWrite a data) := by
  refine bind (setRa _) fun _ => bind (update fun _ => rfl) fun _ => ?_
  cases countOf data.length with
  | none => exact raise _
  | some cnt =>
    exact bind config fun _ => bind (setRa _) fun _ => bind (update fun _ => rfl) fun _ => bind (setRa _) fun _ =>
      bind (buildHeader _ _ _) fun _ => bind (setRa _) fun _ => bind get fun _ => bind (busXfer _ _) fun _ =>
      bind (raiseIf _ _) fun _ => setRa _

theorem regRead (a : Addr) (size : Nat) : Restores ⟨b, op, .idle, hc, bm, it, fl, gl⟩ (regRead a size) := by
  refine bind (setRa _) fun _ => bind (update fun _ => rfl) fun _ => ?_
  cases countOf size with
  | none => exact raise _
  | some cnt =>
    exact bind config fun _ => bind (setRa _) fun _ => bind (buildHeader _ _ _) fun _ => bind (setRa _) fun _ =>
      bind get fun _ => bind (busXfer _ _) fun _ => bind (raiseIf _ _) fun _ => bind (update fun _ => rfl) fun _ =>
      bind (setRa _) fun _ => bind get fun _ => bind (setRa _) fun _ => pure _

theorem rawWrite (data : List Byte) : Restores ⟨b, op, .idle, hc, bm, it, fl, gl⟩ (rawWrite data) := by
  exact bind (setRa _) fun _ => bind config fun _ => bind (raiseIf _ _) fun _ => bind (update fun _ => rfl) fun _ =>
    bind (setRa _) fun _ => bind get fun _ => bind (busXfer _ _) fun _ => bind (raiseIf _ _) fun _ => setRa _

theorem regWrite16 (a : Addr) (v : Word) : Restores ⟨b, op, .idle, hc, bm, it, fl, gl⟩ (regWrite16 a v) :=
  bind config fun _ => regWrite _ _

theorem regRead16 (a : Addr) : Restores ⟨b, op, .idle, hc, bm, it, fl, gl⟩ (regRead16 a) :=
  bind config fun _ => bind (regRead _ _) fun _ => bind (update fun _ => rfl) fun _ => pure _

theorem regWrite32 (a : Addr) (v : DWord) : Restores ⟨b, op, .idle, hc, bm, it, fl, gl⟩ (regWrite32 a v) :=
  bind config fun _ => regWrite _ _

theorem regRead32 (a : Addr) : Restores ⟨b, op, .idle, hc, bm, it, fl, gl⟩ (regRead32 a) :=
  bind config fun _ => bind (regRead _ _) fun _ => pure _

/-! HC and the boot-mode controller. -/

theorem pollRead (a : Addr) : Restores ⟨b, op, .idle, hc, bm, it, fl, gl⟩ (pollRead a) := by
  have hr : Restores ⟨b, op, .idle, hc, bm, it, fl, gl⟩ (do
      let v ← Machine.regRead16 a
      Machine.update fun t => t.setPollCnt (t.x.pollCnt + 1)
      return v : M Word) :=
    bind (regRead16 _) fun _ => bind (update fun _ => rfl) fun _ => pure _
  refine bind get fun _ => ?_
  split
  · exact bind (delay _) fun _ => hr
  · exact hr

theorem pollLoop (a : Addr) (pass : Word → Bool) (left : Nat) :
    Restores ⟨b, op, .idle, hc, bm, it, fl, gl⟩ (pollLoop a pass left) := by
  induction left with
  | zero => exact bind (pollRead _) fun _ => ite (pure _) (raise _)
  | succ n ih => exact bind (pollRead _) fun _ => ite (pure _) ih

theorem pollPhase (a : Addr) (pass : Word → Bool) : Restores ⟨b, op, .idle, hc, bm, it, fl, gl⟩ (pollPhase a pass) :=
  bind config fun _ => bind (update fun _ => rfl) fun _ => pollLoop _ _ _

theorem runCommand (cmd : Word) : Restores ⟨b, op, .idle, .idle, bm, it, fl, gl⟩ (runCommand cmd) :=
  bind config fun _ => bind (update fun _ => rfl) fun _ => bind (setHc _) fun _ => bind (pollPhase _ _) fun _ =>
  bind (setHc _) fun _ => bind (regWrite16 _ _) fun _ => bind (setHc _) fun _ => bind (regWrite16 _ _) fun _ =>
  bind (setHc _) fun _ => bind (pollPhase _ _) fun _ => setHc _

theorem readResult : Restores ⟨b, op, .idle, hc, bm, it, fl, gl⟩ readResult :=
  bind config fun _ => bind (regRead16 _) fun _ => bind (update fun _ => rfl) fun _ => pure _

theorem bootSwitch : Restores ⟨b, op, .idle, hc, .idle, it, fl, gl⟩ bootSwitch := by
  refine bind config fun _ => bind (setBm _) fun _ => bind (regRead16 _) fun _ => ?_
  split
  · exact bind (setBm _) fun _ => bind (regWrite16 _ _) fun _ => bind (setBm _) fun _ => bind (delay _) fun _ =>
      bind (setBm _) fun _ => bind (regRead16 _) fun _ => bind (raiseIf _ _) fun _ => setBm _
  · exact setBm _

/-! The sequences of IT, the flash sequences and the grammar loader. -/

theorem sendChunk (fw : Bool) (chunk : List Byte) :
    Restores ⟨b, op, .idle, hc, .idle, it, fl, gl⟩ (sendChunk fw chunk) := by
  have hr : Restores ⟨b, op, .idle, hc, .idle, it, fl, gl⟩ (sendAfterBoot chunk) :=
    bind (rawWrite _) fun _ => update fun _ => rfl
  rw [sendChunk_eq]
  exact bind (update fun _ => rfl) fun _ => ite (bind bootSwitch fun _ => hr) hr

theorem sendChunks (fw : Bool) (chunks : List (List Byte)) :
    Restores ⟨b, op, .idle, hc, .idle, it, fl, gl⟩ (sendChunks fw chunks) := by
  induction chunks with
  | nil => exact pure _
  | cons c t ih => exact bind (sendChunk _ _) fun _ => ih

theorem concludeLoad :
    Leaves ⟨b, op, .idle, .idle, bm, it, fl, gl⟩ ⟨b, op, .idle, .idle, bm, .concluding, fl, gl⟩ concludeLoad :=
  bind config fun _ => bind (setIt _) fun _ => bind (runCommand _) fun _ => bind readResult fun _ =>
  continueIfSuccess _

theorem loadImage (image : List Byte) :
    Leaves ⟨b, op, .idle, .idle, .idle, it, fl, gl⟩ ⟨b, op, .idle, .idle, .idle, .done, fl, gl⟩ (loadImage image) := by
  refine bind (setIt _) fun _ => bind (update fun _ => rfl) fun _ => bind (raiseIf _ _) fun _ => bind config fun _ =>
    bind (update fun _ => rfl) fun _ => bind (setIt _) fun _ => bind (update fun _ => rfl) fun _ =>
    bind (raiseIf _ _) fun _ => bind (raiseIf _ _) fun _ => bind (raiseIf _ _) fun _ =>
    bind (update fun _ => rfl) fun _ => bind (setIt _) fun _ => bind (sendChunks _ _) fun _ => ?_
  split
  · exact bind concludeLoad fun _ => bind (setIt _) fun _ => pure _
  · exact bind (setIt _) fun _ => pure _

theorem flashInit :
    Leaves ⟨b, op, .idle, .idle, bm, it, fl, gl⟩ ⟨b, op, .idle, .idle, bm, it, .initResult, gl⟩ flashInit :=
  bind config fun _ => bind (setFl _) fun _ => bind (runCommand _) fun _ => bind (setFl _) fun _ =>
  bind readResult fun _ => continueIfSuccess _

theorem readCount : Leaves ⟨b, op, .idle, hc, bm, it, fl, gl⟩ ⟨b, op, .idle, hc, bm, it, .count, gl⟩ readCount :=
  bind config fun _ => bind (setFl _) fun _ => bind (regRead16 _) fun _ => update fun _ => rfl

theorem flashSave (wantCount : Bool) :
    Leaves ⟨b, op, .idle, .idle, .idle, it, fl, gl⟩ ⟨b, op, .idle, .idle, .idle, .done, .idle, gl⟩ (flashSave wantCount) := by
  refine bind config fun _ => bind (setIt _) fun _ => bind (update fun _ => rfl) fun _ => bind (update fun _ => rfl) fun _ =>
    bind (setFl _) fun _ => bind bootSwitch fun _ => bind flashInit fun _ => bind (setFl _) fun _ =>
    bind (regWrite _ _) fun _ => bind (setFl _) fun _ => bind (runCommand _) fun _ => bind (setFl _) fun _ =>
    bind readResult fun _ => bind (continueIfSuccess _) fun _ => ?_
  split
  · exact bind readCount fun _ => bind (setFl _) fun _ => bind (setIt _) fun _ => pure _
  · exact bind (setFl _) fun _ => bind (setIt _) fun _ => pure _

theorem eraseAfterBoot (c : Config) :
    Leaves ⟨b, op, .idle, .idle, bm, it, fl, gl⟩ ⟨b, op, .idle, .idle, bm, .done, .idle, gl⟩ (eraseAfterBoot c) :=
  bind flashInit fun _ => bind (setFl _) fun _ => bind (regWrite16 _ _) fun _ => bind (setFl _) fun _ =>
  bind (runCommand _) fun _ => bind (setFl _) fun _ => bind readResult fun _ => bind (continueIfSuccess _) fun _ =>
  bind (setFl _) fun _ => bind (setIt _) fun _ => pure _

theorem flashErase :
    Leaves ⟨b, op, .idle, .idle, .idle, it, fl, gl⟩ ⟨b, op, .idle, .idle, .idle, .done, .idle, gl⟩ flashErase := by
  rw [flashErase_eq]
  exact bind config fun _ => bind (setIt _) fun _ => bind (update fun _ => rfl) fun _ => bind (setFl _) fun _ =>
    bind (regRead16 _) fun _ => ite (bind bootSwitch fun _ => eraseAfterBoot _) (eraseAfterBoot _)

theorem waitNotBusy : Restores ⟨b, op, .idle, hc, bm, it, fl, gl⟩ waitNotBusy := bind config fun _ => pollPhase _ _

theorem extWrite (a : DWord) (bytes : List Byte) : Restores ⟨b, op, .idle, hc, bm, it, fl, gl⟩ (extWrite a bytes) :=
  bind config fun _ => bind (regWrite32 _ _) fun _ => regWrite _ _

theorem sendBlocks (a : DWord) (blocks : List (List Byte)) :
    Restores ⟨b, op, .idle, hc, bm, it, fl, gl⟩ (sendBlocks a blocks) := by
  induction blocks generalizing a with
  | nil => exact pure _
  | cons b t ih => exact bind (extWrite _ _) fun _ => ih _

theorem appendSegment (cnt : Word) (start len : DWord) :
    Restores ⟨b, op, .idle, hc, bm, it, fl, gl⟩ (appendSegment cnt start len) :=
  bind config fun _ => bind (regWrite32 _ _) fun _ => bind (regWrite32 _ _) fun _ => regWrite16 _ _

theorem updateTable (start len : DWord) : Restores ⟨b, op, .idle, hc, bm, it, fl, gl⟩ (updateTable start len) :=
  bind config fun _ => bind (regRead16 _) fun _ => ite (appendSegment _ _ _) <|
  bind (regRead32 _) fun _ => ite (regWrite32 _ _) (appendSegment _ _ _)

theorem grammarLoad (blob : List Byte) :
    Leaves ⟨b, op, .idle, .idle, bm, it, fl, gl⟩ ⟨b, op, .idle, .idle, bm, it, fl, .idle⟩ (grammarLoad blob) := by
  exact bind config fun _ => bind (setGl _) fun _ => bind (regRead32 _) fun _ => bind (regRead32 _) fun _ =>
    bind (raiseIf _ _) fun _ => bind (setGl _) fun _ => bind (runCommand _) fun _ => bind (setGl _) fun _ =>
    bind waitNotBusy fun _ => bind (setGl _) fun _ => bind (sendBlocks _ _) fun _ => bind (setGl _) fun _ =>
    bind (updateTable _ _) fun _ => bind (setGl _) fun _ => bind (runCommand _) fun _ => bind (setGl _) fun _ =>
    bind waitNotBusy fun _ => bind (setGl _) fun _ => pure _

theorem commandAndResult (cmd : Word) (f : Word → Status) :
    Restores ⟨b, op, .idle, .idle, bm, it, fl, gl⟩ (commandAndResult cmd f) :=
  bind (runCommand _) fun _ => bind readResult fun _ => continueIfSuccess _

theorem commandAndWait (cmd : Word) : Restores ⟨b, op, .idle, .idle, bm, it, fl, gl⟩ (commandAndWait cmd) :=
  bind (runCommand _) fun _ => waitNotBusy

theorem hdrEncodeSeq (a : Addr) (rw : Dir) (size : BitVec 16) : Leaves q q (hdrEncodeSeq a rw size) := by
  unfold Machine.hdrEncodeSeq
  cases countOf size.toNat with
  | none => exact raise _
  | some cnt => exact bind (buildHeader _ _ _) fun _ => bind get fun _ => pure _

/-- A job of an idle block that ends normally leaves every unit idle (R132, R148, R172, R199). -/
theorem job {i : Instr} {s : State} {j : Job} (h : jobOf i s = some j) (hq : q.unitsIdle) :
    ∃ r : Seq, r.unitsIdle ∧ Leaves q r j.seq := by
  obtain ⟨b, op, ra, hc, bm, it, fl, gl⟩ := q
  simp only [Seq.unitsIdle] at hq
  obtain ⟨rfl, rfl, rfl, rfl, rfl⟩ := hq
  have idle (it' : ItState) : Seq.unitsIdle ⟨b, op, .idle, .idle, .idle, it', .idle, .idle⟩ := ⟨rfl, rfl, rfl, rfl, rfl⟩
  cases i with
  | selectPage _ | noOp | contPagedWrite _ | directRead _ _ | directWrite _ _ | pagedRead _ _ | pagedWrite _ _
    | reserved _ _ => cases h
  | hdrEncode a rw size => cases h; exact ⟨_, idle it, hdrEncodeSeq _ _ _⟩
  | regWrite a data => cases h; exact ⟨_, idle it, bind (regWrite _ _) fun _ => pure _⟩
  | regRead a size => cases h; exact ⟨_, idle it, bind (regRead _ _) fun _ => pure _⟩
  | rawWrite data => cases h; exact ⟨_, idle it, bind (rawWrite _) fun _ => pure _⟩
  | runCmd cmd => cases h; exact ⟨_, idle it, bind (runCommand _) fun _ => pure _⟩
  | bootSwitch => cases h; exact ⟨_, idle it, bind bootSwitch fun _ => pure _⟩
  | loadImage image =>
    simp only [jobOf] at h
    split at h
    · cases h
    · cases h; exact ⟨_, idle .done, loadImage _⟩
  | flashSave w => cases h; exact ⟨_, idle .done, flashSave _⟩
  | flashErase => cases h; exact ⟨_, idle .done, flashErase⟩
  | grammarLoad blob => cases h; exact ⟨_, idle it, ite (grammarLoad _) (raise _)⟩
  | reqReserved op => cases h; exact ⟨_, idle it, raise _⟩
  | cmdLoadComplete | cmdFlashInit | cmdSave | cmdErase =>
    cases h; exact ⟨_, idle it, bind (commandAndResult _ _) fun _ => pure _⟩
  | cmdGramDisable | cmdGramEnable =>
    simp only [jobOf] at h
    split at h
    · cases h; exact ⟨_, idle it, bind (commandAndWait _) fun _ => pure _⟩
    · cases h

end Leaves

end Sys2Proof.Machine
end

section
/-! SUPPORT. The invariant of the machine: it holds after reset, and every step keeps it (spec/10_state.md R14 to R20,
spec/40_frame_encoder.md R110 to R119, spec/60_exceptions.md R257, spec/70_reset_and_hazards.md R280). -/

namespace Sys2Proof.Machine

/-! The holding registers keep their widths. -/

theorem Holding.reset_legal (c : Config) : (Holding.reset c.bufCap).legal c :=
  ⟨rfl, .inl rfl, List.length_replicate, Nat.zero_le _, Nat.zero_le _, by
    show (0 : BitVec 17) = blockBytes 0
    decide⟩

/-- A header fits x[HDR], direct or paged (R16, R100). -/
theorem Holding.legal_setHdr {s : State} (h : s.x.legal s.cfg) (c : WireCfg) (a : Addr) (rw : Dir) (cnt : BitVec 7) :
    (s.setHdr (header c a rw cnt)).x.legal s.cfg := by
  obtain ⟨hhdr, -, hrest⟩ := h
  rcases header_length_cases c a rw cnt with hl | hl
  · refine ⟨?_, .inl ?_, hrest⟩ <;> simp [hl, hhdr]
  · refine ⟨?_, .inr ?_, hrest⟩ <;> simp [hl, hhdr]

/-- What fits the buffer leaves it as long as it was (R17). -/
theorem Holding.legal_setBuf {s : State} (h : s.x.legal s.cfg) {bs : List Byte} (hbs : bs.length ≤ s.cfg.bufCap) :
    (s.setBuf bs).x.legal s.cfg := by
  obtain ⟨hhdr, hlen, hbuf, -, hrest⟩ := h
  refine ⟨hhdr, hlen, ?_, hbs, hrest⟩
  simp only [State.setBuf_x, List.length_append, List.length_drop, hbuf]
  omega

/-- The parameters meet their premises, the responder's state is one R110 to R119 allow, and the holding registers are
inside their ranges. -/
structure State.Sound (s : State) : Prop where
  cfg : s.cfg.wf
  dev : s.dev.legal
  x : s.x.legal s.cfg

theorem bufCap_of_wf {c : Config} (h : c.wf) : 256 ≤ c.bufCap := by
  obtain ⟨-, ⟨hcap, -⟩, -⟩ := h
  exact hcap

theorem pollBound_of_wf {c : Config} (h : c.wf) : 1 ≤ c.pollBound := by
  obtain ⟨-, ⟨-, hpoll⟩, -⟩ := h
  exact hpoll

/-- Every operation that an instruction of the block is made of keeps the state sound. -/
theorem State.Sound.whole : Whole State.Sound where
  ra _ _ h := ⟨h.cfg, h.dev, h.x⟩
  access _ _ _ _ h := ⟨h.cfg, h.dev, h.x⟩
  hdr _ c a rw cnt h := ⟨h.cfg, h.dev, Holding.legal_setHdr h.x c a rw cnt⟩
  buf _ _ hbs h := ⟨h.cfg, h.dev, Holding.legal_setBuf h.x (hbs.elim (fun hl => hl.trans (bufCap_of_wf h.cfg)) id)⟩
  val _ _ h := ⟨h.cfg, h.dev, h.x⟩
  xfer _ _ _ _ _ _ _ _ hb h := ⟨h.cfg, busReply_legal hb h.dev, h.x⟩
  delay _ _ _ h := ⟨h.cfg, h.dev, h.x⟩
  hang _ _ _ h := ⟨h.cfg, h.dev, h.x⟩
  hc _ _ h := ⟨h.cfg, h.dev, h.x⟩
  bm _ _ h := ⟨h.cfg, h.dev, h.x⟩
  cmdOp _ _ h := ⟨h.cfg, h.dev, h.x⟩
  pollCnt s n hn h := by
    obtain ⟨hhdr, hlen, hbuf, hbl, -, hblk⟩ := h.x
    exact ⟨h.cfg, h.dev, hhdr, hlen, hbuf, hbl, hn.trans (max_le (pollBound_of_wf h.cfg) le_rfl), hblk⟩
  latch _ _ h := ⟨h.cfg, h.dev, h.x⟩
  clearRaw _ h := ⟨h.cfg, h.dev, h.x⟩
  count _ _ h := ⟨h.cfg, h.dev, h.x⟩
  clearCount _ h := ⟨h.cfg, h.dev, h.x⟩
  fl _ _ h := ⟨h.cfg, h.dev, h.x⟩
  it _ _ h := ⟨h.cfg, h.dev, h.x⟩
  gl _ _ h := ⟨h.cfg, h.dev, h.x⟩
  image _ _ h := by
    obtain ⟨hhdr, hlen, hbuf, hbl, hpoll, -⟩ := h.x
    exact ⟨h.cfg, h.dev, hhdr, hlen, hbuf, hbl, hpoll, rfl⟩
  cursor _ _ _ h := ⟨h.cfg, h.dev, h.x⟩
  accept _ _ h := ⟨h.cfg, h.dev, h.x⟩
  acceptWord _ h := ⟨h.cfg, h.dev, h.x⟩
  failed _ h := ⟨h.cfg, h.dev, h.x⟩
  respond _ _ _ h := ⟨h.cfg, h.dev, h.x⟩
  settled _ _ h := ⟨h.cfg, h.dev, h.x⟩
  tick _ _ h := ⟨h.cfg, h.dev, h.x⟩
  reset s h := ⟨h.cfg, h.dev, Holding.reset_legal s.cfg⟩

theorem resetBlock_sound {s u : State} (h : s.Sound) (hcfg : u.cfg = s.cfg) (hdev : u.dev = s.dev) :
    u.resetBlock.Sound := by
  refine ⟨?_, ?_, Holding.reset_legal u.cfg⟩
  · rw [State.resetBlock_cfg, hcfg]; exact h.cfg
  · rw [State.resetBlock_dev, hdev]; exact h.dev

/-- Every step keeps the state sound. -/
theorem sound_of_step {s t : State} (h : Stepped s t) (hs : s.Sound) : t.Sound := by
  cases h with
  | reset _ =>
    obtain ⟨u, evs, mvs, hu, hcfg, hdev, -, -⟩ := assertReset_eq s
    rw [hu]
    exact resetBlock_sound hs hcfg hdev
  | waits => exact hs
  | wire inbox d hd => exact ⟨hs.cfg, hd hs.dev, hs.x⟩
  | block i inbox _ hi _ hx => exact State.Sound.whole.exec hi hx ⟨hs.cfg, hs.dev, hs.x⟩

/-! An idle block has every unit idle and waits in no bus primitive. -/

/-- Where the block is idle, so are its units, and it waits in no bus primitive (R257, R309). -/
def State.Rests (s : State) : Prop := s.seq.busy = false → s.seq.unitsIdle ∧ s.env.inFlight = none

theorem resetBlock_rests (s : State) : s.resetBlock.Rests := fun _ => ⟨⟨rfl, rfl, rfl, rfl, rfl⟩, rfl⟩

/-- What the end of a job says of the block: busy where it waits in a primitive, else in no primitive. -/
theorem Job.Course.run_waits {j : Job} {evs : List Event} {e : Env} {d : Dev} (c : j.Course evs e d) :
    (∀ u, j.seq.run j.start = .error .hung u → u.seq.busy = j.start.seq.busy) ∧
      (Final (j.seq.run j.start) → (stateOf (j.seq.run j.start)).env.inFlight = j.start.env.inFlight) := by
  rcases c.run_cases with ⟨-, u, -, -, hrun⟩ | ⟨-, u, p, hu, hrun, -⟩ | ⟨r, hfin, -, hrun, -⟩
  · rw [hrun]
    exact ⟨fun _ h => (nomatch h), fun h => h.elim⟩
  · rw [hrun]
    refine ⟨fun v hv => ?_, fun h => h.elim⟩
    cases hv
    exact hu.busy
  · rw [hrun]
    refine ⟨fun v hv => absurd hv ((hfin.withBus e d).ne_hung v), fun _ => ?_⟩
    rw [stateOf_withBus]
    exact (replay_after c.bus).inFlight

/-- The state a job of an idle block starts in: its units idle, in no bus primitive. -/
theorem start_idle_of_jobOf {i : Instr} {s : State} {j : Job} (h : jobOf i s = some j) (hq : s.seq.unitsIdle)
    (hin : s.env.inFlight = none) : j.start.seq.unitsIdle ∧ j.start.env.inFlight = none := by
  rcases jobOf_request_or_word h with ⟨-, op, b, m, rfl⟩ | ⟨-, m, rfl⟩ <;> exact ⟨hq, hin⟩

/-- However an instruction that an idle block ran ends, a block that is idle again rests (R257). -/
theorem rests_of_exec {i : Instr} {s t : State} (hi : i.space ≠ .wire) (hx : exec i s = .next t)
    (hq : s.seq.unitsIdle) (hin : s.env.inFlight = none) : t.Rests := by
  obtain ⟨j, evs, e, d, hj, c, rfl⟩ := course_of_exec hi hx
  obtain ⟨hq0, hin0⟩ := start_idle_of_jobOf hj hq hin
  obtain ⟨q, hidle, hleaves⟩ := Leaves.job hj hq0
  have hends := hleaves _ rfl
  obtain ⟨hhung, hfinal⟩ := c.run_waits
  have hbusy := (accepted_of_jobOf hj).busy
  have waits (u : State) (hu : j.seq.run j.start = .error .hung u) : u.Rests := fun hb =>
    absurd (((hhung u hu).trans hbusy).symm.trans hb) (by simp)
  have ended (p : Payload) (u : State) (hu : j.seq.run j.start = .ok p u) :
      u.seq.unitsIdle ∧ u.env.inFlight = none := by
    rw [hu] at hends hfinal
    have hseq : u.seq = q := hends
    exact ⟨hseq ▸ hidle, (hfinal trivial).trans hin0⟩
  have failed (st : Status) (u : State) (hu : j.seq.run j.start = .error (.raised st) u) : u.env.inFlight = none := by
    rw [hu] at hfinal
    exact (hfinal trivial).trans hin0
  rcases jobOf_request_or_word hj with ⟨-, op, b, m, rfl⟩ | ⟨-, m, rfl⟩
  · refine settle_elim waits (fun _ => resetBlock_rests _) (fun p u hu _ => ended p u hu) (fun st u hu _ => ?_)
    simp [Seq.unitsIdle, failed st u hu]
  · refine settleWord_elim waits (fun _ => resetBlock_rests _) (fun p u hu _ => ended p u hu) (fun st u hu _ => ?_)
    simp [Seq.unitsIdle, failed st u hu]

/-- Every step leaves a block that rests where it is idle. -/
theorem rests_of_step {s t : State} (h : Stepped s t) (hs : s.Rests) : t.Rests := by
  cases h with
  | reset _ =>
    obtain ⟨u, evs, mvs, hu, -⟩ := assertReset_eq s
    rw [hu]
    exact resetBlock_rests u
  | waits => exact hs
  | wire inbox d _ => exact hs
  | block i inbox _ hi hidle hx =>
    obtain ⟨hq, hin⟩ := hs hidle
    exact rests_of_exec hi hx hq hin

theorem inv_iff (s : State) : s.Inv ↔ s.Sound ∧ s.Rests :=
  ⟨fun ⟨hcfg, hdev, hx, hrests⟩ => ⟨⟨hcfg, hdev, hx⟩, hrests⟩,
    fun ⟨⟨hcfg, hdev, hx⟩, hrests⟩ => ⟨hcfg, hdev, hx, hrests⟩⟩

/-- Settles O51: a step is a reset, a wait, a turn of the responder, or an instruction of an idle block, and each keeps
both halves of the invariant. -/
theorem invariantKept : Obligations.InvariantKept := by
  intro s t hs h
  obtain ⟨hsound, hrests⟩ := (inv_iff s).mp hs
  have hst := stepped_of_step h
  exact (inv_iff t).mpr ⟨sound_of_step hst hsound, rests_of_step hst hrests⟩

/-! The invariant after reset. -/

/-- The OPEN code FINIT_NO_DEV is never FINIT_OK (R5 group F; log entry 4). -/
theorem add_gap_ne (v : Word) (k : Fin 65535) : v ≠ v + BitVec.ofNat 16 (k.val + 1) := by
  have := k.isLt
  bv_omega

/-- An OPEN address is even where it ends in a bit that is clear (R45; log entry 4). -/
theorem append_zero_bit (v : BitVec 15) : (v ++ 0#1 : BitVec 16)[0] = false := by
  rw [BitVec.getElem_append]; rfl

/-- The parameters of the controller after reset meet their premises (R5, R45, R81, R210; log entries 3 and 4). -/
theorem atReset_wf : Config.atReset.wf := by
  have hblock := Config.openGramBlockPred.isLt
  refine ⟨by decide, ⟨le_rfl, Nat.le_add_left 1 _⟩, ⟨rfl, rfl, rfl, rfl, rfl, rfl, rfl, append_zero_bit _, rfl⟩, by decide,
    by decide, by decide, add_gap_ne _ _, by decide, ?_⟩
  simp only [Config.atReset]
  omega

/-- Settles O52: after reset the parameters are the model's, the responder holds nothing, and the block is idle. -/
theorem invariantAtReset : Obligations.InvariantAtReset := by
  refine (inv_iff _).mpr ⟨⟨atReset_wf, ?_, Holding.reset_legal _⟩, fun _ => ⟨⟨rfl, rfl, rfl, rfl, rfl⟩, rfl⟩⟩
  refine ⟨⟨List.Pairwise.nil, by simp [State.reset, Dev.reset]⟩, by simp [State.reset, Dev.reset], by decide, ?_⟩
  intro p o hpo
  cases hpo

end Sys2Proof.Machine
end

section
/-! SUPPORT. Predicates that need less than every operation: what a handshake, a grammar load and a flash sequence write,
each taken for itself (spec/42_host_command.md R141, spec/44_flash_ops.md R190 and R195, spec/45_grammar_loader.md
R211). -/

namespace Sys2Proof.Machine

theorem Ends.mono {α : Type} {P P' Q Q' : State → Prop} {r : EStateM.Result Abort State α} (h : Ends P Q r)
    (hP : ∀ s, P s → P' s) (hQ : ∀ s, Q s → Q' s) : Ends P' Q' r := by
  cases r with
  | ok a t => exact hQ t h
  | error e t => exact hP t h

namespace HcStable

variable {P : State → Prop} (h : HcStable P)

include h

theorem hdrEncodeSeq (a : Addr) (rw : Dir) (size : BitVec 16) : Keeps P (hdrEncodeSeq a rw size) := by
  unfold Machine.hdrEncodeSeq
  cases countOf size.toNat with
  | none => exact Keeps.raise _
  | some cnt => exact Keeps.bind (h.buildHeader _ _ _) fun _ => Keeps.bind Keeps.get fun _ => Keeps.pure _

theorem waitNotBusy : Keeps P waitNotBusy := Keeps.bind Keeps.config fun _ => h.pollPhase _ _

theorem extWrite (a : DWord) (bytes : List Byte) : Keeps P (extWrite a bytes) :=
  Keeps.bind Keeps.config fun _ => Keeps.bind (h.regWrite32 _ _) fun _ => h.regWrite _ _

theorem sendBlocks (a : DWord) (blocks : List (List Byte)) : Keeps P (sendBlocks a blocks) := by
  induction blocks generalizing a with
  | nil => exact Keeps.pure _
  | cons b t ih => exact Keeps.bind (h.extWrite _ _) fun _ => ih _

theorem appendSegment (cnt : Word) (start len : DWord) : Keeps P (appendSegment cnt start len) :=
  Keeps.bind Keeps.config fun _ => Keeps.bind (h.regWrite32 _ _) fun _ => Keeps.bind (h.regWrite32 _ _) fun _ =>
  h.regWrite16 _ _

theorem updateTable (start len : DWord) : Keeps P (updateTable start len) :=
  Keeps.bind Keeps.config fun _ => Keeps.bind (h.regRead16 _) fun _ => Keeps.ite (h.appendSegment _ _ _) <|
  Keeps.bind (h.regRead32 _) fun _ => Keeps.ite (h.regWrite32 _ _) (h.appendSegment _ _ _)

/-- A grammar load writes, besides what HC writes, GL_STATE alone (R211). -/
theorem grammarLoad (hgl : ∀ s st, P s → P (s.setGl st)) (blob : List Byte) : Keeps P (grammarLoad blob) := by
  have setGl (st : GlState) : Keeps P (update (·.setGl st)) := Keeps.update fun s => hgl s st
  exact Keeps.bind Keeps.config fun _ => Keeps.bind (setGl _) fun _ => Keeps.bind (h.regRead32 _) fun _ =>
    Keeps.bind (h.regRead32 _) fun _ => Keeps.bind (Keeps.raiseIf _ _) fun _ => Keeps.bind (setGl _) fun _ =>
    Keeps.bind (h.runCommand _) fun _ => Keeps.bind (setGl _) fun _ => Keeps.bind h.waitNotBusy fun _ =>
    Keeps.bind (setGl _) fun _ => Keeps.bind (h.sendBlocks _ _) fun _ => Keeps.bind (setGl _) fun _ =>
    Keeps.bind (h.updateTable _ _) fun _ => Keeps.bind (setGl _) fun _ => Keeps.bind (h.runCommand _) fun _ =>
    Keeps.bind (setGl _) fun _ => Keeps.bind h.waitNotBusy fun _ => Keeps.bind (setGl _) fun _ => Keeps.pure _

/-- The read of a result writes, besides what RA writes, the response latch alone (R258). -/
theorem readResult (hl : ∀ s v, P s → P (s.latch v)) : Keeps P readResult :=
  Keeps.bind Keeps.config fun _ => Keeps.bind (h.regRead16 _) fun _ =>
  Keeps.bind (Keeps.update fun s => hl s _) fun _ => Keeps.pure _

theorem commandAndResult (hl : ∀ s v, P s → P (s.latch v)) (cmd : Word) (f : Word → Status) :
    Keeps P (commandAndResult cmd f) :=
  Keeps.bind (h.runCommand _) fun _ => Keeps.bind (h.readResult hl) fun _ => Keeps.continueIfSuccess _

theorem commandAndWait (cmd : Word) : Keeps P (commandAndWait cmd) := Keeps.bind (h.runCommand _) fun _ => h.waitNotBusy

end HcStable

/-- Kept, besides what HC and the boot-mode controller write, by what a flash sequence writes: the latches, FL_STATE, and
of IT_STATE the two transitions it makes (R190, R195). -/
structure FlashStable (P : State → Prop) : Prop extends HcStable P where
  latch : ∀ s v, P s → P (s.latch v)
  clearRaw : ∀ s, P s → P s.clearRaw
  count : ∀ s v, P s → P (s.setCount v)
  clearCount : ∀ s, P s → P s.clearCount
  fl : ∀ s st, P s → P (s.setFl st)
  concluding : ∀ s, P s → P (s.setIt .concluding)
  done : ∀ s, P s → P (s.setIt .done)

namespace FlashStable

variable {P : State → Prop} (h : FlashStable P)

include h

theorem setFl (st : FlState) : Keeps P (update (·.setFl st)) := Keeps.update fun s => h.fl s st
theorem readResult : Keeps P readResult := h.toHcStable.readResult h.latch

theorem concludeLoad : Keeps P concludeLoad :=
  Keeps.bind Keeps.config fun _ => Keeps.bind (Keeps.update h.concluding) fun _ => Keeps.bind (h.runCommand _) fun _ =>
  Keeps.bind h.readResult fun _ => Keeps.continueIfSuccess _

theorem flashInit : Keeps P flashInit :=
  Keeps.bind Keeps.config fun _ => Keeps.bind (h.setFl _) fun _ => Keeps.bind (h.runCommand _) fun _ =>
  Keeps.bind (h.setFl _) fun _ => Keeps.bind h.readResult fun _ => Keeps.continueIfSuccess _

theorem readCount : Keeps P readCount :=
  Keeps.bind Keeps.config fun _ => Keeps.bind (h.setFl _) fun _ => Keeps.bind (h.regRead16 _) fun _ =>
  Keeps.update fun s => h.count s _

theorem flashSave (wantCount : Bool) : Keeps P (flashSave wantCount) := by
  have hend : Keeps P (do
      update (·.setFl .idle)
      update (·.setIt .done)
      return Payload.none) :=
    Keeps.bind (h.setFl _) fun _ => Keeps.bind (Keeps.update h.done) fun _ => Keeps.pure _
  exact Keeps.bind Keeps.config fun _ => Keeps.bind (Keeps.update h.concluding) fun _ =>
    Keeps.bind (Keeps.update h.clearRaw) fun _ => Keeps.bind (Keeps.update h.clearCount) fun _ =>
    Keeps.bind (h.setFl _) fun _ => Keeps.bind h.bootSwitch fun _ => Keeps.bind h.flashInit fun _ =>
    Keeps.bind (h.setFl _) fun _ => Keeps.bind (h.regWrite _ _) fun _ => Keeps.bind (h.setFl _) fun _ =>
    Keeps.bind (h.runCommand _) fun _ => Keeps.bind (h.setFl _) fun _ => Keeps.bind h.readResult fun _ =>
    Keeps.bind (Keeps.continueIfSuccess _) fun _ => Keeps.ite (Keeps.bind h.readCount fun _ => hend) hend

theorem eraseAfterBoot (c : Config) : Keeps P (eraseAfterBoot c) :=
  Keeps.bind h.flashInit fun _ => Keeps.bind (h.setFl _) fun _ => Keeps.bind (h.regWrite16 _ _) fun _ =>
  Keeps.bind (h.setFl _) fun _ => Keeps.bind (h.runCommand _) fun _ => Keeps.bind (h.setFl _) fun _ =>
  Keeps.bind h.readResult fun _ => Keeps.bind (Keeps.continueIfSuccess _) fun _ => Keeps.bind (h.setFl _) fun _ =>
  Keeps.bind (Keeps.update h.done) fun _ => Keeps.pure _

theorem flashErase : Keeps P flashErase := by
  rw [flashErase_eq]
  exact Keeps.bind Keeps.config fun _ => Keeps.bind (Keeps.update h.concluding) fun _ =>
    Keeps.bind (Keeps.update h.clearRaw) fun _ => Keeps.bind (h.setFl _) fun _ => Keeps.bind (h.regRead16 _) fun _ =>
    Keeps.ite (Keeps.bind h.bootSwitch fun _ => h.eraseAfterBoot _) (h.eraseAfterBoot _)

end FlashStable

/-! No raw code without a result mapping. -/

/-- A request in progress that has latched no response code and no count, and was not answered (R22, R29). -/
structure State.Unlatched (s : State) : Prop where
  raw : s.x.rawValid = false
  count : s.x.countValid = false
  rsp : s.rsp = none

/-- RA, HC and the boot-mode controller latch nothing (R151). -/
theorem State.Unlatched.hcStable : HcStable State.Unlatched where
  ra _ _ h := ⟨h.raw, h.count, h.rsp⟩
  access _ _ _ _ h := ⟨h.raw, h.count, h.rsp⟩
  hdr _ _ _ _ _ h := ⟨h.raw, h.count, h.rsp⟩
  buf _ _ _ h := ⟨h.raw, h.count, h.rsp⟩
  val _ _ h := ⟨h.raw, h.count, h.rsp⟩
  xfer _ _ _ _ _ _ _ _ _ h := ⟨h.raw, h.count, h.rsp⟩
  delay _ _ _ h := ⟨h.raw, h.count, h.rsp⟩
  hang _ _ _ h := ⟨h.raw, h.count, h.rsp⟩
  hc _ _ h := ⟨h.raw, h.count, h.rsp⟩
  bm _ _ h := ⟨h.raw, h.count, h.rsp⟩
  cmdOp _ _ h := ⟨h.raw, h.count, h.rsp⟩
  pollCnt _ _ _ h := ⟨h.raw, h.count, h.rsp⟩

/-- An answer, if there is one, carries neither a response code nor a count. -/
def State.AnswersPlain (t : State) : Prop := ∀ r, t.rsp = some r → r.rawValid = false ∧ r.count = none

theorem respond_plain {u : State} (h : u.Unlatched) (st : Status) (p : Payload) : (u.respond st p).AnswersPlain := by
  intro r hr
  cases hr
  exact ⟨h.raw, by simp [h.count]⟩

/-- A sequence that latches nothing is answered plainly, however it ends. -/
theorem plain_of_keeps {op : BitVec 4} {drivesIt : Bool} {m : M Payload} (hm : Keeps State.Unlatched m) {s t : State}
    (ht : runRequest op drivesIt m s = .next t) : t.AnswersPlain := by
  have hends := hm (s.accept op) ⟨rfl, rfl, rfl⟩
  cases ht
  refine settle_elim (fun u hu r hr => ?_) (fun _ r hr => ?_) (fun p u hu => ?_) (fun st u hu => ?_)
  · rw [hu] at hends
    exact absurd (hends.rsp.symm.trans hr) (by simp)
  · cases hr
  · rw [hu] at hends
    exact respond_plain (u := { u with env := u.env.tick }) ⟨hends.raw, hends.count, hends.rsp⟩ _ _
  · rw [hu] at hends
    exact respond_plain ⟨by simp [hends.raw], by simp [hends.count], by simp [hends.rsp]⟩ _ _

/-- Settles O58: none of these sequences writes the response latch or the count. -/
theorem noRawCodeWithoutMapping : Obligations.NoRawCodeWithoutMapping := by
  intro s t i r hi ht hr
  have h := State.Unlatched.hcStable
  suffices t.AnswersPlain from this r hr
  rcases hi with ⟨a, rw, size, rfl⟩ | ⟨a, data, rfl⟩ | ⟨a, size, rfl⟩ | ⟨data, rfl⟩ | ⟨cmd, rfl⟩ | rfl | ⟨blob, rfl⟩ |
    ⟨op, rfl⟩
  · exact plain_of_keeps (h.hdrEncodeSeq _ _ _) ht
  · exact plain_of_keeps (Keeps.bind (h.regWrite _ _) fun _ => Keeps.pure _) ht
  · exact plain_of_keeps (Keeps.bind (h.regRead _ _) fun _ => Keeps.pure _) ht
  · exact plain_of_keeps (Keeps.bind (h.rawWrite _) fun _ => Keeps.pure _) ht
  · exact plain_of_keeps (Keeps.bind (h.runCommand _) fun _ => Keeps.pure _) ht
  · exact plain_of_keeps (Keeps.bind h.bootSwitch fun _ => Keeps.pure _) ht
  · exact plain_of_keeps (Keeps.ite (h.grammarLoad (fun _ _ hu => ⟨hu.raw, hu.count, hu.rsp⟩) _) (Keeps.raise _)) ht
  · exact plain_of_keeps (Keeps.raise _) ht

end Sys2Proof.Machine
end

section
/-! SUPPORT. The image cursor: while an image streams, position and rest make up header and body (spec/10_state.md R20,
spec/43_image_transport.md R160, R165 to R168). -/

namespace Sys2Proof.Machine

/-! The pieces of a body are no more than the body, whatever the block size. -/

theorem chunksGo_flatten_le (m n : Nat) (s : List Byte) : (chunksGo m n s).flatten.length ≤ s.length := by
  induction n generalizing s with
  | zero => simp [chunksGo]
  | succ n ih =>
    rw [chunksGo]
    split
    · simp
    · have := ih (s.drop m)
      simp only [List.flatten_cons, List.length_append, List.length_take, List.length_drop] at this ⊢
      omega

theorem chunksOf_imageBody_le (m : Nat) (h : ImgHeader) (image : List Byte) :
    (chunksOf m (imageBody h image)).flatten.length ≤ h.total.toNat :=
  (chunksGo_flatten_le _ _ _).trans (List.length_take_le _ _)

/-! The cursor before, while and after an image streams. -/

/-- The cursor is at the end of what was sent: position and rest make up header and body, and what is still to be sent
is no more than the rest (R20, R165). -/
structure State.CursorAt (rest : List (List Byte)) (s : State) : Prop where
  sum : s.x.imgPos.toNat + s.x.imgRem.toNat = 12 + s.x.ihTotal.toNat
  fits : rest.flatten.length ≤ s.x.imgRem.toNat

theorem State.CursorAt.legal {rest : List (List Byte)} {s : State} (h : s.CursorAt rest) : s.cursorLegal :=
  fun _ => h.sum

theorem cursorLegal_of_it {s : State} (h : s.seq.it ≠ .streaming) : s.cursorLegal := fun hs => absurd hs h

/-- A chunk that was sent moves the cursor by its length, which neither register wraps at (R20, R165). -/
theorem State.CursorAt.advance {chunk : List Byte} {rest : List (List Byte)} {s : State}
    (h : s.CursorAt (chunk :: rest)) :
    (s.setCursor (s.x.imgPos + BitVec.ofNat 33 chunk.length) (s.x.imgRem - BitVec.ofNat 32 chunk.length)).CursorAt
      rest := by
  obtain ⟨hsum, hfits⟩ := h
  rw [List.flatten_cons, List.length_append] at hfits
  have hrem := s.x.imgRem.isLt
  have htotal := s.x.ihTotal.isLt
  have hpos' : (s.x.imgPos + BitVec.ofNat 33 chunk.length).toNat = s.x.imgPos.toNat + chunk.length := by
    rw [BitVec.toNat_add, BitVec.toNat_ofNat]
    omega
  have hrem' : (s.x.imgRem - BitVec.ofNat 32 chunk.length).toNat = s.x.imgRem.toNat - chunk.length := by
    rw [BitVec.toNat_sub, BitVec.toNat_ofNat]
    omega
  constructor
  · simp only [State.setCursor_x, hpos', hrem']
    omega
  · simp only [State.setCursor_x, hrem']
    omega

/-- RA and the boot-mode controller leave the cursor alone. -/
theorem State.CursorAt.hcStable (rest : List (List Byte)) : HcStable (State.CursorAt rest) where
  ra _ _ h := ⟨h.sum, h.fits⟩
  access _ _ _ _ h := ⟨h.sum, h.fits⟩
  hdr _ _ _ _ _ h := ⟨h.sum, h.fits⟩
  buf _ _ _ h := ⟨h.sum, h.fits⟩
  val _ _ h := ⟨h.sum, h.fits⟩
  xfer _ _ _ _ _ _ _ _ _ h := ⟨h.sum, h.fits⟩
  delay _ _ _ h := ⟨h.sum, h.fits⟩
  hang _ _ _ h := ⟨h.sum, h.fits⟩
  hc _ _ h := ⟨h.sum, h.fits⟩
  bm _ _ h := ⟨h.sum, h.fits⟩
  cmdOp _ _ h := ⟨h.sum, h.fits⟩
  pollCnt _ _ _ h := ⟨h.sum, h.fits⟩

/-- No transition but the one into streaming touches what `cursorLegal` says. -/
theorem cursorLegal_flashStable : FlashStable State.cursorLegal where
  ra _ _ h := h
  access _ _ _ _ h := h
  hdr _ _ _ _ _ h := h
  buf _ _ _ h := h
  val _ _ h := h
  xfer _ _ _ _ _ _ _ _ _ h := h
  delay _ _ _ h := h
  hang _ _ _ h := h
  hc _ _ h := h
  bm _ _ h := h
  cmdOp _ _ h := h
  pollCnt _ _ _ h := h
  latch _ _ h := h
  clearRaw _ h := h
  count _ _ h := h
  clearCount _ h := h
  fl _ _ h := h
  concluding _ _ := cursorLegal_of_it (by simp)
  done _ _ := cursorLegal_of_it (by simp)

/-! LOAD_IMAGE. -/

/-- A chunk is sent, or the cursor stays where it was (R166 to R169). -/
theorem sendChunk_cursor (fw : Bool) {chunk : List Byte} {rest : List (List Byte)} {s : State}
    (h : s.CursorAt (chunk :: rest)) :
    Ends (State.CursorAt (chunk :: rest)) (State.CursorAt rest) ((sendChunk fw chunk).run s) := by
  have hst := State.CursorAt.hcStable (chunk :: rest)
  have hsend (u : State) (hu : u.CursorAt (chunk :: rest)) :
      Ends (State.CursorAt (chunk :: rest)) (State.CursorAt rest) ((sendAfterBoot chunk).run u) :=
    Keeps.bind_at (hst.rawWrite chunk u hu) fun _ _ hv => State.CursorAt.advance hv
  have hbuf : (s.setBuf chunk).CursorAt (chunk :: rest) := ⟨h.sum, h.fits⟩
  rw [sendChunk_eq, update_bind]
  cases fw with
  | true => exact Keeps.bind_at (hst.bootSwitch _ hbuf) fun _ u hu => hsend u hu
  | false => exact hsend _ hbuf

/-- Wherever the streaming loop stops, position and rest make up header and body. -/
theorem sendChunks_cursor (fw : Bool) {chunks : List (List Byte)} {s : State} (h : s.CursorAt chunks) :
    Ends State.cursorLegal State.cursorLegal ((sendChunks fw chunks).run s) := by
  induction chunks generalizing s with
  | nil => exact h.legal
  | cons chunk rest ih =>
    exact Keeps.bind_at ((sendChunk_cursor fw h).mono (fun _ hu => hu.legal) fun _ hu => hu) fun _ _ hu => ih hu

/-- The header is parsed and its total held, no image streams yet (R162, R176). -/
structure State.Parsed (h : ImgHeader) (s : State) : Prop where
  it : s.seq.it ≠ .streaming
  total : s.x.ihTotal = h.total

theorem State.Parsed.legal {h : ImgHeader} {s : State} (hs : s.Parsed h) : s.cursorLegal := cursorLegal_of_it hs.it

/-- The cursor starts behind the header, with the whole body to come (R20, R165). -/
theorem State.Parsed.start {h : ImgHeader} {s : State} (hs : s.Parsed h) (m : Nat) (image : List Byte) :
    ((s.setCursor (BitVec.ofNat 33 imgHdrLen) h.total).setIt .streaming).CursorAt (chunksOf m (imageBody h image)) := by
  refine ⟨?_, chunksOf_imageBody_le m h image⟩
  simp [hs.total, imgHdrLen]

/-- A check ends where it began, or the sequence is cut short there. -/
theorem raiseIf_ends {P Q : State → Prop} (hPQ : ∀ s, Q s → P s) (c : Bool) (st : Status) {s : State} (hs : Q s) :
    Ends P Q ((raiseIf c st).run s) := by
  cases c
  · exact hs
  · exact hPQ s hs

theorem loadImage_cursor (image : List Byte) : Keeps State.cursorLegal (loadImage image) := by
  intro s _
  unfold loadImage
  rw [update_bind, update_bind]
  refine Keeps.bind_at (Q := fun t => t.seq.it ≠ .streaming)
    (raiseIf_ends (fun _ => cursorLegal_of_it) _ _ (by simp)) fun _ t _ => ?_
  rw [config_bind, update_bind, update_bind, update_bind]
  have hparsed : (((t.setImage (parseHeader t.cfg.img image)).setIt .headerParsed).setBlkSize
      (blockBytes (parseHeader t.cfg.img image).blkWords)).Parsed (parseHeader t.cfg.img image) := ⟨by simp, by simp⟩
  have check (c : Bool) (st : Status) {u : State} (hu : u.Parsed (parseHeader t.cfg.img image)) :=
    raiseIf_ends (fun v (hv : v.Parsed (parseHeader t.cfg.img image)) => hv.legal) c st hu
  refine Keeps.bind_at (check _ _ hparsed) fun _ _ h1 => Keeps.bind_at (check _ _ h1) fun _ _ h2 =>
    Keeps.bind_at (check _ _ h2) fun _ u h3 => ?_
  rw [update_bind, update_bind]
  have hdone : Keeps State.cursorLegal (do
      update (·.setIt .done)
      return Payload.none) :=
    Keeps.bind (Keeps.update cursorLegal_flashStable.done) fun _ => Keeps.pure _
  exact Keeps.bind_at (sendChunks_cursor _ (h3.start _ image)) fun _ v hv =>
    (Keeps.ite (Keeps.bind cursorLegal_flashStable.concludeLoad fun _ => hdone) hdone) v hv

/-! Every instruction of the block. -/

theorem cursor_of_jobOf {i : Instr} {s : State} {j : Job} (h : jobOf i s = some j) :
    Keeps State.cursorLegal j.seq := by
  have hf := cursorLegal_flashStable
  have hl : ∀ (s : State) v, s.cursorLegal → (s.latch v).cursorLegal := hf.latch
  cases i with
  | selectPage _ | noOp | contPagedWrite _ | directRead _ _ | directWrite _ _ | pagedRead _ _ | pagedWrite _ _
    | reserved _ _ => cases h
  | hdrEncode a rw size => cases h; exact hf.hdrEncodeSeq _ _ _
  | regWrite a data => cases h; exact Keeps.bind (hf.regWrite _ _) fun _ => Keeps.pure _
  | regRead a size => cases h; exact Keeps.bind (hf.regRead _ _) fun _ => Keeps.pure _
  | rawWrite data => cases h; exact Keeps.bind (hf.rawWrite _) fun _ => Keeps.pure _
  | runCmd cmd => cases h; exact Keeps.bind (hf.runCommand _) fun _ => Keeps.pure _
  | bootSwitch => cases h; exact Keeps.bind hf.bootSwitch fun _ => Keeps.pure _
  | loadImage image =>
    simp only [jobOf] at h
    split at h
    · cases h
    · cases h; exact loadImage_cursor _
  | flashSave w => cases h; exact hf.flashSave _
  | flashErase => cases h; exact hf.flashErase
  | grammarLoad blob => cases h; exact Keeps.ite (hf.grammarLoad (fun _ _ hs => hs) _) (Keeps.raise _)
  | reqReserved op => cases h; exact Keeps.raise _
  | cmdLoadComplete | cmdFlashInit | cmdSave | cmdErase =>
    cases h; exact Keeps.bind (hf.commandAndResult hl _ _) fun _ => Keeps.pure _
  | cmdGramDisable | cmdGramEnable =>
    simp only [jobOf] at h
    split at h
    · cases h; exact Keeps.bind (hf.commandAndWait _) fun _ => Keeps.pure _
    · cases h

theorem resetBlock_cursor (s : State) : s.resetBlock.cursorLegal := cursorLegal_of_it (by simp [Seq.reset])

/-- A raise leaves IT failed, or as it was (R169, R257). -/
theorem abort_cursor {s : State} (h : s.cursorLegal) (b : Bool) : (s.abort b).cursorLegal := by
  cases b with
  | true => exact cursorLegal_of_it (by simp)
  | false => exact h

/-- However an instruction of the block ends, the cursor is legal. -/
theorem cursor_of_exec {i : Instr} {s t : State} (hi : i.space ≠ .wire) (hx : exec i s = .next t)
    (hs : s.cursorLegal) : t.cursorLegal := by
  obtain ⟨j, hj⟩ := job_of_exec hi hx
  have hstart : j.start.cursorLegal := by
    rcases jobOf_request_or_word hj with ⟨-, op, b, m, rfl⟩ | ⟨-, m, rfl⟩ <;> exact hs
  have hends := cursor_of_jobOf hj _ hstart
  rw [exec_of_job hj] at hx
  cases hx
  have waits (u : State) (hu : j.seq.run j.start = .error .hung u) : u.cursorLegal := by rw [hu] at hends; exact hends
  have ended (p : Payload) (u : State) (hu : j.seq.run j.start = .ok p u) : u.cursorLegal := by
    rw [hu] at hends; exact hends
  have failed (b : Bool) (st : Status) (u : State) (hu : j.seq.run j.start = .error (.raised st) u) :
      ({ u with env := u.env.tick }.abort b).cursorLegal := by
    rw [hu] at hends
    exact abort_cursor (s := { u with env := u.env.tick }) hends b
  rcases jobOf_request_or_word hj with ⟨-, op, b, m, rfl⟩ | ⟨-, m, rfl⟩
  · exact settle_elim waits (fun _ => resetBlock_cursor _) ended (failed b)
  · exact settleWord_elim waits (fun _ => resetBlock_cursor _) ended (failed false)

/-- Settles O34: the cursor is set when an image begins to stream, moves by each chunk sent, and is left alone by
everything else while it does. -/
theorem cursorInvariant : Obligations.CursorInvariant := by
  intro s t hs h
  cases stepped_of_step h with
  | reset _ =>
    obtain ⟨u, evs, mvs, hu, -⟩ := assertReset_eq s
    rw [hu]
    exact resetBlock_cursor u
  | waits => exact hs
  | wire inbox d _ => exact hs
  | block i inbox _ hi _ hx => exact cursor_of_exec hi hx hs

end Sys2Proof.Machine
end

section
/-! SUPPORT. The select value of a page, and the byte-order conversions byte by byte (spec/20_memory.md R46, R51 to
R53). -/

namespace Sys2Proof.Machine

/-! The select value. -/

theorem selectValue_of_ne {p : Byte} (h : p ≠ 0xFF#8) : selectValue p = p - 1 := if_neg h

/-- The select value of a page selects that page (R46, R78). -/
theorem pageOfSelect_selectValue {p : Byte} (h : p ≠ 0) : pageOfSelect (selectValue p) = some p := by
  by_cases hp : p = 0xFF#8
  · subst hp; rfl
  · have h1 : p - 1 ≠ 0xFE#8 := by bv_omega
    have h2 : p - 1 ≠ 0xFF#8 := by bv_omega
    rw [selectValue_of_ne hp, pageOfSelect, if_neg h1, if_neg h2, BitVec.sub_add_cancel]

/-- Settles O11: that the select value selects its page makes it injective, and 0xFE selects no page. -/
theorem selectValueLaw : Obligations.SelectValueLaw := by
  refine ⟨fun p _ hp => selectValue_of_ne (by bv_omega), rfl, fun p q hp hq h => ?_, fun p hp h => ?_⟩
  · have hpq := pageOfSelect_selectValue hp
    rw [h, pageOfSelect_selectValue hq] at hpq
    exact (Option.some.inj hpq).symm
  · have hnone := pageOfSelect_selectValue hp
    rw [h] at hnone
    cases hnone

/-! Byte order. -/

theorem toDev_of_eq {c : Config} (h : c.hostEndian = c.devEndian) (s : List Byte) : toDev c s = s := if_pos h

theorem toDev_of_ne {c : Config} (h : c.hostEndian ≠ c.devEndian) (s : List Byte) : toDev c s = swap16 s := if_neg h

@[simp] theorem toHost_toDev (c : Config) (s : List Byte) : toHost c (toDev c s) = s := toDev_toHost c s

/-- The two bytes of a pair change places (R6). -/
theorem swap16_getD (s : List Byte) {i : Nat} (h : 2 * i + 1 < s.length) :
    (swap16 s).getD (2 * i) 0 = s.getD (2 * i + 1) 0 ∧ (swap16 s).getD (2 * i + 1) 0 = s.getD (2 * i) 0 := by
  induction s using swap16.induct generalizing i with
  | case1 a b t ih =>
    rw [swap16]
    cases i with
    | zero => exact ⟨rfl, rfl⟩
    | succ i =>
      simp only [List.length_cons] at h
      exact ih (i := i) (by omega)
  | case2 t hpair =>
    have := Mem.length_le_one_of_no_pair hpair
    omega

/-- Settles O14: the conversions are one function, its own inverse, which swaps each pair or leaves all as it is. -/
theorem byteOrderRoundTrip : Obligations.ByteOrderRoundTrip := fun c s =>
  ⟨toHost_toDev c s, toDev_toHost c s, toDev_length c s, fun h => toDev_of_eq h s, fun h i hi => by
    rw [toDev_of_ne h]
    exact swap16_getD s hi⟩

/-- Settles O15, from the images of a value in each byte order and their inverse. -/
theorem valueWireImage : Obligations.ValueWireImage :=
  ⟨fun _ => ⟨rfl, rfl⟩, fun e v a b => ⟨val16At_bytes16 e v, bytes16_val16 e a b⟩,
    fun c v a b => ⟨toDev_bytes16 c v, val16At_toHost c a b⟩⟩

end Sys2Proof.Machine
end

section
/-! SUPPORT. A register access at the reference responder: how the words of its header are decoded, and what one
transfer of it does (spec/30_encoding.md R75, R81, spec/40_frame_encoder.md R100 to R104 and R111 to R116). -/

namespace Sys2Proof.Machine

/-! The words of a header. -/

/-- The command of an access word (R71, R75). -/
def accessCmd (direct : Bool) (off : BitVec 7) (rw : Dir) (cnt : BitVec 7) : WireCmd :=
  match direct, rw with
  | true, .read => .directRead off cnt
  | true, .write => .directWrite off cnt
  | false, .read => .pagedRead off cnt
  | false, .write => .pagedWrite off cnt

/-- A word whose bits are all bits of another has no larger first byte. -/
theorem firstByte_le_of_and (c : WireCfg) {v w : Word} (h : v &&& w = v) : firstByte c v ≤ firstByte c w := by
  have hb : firstByte c v &&& firstByte c w = firstByte c v := by
    unfold firstByte
    split <;> rw [← BitVec.extractLsb'_and, h]
  rw [BitVec.le_def, ← hb, BitVec.toNat_and]
  exact Nat.and_le_right

/-- A paged access word has no bit that the one with every field at its largest has not. -/
theorem accWord_paged_and (c : WireCfg) (off : BitVec 7) (rw : Dir) (cnt : BitVec 7) :
    accWord c false off rw cnt &&& accWord c false 127#7 .write 127#7 = accWord c false off rw cnt := by
  have hones {v : BitVec 7} {k : Nat} (h : v.getLsbD k = true) : (127#7).getLsbD k = true := by
    have hk : k < 7 := BitVec.lt_of_getLsbD h
    interval_cases k <;> rfl
  apply BitVec.eq_of_getLsbD_eq
  intro i hi
  rw [BitVec.getLsbD_and, accWord_bit _ _ _ _ _ _ hi, accWord_bit _ _ _ _ _ _ hi, Bool.and_eq_left_iff_imp]
  simp only [Bool.and_false, Bool.false_or, Bool.or_eq_true, Bool.and_eq_true]
  rintro ((⟨ho, hoff⟩ | ⟨hw, -⟩) | ⟨hc, hcnt⟩)
  · exact .inl (.inl ⟨ho, hones hoff⟩)
  · exact .inl (.inr ⟨hw, rfl⟩)
  · exact .inr ⟨hc, hones hcnt⟩

/-- No paged access is shadowed by the special opcode space (R81). -/
theorem paged_below_special {c : Config} (h : c.wf) (off : BitVec 7) (rw : Dir) (cnt : BitVec 7) :
    firstByte c.wire (accWord c.wire false off rw cnt) < c.wire.specialLo := by
  obtain ⟨⟨-, -, -, -, -, -, hpaged, -⟩, -⟩ := h
  have hle := firstByte_le_of_and c.wire (accWord_paged_and c.wire off rw cnt)
  exact BitVec.lt_def.mpr (Nat.lt_of_le_of_lt (BitVec.le_def.mp hle) (BitVec.lt_def.mp hpaged))

/-- An access word whose first byte lies below the special opcode space decodes to its access (R75). -/
theorem decodeWire_accWord {c : Config} (h : c.wf) {direct : Bool} {off : BitVec 7} {rw : Dir} {cnt : BitVec 7}
    (hlow : firstByte c.wire (accWord c.wire direct off rw cnt) < c.wire.specialLo) :
    decodeWire c.wire (firstByte c.wire (accWord c.wire direct off rw cnt))
      (secondByte c.wire (accWord c.wire direct off rw cnt)) = accessCmd direct off rw cnt := by
  obtain ⟨⟨-, -, -, hsel, hcont, hnop, -, hapart⟩, -⟩ := h
  have below {b : Byte} (hb : c.wire.specialLo ≤ b) :
      firstByte c.wire (accWord c.wire direct off rw cnt) ≠ b := by
    rintro rfl
    exact absurd hlow (BitVec.not_lt.mpr hb)
  have hnop' : accWord c.wire direct off rw cnt ≠ c.wire.nop := fun heq => below hnop (by rw [heq])
  rw [decodeWire, wordOf_bytes, if_neg (below hsel), if_neg hnop', if_neg fun hc => below hcont hc.1,
    if_neg (BitVec.not_le.mpr hlow)]
  simp only [accDirect_accWord hapart, accWrite_accWord hapart, accOff_accWord hapart, accCnt_accWord hapart]
  cases direct <;> cases rw <;> rfl

/-- SELECT_PAGE stands first in the decoder's order (R75). -/
theorem decodeWire_selWord (c : WireCfg) (sel : Byte) :
    decodeWire c (firstByte c (selWord c sel)) (secondByte c (selWord c sel)) = .selectPage sel := by
  rw [selWord, firstByte_wordOf, secondByte_wordOf, decodeWire, if_pos rfl]

/-! The commands of a transfer. -/

/-- A command word that is carried out leaves the rest of the transfer to be parsed (R111). -/
theorem parse_word {c : Config} {n : Nat} {d d' : Dev} {w : Word} {t : List Byte} (hrx : d.rx = wordBytes c.wire w ++ t)
    (hx : Dev.execCmd c { d with rx := t } (decodeWire c.wire (firstByte c.wire w) (secondByte c.wire w)) = .ok d') :
    Dev.parse c (n + 1) d = Dev.parse c n d' := by
  have hrx' : d.rx = firstByte c.wire w :: secondByte c.wire w :: t := hrx
  simp only [Dev.parse, hrx', hx]

/-- A transfer is over where no byte of it is left and it answered what it was asked for (R111). -/
theorem parse_end {c : Config} {n : Nat} {d : Dev} (hrx : d.rx = []) (htx : d.tx.length = d.want) :
    Dev.parse c (n + 1) d = .ok { d with want := 0 } := by
  simp only [Dev.parse, hrx, Dev.close, if_pos htx]

/-- The words of an access stay inside its page (R63). -/
def InPage (off cnt : BitVec 7) : Prop := off.toNat + (cnt.toNat + 1) ≤ 128

/-- A write that is the rest of its transfer (R114). -/
theorem storePayload_rest {c : Config} {base : Nat} {off cnt : BitVec 7} {d : Dev} (hp : InPage off cnt)
    (hrx : d.rx.length = 2 * (cnt.toNat + 1)) :
    d.storePayload c base off.toNat (cnt.toNat + 1) =
      .ok { d with mem := d.mem.writeWords c.devEndian (base + 2 * off.toNat) d.rx, rx := [] } := by
  rw [Dev.storePayload, if_neg (Nat.not_lt.mpr hp), if_neg (by omega), ← hrx, List.take_length, List.drop_length]

/-- A read that is the end of its transfer (R113). -/
theorem answerRead_end {c : Config} {base : Nat} {off cnt : BitVec 7} {d : Dev} (hp : InPage off cnt) (hrx : d.rx = [])
    (hw : d.want = 2 * (cnt.toNat + 1)) :
    d.answerRead c base off.toNat (cnt.toNat + 1) =
      .ok { d with tx := d.mem.readWords c.devEndian (base + 2 * off.toNat) (cnt.toNat + 1) } := by
  rw [Dev.answerRead, if_neg (Nat.not_lt.mpr hp), if_neg (not_not.mpr hrx), if_neg (not_not.mpr hw)]

/-! One access. -/

/-- Where a safe access reaches: an even address whose access word is not shadowed, on a page below the extended
window, the words inside the page (R297 to R300, R305). -/
structure Reaches (c : WireCfg) (a : Addr) (cnt : BitVec 7) : Prop where
  address : a.toNat = (pageOf a).toNat * 256 + 2 * (offOf a).toNat
  inPage : InPage (offOf a) cnt
  direct : pageOf a = 0#8 → ∀ rw, firstByte c (accWord c true (offOf a) rw cnt) < c.specialLo
  page : pageOf a ≠ 0xFF#8

/-- The page and the word offset of an even address make it up (R40). -/
theorem toNat_of_even {a : Addr} (h : evenAddress a = true) :
    a.toNat = (pageOf a).toNat * 256 + 2 * (offOf a).toNat := by
  have h0 : a.toNat % 2 = 0 := by
    simpa [evenAddress, BitVec.getElem_eq_testBit_toNat, Nat.testBit_zero] using h
  have := a.isLt
  simp only [pageOf, offOf, BitVec.extractLsb'_toNat, Nat.shiftRight_eq_div_pow]
  omega

/-- What a safe access is (R297 to R300, R305). -/
theorem reaches_of_safeAccess {c : WireCfg} {a : Addr} {size : Nat} (h : safeAccess c a size = true) :
    ∃ cnt, countOf size = some cnt ∧ Reaches c a cnt := by
  simp only [safeAccess, Bool.and_eq_true] at h
  obtain ⟨⟨⟨⟨⟨heven, hinside⟩, hwrite⟩, hread⟩, hpage⟩, hsize⟩ := h
  have hcnt : countOf size = some (BitVec.ofNat 7 (size / 2 - 1)) := if_pos hsize
  refine ⟨_, hcnt, toNat_of_even heven, ?_, fun h0 rw => ?_, by simpa [ordinaryPage] using hpage⟩
  · have hlen := countOf_toNat hcnt
    have ha := toNat_of_even heven
    simp only [insidePage, decide_eq_true_eq, BitVec.extractLsb'_toNat, Nat.shiftRight_zero] at hinside
    have := (offOf a).isLt
    unfold InPage
    omega
  · cases rw with
    | read => simpa [reachable, h0, directReachable] using hread
    | write => simpa [reachable, h0, directReachable] using hwrite

/-- The responder once the page of an access is selected; a direct access selects none (R103, R112). -/
def Dev.atPage (a : Addr) (d : Dev) : Dev := if pageOf a = 0#8 then d else { d with sel := selectValue (pageOf a) }

/-- The command of the last word of an access's header (R100). -/
def lastCmd (a : Addr) (rw : Dir) (cnt : BitVec 7) : WireCmd :=
  accessCmd (decide (pageOf a = 0#8)) (offOf a) rw cnt

@[simp] theorem atPage_rx (a : Addr) (d : Dev) : (d.atPage a).rx = d.rx := by unfold Dev.atPage; split <;> rfl
@[simp] theorem atPage_tx (a : Addr) (d : Dev) : (d.atPage a).tx = d.tx := by unfold Dev.atPage; split <;> rfl
@[simp] theorem atPage_want (a : Addr) (d : Dev) : (d.atPage a).want = d.want := by unfold Dev.atPage; split <;> rfl
@[simp] theorem atPage_mem (a : Addr) (d : Dev) : (d.atPage a).mem = d.mem := by unfold Dev.atPage; split <;> rfl

/-- The page of an access, once it is selected, is one that paged accesses are answered on, and the access's own (R46,
R115). -/
theorem selected_atPage {a : Addr} (h0 : pageOf a ≠ 0#8) (hFF : pageOf a ≠ 0xFF#8) (d : Dev) :
    ¬ 0xFD#8 < (d.atPage a).sel ∧ (d.atPage a).pageBase = (pageOf a).toNat * 256 := by
  rw [Dev.atPage, if_neg h0, Dev.pageBase, selectValue_of_ne hFF]
  refine ⟨?_, ?_⟩
  · show ¬ 0xFD#8 < pageOf a - 1
    bv_omega
  · have : (pageOf a - 1).toNat + 1 = (pageOf a).toNat := by bv_omega
    rw [this]

/-- A transfer of a header and the bytes after it is the command of its last word, on the page it selects, where that
command uses up the transfer and answers what it was asked for (R103, R111). -/
theorem respond_access {c : Config} (hwf : c.wf) {a : Addr} {rw : Dir} {cnt : BitVec 7} (ha : Reaches c.wire a cnt)
    {t : List Byte} {k : Nat} {d d' : Dev} (hx : ((d.open t k).atPage a).execCmd c (lastCmd a rw cnt) = .ok d')
    (hrx : d'.rx = []) (htx : d'.tx.length = d'.want) :
    Dev.respond c (header c.wire a rw cnt ++ t) k d = .ok { d' with want := 0 } := by
  by_cases h0 : pageOf a = 0#8
  · have hdec := decodeWire_accWord hwf (ha.direct h0 rw)
    rw [lastCmd, decide_eq_true h0, Dev.atPage, if_pos h0, ← hdec] at hx
    rw [header, if_pos h0, Dev.respond, List.length_append, wordBytes_length, parse_word rfl hx, Nat.add_comm 2,
      parse_end hrx htx]
  · have hdec := decodeWire_accWord hwf (paged_below_special hwf (offOf a) rw cnt)
    have hsel : selectValue (pageOf a) ≠ 0xFE#8 := selectValueLaw.2.2.2 _ h0
    rw [lastCmd, decide_eq_false h0, Dev.atPage, if_neg h0, ← hdec] at hx
    rw [header, if_neg h0, Dev.respond, List.append_assoc, List.length_append, List.length_append, wordBytes_length,
      wordBytes_length,
      parse_word rfl (by rw [decodeWire_selWord, Dev.execCmd, Dev.selectPage, if_neg hsel]), Nat.add_comm 2,
      parse_word rfl hx, Nat.add_comm 2, parse_end hrx htx]

/-- The command of a write access stores the rest of the transfer at the access's address (R114, R116). -/
theorem execCmd_write {c : Config} {a : Addr} {cnt : BitVec 7} (ha : Reaches c.wire a cnt) {d : Dev}
    (hrx : d.rx.length = 2 * (cnt.toNat + 1)) :
    ∃ d', (d.atPage a).execCmd c (lastCmd a .write cnt) = .ok d' ∧ d'.rx = [] ∧ d'.tx = d.tx ∧
      d'.want = d.want ∧ d'.mem = d.mem.writeWords c.devEndian a.toNat d.rx := by
  have hstore (base : Nat) : (d.atPage a).storePayload c base (offOf a).toNat (cnt.toNat + 1) = _ :=
    storePayload_rest ha.inPage (by simpa using hrx)
  by_cases h0 : pageOf a = 0#8
  · rw [lastCmd, decide_eq_true h0]
    exact ⟨_, hstore 0, by simp [ha.address, h0]⟩
  · obtain ⟨hsel, hbase⟩ := selected_atPage h0 ha.page d
    rw [lastCmd, decide_eq_false h0]
    simp only [accessCmd, Dev.execCmd, Dev.pagedWrite, if_neg hsel, hstore]
    exact ⟨_, rfl, by simp [ha.address, hbase]⟩

/-- The command of a read access answers the words at the access's address and changes nothing else (R113, R115). -/
theorem execCmd_read {c : Config} {a : Addr} {cnt : BitVec 7} (ha : Reaches c.wire a cnt) {d : Dev} (hrx : d.rx = [])
    (hw : d.want = 2 * (cnt.toNat + 1)) :
    (d.atPage a).execCmd c (lastCmd a .read cnt) =
      .ok { d.atPage a with tx := d.mem.readWords c.devEndian a.toNat (cnt.toNat + 1) } := by
  have hanswer (base : Nat) : (d.atPage a).answerRead c base (offOf a).toNat (cnt.toNat + 1) = _ :=
    answerRead_end ha.inPage (by simpa using hrx) (by simpa using hw)
  by_cases h0 : pageOf a = 0#8
  · rw [lastCmd, decide_eq_true h0]
    exact (hanswer 0).trans (by simp [ha.address, h0])
  · obtain ⟨hsel, hbase⟩ := selected_atPage h0 ha.page d
    rw [lastCmd, decide_eq_false h0]
    simp only [accessCmd, Dev.execCmd, Dev.pagedRead, if_neg hsel, hanswer]
    simp [ha.address, hbase]

/-- The transfer of a write access stores its bytes at its address and answers no byte (R111, R114, R116). -/
theorem respond_write {c : Config} (hwf : c.wf) {a : Addr} {cnt : BitVec 7} (ha : Reaches c.wire a cnt)
    {bs : List Byte} (hlen : bs.length = 2 * (cnt.toNat + 1)) (d : Dev) :
    ∃ d', Dev.respond c (header c.wire a .write cnt ++ bs) 0 d = .ok d' ∧ d'.tx = [] ∧
      d'.mem = d.mem.writeWords c.devEndian a.toNat bs := by
  obtain ⟨d', hx, hrx, htx, hwant, hmem⟩ := execCmd_write ha (d := d.open bs 0) hlen
  exact ⟨_, respond_access hwf ha hx hrx (by rw [htx, hwant]; rfl), htx, hmem⟩

/-- The transfer of a read access answers the words at its address and leaves the memory alone (R111, R113, R115). -/
theorem respond_read {c : Config} (hwf : c.wf) {a : Addr} {cnt : BitVec 7} (ha : Reaches c.wire a cnt) (d : Dev) :
    ∃ d', Dev.respond c (header c.wire a .read cnt) (2 * (cnt.toNat + 1)) d = .ok d' ∧
      d'.tx = d.mem.readWords c.devEndian a.toNat (cnt.toNat + 1) ∧ d'.mem = d.mem := by
  have hx := execCmd_read ha (d := d.open [] (2 * (cnt.toNat + 1))) rfl rfl
  have hr := respond_access hwf ha hx (atPage_rx _ _) (by simp [Dev.open])
  rw [List.append_nil] at hr
  exact ⟨_, hr, rfl, atPage_mem _ _⟩

end Sys2Proof.Machine
end

section
/-! SUPPORT. The register accesses as requests, and a write followed by a read at the reference responder
(spec/20_memory.md R52, spec/41_register_access.md R120 to R126). -/

namespace Sys2Proof.Machine

/-! Requests that complete. -/

/-- A request whose sequence runs to its end is answered SUCCESS (R12, R29). -/
theorem runRequest_ok {op : BitVec 4} {drivesIt : Bool} {m : M Payload} {p : Payload} {s u : State}
    (h : m.run (s.accept op) = .ok p u) (h0 : u.env.resetIn ≠ some 0) :
    runRequest op drivesIt m s = .next ({ u with env := u.env.tick }.respond .success p) := by
  rw [runRequest, h, settle, u.terminal_taken h0]

/-- REG_WRITE whose transfer succeeds is answered SUCCESS (R121, R130). -/
theorem exec_regWrite_ran {s : State} {a : Addr} {data : List Byte} {cnt : BitVec 7} {n : Nat} {e : Env} {d : Dev}
    (hc : countOf data.length = some cnt) (hn : 1 ≤ n)
    (hb : s.busCarries [.xfer (header s.cfg.wire a .write cnt ++ toDev s.cfg data) 0 n []] e d) :
    ∃ t, exec (.regWrite a data) s = .next t ∧
      Ran s t [.xfer (header s.cfg.wire a .write cnt ++ toDev s.cfg data) 0 n []] writeMoves e d ∧
      t.answered .success none [] [] none := by
  obtain ⟨e', hbus, h0, rfl⟩ := hb
  have hrun := bind_ok (f := fun _ => (pure Payload.none : M Payload))
    (regWrite_ok (s := s.accept 0x1) (a := a) hc hn hbus)
  exact ⟨_, runRequest_ok hrun h0, ⟨rfl, rfl, rfl, rfl, rfl, rfl⟩, _, rfl, rfl, rfl, by simp, rfl, rfl, rfl⟩

/-- REG_READ whose transfer succeeds is answered SUCCESS with the bytes received, in host order (R125, R126, R130). -/
theorem exec_regRead_ran {s : State} {a : Addr} {size : BitVec 16} {cnt : BitVec 7} {n : Nat} {r : List Byte} {e : Env}
    {d : Dev} (hc : countOf size.toNat = some cnt) (hn : 1 ≤ n) (hr : r.length = size.toNat)
    (hb : s.busCarries [.xfer (header s.cfg.wire a .read cnt) size.toNat n r] e d) :
    ∃ t, exec (.regRead a size) s = .next t ∧
      Ran s t [.xfer (header s.cfg.wire a .read cnt) size.toNat n r] readMoves e d ∧
      t.answered .success none [] (toHost s.cfg r) none := by
  obtain ⟨e', hbus, h0, rfl⟩ := hb
  have hrun := bind_ok (f := fun out => (pure { hdr := [], data := out } : M Payload))
    (regRead_ok (s := s.accept 0x2) (a := a) hc hn hr hbus)
  exact ⟨_, runRequest_ok hrun h0, ⟨rfl, rfl, rfl, rfl, rfl, rfl⟩, _, rfl, rfl, rfl, by simp, rfl, rfl, rfl⟩

/-! Accesses at the reference responder. -/

/-- The reference responder answers the bus, nothing is laid down for it, and no reset is to come. -/
structure Env.Responds (e : Env) : Prop where
  script : e.script = []
  device : e.device = .responder
  noReset : e.resetIn = none

/-- The environment after one transfer that was answered. -/
def Env.answeredOne (e : Env) : Env := { e with answered := e.answered + 1 }

theorem Env.Responds.answeredOne {e : Env} (h : e.Responds) : e.answeredOne.Responds :=
  ⟨h.script, h.device, h.noReset⟩

/-- A transfer that the responder carries out is one the bus carries (R10, R111). -/
theorem busCarries_of_respond {s : State} (he : s.env.Responds) {w : List Byte} {k : Nat} {d : Dev}
    (h : Dev.respond s.cfg w k s.dev = .ok d) : s.busCarries [.xfer w k 1 d.tx] s.env.answeredOne d := by
  have hreply : busReply s.cfg s.env s.dev w k = some (1, d.tx, s.env, d) := by
    simp only [busReply, he.script, he.device, h]
  refine ⟨s.env.answeredOne, ?_, by simp [he.answeredOne.noReset], (Env.tick_of_none he.answeredOne.noReset).symm⟩
  simp [State.busAnswers, replay, hreply, he.noReset, Env.tick_of_none he.noReset, Env.answeredOne]

/-- A safe REG_WRITE stores the payload's wire bytes at its address (R121, R123). -/
theorem exec_regWrite_responder {s : State} (hwf : s.cfg.wf) (he : s.env.Responds) {a : Addr} {data : List Byte}
    {cnt : BitVec 7} (hc : countOf data.length = some cnt) (ha : Reaches s.cfg.wire a cnt) :
    ∃ t, exec (.regWrite a data) s = .next t ∧ t.answered .success none [] [] none ∧ t.cfg = s.cfg ∧
      t.env.Responds ∧ t.dev.mem = s.dev.mem.writeWords s.cfg.devEndian a.toNat (toDev s.cfg data) := by
  have hlen : (toDev s.cfg data).length = 2 * (cnt.toNat + 1) := by
    rw [toDev_length, countOf_toNat hc, Nat.mul_comm]
  obtain ⟨d, hr, htx, hmem⟩ := respond_write hwf ha hlen s.dev
  have hb := busCarries_of_respond he hr
  rw [htx] at hb
  obtain ⟨t, hx, hran, hans⟩ := exec_regWrite_ran hc (Nat.le_refl 1) hb
  exact ⟨t, hx, hans, hran.outside.1, by rw [hran.env]; exact he.answeredOne, by rw [hran.dev, hmem]⟩

/-- A safe REG_READ answers the words at its address in host order, and leaves the memory alone (R125, R126). -/
theorem exec_regRead_responder {s : State} (hwf : s.cfg.wf) (he : s.env.Responds) {a : Addr} {size : BitVec 16}
    {cnt : BitVec 7} (hc : countOf size.toNat = some cnt) (ha : Reaches s.cfg.wire a cnt) :
    ∃ t, exec (.regRead a size) s = .next t ∧ t.dev.mem = s.dev.mem ∧
      t.answered .success none [] (toHost s.cfg (s.dev.mem.readWords s.cfg.devEndian a.toNat (size.toNat / 2)))
        none := by
  have hsize : size.toNat = 2 * (cnt.toNat + 1) := by rw [countOf_toNat hc, Nat.mul_comm]
  have hwords : cnt.toNat + 1 = size.toNat / 2 := by omega
  obtain ⟨d, hr, htx, hmem⟩ := respond_read hwf ha s.dev
  rw [← hsize] at hr
  rw [hwords] at htx
  obtain ⟨t, hx, hran, hans⟩ :=
    exec_regRead_ran hc (Nat.le_refl 1) (respond_length hr) (busCarries_of_respond he hr)
  exact ⟨t, hx, by rw [hran.dev, hmem], by rw [← htx]; exact hans⟩

/-- Settles O21: the read answers the words the write stored, which are the payload's wire bytes, and converts them
back. -/
theorem writeThenRead : Obligations.WriteThenRead := by
  rintro s a data ⟨hwf, ⟨hmem, -⟩, -⟩ hscript hdevice hreset hsafe
  obtain ⟨cnt, hc, ha⟩ := reaches_of_safeAccess hsafe
  obtain ⟨-, hle, heven⟩ := sizeOk_iff.mp (countOf_eq_some.mp hc).1
  have hsize : (BitVec.ofNat 16 data.length).toNat = data.length := Nat.mod_eq_of_lt (by omega)
  have hlen := toDev_length s.cfg data
  obtain ⟨t, hx, hans, hcfg, henv, htmem⟩ := exec_regWrite_responder hwf ⟨hscript, hdevice, hreset⟩ hc ha
  obtain ⟨u, hxu, humem, hansu⟩ :=
    exec_regRead_responder (by rwa [hcfg]) henv (by rwa [hsize]) (by rwa [hcfg])
  have hback : t.dev.mem.readWords s.cfg.devEndian a.toNat (data.length / 2) = toDev s.cfg data := by
    rw [htmem, ← hlen]
    exact Mem.readWords_writeWords _ hmem _ _ (by rwa [hlen])
  rw [hcfg, hsize, hback, toHost_toDev] at hansu
  refine ⟨t, u, hx, hxu, hans, hansu, fun b hb => ?_⟩
  rw [humem, htmem, Mem.read_writeWords_other _ _ _ _ (by rwa [hlen])]

end Sys2Proof.Machine
end

section
/-! SUPPORT. The command word as a code: what the decoder reads from two bytes, and that encoding undoes decoding and
decoding undoes encoding (spec/30_encoding.md R70 to R76, R81, R87, R90). -/

namespace Sys2Proof

/-! The fields fill the word. -/

/-- The direction that the `W` bit says (R71). -/
def Dir.ofWrite : Bool → Dir
  | false => .read
  | true => .write

@[simp] theorem Dir.isWrite_ofWrite (b : Bool) : (Dir.ofWrite b).isWrite = b := by cases b <;> rfl

/-- Every bit of an ACC word lies in one of its four fields: 1 + 7 + 1 + 7 bits that share none (R71). -/
theorem WireCfg.fieldsApart.cover {c : WireCfg} (h : c.fieldsApart) {i : Nat} (hi : i < 16) :
    i = c.wDirect.val ∨ (c.wOffset.val ≤ i ∧ i < c.wOffset.val + 7) ∨ i = c.wWrite.val ∨
      (c.wCount.val ≤ i ∧ i < c.wCount.val + 7) := by
  obtain ⟨hne, hdo, hdc, hwo, hwc, hoc⟩ := h
  have hne' : c.wDirect.val ≠ c.wWrite.val := fun he => hne (Fin.ext he)
  have := c.wDirect.isLt
  have := c.wWrite.isLt
  have := c.wOffset.isLt
  have := c.wCount.isLt
  omega

/-- A field of seven bits, put back at its place, gives the word's bits there and no others. -/
theorem getLsbD_field (w : Word) (k i : Nat) :
    (decide (k ≤ i) && (w.extractLsb' k 7).getLsbD (i - k)) = (decide (k ≤ i ∧ i < k + 7) && w.getLsbD i) := by
  rw [BitVec.getLsbD_extractLsb']
  by_cases hk : k ≤ i
  · have hlt : i - k < 7 ↔ i < k + 7 := by omega
    simp [hk, hlt]
  · simp [hk]

/-- A bit of the word, put back at its place, gives that bit and no other. -/
theorem getLsbD_bit (w : Word) (k i : Nat) : (decide (i = k) && w.getLsbD k) = (decide (i = k) && w.getLsbD i) := by
  by_cases h : i = k
  · rw [h]
  · simp [h]

/-- Every word is the ACC word of its fields (R71). -/
theorem accWord_fields {c : WireCfg} (h : c.fieldsApart) (w : Word) :
    accWord c (accDirect c w) (accOff c w) (Dir.ofWrite (accWrite c w)) (accCnt c w) = w := by
  apply BitVec.eq_of_getLsbD_eq
  intro i hi
  rw [accWord_bit _ _ _ _ _ _ hi, Dir.isWrite_ofWrite, accDirect, accWrite, accOff, accCnt, getLsbD_field,
    getLsbD_field, getLsbD_bit w c.wDirect.val, getLsbD_bit w c.wWrite.val]
  simp only [← Bool.and_or_distrib_right]
  simpa [or_assoc] using fun _ => h.cover hi

/-! The CNT word. -/

/-- A byte with bit 7 clear is a count field below it (R74). -/
theorem zero_append_low {b : Byte} (h : b[7] = false) : 0#1 ++ b.extractLsb' 0 7 = b := by
  ext i hi
  rw [BitVec.getElem_append]
  split
  · simp [BitVec.getLsbD_eq_getElem hi]
  · obtain rfl : i = 7 := by omega
    simp [h]

theorem zero_append_bit (cnt : BitVec 7) : (0#1 ++ cnt : Byte)[7] = false := by
  rw [BitVec.getElem_append]
  simp

theorem low_zero_append (cnt : BitVec 7) : (0#1 ++ cnt : Byte).extractLsb' 0 7 = cnt := by
  ext i hi
  rw [BitVec.getElem_extractLsb', Nat.zero_add, BitVec.getLsbD_append]
  simp [hi]

end Sys2Proof

namespace Sys2Proof.Machine

/-! From the bytes to the command. -/

/-- What the decoder's branch for a command says of the two bytes (R75). -/
inductive Decoded (c : WireCfg) (b0 b1 : Byte) : WireCmd → Prop
  | selectPage (h0 : b0 = c.selectPage) : Decoded c b0 b1 (.selectPage b1)
  | noOp (hw : wordOf c b0 b1 = c.nop) : Decoded c b0 b1 .noOp
  | contPagedWrite {cnt : BitVec 7} (h0 : b0 = c.contWr) (h1 : b1 = 0#1 ++ cnt) : Decoded c b0 b1 (.contPagedWrite cnt)
  | reserved (hr : isReservedWord c b0 b1 = true) : Decoded c b0 b1 (.reserved b0 b1)
  | access {direct : Bool} {off : BitVec 7} {rw : Dir} {cnt : BitVec 7}
      (hw : wordOf c b0 b1 = accWord c direct off rw cnt) (hlow : b0 < c.specialLo) :
      Decoded c b0 b1 (accessCmd direct off rw cnt)

/-- The four conditions on a reserved word (R76). -/
theorem isReservedWord_iff {c : WireCfg} {b0 b1 : Byte} : isReservedWord c b0 b1 = true ↔
    c.specialLo ≤ b0 ∧ b0 ≠ c.selectPage ∧ wordOf c b0 b1 ≠ c.nop ∧ ¬(b0 = c.contWr ∧ b1[7] = false) := by
  simp [isReservedWord, and_assoc, ← imp_iff_not_or]

/-- The decoder is total: every two bytes are of one of its branches (R75). -/
theorem decoded_decodeWire {c : WireCfg} (h : c.fieldsApart) (b0 b1 : Byte) : Decoded c b0 b1 (decodeWire c b0 b1) := by
  unfold decodeWire
  split
  · next h0 => exact .selectPage h0
  next hsel =>
  split
  · next hw => exact .noOp hw
  next hnop =>
  split
  · next hc => exact .contPagedWrite hc.1 (zero_append_low hc.2).symm
  next hcont =>
  split
  · next hlo => exact .reserved (isReservedWord_iff.mpr ⟨hlo, hsel, hnop, hcont⟩)
  next hlo =>
  have hd := Decoded.access (accWord_fields h (wordOf c b0 b1)).symm (BitVec.not_le.mp hlo)
  cases hdirect : accDirect c (wordOf c b0 b1) <;> cases hwrite : accWrite c (wordOf c b0 b1) <;>
    simp only [hdirect, hwrite] at hd ⊢ <;> exact hd

/-- The word of an access command (R71). -/
theorem encodeWire_accessCmd (c : WireCfg) (direct : Bool) (off : BitVec 7) (rw : Dir) (cnt : BitVec 7) :
    encodeWire c (accessCmd direct off rw cnt) = accWord c direct off rw cnt := by
  cases direct <;> cases rw <;> rfl

/-- A direct access is well-formed where its byte 0 lies below the special opcode space, a paged one always (R81,
R297). -/
theorem accessCmd_wf {c : Config} {direct : Bool} {off : BitVec 7} {rw : Dir} {cnt : BitVec 7}
    (hlow : firstByte c.wire (accWord c.wire direct off rw cnt) < c.wire.specialLo) :
    (accessCmd direct off rw cnt).toInstr.wf c = true := by
  cases direct with
  | false => cases rw <;> rfl
  | true => cases rw <;> exact decide_eq_true hlow

/-- Encoding undoes decoding. -/
theorem Decoded.encodeWire_eq {c : WireCfg} {b0 b1 : Byte} {cmd : WireCmd} (h : Decoded c b0 b1 cmd) :
    encodeWire c cmd = wordOf c b0 b1 := by
  cases h with
  | selectPage h0 => rw [h0]; rfl
  | noOp hw => exact hw.symm
  | contPagedWrite h0 h1 => rw [h0, h1]; rfl
  | reserved hr => rfl
  | access hw hlow => rw [encodeWire_accessCmd, hw]

/-- What is decoded has an encoding of its own. -/
theorem Decoded.wf {c : Config} {b0 b1 : Byte} {cmd : WireCmd} (h : Decoded c.wire b0 b1 cmd) :
    cmd.toInstr.wf c = true := by
  cases h with
  | selectPage h0 => rfl
  | noOp hw => rfl
  | contPagedWrite h0 h1 => rfl
  | reserved hr => exact hr
  | access hw hlow => exact accessCmd_wf (by rwa [← hw, firstByte_wordOf])

theorem wordBytes_wordOf (c : WireCfg) (b0 b1 : Byte) : wordBytes c (wordOf c b0 b1) = [b0, b1] := by
  rw [wordBytes, firstByte_wordOf, secondByte_wordOf]

/-- Settles O2: each branch of the decoder keeps the bytes, the access branch because the four fields fill the word. -/
theorem encodeOfDecode : Obligations.EncodeOfDecode := by
  rintro c b0 b1 ⟨⟨-, -, -, -, -, -, -, hapart⟩, -⟩
  have hd := decoded_decodeWire hapart b0 b1
  exact ⟨hd.wf, by rw [hd.encodeWire_eq, wordBytes_wordOf]⟩

/-! From the command to the bytes. -/

/-- NO_OP is the whole word, whose byte 0 is not SELECT_PAGE's (R73, R81). -/
theorem decodeWire_nop {c : Config} (h : c.wf) :
    decodeWire c.wire (firstByte c.wire c.wire.nop) (secondByte c.wire c.wire.nop) = .noOp := by
  obtain ⟨⟨-, hsel, -⟩, -⟩ := h
  rw [decodeWire, if_neg hsel.symm, wordOf_bytes, if_pos rfl]

/-- CONT_PAGED_WRITE is told from the others by its byte 0 (R74, R81). -/
theorem decodeWire_contWord {c : Config} (h : c.wf) (cnt : BitVec 7) :
    decodeWire c.wire (firstByte c.wire (contWord c.wire cnt)) (secondByte c.wire (contWord c.wire cnt)) =
      .contPagedWrite cnt := by
  obtain ⟨⟨hsel, -, hnop, -⟩, -⟩ := h
  have hword : wordOf c.wire c.wire.contWr (0#1 ++ cnt) ≠ c.wire.nop := fun he =>
    hnop (by rw [← he, firstByte_wordOf])
  rw [contWord, firstByte_wordOf, secondByte_wordOf, decodeWire, if_neg hsel.symm, if_neg hword,
    if_pos ⟨rfl, zero_append_bit cnt⟩, low_zero_append]

/-- A reserved word is what the decoder's other branches leave of the special opcode space (R76). -/
theorem decodeWire_reserved {c : WireCfg} {b0 b1 : Byte} (hr : isReservedWord c b0 b1 = true) :
    decodeWire c b0 b1 = .reserved b0 b1 := by
  obtain ⟨hlo, hsel, hnop, hcont⟩ := isReservedWord_iff.mp hr
  rw [decodeWire, if_neg hsel, if_neg hnop, if_neg hcont, if_pos hlo]

/-- Decoding undoes encoding, for every well-formed command word. -/
theorem decodeWire_encodeWire {c : Config} (h : c.wf) {cmd : WireCmd} (hw : cmd.toInstr.wf c = true) :
    decodeWire c.wire (firstByte c.wire (encodeWire c.wire cmd)) (secondByte c.wire (encodeWire c.wire cmd)) = cmd := by
  cases cmd with
  | selectPage sel => exact decodeWire_selWord _ _
  | noOp => exact decodeWire_nop h
  | contPagedWrite cnt => exact decodeWire_contWord h cnt
  | reserved b0 b1 =>
    simp only [encodeWire, firstByte_wordOf, secondByte_wordOf]
    exact decodeWire_reserved hw
  | directRead off cnt => exact decodeWire_accWord h (direct := true) (rw := .read) (of_decide_eq_true hw)
  | directWrite off cnt => exact decodeWire_accWord h (direct := true) (rw := .write) (of_decide_eq_true hw)
  | pagedRead off cnt => exact decodeWire_accWord h (direct := false) (rw := .read) (paged_below_special h _ _ _)
  | pagedWrite off cnt => exact decodeWire_accWord h (direct := false) (rw := .write) (paged_below_special h _ _ _)

/-- The code of a command word is its two bytes. -/
theorem encode_toInstr (c : Config) (cmd : WireCmd) :
    encode c cmd.toInstr = .wire (wordBytes c.wire (encodeWire c.wire cmd)) := by cases cmd <;> rfl

theorem decode_encode_wire {c : Config} (h : c.wf) (cmd : WireCmd) (hw : cmd.toInstr.wf c = true) :
    decode c (encode c cmd.toInstr) = .ok cmd.toInstr := by
  rw [encode_toInstr]
  exact congrArg (fun cmd => Except.ok cmd.toInstr) (decodeWire_encodeWire h hw)

/-- The operation codes 0xA to 0xF are the reserved ones (R90). -/
theorem decodeRequest_reserved :
    ∀ op : BitVec 4, 0xA#4 ≤ op → decodeRequest (Request.blank op) = .reqReserved op := by decide

/-- Each of the six host command words is read as itself, since no two of them are the same number (R87). -/
theorem decodeHostCommand_cmds {c : Config} (h : c.cmdsDistinct) :
    decodeHostCommand c.cmds c.cmds.loadComplete = .ok .cmdLoadComplete ∧
    decodeHostCommand c.cmds c.cmds.flashInit = .ok .cmdFlashInit ∧
    decodeHostCommand c.cmds c.cmds.save = .ok .cmdSave ∧
    decodeHostCommand c.cmds c.cmds.erase = .ok .cmdErase ∧
    decodeHostCommand c.cmds c.cmds.gramDisable = .ok .cmdGramDisable ∧
    decodeHostCommand c.cmds c.cmds.gramEnable = .ok .cmdGramEnable := by
  -- Reversed, each inequality reads as the decoder's comparisons do: the word presented on the left.
  have hrev := List.nodup_reverse.mpr h
  simp only [List.reverse_cons, List.reverse_nil, List.nil_append, List.cons_append, List.nodup_cons, List.mem_cons,
    List.not_mem_nil, not_or, not_false_eq_true] at hrev
  simp only [decodeHostCommand, hrev, if_true, if_false, and_true]

/-- Settles O1: a command word by the decoder's branch for it, a request by its operation code, a host command word by
its number. -/
theorem decodeOfEncode : Obligations.DecodeOfEncode := by
  intro c i h hcmds hw
  obtain ⟨hload, hinit, hsave, herase, hdisable, henable⟩ := decodeHostCommand_cmds hcmds
  cases i with
  | selectPage sel => exact decode_encode_wire h (.selectPage sel) hw
  | noOp => exact decode_encode_wire h .noOp hw
  | contPagedWrite cnt => exact decode_encode_wire h (.contPagedWrite cnt) hw
  | directRead off cnt => exact decode_encode_wire h (.directRead off cnt) hw
  | directWrite off cnt => exact decode_encode_wire h (.directWrite off cnt) hw
  | pagedRead off cnt => exact decode_encode_wire h (.pagedRead off cnt) hw
  | pagedWrite off cnt => exact decode_encode_wire h (.pagedWrite off cnt) hw
  | reserved b0 b1 => exact decode_encode_wire h (.reserved b0 b1) hw
  | hdrEncode | regWrite | regRead | rawWrite | runCmd | bootSwitch | loadImage | flashSave | flashErase
  | grammarLoad => rfl
  | reqReserved op => exact congrArg Except.ok (decodeRequest_reserved op (of_decide_eq_true hw))
  | cmdLoadComplete => exact hload
  | cmdFlashInit => exact hinit
  | cmdSave => exact hsave
  | cmdErase => exact herase
  | cmdGramDisable => exact hdisable
  | cmdGramEnable => exact henable

end Sys2Proof.Machine
end

section
/-! SUPPORT. The chunks of a body: how many, where each lies, how long it is (spec/30_encoding.md R85,
spec/43_image_transport.md R165, R166). -/

namespace Sys2Proof.Machine

/-! The pieces of a body. -/

/-- Piece `k` is the `k`-th stretch of `m` bytes; past the last piece both are empty (R165). -/
theorem chunksGo_getD {m : Nat} (hm : 1 ≤ m) {n : Nat} {s : List Byte} (hn : s.length ≤ n) (k : Nat) :
    (chunksGo m n s).getD k [] = (s.drop (k * m)).take m := by
  induction n generalizing s k with
  | zero =>
    obtain rfl : s = [] := List.length_eq_zero_iff.mp (by omega)
    simp [chunksGo]
  | succ n ih =>
    rw [chunksGo]
    split
    · next hs => simp [hs]
    · next hs =>
      have hpos := List.length_pos_iff.mpr hs
      cases k with
      | zero => simp
      | succ k =>
        rw [List.getD_cons_succ, ih (by simp; omega), List.drop_drop, Nat.succ_mul, Nat.add_comm m]

/-- There are as many pieces as the body needs (R165). -/
theorem chunksGo_length {m : Nat} (hm : 1 ≤ m) {n : Nat} {s : List Byte} (hn : s.length ≤ n) :
    (chunksGo m n s).length = (s.length + m - 1) / m := by
  induction n generalizing s with
  | zero =>
    obtain rfl : s = [] := List.length_eq_zero_iff.mp (by omega)
    rw [List.length_nil, Nat.div_eq_of_lt (by omega)]
    rfl
  | succ n ih =>
    rw [chunksGo]
    split
    · next hs => rw [hs, List.length_nil, List.length_nil, Nat.div_eq_of_lt (by omega)]
    · next hs =>
      have hpos := List.length_pos_iff.mpr hs
      rw [List.length_cons, ih (by simp; omega), List.length_drop]
      have hone : s.length + m - 1 = s.length - 1 + m := by omega
      rw [hone, Nat.add_div_right _ (by omega)]
      rcases Nat.lt_or_ge s.length m with hlt | hge
      · rw [Nat.div_eq_of_lt (by omega), Nat.div_eq_of_lt (by omega)]
      · rw [show s.length - m + m - 1 = s.length - 1 by omega]

theorem chunksOf_getD {m : Nat} (hm : 1 ≤ m) (s : List Byte) (k : Nat) :
    (chunksOf m s).getD k [] = (s.drop (k * m)).take m := chunksGo_getD hm (Nat.le_refl _) k

theorem chunksOf_length {m : Nat} (hm : 1 ≤ m) (s : List Byte) :
    (chunksOf m s).length = (s.length + m - 1) / m := chunksGo_length hm (Nat.le_refl _)

/-- There is a piece `k` where the body goes beyond `k` stretches. -/
theorem lt_chunksOf_length {m : Nat} (hm : 1 ≤ m) {s : List Byte} {k : Nat} :
    k < (chunksOf m s).length ↔ k * m < s.length := by
  rw [chunksOf_length hm, Nat.lt_iff_add_one_le, Nat.le_div_iff_mul_le (by omega), Nat.add_mul]
  omega

/-- A piece has as many bytes as are left, but the block's at most (R166). -/
theorem chunksOf_getD_length {m : Nat} (hm : 1 ≤ m) (s : List Byte) (k : Nat) :
    ((chunksOf m s).getD k []).length = min m (s.length - k * m) := by
  rw [chunksOf_getD hm, List.length_take, List.length_drop]

/-- A piece that another follows is a whole block (R166). -/
theorem chunksOf_whole {m : Nat} (hm : 1 ≤ m) {s : List Byte} {k : Nat} (hk : k + 1 < (chunksOf m s).length) :
    ((chunksOf m s).getD k []).length = m := by
  have hlt := (lt_chunksOf_length hm).mp hk
  rw [Nat.succ_mul] at hlt
  rw [chunksOf_getD_length hm]
  omega

/-- The last piece is what is left over, a whole block where nothing is (R166). -/
theorem chunksOf_last {m : Nat} (hm : 1 ≤ m) {s : List Byte} (hs : 1 ≤ s.length) :
    ((chunksOf m s).getLastD []).length = if s.length % m = 0 then m else s.length % m := by
  obtain ⟨k, hk⟩ : ∃ k, (chunksOf m s).length = k + 1 := by
    have := (lt_chunksOf_length (k := 0) hm).mpr (by omega : 0 * m < s.length)
    exact ⟨_, (Nat.sub_add_cancel this).symm⟩
  have hlast : (chunksOf m s).getLastD [] = (chunksOf m s).getD k [] := by
    rw [List.getLastD_eq_getLast?, List.getLast?_eq_getElem?, hk, List.getD_eq_getElem?_getD, Nat.add_sub_cancel]
  have hlo : k * m < s.length := (lt_chunksOf_length hm).mp (by omega)
  have hhi : s.length ≤ (k + 1) * m := Nat.not_lt.mp fun h => by
    have := (lt_chunksOf_length (k := k + 1) hm).mpr h
    omega
  rw [Nat.succ_mul] at hhi
  obtain ⟨r, hr⟩ : ∃ r, s.length = m * k + r := ⟨s.length - m * k, by rw [Nat.mul_comm]; omega⟩
  rw [hlast, chunksOf_getD_length hm, hr, Nat.mul_add_mod, Nat.mul_comm k, Nat.add_sub_cancel_left]
  rw [Nat.mul_comm] at hlo hhi
  rcases Nat.lt_or_ge r m with hlt | hge
  · rw [Nat.mod_eq_of_lt hlt, if_neg (by omega), Nat.min_eq_right (by omega)]
  · obtain rfl : r = m := by omega
    rw [Nat.mod_self, if_pos rfl, Nat.min_self]

@[simp] theorem blockBytes_toNat (w : BitVec 16) : (blockBytes w).toNat = w.toNat * 2 := by
  rw [blockBytes, BitVec.toNat_append, ← Nat.shiftLeft_add_eq_or_of_lt (by decide), Nat.shiftLeft_eq]
  rfl

/-- Settles O32: the chunks are the pieces of the body, and the parse and the length check make the body `IH_TOTAL`
bytes long. -/
theorem chunkLengths : Obligations.ChunkLengths := by
  intro c image h blk body chunks hlen hblk
  have hm : 1 ≤ blk := by
    have : h.blkWords.toNat ≠ 0 := fun h0 => hblk (BitVec.eq_of_toNat_eq h0)
    show 1 ≤ h.blkWords.toNat * 2
    omega
  have hbody : body.length = h.total.toNat := by
    show ((image.drop 12).take h.total.toNat).length = _
    rw [List.length_take, List.length_drop]
    omega
  have hchunks : chunks = chunksOf blk body := by
    show chunksOf (blockBytes h.blkWords).toNat _ = _
    rw [blockBytes_toNat]
    rfl
  rw [hchunks, ← hbody]
  refine ⟨chunksOf_length hm body, fun k _ => chunksOf_getD hm body k, fun k hk => chunksOf_whole hm hk, fun ht => ?_,
    chunksOf_flatten hm body⟩
  have htotal : h.total.toNat ≠ 0 := fun h0 => ht (BitVec.eq_of_toNat_eq h0)
  exact chunksOf_last hm (by omega)

end Sys2Proof.Machine
end

section
/-! SUPPORT. The default layout written out: the bytes of a header, and words decoded by hand (spec/30_encoding.md R70
to R76 and R90, spec/40_frame_encoder.md R100 to R104). -/

namespace Sys2Proof.Machine

/-- The ACC word of the default layout: `D`, `off`, `W`, `cnt` from the highest bit down (R71). -/
theorem accWord_default (direct : Bool) (off : BitVec 7) (rw : Dir) (cnt : BitVec 7) :
    accWord WireCfg.default direct off rw cnt =
      ((BitVec.ofBool direct ++ off : Byte) ++ (BitVec.ofBool rw.isWrite ++ cnt : Byte) : Word) := by
  apply BitVec.eq_of_getLsbD_eq
  intro i hi
  rw [accWord_bit _ _ _ _ _ _ hi]
  simp only [BitVec.getLsbD_append, BitVec.getLsbD_ofBool, WireCfg.default]
  interval_cases i <;> simp

/-- The two wire bytes of an ACC word at the default layout, bits 15:8 first (R70, R71). -/
theorem wordBytes_accWord_default (direct : Bool) (off : BitVec 7) (rw : Dir) (cnt : BitVec 7) :
    wordBytes WireCfg.default (accWord WireCfg.default direct off rw cnt) =
      [BitVec.ofBool direct ++ off, BitVec.ofBool rw.isWrite ++ cnt] := by
  rw [accWord_default]
  exact wordBytes_wordOf WireCfg.default _ _

/-- The two wire bytes of a SEL word (R72). -/
theorem wordBytes_selWord (c : WireCfg) (sel : Byte) : wordBytes c (selWord c sel) = [c.selectPage, sel] :=
  wordBytes_wordOf c _ _

/-- Settles O8: an accepted size has a count field, and the header's words are written out byte by byte. -/
theorem headerBytes : Obligations.HeaderBytes := by
  intro a rw size hlo hhi heven page off w cnt
  have hcount : countOf size = some cnt := countOf_eq_some.mpr ⟨sizeOk_iff.mpr ⟨hlo, hhi, heven⟩, rfl⟩
  have hw : w = BitVec.ofBool rw.isWrite := by cases rw <;> rfl
  rw [hdrEncode, hcount, Option.map_some, header, wordBytes_accWord_default, wordBytes_accWord_default,
    wordBytes_selWord, hw]
  rfl

/-- Settles O3: each word is a closed term, run through the decoder. -/
theorem handWordsDecode : Obligations.HandWordsDecode := by
  unfold Obligations.HandWordsDecode
  decide

end Sys2Proof.Machine
end

section
/-! SUPPORT. Host command words presented on their own, and the reserved operation codes (spec/30_encoding.md R87 and
R90, spec/42_host_command.md R141, spec/43_image_transport.md R173 and R174, spec/44_flash_ops.md R191, R193 and R198,
spec/45_grammar_loader.md R210, R214 and R218; log entries 16 and 34). -/

namespace Sys2Proof.Machine

/-! What an access leaves of the holding registers. -/

/-- The registers of RA and HC are none of the image's (R19, R20). -/
theorem Holding.sameImage_of_sameButAccess {x y : Holding} (h : x.sameButAccess y) : x.sameImage y := by
  rw [h]
  exact ⟨rfl, rfl, rfl, rfl, rfl, rfl, rfl, rfl, rfl, rfl, rfl⟩

/-- The registers of RA and HC are none of the response latches (R258). -/
theorem Holding.latches_of_sameButAccess {x y : Holding} (h : x.sameButAccess y) :
    y.rawResp = x.rawResp ∧ y.rawValid = x.rawValid ∧ y.flashCnt = x.flashCnt ∧ y.countValid = x.countValid := by
  rw [h]
  exact ⟨rfl, rfl, rfl, rfl⟩

/-! The two sequences. -/

/-- The handshake and the read of a result that stands for success (R141, R173, R258). -/
theorem commandAndResult_ok {s : State} {cmd v : Word} {f : Word → Status} {r : CmdRun} {n : Nat} {e : Env} {d : Dev}
    (hok : r.ok s.cfg = true) (hn : 1 ≤ n) (hf : f v = .success)
    (hb : s.busAnswers (r.events s.cfg cmd ++ [read16 s.cfg s.cfg.map.result n v]) e d) :
    ∃ t y, (commandAndResult cmd f).run s = .ok () t ∧
      Goes s t (r.events s.cfg cmd ++ [read16 s.cfg s.cfg.map.result n v]) (r.moves ++ readMoves) ∧
      t.seq = { s.seq with ra := .idle, hc := .idle } ∧ s.x.sameButAccess y ∧
      t.x = { y with rawResp := v, rawValid := true } ∧ y.val = v ∧ y.cmdOp = cmd ∧ t.env = e ∧ t.dev = d := by
  obtain ⟨e1, d1, hcommand⟩ := State.busAnswers_append hb
  obtain ⟨u, hu, hC⟩ := runCommand_ok hok hcommand
  have hcfg : u.cfg = s.cfg := hC.goes.cfg
  have hread := hC.goes.rest hb
  rw [← hcfg] at hread
  obtain ⟨t, ht, hg, hseq, ⟨y, hy, hx, hval, hop, -⟩, he, hd⟩ := readResult_ok hn hread
  rw [hcfg] at hg
  refine ⟨t, y, ?_, hC.goes.trans hg, by rw [hseq, hC.seq], Holding.sameButAccess_trans hC.x hy, hx, hval,
    hop.trans hC.cmdOp, he, hd⟩
  rw [commandAndResult, bind_ok hu, bind_ok ht, hf, continueIfSuccess_success]

/-- What the handshake and the wait of a grammar word leave. -/
theorem commandAndWait_ok {s : State} {cmd : Word} {r : CmdRun} {ps : List (Nat × Word)} {e : Env} {d : Dev}
    (hok : r.ok s.cfg = true) (hp : pollPasses (fun v => v != s.cfg.gram.busy) ps = true)
    (hl : ps.length ≤ s.cfg.pollBound)
    (hb : s.busAnswers (r.events s.cfg cmd ++ pollEvents s.cfg s.cfg.gram.status ps) e d) :
    ∃ t, (commandAndWait cmd).run s = .ok () t ∧
      Goes s t (r.events s.cfg cmd ++ pollEvents s.cfg s.cfg.gram.status ps) (r.moves ++ pollMoves ps.length) ∧
      t.seq = { s.seq with ra := .idle, hc := .idle } ∧ s.x.sameButAccess t.x ∧ t.x.cmdOp = cmd ∧
      t.x.pollCnt = ps.length ∧ t.env = e ∧ t.dev = d := by
  obtain ⟨e1, d1, hcommand⟩ := State.busAnswers_append hb
  obtain ⟨u, hu, hC⟩ := runCommand_ok hok hcommand
  have hcfg : u.cfg = s.cfg := hC.goes.cfg
  have hpoll := hC.goes.rest hb
  rw [← hcfg] at hpoll hp hl
  obtain ⟨t, ht, hP⟩ := pollPhase_passes hp hl hpoll
  have hg := hP.goes
  rw [hcfg] at hg
  refine ⟨t, ?_, hC.goes.trans hg, by rw [hP.seq, hC.seq], Holding.sameButAccess_trans hC.x hP.x,
    hP.cmdOp.trans hC.cmdOp, hP.pollCnt, hP.env, hP.dev⟩
  rw [commandAndWait, bind_ok hu, waitNotBusy, config_bind]
  exact ht

/-! How a word presented on its own completes. -/

/-- The terminal transition of a word whose sequence ran to its end (R7; log entry 16). -/
def State.wordDone (u : State) : State := { u with env := u.env.tick }.settleStatus .success

@[simp] theorem State.wordDone_x (u : State) : u.wordDone.x = { u.x with status := .success } := rfl

theorem runWord_ok {m : M Unit} {s u : State} (h : m.run s.acceptWord = .ok () u) (h0 : u.env.resetIn ≠ some 0) :
    runWord m s = .next u.wordDone := by
  rw [runWord, h, settleWord, u.terminal_taken h0]
  rfl

/-- The stretch a word's sequence ran is the request's own part of the outcome. -/
theorem Goes.ran_wordDone {s u : State} {evs : List Event} {mvs : List Move} (h : Goes s.acceptWord u evs mvs) :
    Ran s u.wordDone evs mvs u.env.tick u.dev :=
  ⟨h.history, h.moves, rfl, rfl, h.cfg, h.inbox⟩

/-- RA and HC idle at the end of the sequence, the block not busy after it. -/
theorem wordDone_seq {s u : State} (h : u.seq = { s.acceptWord.seq with ra := .idle, hc := .idle }) :
    u.wordDone.seq = { s.seq with busy := false, ra := .idle, hc := .idle } := by
  show { u.seq with busy := false } = _
  rw [h]
  rfl

/-- Each numbered word runs the handshake and a result mapping, which takes the success code of its space to SUCCESS
(R174, R191, R193, R198). -/
theorem exec_numbered {s : State} {i : Instr} {cmd v : Word}
    (h : (i = .cmdLoadComplete ∧ cmd = s.cfg.cmds.loadComplete ∧ v = s.cfg.resp.success) ∨
      (i = .cmdFlashInit ∧ cmd = s.cfg.cmds.flashInit ∧ v = s.cfg.resp.finitOk) ∨
      (i = .cmdSave ∧ cmd = s.cfg.cmds.save ∧ v = s.cfg.resp.success) ∨
      (i = .cmdErase ∧ cmd = s.cfg.cmds.erase ∧ v = s.cfg.resp.success)) :
    ∃ f, exec i s = runWord (commandAndResult cmd f) s ∧ f v = .success := by
  have hhost : hostResult s.cfg.resp s.cfg.resp.success = .success := if_pos rfl
  have hfinit : finitResult s.cfg.resp s.cfg.resp.finitOk = .ok := if_pos rfl
  rcases h with ⟨rfl, rfl, rfl⟩ | ⟨rfl, rfl, rfl⟩ | ⟨rfl, rfl, rfl⟩ | ⟨rfl, rfl, rfl⟩
  · exact ⟨_, rfl, congrArg loadStatus hhost⟩
  · exact ⟨_, rfl, congrArg finitStatus hfinit⟩
  · exact ⟨_, rfl, congrArg saveStatus hhost⟩
  · exact ⟨_, rfl, congrArg eraseStatus hhost⟩

/-- Settles O43: the handshake, the read of the result, then the terminal transition. -/
theorem commandWordsComplete : Obligations.CommandWordsComplete := by
  rintro s i cmd v r n _ d hi hok hn ⟨e, hbus, h0, rfl⟩
  obtain ⟨f, hexec, hf⟩ := exec_numbered hi
  obtain ⟨u, y, hrun, hg, hseq, hy, hx, hval, hop, rfl, rfl⟩ := commandAndResult_ok (s := s.acceptWord) hok hn hf hbus
  obtain ⟨-, -, hcnt, hvalid⟩ := Holding.latches_of_sameButAccess hy
  have himage := Holding.sameImage_of_sameButAccess hy
  refine ⟨u.wordDone, by rw [hexec, runWord_ok hrun h0], hg.ran_wordDone, wordDone_seq hseq, ?_⟩
  rw [State.wordDone_x, hx]
  exact ⟨himage, hop, hval, rfl, rfl, rfl, hcnt, hvalid, hg.rsp⟩

/-- Each grammar word runs the handshake and the wait where the unit is present (R210). -/
theorem exec_grammarWord {s : State} {i : Instr} {cmd : Word} (hgram : s.cfg.hasGrammar = true)
    (h : (i = .cmdGramDisable ∧ cmd = s.cfg.cmds.gramDisable) ∨ (i = .cmdGramEnable ∧ cmd = s.cfg.cmds.gramEnable)) :
    exec i s = runWord (commandAndWait cmd) s := by
  rcases h with ⟨rfl, rfl⟩ | ⟨rfl, rfl⟩ <;> exact if_pos hgram

/-- Settles O44: the handshake, the wait until not busy, then the terminal transition; without the unit, the refusal. -/
theorem grammarWordsComplete : Obligations.GrammarWordsComplete := by
  constructor
  · rintro s i cmd r ps _ d hi hgram hok hp hl ⟨e, hbus, h0, rfl⟩
    obtain ⟨u, hrun, hg, hseq, hx, hop, hcnt, rfl, rfl⟩ := commandAndWait_ok (s := s.acceptWord) hok hp hl hbus
    have himage := Holding.sameImage_of_sameButAccess hx
    obtain ⟨hraw, hrawv, hflash, hvalid⟩ := Holding.latches_of_sameButAccess hx
    exact ⟨u.wordDone, by rw [exec_grammarWord hgram hi, runWord_ok hrun h0], hg.ran_wordDone, wordDone_seq hseq,
      himage, hop, hcnt, hraw, hrawv, rfl, hflash, hvalid, hg.rsp⟩
  · intro s hgram
    have hno : ¬ s.cfg.hasGrammar = true := by simp [hgram]
    exact ⟨if_neg hno, if_neg hno⟩

/-! Reserved operation codes. -/

/-- What is left to the reserved codes is the raise (R90). -/
theorem exec_reservedOperation {s : State} {i : Instr} {op : BitVec 4}
    (h : i = .reqReserved op ∨ (s.cfg.hasGrammar = false ∧ op = 0x9#4 ∧ ∃ blob, i = .grammarLoad blob)) :
    exec i s = runRequest op false reservedSeq s := by
  rcases h with rfl | ⟨hgram, rfl, blob, rfl⟩
  · rfl
  · show runRequest _ _ (if _ then _ else _) s = _
    rw [if_neg (by simp [hgram])]
    rfl

/-- A request whose sequence raises a status answers it (R256 to R258). -/
theorem runRequest_raised {op : BitVec 4} {drivesIt : Bool} {m : M Payload} {st : Status} {s u : State}
    (h : m.run (s.accept op) = .error (.raised st) u) (h0 : u.env.resetIn ≠ some 0) :
    runRequest op drivesIt m s = .next (({ u with env := u.env.tick }.abort drivesIt).respond st Payload.none) := by
  rw [runRequest, h, settle, u.terminal_taken h0]

/-- Settles O42: nothing stands between the acceptance of the request and the raise. -/
theorem reservedOperationsAnswered : Obligations.ReservedOperationsAnswered := by
  intro s i op hi h0
  refine ⟨_, by rw [exec_reservedOperation hi, runRequest_raised (m := reservedSeq) (raise_run _ _) h0], rfl, ?_⟩
  exact ⟨_, rfl, rfl, rfl, by simp, rfl, rfl, rfl⟩

end Sys2Proof.Machine
end

section
/-! SUPPORT. What the reference responder refuses: its two shared operations, the paged forms, the end of a transfer
(spec/30_encoding.md R76, spec/40_frame_encoder.md R111 to R119). -/

namespace Sys2Proof.Machine

/-! The read and the write of a page. -/

section Page

variable {c : Config} {base off n : Nat} {d : Dev}

theorem answerRead_pastPageEnd (h : 128 < off + n) : d.answerRead c base off n = .error .pastPageEnd := if_pos h

theorem answerRead_readNotLast (h : off + n ≤ 128) (hrx : d.rx ≠ []) :
    d.answerRead c base off n = .error .readNotLast := by
  rw [Dev.answerRead, if_neg (Nat.not_lt.mpr h), if_pos hrx]

theorem answerRead_lengthMismatch (h : off + n ≤ 128) (hrx : d.rx = []) (hwant : d.want ≠ 2 * n) :
    d.answerRead c base off n = .error .readLengthMismatch := by
  rw [Dev.answerRead, if_neg (Nat.not_lt.mpr h), if_neg (not_not.mpr hrx), if_pos hwant]

theorem storePayload_pastPageEnd (h : 128 < off + n) : d.storePayload c base off n = .error .pastPageEnd := if_pos h

theorem storePayload_truncated (h : off + n ≤ 128) (hrx : d.rx.length < 2 * n) :
    d.storePayload c base off n = .error .truncatedPayload := by
  rw [Dev.storePayload, if_neg (Nat.not_lt.mpr h), if_pos hrx]

end Page

/-! The paged forms: refused in the extended window, otherwise as the page's read or write refuses. -/

section Paged

variable {c : Config} {off cnt : BitVec 7} {d : Dev} {e : Refusal}

theorem pagedRead_ordinary (h : d.sel ≤ 0xFD#8) :
    d.pagedRead c off cnt = d.answerRead c d.pageBase off.toNat (cnt.toNat + 1) := if_neg (BitVec.not_lt.mpr h)

theorem pagedWrite_error (h : d.sel ≤ 0xFD#8) (hs : d.storePayload c d.pageBase off.toNat (cnt.toNat + 1) = .error e) :
    d.pagedWrite c off cnt = .error e := by
  rw [Dev.pagedWrite, if_neg (BitVec.not_lt.mpr h), hs]

theorem contPagedWrite_none (h : d.cont = none) : d.contPagedWrite c cnt = .error .noContinuation := by
  rw [Dev.contPagedWrite, h]

theorem contPagedWrite_window (hcont : d.cont ≠ none) (h : 0xFD#8 < d.sel) :
    d.contPagedWrite c cnt = .error .extendedWindow := by
  obtain ⟨⟨p, o⟩, hc⟩ := Option.ne_none_iff_exists'.mp hcont
  rw [Dev.contPagedWrite, hc]
  exact if_pos h

theorem contPagedWrite_otherPage {p o : Nat} (hcont : d.cont = some (p, o)) (h : d.sel ≤ 0xFD#8)
    (hp : p ≠ d.sel.toNat + 1) : d.contPagedWrite c cnt = .error .noContinuation := by
  rw [Dev.contPagedWrite, hcont]
  simp only [if_neg (BitVec.not_lt.mpr h), if_pos hp]

theorem contPagedWrite_error {p o : Nat} (hcont : d.cont = some (p, o)) (h : d.sel ≤ 0xFD#8)
    (hp : p = d.sel.toNat + 1) (hs : d.storePayload c (p * 256) o (cnt.toNat + 1) = .error e) :
    d.contPagedWrite c cnt = .error e := by
  rw [Dev.contPagedWrite, hcont]
  simp only [if_neg (BitVec.not_lt.mpr h), if_neg (not_not.mpr hp), hs]

end Paged

/-! From the responder to the machine. -/

/-- A command word that the responder refuses has no meaning (R119). -/
theorem exec_wire_refused {cmd : WireCmd} {s : State} {e : Refusal} (h : Dev.execCmd s.cfg s.dev cmd = .error e) :
    exec cmd.toInstr s = .refused e := by
  rw [exec_toInstr, h]
  rfl

/-- A transfer that asks for bytes must have ended in the read that answers them (R111). -/
theorem close_refused {d : Dev} (h : d.tx.length ≠ d.want) : d.close = .error .nothingToReceive := if_neg h

/-- A command word of a transfer in progress, as the whole step (R111). -/
theorem step_word {s : State} {i : Instr} {b0 b1 : Byte} {t : List Byte} (h0 : s.env.resetIn ≠ some 0)
    (hrx : s.dev.rx = b0 :: b1 :: t) (hdec : decode s.cfg (.wire (b0 :: b1 :: t)) = .ok i) :
    step s = endTransfer (exec i { s with dev := { s.dev with rx := t } }) := by
  rw [step_eq_outcome, fetch_transfer h0 (by simp [hrx]), fetchWire_decoded hrx hdec]

/-- A transfer whose last command word leaves the bytes it asked for unanswered. -/
theorem step_unanswered {s u : State} {i : Instr} {b0 b1 : Byte} {t : List Byte} (h0 : s.env.resetIn ≠ some 0)
    (hrx : s.dev.rx = b0 :: b1 :: t) (hdec : decode s.cfg (.wire s.dev.rx) = .ok i)
    (hx : exec i { s with dev := { s.dev with rx := t } } = .next u) (hend : u.dev.rx = [])
    (htx : u.dev.tx.length ≠ u.dev.want) : step s = .refused .nothingToReceive := by
  rw [hrx] at hdec
  rw [step_word h0 hrx hdec, hx, endTransfer, if_pos hend, close_refused htx]
  rfl

/-- A transfer of no command word that asks for bytes. -/
theorem step_empty {s : State} {k : Nat} {rest : List Presented} (h0 : s.env.resetIn ≠ some 0) (hrx : s.dev.rx = [])
    (hin : s.inbox = .wire [] k :: rest) (hk : k ≠ 0) : step s = .refused .nothingToReceive := by
  rw [step_eq_outcome, fetch_presented h0 hrx, fetchPresented, hin]
  show runWire (Dev.close _) _ = _
  rw [close_refused (d := s.dev.open [] k) hk.symm]
  rfl

/-- Half a command word. -/
theorem step_half {s : State} {b : Byte} (h0 : s.env.resetIn ≠ some 0) (hrx : s.dev.rx = [b]) :
    step s = .refused (.undecodable .truncatedCommand) := by
  rw [step_eq_outcome, fetch_transfer h0 (by simp [hrx]), fetchWire, hrx]
  rfl

/-- Settles O50: each refusal is the first of its operation's checks that fails. -/
theorem responderRefusals : Obligations.ResponderRefusals := by
  intro s off cnt
  refine ⟨fun b0 b1 => rfl, ?pastEnd, ?window, ?truncated, ?notLast, ?mismatch, ?noCont, ?cont, ?transfer⟩
  case pastEnd =>
    intro h
    refine ⟨exec_wire_refused (cmd := .directRead off cnt) (answerRead_pastPageEnd h),
      exec_wire_refused (cmd := .directWrite off cnt) (storePayload_pastPageEnd h), fun hsel => ⟨?_, ?_⟩⟩
    · exact exec_wire_refused (cmd := .pagedRead off cnt) ((pagedRead_ordinary hsel).trans (answerRead_pastPageEnd h))
    · exact exec_wire_refused (cmd := .pagedWrite off cnt) (pagedWrite_error hsel (storePayload_pastPageEnd h))
  case window =>
    intro hsel
    have h : 0xFD#8 < s.dev.sel := by rw [hsel]; decide
    exact ⟨exec_wire_refused (cmd := .pagedRead off cnt) (if_pos h),
      exec_wire_refused (cmd := .pagedWrite off cnt) (if_pos h),
      fun hcont => exec_wire_refused (cmd := .contPagedWrite cnt) (contPagedWrite_window hcont h)⟩
  case truncated =>
    intro h hrx
    rw [Nat.mul_comm] at hrx
    exact ⟨exec_wire_refused (cmd := .directWrite off cnt) (storePayload_truncated h hrx), fun hsel =>
      exec_wire_refused (cmd := .pagedWrite off cnt) (pagedWrite_error hsel (storePayload_truncated h hrx))⟩
  case notLast =>
    intro h hrx
    exact ⟨exec_wire_refused (cmd := .directRead off cnt) (answerRead_readNotLast h hrx), fun hsel =>
      exec_wire_refused (cmd := .pagedRead off cnt) ((pagedRead_ordinary hsel).trans (answerRead_readNotLast h hrx))⟩
  case mismatch =>
    intro h hrx hwant
    rw [Nat.mul_comm] at hwant
    exact ⟨exec_wire_refused (cmd := .directRead off cnt) (answerRead_lengthMismatch h hrx hwant), fun hsel =>
      exec_wire_refused (cmd := .pagedRead off cnt)
        ((pagedRead_ordinary hsel).trans (answerRead_lengthMismatch h hrx hwant))⟩
  case noCont => exact fun h => exec_wire_refused (cmd := .contPagedWrite cnt) (contPagedWrite_none h)
  case cont =>
    intro p o hcont hsel
    refine ⟨fun hp => ?_, fun hp h => ?_, fun hp h hrx => ?_⟩
    · exact exec_wire_refused (cmd := .contPagedWrite cnt) (contPagedWrite_otherPage hcont hsel hp)
    · exact exec_wire_refused (cmd := .contPagedWrite cnt)
        (contPagedWrite_error hcont hsel hp (storePayload_pastPageEnd h))
    · rw [Nat.mul_comm] at hrx
      exact exec_wire_refused (cmd := .contPagedWrite cnt)
        (contPagedWrite_error hcont hsel hp (storePayload_truncated h hrx))
  case transfer =>
    intro h0
    exact ⟨fun i b0 b1 t u hrx hdec hx hend htx => step_unanswered h0 hrx hdec hx hend htx,
      fun k rest hrx hin hk => step_empty h0 hrx hin hk, fun b hrx => step_half h0 hrx⟩

end Sys2Proof.Machine
end

section
/-! SUPPORT. The command words that the reference responder answers: the words a read sends and a write stores, as one
page access, then in each of its forms (spec/40_frame_encoder.md R112 to R118). -/

namespace Sys2Proof.Machine

/-! The words of consecutive addresses. -/

/-- The wire bytes of consecutive words, word by word (R113). -/
theorem Mem.readWords_eq_flatMap (e : Endian) (m : Mem) (a n : Nat) :
    Mem.readWords e m a n = (List.range n).flatMap fun j => bytes16 e (m.readWord e (a + 2 * j)) := by
  induction n generalizing a with
  | zero => rfl
  | succ n ih =>
    have hnext (j : Nat) : a + 2 + 2 * j = a + 2 * (j + 1) := by omega
    simp only [Mem.readWords, ih, List.range_succ_eq_map, List.flatMap_cons, List.flatMap_map, hnext, Nat.mul_zero,
      Nat.add_zero]

/-- Word `j` of what was written to consecutive words is read back at its address (R114). -/
theorem Mem.readWord_writeWords (e : Endian) {m : Mem} (hm : m.wf) (a : Nat) (bs : List Byte) (he : bs.length % 2 = 0)
    {j : Nat} (hj : 2 * j + 1 < bs.length) :
    (Mem.writeWords e m a bs).readWord e (a + 2 * j) = val16 e (bs.getD (2 * j) 0) (bs.getD (2 * j + 1) 0) := by
  rw [Mem.readWord, Mem.read_writeWords_inside e hm a bs he (by omega), Nat.add_assoc,
    Mem.read_writeWords_inside e hm a bs he hj]

/-! The write of a page. -/

/-- `m` is the memory of `d` after the first `n` words of the bytes not parsed yet are stored at word offset `off` from
`base`: those words read back, every other byte is as it was (R114). -/
structure StoredWords (e : Endian) (base off n : Nat) (d : Dev) (m : Mem) : Prop where
  word : ∀ j, j < n →
    m.readWord e (base + (off + j) * 2) = val16 e (d.rx.getD (2 * j) 0) (d.rx.getD (2 * j + 1) 0)
  other : ∀ b, (b < base + off * 2 ∨ base + (off + n) * 2 ≤ b) → m.read b = d.mem.read b

theorem storedWords_writeWords {d : Dev} (e : Endian) (base off : Nat) {n : Nat} (hm : d.mem.wf)
    (hrx : 2 * n ≤ d.rx.length) :
    StoredWords e base off n d (d.mem.writeWords e (base + 2 * off) (d.rx.take (2 * n))) := by
  have hlen : (d.rx.take (2 * n)).length = 2 * n := List.length_take_of_le hrx
  have hbyte {i : Nat} (hi : i < 2 * n) : (d.rx.take (2 * n)).getD i 0 = d.rx.getD i 0 := by
    simp [List.getD_eq_getElem?_getD, List.getElem?_take_of_lt hi]
  constructor
  · intro j hj
    rw [show base + (off + j) * 2 = base + 2 * off + 2 * j by omega,
      Mem.readWord_writeWords e hm _ _ (by omega) (by omega), hbyte (by omega), hbyte (by omega)]
  · intro b hb
    exact Mem.read_writeWords_other e _ _ _ (by omega)

/-- A write that fits its page and has its payload is carried out (R114, R116). -/
theorem storePayload_stores {c : Config} {base off n : Nat} {d : Dev} (hm : d.mem.wf) (h : off + n ≤ 128)
    (hrx : 2 * n ≤ d.rx.length) :
    ∃ m, d.storePayload c base off n = .ok { d with mem := m, rx := d.rx.drop (2 * n) } ∧
      StoredWords c.devEndian base off n d m := by
  refine ⟨_, ?_, storedWords_writeWords c.devEndian base off hm hrx⟩
  rw [Dev.storePayload, if_neg (Nat.not_lt.mpr h), if_neg (Nat.not_lt.mpr hrx)]

/-! The paged forms, outside the extended window. -/

section Paged

variable {c : Config} {off cnt : BitVec 7} {d d' : Dev}

theorem pagedWrite_ok (h : d.sel ≤ 0xFD#8) (hs : d.storePayload c d.pageBase off.toNat (cnt.toNat + 1) = .ok d') :
    d.pagedWrite c off cnt = .ok { d' with cont := some (d.sel.toNat + 1, off.toNat + cnt.toNat + 1) } := by
  rw [Dev.pagedWrite, if_neg (BitVec.not_lt.mpr h), hs]

theorem contPagedWrite_ok {p o : Nat} (hcont : d.cont = some (p, o)) (h : d.sel ≤ 0xFD#8) (hp : p = d.sel.toNat + 1)
    (hs : d.storePayload c (p * 256) o (cnt.toNat + 1) = .ok d') :
    d.contPagedWrite c cnt = .ok { d' with cont := some (p, o + cnt.toNat + 1) } := by
  rw [Dev.contPagedWrite, hcont]
  simp only [if_neg (BitVec.not_lt.mpr h), if_neg (not_not.mpr hp), hs]

end Paged

/-! From the responder to the machine. -/

/-- A command word that the responder carries out changes the responder alone. -/
theorem exec_wire_ok {cmd : WireCmd} {s : State} {d : Dev} (h : Dev.execCmd s.cfg s.dev cmd = .ok d) :
    exec cmd.toInstr s = .next { s with dev := d } := by
  rw [exec_toInstr, h]
  rfl

/-- Settles O45: the select register is loaded with any value but the reserved one. -/
theorem selectPageAndNoOp : Obligations.SelectPageAndNoOp := fun _ =>
  ⟨fun sel hsel => exec_wire_ok (cmd := .selectPage sel) (if_neg hsel),
    exec_wire_refused (cmd := .selectPage 0xFE#8) rfl, exec_wire_ok (cmd := .noOp) rfl⟩

/-- Settles O46: both reads are the read of a page, whose bytes are those of its words one after the other. -/
theorem wireReadsComplete : Obligations.WireReadsComplete := by
  intro s off cnt hpage hrx hwant
  have hwords (base : Nat) : s.dev.answerRead s.cfg base off.toNat (cnt.toNat + 1) = .ok { s.dev with
      tx := (List.range (cnt.toNat + 1)).flatMap fun j =>
        bytes16 s.cfg.devEndian (s.dev.mem.readWord s.cfg.devEndian (base + (off.toNat + j) * 2)) } := by
    have haddr (j : Nat) : base + 2 * off.toNat + 2 * j = base + (off.toNat + j) * 2 := by omega
    rw [answerRead_end hpage hrx (by omega), Mem.readWords_eq_flatMap]
    simp only [haddr]
  refine ⟨?_, fun hsel => exec_wire_ok (cmd := .pagedRead off cnt) ((pagedRead_ordinary hsel).trans (hwords _))⟩
  have hdirect := hwords 0
  simp only [Nat.zero_add] at hdirect
  exact exec_wire_ok (cmd := .directRead off cnt) hdirect

/-- Settles O47: the write of page 0. -/
theorem directWriteCompletes : Obligations.DirectWriteCompletes := by
  intro s off cnt hm hpage hrx
  rw [Nat.mul_comm] at hrx ⊢
  obtain ⟨m, hstore, hm'⟩ := storePayload_stores (c := s.cfg) (base := 0) (n := cnt.toNat + 1) hm hpage hrx
  refine ⟨_, exec_wire_ok (cmd := .directWrite off cnt) hstore, rfl, fun j hj => ?_, fun b hb => ?_⟩
  · simpa only [Nat.zero_add] using hm'.word j (Nat.lt_succ_of_le hj)
  · exact hm'.other b (by omega)

/-- Settles O48: the write of the selected page, then the continuation address. -/
theorem pagedWriteCompletes : Obligations.PagedWriteCompletes := by
  intro s off cnt hm hsel hpage hrx base
  rw [Nat.mul_comm] at hrx ⊢
  obtain ⟨m, hstore, hm'⟩ := storePayload_stores (c := s.cfg) (base := base) (n := cnt.toNat + 1) hm hpage hrx
  exact ⟨_, exec_wire_ok (cmd := .pagedWrite off cnt) (pagedWrite_ok hsel hstore), rfl,
    fun j hj => hm'.word j (Nat.lt_succ_of_le hj), hm'.other⟩

/-- Settles O49: the write of the selected page where the last one ended, then the continuation address. -/
theorem contPagedWriteCompletes : Obligations.ContPagedWriteCompletes := by
  intro s cnt p o hm hcont hsel hp hpage hrx
  rw [Nat.mul_comm] at hrx ⊢
  obtain ⟨m, hstore, hm'⟩ := storePayload_stores (c := s.cfg) (base := p * 256) (n := cnt.toNat + 1) hm hpage hrx
  exact ⟨_, exec_wire_ok (cmd := .contPagedWrite cnt) (contPagedWrite_ok hcont hsel hp hstore), rfl,
    fun j hj => hm'.word j (Nat.lt_succ_of_le hj), hm'.other⟩

end Sys2Proof.Machine
end

section
/-! SUPPORT. The header as a code: the words it is made of, what they decode to, how long it is, and the request that
builds one (spec/20_memory.md R40, spec/40_frame_encoder.md R100 to R109, spec/70_reset_and_hazards.md R297). -/

namespace Sys2Proof.Machine

/-! The function. -/

/-- A size has a header exactly where it has a count field (R102, R105). -/
theorem hdrEncode_eq_some {c : WireCfg} {a : Addr} {rw : Dir} {size : Nat} {h : List Byte} :
    hdrEncode c a rw size = some h ↔ ∃ cnt, countOf size = some cnt ∧ header c a rw cnt = h :=
  Option.map_eq_some_iff

theorem hdrEncode_eq_none {c : WireCfg} {a : Addr} {rw : Dir} {size : Nat} :
    hdrEncode c a rw size = none ↔ countOf size = none := Option.map_eq_none_iff

/-- A malformed size has no count field (R105). -/
theorem countOf_eq_none_iff_malformed {size : Nat} :
    countOf size = none ↔ size = 0 ∨ 256 < size ∨ size % 2 = 1 := by
  rw [countOf_eq_none, ← Bool.not_eq_true, sizeOk_iff]
  omega

theorem header_direct {c : WireCfg} {a : Addr} (h : pageOf a = 0#8) (rw : Dir) (cnt : BitVec 7) :
    header c a rw cnt = wordBytes c (accWord c true (offOf a) rw cnt) := if_pos h

theorem header_paged {c : WireCfg} {a : Addr} (h : pageOf a ≠ 0#8) (rw : Dir) (cnt : BitVec 7) :
    header c a rw cnt =
      [c.selectPage, selectValue (pageOf a)] ++ wordBytes c (accWord c false (offOf a) rw cnt) := by
  rw [header, if_neg h, wordBytes_selWord]

/-! Decoding a header. -/

/-- Bits side by side, as a number. -/
theorem toNat_append_eq_add {m n : Nat} (x : BitVec m) (y : BitVec n) : (x ++ y).toNat = x.toNat * 2 ^ n + y.toNat := by
  rw [BitVec.toNat_append, ← Nat.shiftLeft_add_eq_or_of_lt y.isLt, Nat.shiftLeft_eq]

/-- An even address is its page and its word offset (R40). -/
theorem append_page_off_of_even {a : Addr} (h : evenAddress a = true) : pageOf a ++ offOf a ++ 0#1 = a := by
  have ha := toNat_of_even h
  apply BitVec.eq_of_toNat_eq
  rw [toNat_append_eq_add, toNat_append_eq_add, BitVec.toNat_zero]
  omega

/-- One access word, decoded as a direct access (R109). -/
theorem frameDecode_direct {c : WireCfg} {w : Word} {off : BitVec 7} {rw : Dir} {cnt : BitVec 7}
    (h : decodeWire c (firstByte c w) (secondByte c w) = accessCmd true off rw cnt) :
    frameDecode c (wordBytes c w) = some (0#8 ++ off ++ 0#1, rw, (cnt.toNat + 1) * 2) := by
  rw [wordBytes, frameDecode, h]
  cases rw <;> rfl

/-- A SEL word and an access word, decoded as a paged access (R109). -/
theorem frameDecode_paged {c : WireCfg} {sel page : Byte} {w : Word} {off : BitVec 7} {rw : Dir} {cnt : BitVec 7}
    (hsel : pageOfSelect sel = some page)
    (h : decodeWire c (firstByte c w) (secondByte c w) = accessCmd false off rw cnt) :
    frameDecode c ([c.selectPage, sel] ++ wordBytes c w) = some (page ++ off ++ 0#1, rw, (cnt.toNat + 1) * 2) := by
  have hword : decodeWire c c.selectPage sel = .selectPage sel := if_pos rfl
  rw [wordBytes, List.cons_append, List.singleton_append, frameDecode, hword, h]
  cases rw <;> simp only [accessCmd, hsel, Option.map_some]

/-- A header decodes to the access it was built for, where its access word is not shadowed (R109, R297). -/
theorem frameDecode_header {c : Config} (hwf : c.wf) {a : Addr} {rw : Dir} {cnt : BitVec 7}
    (heven : evenAddress a = true) (hr : reachable c.wire a rw cnt = true) :
    frameDecode c.wire (header c.wire a rw cnt) = some (a, rw, (cnt.toNat + 1) * 2) := by
  have haddr := append_page_off_of_even heven
  by_cases h0 : pageOf a = 0#8
  · have hlow : firstByte c.wire (accWord c.wire true (offOf a) rw cnt) < c.wire.specialLo := by
      simpa [reachable, h0, directReachable] using hr
    rw [header_direct h0, frameDecode_direct (decodeWire_accWord hwf hlow), ← h0, haddr]
  · rw [header_paged h0, frameDecode_paged (pageOfSelect_selectValue h0)
      (decodeWire_accWord hwf (paged_below_special hwf _ _ _)), haddr]

theorem evenAddress_of_toNat {a : Addr} (h : a.toNat % 2 = 0) : evenAddress a = true := by
  simpa [evenAddress, BitVec.getElem_eq_testBit_toNat, Nat.testBit_zero] using h

/-- At the default layout only the direct forms of 0x00F4 to 0x00FE lie in the special opcode space (R297). -/
theorem reachable_default {a : Addr} (heven : a.toNat % 2 = 0) (ha : a.toNat < 0xF4 ∨ 0xFE < a.toNat) (rw : Dir)
    (cnt : BitVec 7) : reachable WireCfg.default a rw cnt = true := by
  by_cases h0 : pageOf a = 0#8
  · have hoff : a.toNat = 2 * (offOf a).toNat := by
      simpa [h0] using toNat_of_even (evenAddress_of_toNat heven)
    have hpage : a.toNat < 256 := by have := (offOf a).isLt; omega
    have hfirst : firstByte WireCfg.default (accWord WireCfg.default true (offOf a) rw cnt) = 1#1 ++ offOf a :=
      List.head_eq_of_cons_eq (wordBytes_accWord_default true (offOf a) rw cnt)
    have hlow : 1#1 ++ offOf a < 0xFA#8 := by
      rw [BitVec.lt_def, toNat_append_eq_add]
      show 1 * 2 ^ 7 + (offOf a).toNat < 250
      omega
    simp only [reachable, h0, directReachable, hfirst, Bool.or_eq_true]
    exact .inr (decide_eq_true hlow)
  · simp [reachable, h0]

/-- The operands of an accepted size come back (R109). -/
theorem frameDecode_hdrEncode {c : Config} (hwf : c.wf) {a : Addr} {rw : Dir} {size : Nat}
    (heven : evenAddress a = true) (hr : reachable c.wire a rw (BitVec.ofNat 7 (size / 2 - 1)) = true)
    (hsize : sizeOk size = true) :
    (hdrEncode c.wire a rw size).bind (frameDecode c.wire) = some (a, rw, size) := by
  have hcount : countOf size = some (BitVec.ofNat 7 (size / 2 - 1)) := if_pos hsize
  rw [hdrEncode, hcount, Option.map_some, Option.bind_some, frameDecode_header hwf heven hr, ← countOf_toNat hcount]

/-- Settles O9: each word of the header decodes to itself, and page and word offset make up the address. -/
theorem headerRoundTrip : Obligations.HeaderRoundTrip :=
  ⟨fun _ _ _ _ hwf heven hr hsize => frameDecode_hdrEncode hwf heven hr hsize,
    fun _ _ _ heven ha hlo hhi hsize => frameDecode_hdrEncode atReset_wf (evenAddress_of_toNat heven)
      (reachable_default heven ha _ _) (sizeOk_iff.mpr ⟨hlo, hhi, hsize⟩)⟩

/-! The length law. -/

/-- A header ends in its access word (R103). -/
theorem header_ends_in_accWord (c : WireCfg) (a : Addr) (rw : Dir) (cnt : BitVec 7) :
    ∃ sel direct, header c a rw cnt = sel ++ wordBytes c (accWord c direct (offOf a) rw cnt) := by
  by_cases h0 : pageOf a = 0#8
  · exact ⟨[], true, header_direct h0 rw cnt⟩
  · exact ⟨_, false, header_paged h0 rw cnt⟩

/-- The last word of bytes that end in the two of a word (R70). -/
theorem wordOf_last_two (c : WireCfg) (bs : List Byte) (w : Word) :
    wordOf c ((bs ++ wordBytes c w).getD ((bs ++ wordBytes c w).length - 2) 0)
      ((bs ++ wordBytes c w).getD ((bs ++ wordBytes c w).length - 1) 0) = w := by
  have hlen : (bs ++ wordBytes c w).length = bs.length + 2 := by simp
  rw [hlen, Nat.add_sub_cancel, show bs.length + 2 - 1 = bs.length + 1 by omega]
  simp [wordBytes]

/-- Settles O10: the number of words by the page, the select byte as the second, the count field in the last word. -/
theorem headerLength : Obligations.HeaderLength := by
  intro c a rw size h hh
  obtain ⟨cnt, hcount, rfl⟩ := hdrEncode_eq_some.mp hh
  have hcnt : cnt.toNat = size / 2 - 1 := by have := countOf_toNat hcount; omega
  obtain ⟨sel, direct, hlast⟩ := header_ends_in_accWord c a rw cnt
  refine ⟨fun h0 => ?_, fun h0 => ⟨?_, ?_⟩, fun hapart => ?_, ?_⟩
  · rw [header_length, if_pos h0]
  · rw [header_length, if_neg h0]
  · rw [header_paged h0]
    rfl
  · rw [hlast, wordOf_last_two, accCnt_accWord hapart, hcnt]
  · rintro rfl
    have hlow : (BitVec.ofBool rw.isWrite ++ cnt : Byte).toNat % 128 = cnt.toNat := by
      have := cnt.isLt
      rw [toNat_append_eq_add]
      omega
    rw [hlast, wordBytes_accWord_default, ← hcnt, ← hlow]
    simp

/-! The request. -/

/-- HDR_ENCODE of an accepted size builds its header and answers it (R100, R106). -/
theorem hdrEncodeSeq_ok {s : State} {a : Addr} {rw : Dir} {size : BitVec 16} {cnt : BitVec 7}
    (hc : countOf size.toNat = some cnt) :
    (hdrEncodeSeq a rw size).run s =
      .ok { hdr := header s.cfg.wire a rw cnt, data := [] } (s.setHdr (header s.cfg.wire a rw cnt)) := by
  rw [hdrEncodeSeq, hc]
  show (.ok { hdr := (s.setHdr (header s.cfg.wire a rw cnt)).hdrBytes, data := [] } _ :
    EStateM.Result Abort State Payload) = _
  rw [hdrBytes_setHdr]

/-- HDR_ENCODE of a malformed size raises INVALID_ARG before it writes anything (R105). -/
theorem hdrEncodeSeq_malformed {s : State} {a : Addr} {rw : Dir} {size : BitVec 16} (hc : countOf size.toNat = none) :
    (hdrEncodeSeq a rw size).run s = .error (.raised .invalidArg) s := by
  rw [hdrEncodeSeq, hc]
  exact raise_run _ s

/-- Settles O12: the sequence writes the header registers alone, then the request is answered. -/
theorem hdrEncodeCompletes : Obligations.HdrEncodeCompletes := by
  intro s a rw size cnt hc h0
  exact ⟨_, runRequest_ok (m := hdrEncodeSeq a rw size) (hdrEncodeSeq_ok (s := s.accept 0x0) hc) h0, rfl,
    _, rfl, rfl, rfl, by simp, rfl, rfl, rfl⟩

/-- Settles O13: a malformed size has no count field, so there is neither a header nor anything before the raise. -/
theorem hdrEncodeMalformed : Obligations.HdrEncodeMalformed := by
  intro s a rw size malformed
  have hnone : countOf size.toNat = none ↔ malformed := countOf_eq_none_iff_malformed
  refine ⟨hdrEncode_eq_none.trans hnone, fun hbad h0 => ?_⟩
  have hrun := hdrEncodeSeq_malformed (s := s.accept 0x0) (a := a) (rw := rw) (hnone.mpr hbad)
  exact ⟨_, runRequest_raised (m := hdrEncodeSeq a rw size) hrun h0, rfl, _, rfl, rfl, rfl, by simp, rfl, rfl, rfl⟩

end Sys2Proof.Machine
end

section
/-! SUPPORT. The three requests of RegisterAccess: what they leave where the transfer succeeds, a size that RA refuses, and a
transfer that reports no unit (spec/41_register_access.md R120 to R132). -/

namespace Sys2Proof.Machine

/-! A transfer that succeeds. -/

/-- Settles O16: one write access between acceptance and answer. -/
theorem regWriteCompletes : Obligations.RegWriteCompletes := by
  rintro s a data cnt n _ d h hc hn ⟨e, hbus, h0, rfl⟩
  have hrun := bind_ok (f := fun _ => (pure Payload.none : M Payload))
    (regWrite_ok (s := s.accept 0x1) (a := a) hc hn hbus)
  refine ⟨_, runRequest_ok hrun h0, ⟨rfl, rfl, rfl, rfl, rfl, rfl⟩, rfl, ?_,
    _, rfl, rfl, rfl, by simp, rfl, rfl, rfl⟩
  rw [← sizeReg_of_countOf hc]
  rfl

/-- Settles O17: one read access between acceptance and answer. -/
theorem regReadCompletes : Obligations.RegReadCompletes := by
  rintro s a size cnt n r _ d h hc hn hr ⟨e, hbus, h0, rfl⟩
  have hrun := bind_ok (f := fun out => (pure { hdr := [], data := out } : M Payload))
    (regRead_ok (s := s.accept 0x2) (a := a) hc hn hr hbus)
  have hsize : sizeReg size.toNat = size := by rw [sizeReg_of_countOf hc, BitVec.ofNat_toNat, BitVec.setWidth_eq]
  refine ⟨_, runRequest_ok hrun h0, ⟨rfl, rfl, rfl, rfl, rfl, rfl⟩, rfl, ?_,
    _, rfl, rfl, rfl, by simp, rfl, rfl, rfl⟩
  conv_rhs => rw [← hsize]
  rfl

/-- Settles O18: one raw write between acceptance and answer. -/
theorem rawWriteCompletes : Obligations.RawWriteCompletes := by
  rintro s data n _ d hpos hcap hn ⟨e, hbus, h0, rfl⟩
  have hrun := bind_ok (f := fun _ => (pure Payload.none : M Payload))
    (rawWrite_ok (s := s.accept 0x3) hpos hcap hn hbus)
  exact ⟨_, runRequest_ok hrun h0, ⟨rfl, rfl, rfl, rfl, rfl, rfl⟩, rfl, rfl, _, rfl, rfl, rfl, by simp, rfl, rfl, rfl⟩

/-! A request of one access that fails. -/

/-- The state of a request that raised a status and left IT_STATE to others, once it is answered (R256 to R258). -/
def State.failed (u : State) (st : Status) : State :=
  (({ u with env := u.env.tick }.abort false).respond st Payload.none)

/-- What the raise adds to the record is the abort, and the answer carries nothing where no response code was latched. -/
theorem failed_ran {s u : State} {op : BitVec 4} {evs : List Event} {mvs : List Move} {e : Env} {d : Dev}
    (hgo : Goes (s.accept op) u evs mvs) (hx : u.x.rawValid = false) (he : u.env = e) (hd : u.dev = d) {st : Status}
    (hst : st ≠ .success) :
    Ran s (u.failed st) evs (mvs ++ [.aborted]) e.tick d ∧ (u.failed st).answered st none [] [] none := by
  subst he hd
  obtain ⟨hcfg, hinbox, -, hhist, hmoves, -⟩ := hgo
  refine ⟨⟨hhist, ?_, rfl, rfl, hcfg, hinbox⟩, _, rfl, rfl, hx, by simp, rfl, rfl, by simp [hst]⟩
  show u.moves ++ [Move.aborted] = _
  rw [hmoves, List.append_assoc]
  rfl

/-- A request of one access that raises a status before or at its transfer. -/
theorem access_failed {α : Type} {m : M α} {f : α → M Payload} {op : BitVec 4} {s u : State} {evs : List Event}
    {mvs : List Move} {st : Status} {e : Env} {d : Dev} (hrun : m.run (s.accept op) = .error (.raised st) u)
    (hgo : Goes (s.accept op) u evs mvs) (hx : u.x.rawValid = false) (he : u.env = e) (hd : u.dev = d)
    (h0 : e.resetIn ≠ some 0) (hst : st ≠ .success) :
    runRequest op false (m >>= f) s = .next (u.failed st) ∧ Ran s (u.failed st) evs (mvs ++ [.aborted]) e.tick d ∧
      (u.failed st).answered st none [] [] none :=
  ⟨runRequest_raised (bind_error hrun) (he ▸ h0), failed_ran hgo hx he hd hst⟩

/-- Settles O19: RA checks the size before it does anything else. -/
theorem accessSizeRefused : Obligations.AccessSizeRefused := by
  intro s h0
  have go (op : BitVec 4) : Goes (s.accept op) ((s.accept op).setRa .check) [] [.ra .check] := Goes.setRa _ _
  refine ⟨fun a data hbad => ?_, fun a size hbad => ?_, fun data hbad => ?_⟩
  · have hsize := countOf_eq_none.mp (countOf_eq_none_iff_malformed.mpr hbad)
    exact ⟨_, access_failed (regWrite_refuse hsize) ((go _).setHolding _) rfl rfl rfl h0 (by decide)⟩
  · have hsize := countOf_eq_none.mp (countOf_eq_none_iff_malformed.mpr hbad)
    exact ⟨_, access_failed (regRead_refuse hsize) ((go _).setHolding _) rfl rfl rfl h0 (by decide)⟩
  · exact ⟨_, access_failed (rawWrite_refuse hbad) (go _) rfl rfl rfl h0 (by decide)⟩

/-- Settles O20: the test of the transfer's result is the last thing that happens before the raise. -/
theorem transferFailureReported : Obligations.TransferFailureReported := by
  intro s e d
  refine ⟨?_, ?_, ?_⟩
  · rintro a data cnt hc ev ⟨e, hbus, h0, rfl⟩
    exact ⟨_, access_failed (regWrite_fail (s := s.accept 0x1) hc hbus) ⟨rfl, rfl, rfl, rfl, rfl, hbus⟩ rfl rfl rfl h0
      (by decide)⟩
  · rintro a size cnt r hc ev ⟨e, hbus, h0, rfl⟩
    obtain ⟨hexec, hran, hans⟩ := access_failed (f := fun out => pure { hdr := [], data := out })
      (regRead_fail (s := s.accept 0x2) hc hbus) ⟨rfl, rfl, rfl, rfl, rfl, hbus⟩ rfl rfl rfl h0 (by decide)
    exact ⟨_, hexec, hran, rfl, hans⟩
  · rintro data hpos hcap ⟨e, hbus, h0, rfl⟩
    exact ⟨_, access_failed (rawWrite_fail (s := s.accept 0x3) hpos hcap hbus) ⟨rfl, rfl, rfl, rfl, rfl, hbus⟩ rfl rfl rfl
      h0 (by decide)⟩

end Sys2Proof.Machine
end

section
/-! SUPPORT. What a failed request leaves, whatever request it is: the raise is the last thing before the answer, and a
transfer that reports no unit is the last bus primitive (spec/41_register_access.md R124 and R131,
spec/43_image_transport.md R169, spec/60_exceptions.md R256 to R258). -/

namespace Sys2Proof.Machine

/-- What a request's sequence keeps where it leaves IT_STATE alone: all that HC, the boot-mode controller and the grammar
loader keep (R176). -/
def LeavesItAlone (m : M Payload) : Prop :=
  ∀ P : State → Prop, HcStable P → (∀ s st, P s → P (s.setGl st)) → Keeps P m

/-- The job of a request: its sequence writes IT_STATE only where the request drives it (R176, R257). -/
theorem jobOf_drivesIt {i : Instr} {s : State} {j : Job} (hi : i.space = .request) (h : jobOf i s = some j) :
    ∃ op m, j = requestJob op (drivesIt i) m s ∧ (drivesIt i = false → LeavesItAlone m) := by
  cases i with
  | selectPage _ | noOp | contPagedWrite _ | directRead _ _ | directWrite _ _ | pagedRead _ _ | pagedWrite _ _
    | reserved _ _ | cmdLoadComplete | cmdFlashInit | cmdSave | cmdErase | cmdGramDisable | cmdGramEnable => cases hi
  | hdrEncode a rw size => cases h; exact ⟨_, _, rfl, fun _ _ hP _ => hP.hdrEncodeSeq _ _ _⟩
  | regWrite a data => cases h; exact ⟨_, _, rfl, fun _ _ hP _ => Keeps.bind (hP.regWrite _ _) fun _ => Keeps.pure _⟩
  | regRead a size => cases h; exact ⟨_, _, rfl, fun _ _ hP _ => Keeps.bind (hP.regRead _ _) fun _ => Keeps.pure _⟩
  | rawWrite data => cases h; exact ⟨_, _, rfl, fun _ _ hP _ => Keeps.bind (hP.rawWrite _) fun _ => Keeps.pure _⟩
  | runCmd cmd => cases h; exact ⟨_, _, rfl, fun _ _ hP _ => Keeps.bind (hP.runCommand _) fun _ => Keeps.pure _⟩
  | bootSwitch => cases h; exact ⟨_, _, rfl, fun _ _ hP _ => Keeps.bind hP.bootSwitch fun _ => Keeps.pure _⟩
  | grammarLoad blob =>
    cases h
    exact ⟨_, _, rfl, fun _ _ hP hgl => Keeps.ite (hP.grammarLoad hgl _) (Keeps.raise _)⟩
  | reqReserved op => cases h; exact ⟨_, _, rfl, fun _ _ _ _ => Keeps.raise _⟩
  | flashSave _ | flashErase => cases h; exact ⟨_, _, rfl, fun hno => by cases hno⟩
  | loadImage image =>
    simp only [jobOf] at h
    split at h
    · cases h
    · cases h; exact ⟨_, _, rfl, fun hno => by cases hno⟩

/-- RA, HC and the boot-mode controller leave IT_STATE as it is (R176). -/
theorem hcStable_it (it : ItState) : HcStable (·.seq.it = it) where
  ra _ _ h := h
  access _ _ _ _ h := h
  hdr _ _ _ _ _ h := h
  buf _ _ _ h := h
  val _ _ h := h
  xfer _ _ _ _ _ _ _ _ _ h := h
  delay _ _ _ h := h
  hang _ _ _ h := h
  hc _ _ h := h
  bm _ _ h := h
  cmdOp _ _ h := h
  pollCnt _ _ _ h := h

/-- However a sequence that leaves IT_STATE alone ends, IT_STATE is as it was. -/
theorem LeavesItAlone.it_eq {m : M Payload} (h : LeavesItAlone m) (s : State) : (stateOf (m.run s)).seq.it = s.seq.it := by
  have hends := h _ (hcStable_it s.seq.it) (fun _ _ hs => hs) s rfl
  cases hr : m.run s with
  | ok p u | error e u => rw [hr] at hends; exact hends

/-- An answer other than SUCCESS leaves every unit idle and IT_STATE `it`, and carries nothing (R257, R258). -/
def State.FailsTo (it : ItState) (t : State) : Prop :=
  ∀ r, t.rsp = some r → r.status ≠ .success →
    t.seq.busy = false ∧ t.seq.unitsIdle ∧ t.seq.it = it ∧ r.hdr = [] ∧ r.data = [] ∧ r.count = none

theorem failsTo_of_no_response {it : ItState} {t : State} (h : t.rsp = none) : t.FailsTo it := by
  intro r hr
  rw [h] at hr
  cases hr

/-- Of the ways a request ends only the raise answers another status than SUCCESS (R256). -/
theorem settle_failsTo {m : M Payload} {b : Bool} {s : State} (hrsp : (stateOf (m.run s)).rsp = none)
    (hit : b = false → LeavesItAlone m) : (settle b (m.run s)).FailsTo (if b then .failed else s.seq.it) := by
  refine settle_elim (fun u hu => ?_) (fun _ => failsTo_of_no_response rfl) (fun p u _ r hr hne => ?_)
    (fun st u hu r hr hne => ?_)
  · rw [hu] at hrsp
    exact failsTo_of_no_response hrsp
  · cases hr
    exact absurd rfl hne
  · cases hr
    refine ⟨rfl, by simp [Seq.unitsIdle], ?_, rfl, rfl, if_neg fun h => hne h.1⟩
    cases b with
    | true => simp
    | false =>
      have := (hit rfl).it_eq s
      rw [hu] at this
      simpa [stateOf] using this

/-- Up to the terminal transition a job delivers no response of its own. -/
theorem Job.Course.run_rsp {j : Job} {evs : List Event} {e : Env} {d : Dev} (c : j.Course evs e d) :
    (stateOf (j.seq.run j.start)).rsp = j.start.rsp := by
  rcases c.run_cases with ⟨-, u, hu, -, hrun⟩ | ⟨-, u, p, hu, hrun, -⟩ | ⟨r, -, hal, hrun, -⟩
  · rw [hrun]; exact hu.rsp
  · rw [hrun]; exact hu.rsp
  · rw [hrun, stateOf_withBus]; exact hal.rsp

/-- What the environment answers to one transfer. -/
theorem busReply_of_replay {c : Config} {w r : List Byte} {k n : Nat} {e e2 : Env} {d d2 : Dev}
    (h : replay c [.xfer w k n r] e d = some (e2, d2)) :
    e.resetIn ≠ some 0 ∧ ∃ e1, busReply c e d w k = some (n, r, e1, d2) ∧
      e2 = { e1.tick with answered := e1.answered + 1 } := by
  simp only [replay] at h
  split at h
  · cases h
  · next h0 =>
    split at h
    · cases h
    · next n' r' e1 d1 hreply =>
      split at h
      · next heq =>
        obtain ⟨rfl, rfl⟩ := heq
        cases h
        exact ⟨h0, e1, hreply, rfl⟩
      · cases h

/-- Where a transfer is asked for and reports no unit, INTERNAL_ERR is raised (R124). -/
theorem Asks.failed {α : Type} {m : M α} {s : State} {pre : List Event} {w b : List Byte} {k : Nat} {e e2 : Env}
    {d d2 : Dev} (h : Asks m s pre (.xfer w k)) (hr : replay s.cfg (pre ++ [.xfer w k 0 b]) e d = some (e2, d2)) :
    ∃ v, m.run (s.withBus e d) = .error (.raised .internalErr) v ∧ Along s v (pre ++ [.xfer w k 0 b]) ∧
      v.env = e2 ∧ v.dev = d2 := by
  obtain ⟨e1, d1, hpre, hbad⟩ := replay_append_some.mp hr
  obtain ⟨h0, e', hreply, rfl⟩ := busReply_of_replay hbad
  obtain ⟨u, -, hask⟩ := h
  exact (hask e d e1 d1 hpre).2.2 w k b e' d2 h0 rfl hreply

/-- A transfer of a request that reports no unit is its last bus primitive, and is answered INTERNAL_ERR (R124, R256). -/
theorem failed_transfer_last {op : BitVec 4} {drivesIt : Bool} {m : M Payload} {s : State} {e : Env} {d : Dev}
    {pre post : List Event} {w b : List Byte} {k : Nat} (h0 : s.noReset)
    (c : (requestJob op drivesIt m s).Course (pre ++ .xfer w k 0 b :: post) e d) :
    post = [] ∧ ∃ r, (settle drivesIt (m.run (s.accept op))).rsp = some r ∧ r.status = .internalErr := by
  have hsplit : pre ++ Event.xfer w k 0 b :: post = (pre ++ [.xfer w k 0 b]) ++ post := by simp
  obtain ⟨e2, d2, hbus⟩ := State.busAnswers_append (hsplit ▸ c.bus)
  obtain ⟨v, hrun, hal, rfl, -⟩ := (c.asks pre _ post rfl).failed hbus
  have hreset : v.env.resetIn = none := by
    rw [(replay_resetIn hbus).1]
    exact congrArg _ h0
  have hend : settle drivesIt (m.run (s.accept op)) =
      ({ v with env := v.env.tick }.abort drivesIt).respond .internalErr Payload.none := by
    rw [show m.run (s.accept op) = _ from hrun, settle, v.terminal_taken (by simp [hreset])]
  refine ⟨?_, _, by rw [hend]; rfl, rfl⟩
  have hhist : (settle drivesIt (m.run (s.accept op))).history = s.history ++ (pre ++ .xfer w k 0 b :: post) :=
    c.finish_history (settles_settle _)
  have hv : v.history = s.history ++ (pre ++ [.xfer w k 0 b]) := hal.history
  rw [hend, State.respond_history, State.abort_history, hv] at hhist
  simpa using hhist.symm

/-- Settles O59: the four endings of a request for its answer, and the course of its job for the transfer. -/
theorem raiseEnds : Obligations.RaiseEnds := by
  intro s t i evs hi h0 ht hhist
  obtain ⟨j, evs', e, d, hj, c, rfl⟩ := course_of_exec (by rw [hi]; decide) ht
  have hacc := accepted_of_jobOf hj
  obtain ⟨op, m, rfl, hit⟩ := jobOf_drivesIt hi hj
  rw [c.finish_history (settles_settle _), hacc.history] at hhist
  obtain rfl : evs' = evs := List.append_cancel_left hhist
  refine ⟨settle_failsTo c.run_rsp hit, ?_⟩
  rintro pre w k b post rfl
  exact failed_transfer_last h0 c

end Sys2Proof.Machine
end

section
/-! SUPPORT. Sequences by the bus primitives they make, wherever they start: one that performs a stretch runs to its end where
the environment answers that stretch, one that fails after it raises a status there. What a sequence performs it fails in at
any of its transfers (spec/60_exceptions.md R256). -/

namespace Sys2Proof.Machine

/-! Performing, going on, failing. -/

/-- Where the environment answers `evs`, the sequence makes exactly those primitives and ends with `a`. -/
def Performs {α : Type} (c : Config) (m : M α) (evs : List Event) (a : α) : Prop :=
  ∀ s e d, s.cfg = c → s.busAnswers evs e d → ∃ t mvs, m.run s = .ok a t ∧ Goes s t evs mvs

/-- Where the environment answers `evs`, `m` makes exactly those primitives and goes on as `m'`. -/
def Continues {α : Type} (c : Config) (m : M α) (evs : List Event) (m' : M α) : Prop :=
  ∀ s e d, s.cfg = c → s.busAnswers evs e d → ∃ t mvs, m.run s = m'.run t ∧ Goes s t evs mvs

/-- From `s` the sequence raises `st` after the bus primitives `evs`, with the bus side at `e` and the device at `d`. -/
def RaisesAfter {α : Type} (m : M α) (s : State) (evs : List Event) (st : Status) (e : Env) (d : Dev) : Prop :=
  ∃ u, m.run s = .error (.raised st) u ∧ s.sameOutside u ∧ u.history = s.history ++ evs ∧ u.env = e ∧ u.dev = d

/-- Where the environment answers `evs`, the sequence raises `st` after exactly those primitives. -/
def Fails {α : Type} (c : Config) (m : M α) (evs : List Event) (st : Status) : Prop :=
  ∀ s e d, s.cfg = c → s.busAnswers evs e d → RaisesAfter m s evs st e d

section

variable {α β : Type} {c : Config} {evs evs' : List Event}

theorem Continues.trans {m m' m'' : M α} (h : Continues c m evs m') (h' : Continues c m' evs' m'') :
    Continues c m (evs ++ evs') m'' := by
  intro s e d hc hb
  obtain ⟨e1, d1, hfirst⟩ := State.busAnswers_append hb
  obtain ⟨t, mvs, hrun, hgo⟩ := h s e1 d1 hc hfirst
  obtain ⟨u, mvs', hrun', hgo'⟩ := h' t e d (hgo.cfg.trans hc) (hgo.rest hb)
  exact ⟨u, _, hrun.trans hrun', hgo.trans hgo'⟩

theorem Continues.performs {m m' : M α} {a : α} (h : Continues c m evs m') (h' : Performs c m' evs' a) :
    Performs c m (evs ++ evs') a := h.trans (m'' := pure a) h'

theorem Continues.fails {m m' : M α} {st : Status} (h : Continues c m evs m') (h' : Fails c m' evs' st) :
    Fails c m (evs ++ evs') st := by
  intro s e d hc hb
  obtain ⟨e1, d1, hfirst⟩ := State.busAnswers_append hb
  obtain ⟨t, mvs, hrun, hgo⟩ := h s e1 d1 hc hfirst
  obtain ⟨u, hrun', ⟨hcfg, hinbox⟩, hhist, henv, hdev⟩ := h' t e d (hgo.cfg.trans hc) (hgo.rest hb)
  exact ⟨u, hrun.trans hrun', ⟨hcfg.trans hgo.cfg, hinbox.trans hgo.inbox⟩,
    by rw [hhist, hgo.history, List.append_assoc], henv, hdev⟩

/-- A first part that was performed. -/
theorem Performs.continues {m : M α} {f : α → M β} {a : α} (h : Performs c m evs a) : Continues c (m >>= f) evs (f a) := by
  intro s e d hc hb
  obtain ⟨t, mvs, hrun, hgo⟩ := h s e d hc hb
  exact ⟨t, mvs, bind_ok hrun, hgo⟩

theorem Performs.bind {m : M α} {f : α → M β} {a : α} {b : β} (h : Performs c m evs a) (h' : Performs c (f a) evs' b) :
    Performs c (m >>= f) (evs ++ evs') b := h.continues.performs h'

/-- A first part that failed. -/
theorem Fails.bind {m : M α} {f : α → M β} {st : Status} (h : Fails c m evs st) : Fails c (m >>= f) evs st := by
  intro s e d hc hb
  obtain ⟨u, hrun, hrest⟩ := h s e d hc hb
  exact ⟨u, bind_error hrun, hrest⟩

/-- A second part that fails. -/
theorem Fails.after {m : M α} {f : α → M β} {a : α} {st : Status} (h : Performs c m evs a) (h' : Fails c (f a) evs' st) :
    Fails c (m >>= f) (evs ++ evs') st := h.continues.fails h'

/-! A part that makes no bus primitive. -/

theorem Continues.skip {m : M α} {f : α → M β} {m' : M β} {a : α} (h : Performs c m [] a)
    (h' : Continues c (f a) evs m') : Continues c (m >>= f) evs m' := h.continues.trans h'

theorem Performs.skip {m : M α} {f : α → M β} {a : α} {b : β} (h : Performs c m [] a) (h' : Performs c (f a) evs b) :
    Performs c (m >>= f) evs b := h.bind h'

theorem Fails.skip {m : M α} {f : α → M β} {a : α} {st : Status} (h : Performs c m [] a) (h' : Fails c (f a) evs st) :
    Fails c (m >>= f) evs st := .after h h'

/-- A second part that makes no bus primitive. -/
theorem Performs.bind_silent {m : M α} {f : α → M β} {a : α} {b : β} (h : Performs c m evs a)
    (h' : Performs c (f a) [] b) : Performs c (m >>= f) evs b := by
  have hall := h.bind h'
  rwa [List.append_nil] at hall

theorem Performs.pure (a : α) : Performs c (Pure.pure a : M α) [] a := by
  intro s e d _ _
  exact ⟨s, [], rfl, Goes.refl s⟩

theorem Performs.config : Performs c config [] c := by
  rintro s e d rfl _
  exact ⟨s, [], rfl, Goes.refl s⟩

/-- A register write makes no bus primitive. -/
theorem Performs.update {f : State → State} (h : ∀ s, ∃ mvs, Goes s (f s) [] mvs) : Performs c (update f) [] () := by
  intro s e d _ _
  obtain ⟨mvs, hgo⟩ := h s
  exact ⟨f s, mvs, rfl, hgo⟩

theorem Performs.setHc (st : HcState) : Performs c (Machine.update (·.setHc st)) [] () :=
  .update fun s => ⟨_, Goes.setHc s st⟩

theorem Performs.setGl (st : GlState) : Performs c (Machine.update (·.setGl st)) [] () :=
  .update fun s => ⟨_, Goes.setGl s st⟩

theorem Performs.setCmdOp (v : Word) : Performs c (Machine.update (·.setCmdOp v)) [] () :=
  .update fun s => ⟨[], Goes.setX s _⟩

/-- A test that is passed. -/
theorem Performs.raiseIf {b : Bool} (h : b = false) (st : Status) : Performs c (raiseIf b st) [] () := by
  intro s e d _ _
  exact ⟨s, [], raiseIf_false h st s, Goes.refl s⟩

end

/-! A failed transfer. -/

/-- As many bytes were received as were asked for (R6). -/
def Event.Fits : Event → Prop
  | .xfer _ k _ r => r.length = k
  | .delay _ => True

/-- The answer to lay down for a transfer. -/
def Event.answer : Event → Option BusAnswer
  | .xfer _ _ n r => some (.done n r)
  | .delay _ => none

/-- Answers laid down for a stretch of primitives are the ones given. -/
theorem replay_laidDown {c : Config} {evs : List Event} (hfit : ∀ ev ∈ evs, ev.Fits) {e : Env}
    (hscript : e.script = evs.filterMap Event.answer) (h0 : e.resetIn = none) (d : Dev) :
    ∃ e1, replay c evs e d = some (e1, d) := by
  induction evs generalizing e with
  | nil => exact ⟨e, rfl⟩
  | cons ev rest ih =>
    have hrest : ∀ ev ∈ rest, ev.Fits := fun x hx => hfit x (List.mem_cons_of_mem _ hx)
    cases ev with
    | delay ms =>
      have hs : e.script = rest.filterMap Event.answer := hscript
      have hnever : e.script.head? ≠ some .never := fun hh => by
        have hmem := List.mem_of_mem_head? hh
        rw [hs, List.mem_filterMap] at hmem
        obtain ⟨ev, -, hev⟩ := hmem
        cases ev <;> cases hev
      simp only [replay, h0, hnever, reduceCtorEq, or_self, if_false]
      exact ih hrest hs (by simp [h0])
    | xfer w k n r =>
      have hs : e.script = .done n r :: rest.filterMap Event.answer := hscript
      have hr : r.length = k := hfit _ List.mem_cons_self
      simp only [replay, h0, busReply, hs, fitAnswer_of_length hr, reduceCtorEq, if_false, and_self, if_true]
      exact ih hrest rfl (by simp)

/-- A sequence that runs to its end asked for each of the bus primitives it made. -/
theorem Scripted.asksAlong_of_ok {α : Type} {m : M α} (hm : Scripted m) {s t : State} {e : Env} {d : Dev} {a : α}
    {evs : List Event} (hrun : m.run (s.withBus e d) = .ok a t) (hhist : t.history = s.history ++ evs) :
    AsksAlong m s evs := by
  obtain ⟨evs', e1, d1, hbus, hasks, hend⟩ := hm s e d
  rcases hend with ⟨r, -, hal, hdone⟩ | ⟨p, ⟨u, -, hask⟩, hstop⟩
  · have hr : withBus e1 d1 r = .ok a t := (hdone _ _ _ _ hbus).symm.trans hrun
    cases r with
    | error st u => cases hr
    | ok b u =>
      cases hr
      have hlist : s.history ++ evs' = s.history ++ evs := hal.history.symm.trans hhist
      rwa [← List.append_cancel_left hlist]
  · obtain ⟨hcut, hhung, -⟩ := hask _ _ _ _ hbus
    by_cases h0 : e1.resetIn = some 0
    · exact absurd ((hcut h0).symm.trans hrun) (by simp)
    · exact absurd ((hhung h0 (hstop.resolve_left h0)).symm.trans hrun) (by simp)

/-- What a sequence performs where every transfer succeeds, it fails in at the first transfer that reports no unit: what it
asks for up to there depends on the answers so far alone (R124, R256). -/
theorem Performs.fails_after {α : Type} {c : Config} {m : M α} {evs pre : List Event} {bad : Event} {a : α}
    (h : Performs c m evs a) (hm : Scripted m) (hfit : ∀ ev ∈ evs, ev.Fits) (hf : FailsAfter evs pre bad) :
    Fails c m (pre ++ [bad]) .internalErr := by
  rintro s e d rfl hb
  obtain ⟨w, k, n, r, b, post, rfl, rfl⟩ := hf
  let laid : Env := { Env.reset with script := (pre ++ .xfer w k n r :: post).filterMap Event.answer }
  obtain ⟨e1, hreplay⟩ := replay_laidDown (c := s.cfg) (e := laid) hfit rfl rfl s.dev
  obtain ⟨t, mvs, hrun, hgo⟩ := h (s.withBus laid s.dev) e1 s.dev rfl hreplay
  have hask := hm.asksAlong_of_ok hrun hgo.history pre _ post rfl
  obtain ⟨v, hv, hal, henv, hdev⟩ := hask.failed hb
  exact ⟨v, hv, ⟨hal.cfg, hal.inbox⟩, hal.history, henv, hdev⟩

/-! A request that failed. -/

/-- A request that raises a status is aborted and answered with it; one that leaves IT_STATE alone latches no response
code either (R256 to R258). -/
theorem aborted_of_raises {op : BitVec 4} {m : M Payload} {s : State} {evs : List Event} {st : Status} {e : Env} {d : Dev}
    (hm : LeavesItAlone m) (h : RaisesAfter m (s.accept op) evs st e d) (h0 : e.resetIn ≠ some 0) (hst : st ≠ .success) :
    ∃ t, runRequest op false m s = .next t ∧ Aborted s t evs e.tick d st none s.seq.it := by
  obtain ⟨u, hrun, hout, hhist, rfl, rfl⟩ := h
  have hit := hm.it_eq (s.accept op)
  have hraw := hm _ State.Unlatched.hcStable (fun _ _ hu => ⟨hu.raw, hu.count, hu.rsp⟩) (s.accept op) ⟨rfl, rfl, rfl⟩
  rw [hrun] at hit hraw
  exact ⟨u.failed st, runRequest_raised hrun h0, hhist, rfl, rfl, hout, ⟨rfl, rfl, rfl, rfl, rfl, rfl⟩, hit, rfl,
    _, rfl, rfl, hraw.raw, by simp, rfl, rfl, by simp [hst]⟩

end Sys2Proof.Machine
end

section
/-! SUPPORT. What a grammar load performs, stage by stage, and how each stage fails (spec/42_host_command.md R141 to R147,
spec/45_grammar_loader.md R211 to R218; log entries 26 and 42). -/

namespace Sys2Proof.Machine

section

variable {c : Config} {n m : Nat}

/-! The accesses. -/

theorem regRead16_performs (a : Addr) (v : Word) (hn : 1 ≤ n) : Performs c (regRead16 a) [read16 c a n v] v := by
  rintro s e d rfl hb
  obtain ⟨t, hrun, hgo, -⟩ := regRead16_goes hn hb
  exact ⟨t, _, hrun, hgo⟩

theorem regRead32_performs (a : Addr) (v : DWord) (hn : 1 ≤ n) : Performs c (regRead32 a) [read32 c a n v] v := by
  rintro s e d rfl hb
  obtain ⟨t, hrun, hgo, -⟩ := regRead32_goes hn hb
  exact ⟨t, _, hrun, hgo⟩

theorem regWrite16_performs (a : Addr) (v : Word) (hn : 1 ≤ n) : Performs c (regWrite16 a v) [write16 c a n v] () := by
  rintro s e d rfl hb
  obtain ⟨t, hrun, hgo, -⟩ := regWrite16_goes hn hb
  exact ⟨t, _, hrun, hgo⟩

theorem regWrite32_performs (a : Addr) (v : DWord) (hn : 1 ≤ n) : Performs c (regWrite32 a v) [write32 c a n v] () := by
  rintro s e d rfl hb
  obtain ⟨t, hrun, hgo, -⟩ := regWrite32_goes hn hb
  exact ⟨t, _, hrun, hgo⟩

theorem regWrite_performs {data : List Byte} {cnt : BitVec 7} (a : Addr) (hc : countOf data.length = some cnt)
    (hn : 1 ≤ n) :
    Performs c (regWrite a data) [.xfer (header c.wire a .write cnt ++ toDev c data) 0 n []] () := by
  rintro s e d rfl hb
  obtain ⟨t, hrun, hgo, -⟩ := regWrite_goes hc hn hb
  exact ⟨t, _, hrun, hgo⟩

/-- A size that RA refuses fails before any bus primitive (R122). -/
theorem regWrite_fails {data : List Byte} (a : Addr) (hsize : sizeOk data.length = false) :
    Fails c (regWrite a data) [] .invalidArg := by
  intro s e d _ hb
  cases hb
  exact ⟨_, regWrite_refuse hsize, ⟨rfl, rfl⟩, by simp, rfl, rfl⟩

/-! The poll phases and the handshake. -/

theorem pollPhase_performs {pass : Word → Bool} {ps : List (Nat × Word)} (a : Addr) (hp : pollPasses pass ps = true)
    (hl : ps.length ≤ c.pollBound) : Performs c (pollPhase a pass) (pollEvents c a ps) () := by
  rintro s e d rfl hb
  obtain ⟨t, hrun, hP⟩ := pollPhase_passes hp hl hb
  exact ⟨t, _, hrun, hP.goes⟩

theorem pollPhase_fails_after {pass : Word → Bool} {ps : List (Nat × Word)} (a : Addr) (hwf : c.wf)
    (hp : pollFails pass ps = true) (hl : ps.length = c.pollBound) :
    Fails c (pollPhase a pass) (pollEvents c a ps) .resourceErr := by
  rintro s e d rfl hb
  obtain ⟨t, hrun, hP⟩ := pollPhase_fails hp hl (pollBound_of_wf hwf) hb
  exact ⟨t, hrun, ⟨hP.goes.cfg, hP.goes.inbox⟩, hP.goes.history, hP.env, hP.dev⟩

theorem waitNotBusy_performs {ps : List (Nat × Word)} (hp : pollPasses (fun v => v != c.gram.busy) ps = true)
    (hl : ps.length ≤ c.pollBound) : Performs c waitNotBusy (pollEvents c c.gram.status ps) () :=
  .skip .config (pollPhase_performs (pass := notGramBusy c) _ hp hl)

theorem waitNotBusy_fails {ps : List (Nat × Word)} (hwf : c.wf) (hp : pollFails (fun v => v != c.gram.busy) ps = true)
    (hl : ps.length = c.pollBound) : Fails c waitNotBusy (pollEvents c c.gram.status ps) .resourceErr :=
  .skip .config (pollPhase_fails_after (pass := notGramBusy c) _ hwf hp hl)

theorem runCommand_performs {r : CmdRun} (cmd : Word) (hok : r.ok c = true) :
    Performs c (runCommand cmd) (r.events c cmd) () := by
  rintro s e d rfl hb
  obtain ⟨t, hrun, hC⟩ := runCommand_ok hok hb
  exact ⟨t, _, hrun, hC.goes⟩

/-- A handshake that uses up the reads of a phase ends there (R145, R147). -/
theorem runCommand_fails {stuck : CmdStuck} (cmd : Word) (hwf : c.wf) (hok : stuck.ok c = true) :
    Fails c (runCommand cmd) (stuck.events c cmd) .resourceErr := by
  cases stuck with
  | waitIdle reads =>
    simp only [CmdStuck.ok, Bool.and_eq_true, decide_eq_true_eq] at hok
    obtain ⟨hfail, hlen⟩ := hok
    exact .skip .config <| .skip (.setCmdOp cmd) <| .skip (.setHc _) <| (pollPhase_fails_after _ hwf hfail hlen).bind
  | waitDone idle wrote notified reads =>
    simp only [CmdStuck.ok, Bool.and_eq_true, decide_eq_true_eq] at hok
    obtain ⟨⟨⟨⟨⟨hpass, hidle⟩, hwrote⟩, hnotified⟩, hfail⟩, hlen⟩ := hok
    have hevs : CmdStuck.events c cmd (.waitDone idle wrote notified reads) = pollEvents c c.map.swFlags idle ++
        ([write16 c c.map.cmd wrote cmd] ++ ([write16 c c.map.swFlags notified 1#16] ++
          pollEvents c c.map.done reads)) := by simp [CmdStuck.events]
    rw [hevs]
    exact .skip .config <| .skip (.setCmdOp cmd) <| .skip (.setHc _) <| .after (pollPhase_performs _ hpass hidle) <|
      .skip (.setHc _) <| .after (regWrite16_performs _ _ hwrote) <| .skip (.setHc _) <|
      .after (regWrite16_performs _ _ hnotified) <| .skip (.setHc _) <| (pollPhase_fails_after _ hwf hfail hlen).bind

/-! The blocks of a blob. -/

/-- One block through the extended window (R215). -/
theorem extWrite_performs {block : List Byte} (a : DWord) (hsize : sizeOk block.length = true) (hn : 1 ≤ n) (hm : 1 ≤ m) :
    Performs c (extWrite a block) (blockEvents c a [(block, n, m)]) () :=
  .skip .config <| (regWrite32_performs _ _ hn).bind <|
    regWrite_performs _ (countOf_eq_some.mpr ⟨hsize, rfl⟩) hm

/-- A block that RA refuses, after the window's base was written for it (R122, R215). -/
theorem extWrite_fails {block : List Byte} (a : DWord) (hsize : sizeOk block.length = false) (hn : 1 ≤ n) :
    Fails c (extWrite a block) [write32 c c.gram.extAddr n (a &&& 0xFFFFFF00#32)] .invalidArg :=
  .skip .config <| .after (regWrite32_performs _ _ hn) (regWrite_fails _ hsize)

/-- The blocks RA accepts are sent in their order, and the rest from the address behind them on (R216). -/
theorem sendBlocks_continues {blocks : List (List Byte)} {units : List (Nat × Nat)} (a : DWord) (rest : List (List Byte))
    (hsize : ∀ b ∈ blocks, sizeOk b.length = true) (hlen : blocks.length ≤ units.length)
    (hunits : ∀ u ∈ units, 1 ≤ u.1 ∧ 1 ≤ u.2) :
    Continues c (sendBlocks a (blocks ++ rest)) (blockEvents c a (blocks.zip units))
      (sendBlocks (a + BitVec.ofNat 32 blocks.flatten.length) rest) := by
  induction blocks generalizing a units with
  | nil =>
    intro s e d _ _
    refine ⟨s, [], ?_, Goes.refl s⟩
    simp
  | cons block blocks ih =>
    cases units with
    | nil => simp at hlen
    | cons u units =>
      obtain ⟨hbase, hsent⟩ := hunits u (by simp)
      have hnext := ih (a + BitVec.ofNat 32 block.length) (fun b hb => hsize b (by simp [hb])) (by simpa using hlen)
        (fun v hv => hunits v (by simp [hv]))
      have hall := (extWrite_performs (c := c) a (hsize block (by simp)) hbase hsent).continues
        (f := fun _ => sendBlocks (a + BitVec.ofNat 32 block.length) (blocks ++ rest)) |>.trans hnext
      rw [List.flatten_cons, List.length_append, BitVec.ofNat_add, ← BitVec.add_assoc]
      exact hall

/-! The pieces of a blob. -/

/-- Every piece of a blob of even length is one RA accepts (R216). -/
theorem sizeOk_of_mem_chunksOf {blob b : List Byte} (hwf : c.wf) (heven : blob.length % 2 = 0)
    (hb : b ∈ chunksOf c.gram.block blob) : sizeOk b.length = true := by
  obtain ⟨hlo, hhi, hblock⟩ := hwf.2.2.2.2.2.2.2.2
  have hpos := chunksOf_length_pos (by omega) hb
  obtain ⟨k, hk, rfl⟩ := List.mem_iff_getElem.mp hb
  have hlen := chunksOf_getD_length (m := c.gram.block) (by omega) blob k
  rw [List.getD_eq_getElem _ _ hk] at hlen
  have hstart : k * c.gram.block % 2 = 0 := by rw [Nat.mul_mod, hblock, Nat.mul_zero]
  exact sizeOk_iff.mpr (by omega)

/-- Every piece of a blob but the last is a whole block (R216). -/
theorem sizeOk_of_mem_dropLast {blob b : List Byte} (hwf : c.wf) (hb : b ∈ (chunksOf c.gram.block blob).dropLast) :
    sizeOk b.length = true := by
  obtain ⟨hlo, hhi, hblock⟩ := hwf.2.2.2.2.2.2.2.2
  obtain ⟨k, hk, rfl⟩ := List.mem_iff_getElem.mp hb
  rw [List.length_dropLast] at hk
  have hlen := chunksOf_whole (m := c.gram.block) (by omega) (s := blob) (k := k) (by omega)
  rw [List.getD_eq_getElem _ _ (by omega)] at hlen
  rw [List.getElem_dropLast, hlen]
  exact sizeOk_iff.mpr ⟨hlo, hhi, hblock⟩

/-- The last piece of a blob of odd length is of odd length (R216). -/
theorem chunksOf_odd {blob : List Byte} (hwf : c.wf) (hodd : blob.length % 2 = 1) :
    ∃ b, chunksOf c.gram.block blob = (chunksOf c.gram.block blob).dropLast ++ [b] ∧ sizeOk b.length = false := by
  obtain ⟨hlo, hhi, hblock⟩ := hwf.2.2.2.2.2.2.2.2
  have hne : chunksOf c.gram.block blob ≠ [] := List.length_pos_iff.mp
    ((lt_chunksOf_length (k := 0) (by omega)).mpr (by omega))
  have hlast := chunksOf_last (m := c.gram.block) (by omega) (s := blob) (by omega)
  have hmod : blob.length % c.gram.block % 2 = 1 := by
    rw [Nat.mod_mod_of_dvd _ (Nat.dvd_of_mod_eq_zero hblock), hodd]
  rw [if_neg (by omega), List.getLastD_eq_getLast?, List.getLast?_eq_some_getLast hne, Option.getD_some] at hlast
  refine ⟨_, (List.dropLast_append_getLast hne).symm, ?_⟩
  rw [← Bool.not_eq_true, sizeOk_iff, hlast]
  omega

/-! The segment table. -/

/-- The segment table update (R217). -/
theorem updateTable_performs {table : TableRun} (start len : DWord) (hok : table.ok start = true) :
    Performs c (updateTable start len) (table.events c start len) () := by
  cases table with
  | empty read addr size count =>
    obtain ⟨hread, haddr, hsize, hcount⟩ := of_decide_eq_true hok
    exact .skip .config <| (regRead16_performs _ 0#16 hread).bind <| .skip .config <|
      (regWrite32_performs _ _ haddr).bind <| (regWrite32_performs _ _ hsize).bind <| regWrite16_performs _ _ hcount
  | inPlace read cnt last size =>
    obtain ⟨hread, hcnt, hlast, hsize⟩ := of_decide_eq_true hok
    refine .skip .config <| (regRead16_performs _ cnt hread).bind ?_
    rw [if_neg (show ¬ cnt = 0 from hcnt)]
    refine (regRead32_performs _ start hlast).bind ?_
    rw [if_pos rfl]
    exact regWrite32_performs _ _ hsize
  | append read cnt readLast last addr size count =>
    obtain ⟨hread, hcnt, hreadLast, hlast, haddr, hsize, hcount⟩ := of_decide_eq_true hok
    refine .skip .config <| (regRead16_performs _ cnt hread).bind ?_
    rw [if_neg (show ¬ cnt = 0 from hcnt)]
    refine (regRead32_performs _ last hreadLast).bind ?_
    rw [if_neg hlast]
    exact .skip .config <| (regWrite32_performs _ _ haddr).bind <| (regWrite32_performs _ _ hsize).bind <|
      regWrite16_performs _ _ hcount

end

end Sys2Proof.Machine
end

section
/-! SUPPORT. GRAMMAR_LOAD cut into its stages, and how it is aborted (spec/45_grammar_loader.md R211 to R218; log entries 26
and 42). -/

namespace Sys2Proof.Machine

/-! The stages: each is what is left of the sequence when the one before it is done. -/

/-- The wait after CMD_GRAM_ENABLE (R218). -/
def grammarEnabled : M Payload := do
  update (·.setGl .wait2)
  waitNotBusy
  update (·.setGl .idle)
  return Payload.none

/-- From CMD_GRAM_ENABLE on (R218). -/
def grammarTabled (c : Config) : M Payload := do
  update (·.setGl .enable)
  runCommand c.cmds.gramEnable
  grammarEnabled

/-- From the segment table update on (R217). -/
def grammarStreamed (c : Config) (start : DWord) (blob : List Byte) : M Payload := do
  update (·.setGl .table)
  updateTable start (BitVec.ofNat 32 blob.length)
  grammarTabled c

/-- From the blocks on (R216). -/
def grammarWaited (c : Config) (start : DWord) (blob : List Byte) : M Payload := do
  update (·.setGl .stream)
  sendBlocks start (chunksOf c.gram.block blob)
  grammarStreamed c start blob

/-- From the wait after CMD_GRAM_DISABLE on (R214). -/
def grammarDisabled (c : Config) (start : DWord) (blob : List Byte) : M Payload := do
  update (·.setGl .wait1)
  waitNotBusy
  grammarWaited c start blob

/-- From CMD_GRAM_DISABLE on (R211). -/
def grammarFits (c : Config) (start : DWord) (blob : List Byte) : M Payload := do
  update (·.setGl .disable)
  runCommand c.cmds.gramDisable
  grammarDisabled c start blob

theorem grammarLoad_eq (blob : List Byte) : grammarLoad blob = (do
    let c ← config
    update (·.setGl .capacity)
    let start ← regRead32 c.gram.segStart
    let max ← regRead32 c.gram.segMax
    raiseIf (!capacityOk start max blob.length) .resourceErr
    grammarFits c start blob) := rfl

section

variable {c : Config} {start : DWord} {blob : List Byte}

theorem grammarLoad_continues {max : DWord} {n m : Nat} (hcap : start.toNat + blob.length + 1 ≤ max.toNat) (hn : 1 ≤ n)
    (hm : 1 ≤ m) : Continues c (grammarLoad blob) [read32 c c.gram.segStart n start, read32 c c.gram.segMax m max]
      (grammarFits c start blob) := by
  have hfits : (!capacityOk start max blob.length) = false := by
    simp only [capacityOk, Bool.not_eq_false', Bool.and_eq_true, decide_eq_true_eq]
    omega
  rw [grammarLoad_eq]
  exact .skip .config <| .skip (.setGl _) <| (regRead32_performs _ _ hn).continues.trans <|
    (regRead32_performs _ _ hm).continues.trans (Performs.raiseIf hfits _).continues

theorem grammarFits_continues {off : CmdRun} (hoff : off.ok c = true) :
    Continues c (grammarFits c start blob) (off.events c c.cmds.gramDisable) (grammarDisabled c start blob) :=
  .skip (.setGl _) (runCommand_performs _ hoff).continues

theorem grammarDisabled_continues {ps : List (Nat × Word)} (hp : pollPasses (fun v => v != c.gram.busy) ps = true)
    (hl : ps.length ≤ c.pollBound) :
    Continues c (grammarDisabled c start blob) (pollEvents c c.gram.status ps) (grammarWaited c start blob) :=
  .skip (.setGl _) (waitNotBusy_performs hp hl).continues

theorem grammarWaited_continues {units : List (Nat × Nat)} (hwf : c.wf) (heven : blob.length % 2 = 0)
    (hlen : units.length = (chunksOf c.gram.block blob).length) (hunits : ∀ u ∈ units, 1 ≤ u.1 ∧ 1 ≤ u.2) :
    Continues c (grammarWaited c start blob) (blockEvents c start ((chunksOf c.gram.block blob).zip units))
      (grammarStreamed c start blob) := by
  have hblocks := sendBlocks_continues (c := c) start [] (fun b hb => sizeOk_of_mem_chunksOf hwf heven hb) hlen.ge hunits
  rw [List.append_nil] at hblocks
  exact .skip (.setGl _) (Performs.continues (a := ()) hblocks)

/-- The last block of a blob of odd length (R122, R216). -/
theorem grammarWaited_fails {units : List (Nat × Nat)} {base : Nat} (hwf : c.wf) (hodd : blob.length % 2 = 1)
    (hlen : units.length = (chunksOf c.gram.block blob).length) (hunits : ∀ u ∈ units, 1 ≤ u.1 ∧ 1 ≤ u.2)
    (hbase : 1 ≤ base) :
    let whole := (chunksOf c.gram.block blob).dropLast
    Fails c (grammarWaited c start blob) (blockEvents c start (whole.zip units) ++
      [write32 c c.gram.extAddr base ((start + BitVec.ofNat 32 whole.flatten.length) &&& 0xFFFFFF00#32)]) .invalidArg := by
  intro whole
  obtain ⟨last, hlast, hsize⟩ := chunksOf_odd hwf hodd
  have hwhole := sendBlocks_continues (c := c) (blocks := whole) (units := units) start [last]
    (fun b hb => sizeOk_of_mem_dropLast hwf hb) (by simp [whole, hlen]) hunits
  rw [← hlast] at hwhole
  exact .skip (.setGl _) (hwhole.fails (extWrite_fails _ hsize hbase).bind).bind

theorem grammarStreamed_continues {table : TableRun} (hok : table.ok start = true) :
    Continues c (grammarStreamed c start blob) (table.events c start (BitVec.ofNat 32 blob.length)) (grammarTabled c) :=
  .skip (.setGl _) (updateTable_performs _ _ hok).continues

theorem grammarTabled_continues {on : CmdRun} (hon : on.ok c = true) :
    Continues c (grammarTabled c) (on.events c c.cmds.gramEnable) grammarEnabled :=
  .skip (.setGl _) (runCommand_performs _ hon).continues

theorem grammarEnabled_performs {qs : List (Nat × Word)} (hq : pollPasses (fun v => v != c.gram.busy) qs = true)
    (hl : qs.length ≤ c.pollBound) : Performs c grammarEnabled (pollEvents c c.gram.status qs) Payload.none :=
  .skip (.setGl _) <| (waitNotBusy_performs hq hl).bind_silent <| .skip (.setGl _) (.pure _)

end

/-! Every transfer of the load received what it asked for. -/

theorem read16_fits (c : Config) (a : Addr) (n : Nat) (v : Word) : (read16 c a n v).Fits := bytes16_length _ _
theorem write16_fits (c : Config) (a : Addr) (n : Nat) (v : Word) : (write16 c a n v).Fits := rfl
theorem read32_fits (c : Config) (a : Addr) (n : Nat) (v : DWord) : (read32 c a n v).Fits := bytes32_length _ _
theorem write32_fits (c : Config) (a : Addr) (n : Nat) (v : DWord) : (write32 c a n v).Fits := rfl

theorem pollEvents_fit {c : Config} {a : Addr} {ps : List (Nat × Word)} : ∀ ev ∈ pollEvents c a ps, ev.Fits := by
  cases ps with
  | nil => simp [pollEvents]
  | cons p ps =>
    intro ev hev
    simp only [pollEvents, List.mem_cons, List.mem_flatMap, List.not_mem_nil, or_false] at hev
    rcases hev with rfl | ⟨q, -, rfl | rfl⟩
    · exact read16_fits _ _ _ _
    · trivial
    · exact read16_fits _ _ _ _

theorem cmdEvents_fit {c : Config} {cmd : Word} {r : CmdRun} : ∀ ev ∈ r.events c cmd, ev.Fits := by
  intro ev hev
  simp only [CmdRun.events, List.mem_append, List.mem_cons, List.not_mem_nil, or_false] at hev
  rcases hev with (hev | rfl | rfl) | hev
  · exact pollEvents_fit ev hev
  · exact write16_fits _ _ _ _
  · exact write16_fits _ _ _ _
  · exact pollEvents_fit ev hev

theorem blockEvents_fit {c : Config} {a : DWord} {bs : List (List Byte × Nat × Nat)} :
    ∀ ev ∈ blockEvents c a bs, ev.Fits := by
  induction bs generalizing a with
  | nil => simp [blockEvents]
  | cons b bs ih =>
    intro ev hev
    simp only [blockEvents, List.mem_cons] at hev
    rcases hev with rfl | rfl | hev
    · exact write32_fits _ _ _ _
    · rfl
    · exact ih ev hev

theorem tableEvents_fit {c : Config} {start len : DWord} {table : TableRun} :
    ∀ ev ∈ table.events c start len, ev.Fits := by
  cases table <;>
    simp [TableRun.events, read16_fits, write16_fits, read32_fits, write32_fits]

/-! The request. -/

theorem grammarLoad_leavesItAlone (blob : List Byte) : LeavesItAlone (grammarLoad blob) :=
  fun _ hP hgl => hP.grammarLoad hgl blob

/-- Where the sequence fails the request is aborted. -/
theorem exec_grammarLoad_aborted {s : State} {blob : List Byte} {evs : List Event} {st : Status} {e : Env} {d : Dev}
    (hgram : s.cfg.hasGrammar = true) (h : Fails s.cfg (grammarLoad blob) evs st) (hst : st ≠ .success)
    (hb : s.busCarries evs e d) :
    ∃ t, exec (.grammarLoad blob) s = .next t ∧ Aborted s t evs e d st none s.seq.it := by
  obtain ⟨e, hbus, h0, rfl⟩ := hb
  have hexec : exec (.grammarLoad blob) s = runRequest 0x9 false (grammarLoad blob) s := by
    show runRequest 0x9 false (if s.cfg.hasGrammar then grammarLoad blob else reservedSeq) s = _
    rw [if_pos hgram]
  rw [hexec]
  exact aborted_of_raises (grammarLoad_leavesItAlone blob) (h (s.accept 0x9) e d rfl hbus) h0 hst

/-- Settles O41: each stage is performed or fails, and where all are performed the load fails in at any of its
transfers. -/
theorem grammarAborts : Obligations.GrammarAborts := by
  intro s blob start max n m off on ps qs units table e d c blocks caps disabled waited streamed tabled enabled evs aborts
    hwf hgram hcap hn hm hoff hp hpl hlen hunits htable hon hq hql
  have hcaps : Continues c (grammarLoad blob) caps _ := grammarLoad_continues hcap hn hm
  have hdisabled : Continues c (grammarLoad blob) disabled _ := hcaps.trans (grammarFits_continues hoff)
  have hwaited : Continues c (grammarLoad blob) waited _ := hdisabled.trans (grammarDisabled_continues hp hpl)
  have htabled (heven : blob.length % 2 = 0) : Continues c (grammarLoad blob) tabled _ :=
    (hwaited.trans (grammarWaited_continues hwf heven hlen hunits)).trans (grammarStreamed_continues htable)
  have henabled (heven : blob.length % 2 = 0) : Continues c (grammarLoad blob) enabled _ :=
    (htabled heven).trans (grammarTabled_continues hon)
  have abort {part : List Event} {st : Status} (h : Fails c (grammarLoad blob) part st) (hst : st ≠ .success) :
      aborts part st := exec_grammarLoad_aborted hgram h hst
  refine ⟨fun heven pre bad hbad => ?_, fun stuck hstuck => ?_, fun reads hf hl => ?_, fun stuck heven hstuck => ?_,
    fun reads heven hf hl => ?_, fun hodd base hbase => ?_⟩
  · have hall : Performs c (grammarLoad blob) evs Payload.none :=
      (henabled heven).performs (grammarEnabled_performs hq hql)
    have hfit : ∀ ev ∈ evs, ev.Fits := by
      simp only [evs, enabled, tabled, streamed, waited, disabled, caps, List.forall_mem_append, List.forall_mem_cons]
      exact ⟨⟨⟨⟨⟨⟨⟨read32_fits _ _ _ _, read32_fits _ _ _ _, nofun⟩, cmdEvents_fit⟩, pollEvents_fit⟩, blockEvents_fit⟩,
        tableEvents_fit⟩, cmdEvents_fit⟩, pollEvents_fit⟩
    exact abort (hall.fails_after (Scripted.grammarLoad blob) hfit hbad) (by decide)
  · exact abort (hcaps.fails (.skip (.setGl _) (runCommand_fails _ hwf hstuck).bind)) (by decide)
  · exact abort (hdisabled.fails (.skip (.setGl _) (waitNotBusy_fails hwf hf hl).bind)) (by decide)
  · exact abort ((htabled heven).fails (.skip (.setGl _) (runCommand_fails _ hwf hstuck).bind)) (by decide)
  · exact abort ((henabled heven).fails (.skip (.setGl _) (waitNotBusy_fails hwf hf hl).bind)) (by decide)
  · have hlast := hwaited.fails (grammarWaited_fails hwf hodd hlen hunits hbase)
    rw [← List.append_assoc] at hlast
    exact abort hlast (by decide)

end Sys2Proof.Machine
end

section
/-! SUPPORT. What an access stores at the reference responder, whatever state that is in: a write to a register that software
may make stores nothing outside its bytes, a read stores nothing (spec/40_frame_encoder.md R111 to R119,
spec/70_reset_and_hazards.md R297). -/

namespace Sys2Proof.Machine

/-! One command word, and the rest of a transfer. -/

/-- A transfer that is carried out carries out its first command word (R111). -/
theorem parse_word_ok {c : Config} {n : Nat} {d d' : Dev} {w : Word} {t : List Byte}
    (hrx : d.rx = wordBytes c.wire w ++ t) (h : Dev.parse c (n + 1) d = .ok d') :
    ∃ d1, Dev.execCmd c { d with rx := t } (decodeWire c.wire (firstByte c.wire w) (secondByte c.wire w)) = .ok d1 ∧
      Dev.parse c n d1 = .ok d' := by
  have hrx' : d.rx = firstByte c.wire w :: secondByte c.wire w :: t := hrx
  simp only [Dev.parse, hrx'] at h
  split at h
  · next d1 hx => exact ⟨d1, hx, h⟩
  · cases h

/-- Where no byte is left to parse, a transfer that is carried out stores nothing more (R111). -/
theorem parse_rest_mem {c : Config} {n : Nat} {d d' : Dev} (hrx : d.rx = []) (h : Dev.parse c n d = .ok d') :
    d'.mem = d.mem := by
  cases n with
  | zero => cases h
  | succ n =>
    simp only [Dev.parse, hrx] at h
    rw [(close_ok h).2]

/-- A write without payload stores nothing (R114). -/
theorem storePayload_empty {c : Config} {base off n : Nat} {d d' : Dev} (hrx : d.rx = [])
    (h : d.storePayload c base off n = .ok d') : d'.mem = d.mem ∧ d'.rx = [] := by
  unfold Dev.storePayload at h
  split at h
  · cases h
  · split at h
    · cases h
    · cases h
      simp [hrx, Mem.writeWords]

theorem answerRead_mem {c : Config} {base off n : Nat} {d d' : Dev} (h : d.answerRead c base off n = .ok d') :
    d'.mem = d.mem ∧ d'.rx = d.rx := by
  unfold Dev.answerRead at h
  split at h
  · cases h
  · split at h
    · cases h
    · split at h
      · cases h
      · cases h
        exact ⟨rfl, rfl⟩

/-- The last command word of a transfer stores nothing, whatever command it is (R112 to R118). -/
theorem execCmd_last_mem {c : Config} {d d' : Dev} {cmd : WireCmd} (hrx : d.rx = []) (h : d.execCmd c cmd = .ok d') :
    d'.mem = d.mem ∧ d'.rx = [] := by
  cases cmd with
  | selectPage sel =>
    simp only [Dev.execCmd, Dev.selectPage] at h
    split at h
    · cases h
    · cases h; exact ⟨rfl, hrx⟩
  | noOp => cases h; exact ⟨rfl, hrx⟩
  | reserved b0 b1 => cases h
  | directRead off cnt => exact hrx ▸ answerRead_mem h
  | directWrite off cnt => exact storePayload_empty hrx h
  | pagedRead off cnt =>
    simp only [Dev.execCmd, Dev.pagedRead] at h
    split at h
    · cases h
    · exact hrx ▸ answerRead_mem h
  | pagedWrite off cnt =>
    simp only [Dev.execCmd, Dev.pagedWrite] at h
    split at h
    · cases h
    · split at h
      · next hs =>
        have hempty := storePayload_empty hrx hs
        cases h
        exact hempty
      · cases h
  | contPagedWrite cnt =>
    simp only [Dev.execCmd, Dev.contPagedWrite] at h
    split at h
    · cases h
    · split at h
      · cases h
      · split at h
        · cases h
        · split at h
          · next hs =>
            have hempty := storePayload_empty hrx hs
            cases h
            exact hempty
          · cases h

/-! The transfer of an access. -/

/-- The last word of an access's header (R100). -/
def lastWord (c : WireCfg) (a : Addr) (rw : Dir) (cnt : BitVec 7) : Word :=
  accWord c (decide (pageOf a = 0#8)) (offOf a) rw cnt

/-- A transfer of a header and the bytes after it that is carried out carries out the last word of the header, on the page
it selects (R103, R111). -/
theorem respond_header_ok {c : Config} {a : Addr} {rw : Dir} {cnt : BitVec 7} {t : List Byte} {k : Nat} {d d' : Dev}
    (h : Dev.respond c (header c.wire a rw cnt ++ t) k d = .ok d') :
    ∃ d1 n, ((d.open t k).atPage a).execCmd c (decodeWire c.wire (firstByte c.wire (lastWord c.wire a rw cnt))
      (secondByte c.wire (lastWord c.wire a rw cnt))) = .ok d1 ∧ Dev.parse c n d1 = .ok d' := by
  by_cases h0 : pageOf a = 0#8
  · rw [header_direct h0] at h
    obtain ⟨d1, hx, hp⟩ := parse_word_ok rfl h
    rw [lastWord, decide_eq_true h0, Dev.atPage, if_pos h0]
    exact ⟨d1, _, hx, hp⟩
  · have hsel : selectValue (pageOf a) ≠ 0xFE#8 := selectValueLaw.2.2.2 _ h0
    rw [header, if_neg h0, Dev.respond, List.append_assoc, List.length_append, List.length_append, wordBytes_length,
      wordBytes_length,
      parse_word rfl (by rw [decodeWire_selWord, Dev.execCmd, Dev.selectPage, if_neg hsel]), Nat.add_comm 2] at h
    obtain ⟨d1, hx, hp⟩ := parse_word_ok rfl h
    rw [lastWord, decide_eq_false h0, Dev.atPage, if_neg h0]
    exact ⟨d1, _, hx, hp⟩

/-- The transfer of a read access stores nothing, even where its word is shadowed (R111, R297). -/
theorem respond_read_mem {c : Config} {a : Addr} {cnt : BitVec 7} {k : Nat} {d d' : Dev}
    (h : Dev.respond c (header c.wire a .read cnt) k d = .ok d') : d'.mem = d.mem := by
  rw [← List.append_nil (header c.wire a .read cnt)] at h
  obtain ⟨d1, n, hx, hp⟩ := respond_header_ok h
  obtain ⟨hmem, hrx⟩ := execCmd_last_mem (atPage_rx a _) hx
  rw [parse_rest_mem hrx hp, hmem, atPage_mem]
  rfl

/-- The first byte of the register of an address: the even address at or below it (R40, R57). -/
theorem register_address (a : Addr) : 2 * (a.toNat / 2) = (pageOf a).toNat * 256 + 2 * (offOf a).toNat := by
  have := a.isLt
  simp only [pageOf, offOf, BitVec.extractLsb'_toNat, Nat.shiftRight_eq_div_pow]
  omega

/-- The last word of a write access that software may make decodes to it (R75, R297). -/
theorem decodeWire_lastWord {c : Config} (hwf : c.wf) {a : Addr} {cnt : BitVec 7}
    (hr : reachable c.wire a .write cnt = true) :
    decodeWire c.wire (firstByte c.wire (lastWord c.wire a .write cnt))
      (secondByte c.wire (lastWord c.wire a .write cnt)) = lastCmd a .write cnt := by
  refine decodeWire_accWord hwf ?_
  by_cases h0 : pageOf a = 0#8
  · rw [decide_eq_true h0]
    simpa [reachable, h0, directReachable] using hr
  · rw [decide_eq_false h0]
    exact paged_below_special hwf _ _ _

/-- A write stores nothing outside the words it is asked to store (R114, R116). -/
theorem storePayload_misses {c : Config} {base off n b : Nat} {d d' : Dev} (h : d.storePayload c base off n = .ok d')
    (hb : b < base + 2 * off ∨ base + 2 * off + 2 * n ≤ b) :
    d'.mem.read b = d.mem.read b ∧ d'.rx = d.rx.drop (2 * n) := by
  obtain ⟨-, bs, hbs, rfl⟩ := storePayload_ok h
  exact ⟨Mem.read_writeWords_other _ _ _ _ (by omega), rfl⟩

/-- The command of a write access stores nothing outside its register's bytes (R114, R116). -/
theorem execCmd_write_misses {c : Config} {a : Addr} {cnt : BitVec 7} {b : Nat} {d d' : Dev}
    (h : (d.atPage a).execCmd c (lastCmd a .write cnt) = .ok d')
    (hb : b < 2 * (a.toNat / 2) ∨ 2 * (a.toNat / 2) + 2 * (cnt.toNat + 1) ≤ b) :
    d'.mem.read b = d.mem.read b ∧ d'.rx = d.rx.drop (2 * (cnt.toNat + 1)) := by
  rw [register_address] at hb
  rw [← atPage_mem a d, ← atPage_rx a d]
  by_cases h0 : pageOf a = 0#8
  · rw [lastCmd, decide_eq_true h0] at h
    rw [h0] at hb
    exact storePayload_misses h hb
  · rw [lastCmd, decide_eq_false h0] at h
    simp only [accessCmd, Dev.execCmd, Dev.pagedWrite] at h
    split at h
    · cases h
    · next hsel =>
      have hFF : pageOf a ≠ 0xFF#8 := by
        intro hFF
        rw [Dev.atPage, if_neg h0, hFF] at hsel
        exact hsel (show 0xFD#8 < selectValue 0xFF#8 by decide)
      rw [← (selected_atPage h0 hFF d).2] at hb
      split at h
      · next hs =>
        have hmisses := storePayload_misses hs hb
        cases h
        exact hmisses
      · cases h

/-- The transfer of a write access that software may make stores nothing outside its register's bytes (R111, R297). -/
theorem respond_write_misses {c : Config} (hwf : c.wf) {a : Addr} {cnt : BitVec 7} {bs : List Byte} {k b : Nat}
    {d d' : Dev} (h : Dev.respond c (header c.wire a .write cnt ++ bs) k d = .ok d')
    (hr : reachable c.wire a .write cnt = true) (hlen : bs.length = 2 * (cnt.toNat + 1))
    (hb : b < 2 * (a.toNat / 2) ∨ 2 * (a.toNat / 2) + bs.length ≤ b) : d'.mem.read b = d.mem.read b := by
  obtain ⟨d1, n, hx, hp⟩ := respond_header_ok h
  rw [decodeWire_lastWord hwf hr] at hx
  rw [hlen] at hb
  obtain ⟨hmem, hrx⟩ := execCmd_write_misses hx hb
  have hdone : d1.rx = [] := by rw [hrx, ← hlen]; exact List.drop_length
  rw [parse_rest_mem hdone hp, hmem]
  rfl

end Sys2Proof.Machine
end

section
/-! SUPPORT. A byte of device memory outside an instruction's own registers: no sequence of register accesses that miss it
stores there, however the sequence ends (spec/41_register_access.md R121, spec/42_host_command.md R143,
spec/43_image_transport.md R170, spec/44_flash_ops.md R192 and R197; log entry 16). -/

namespace Sys2Proof.Machine

/-- The parameters are `c`, and byte `b` of device memory reads `v`. -/
def Spared (c : Config) (b : Nat) (v : Byte) (s : State) : Prop := s.cfg = c ∧ s.dev.mem.read b = v

/-- A write of `size` bytes to register `a` is one that software may make, and `b` is none of the register's bytes (R57,
R297). -/
structure Misses (c : Config) (b : Nat) (a : Addr) (size : Nat) : Prop where
  reachable : ∀ cnt, countOf size = some cnt → reachable c.wire a .write cnt = true
  outside : b < 2 * (a.toNat / 2) ∨ 2 * (a.toNat / 2) + size ≤ b

/-- A write of one word. -/
theorem misses_word {c : Config} {b : Nat} {a : Addr} (hr : reachable c.wire a .write 0#7 = true)
    (hout : b < 2 * (a.toNat / 2) ∨ 2 * (a.toNat / 2) + 2 ≤ b) : Misses c b a 2 := by
  refine ⟨fun cnt hcnt => ?_, hout⟩
  cases hcnt
  exact hr

/-- A transfer leaves the device alone, or the reference responder carries it out. -/
theorem busReply_dev {c : Config} {e e' : Env} {d d' : Dev} {w r : List Byte} {k n : Nat}
    (h : busReply c e d w k = some (n, r, e', d')) : d' = d ∨ Dev.respond c w k d = .ok d' := by
  unfold busReply at h
  split at h
  · cases h
  · cases h; exact .inl rfl
  · split at h
    · cases h; exact .inl rfl
    · split at h
      · next d1 hr => cases h; exact .inr hr
      · cases h

namespace Spared

variable {c : Config} {b : Nat} {v : Byte}

/-- The sequence knows the parameters. -/
theorem bind_config {α : Type} {f : Config → M α} (h : Keeps (Spared c b v) (f c)) :
    Keeps (Spared c b v) (config >>= f) := by
  rintro s ⟨rfl, hv⟩
  exact h s ⟨rfl, hv⟩

/-- A run that goes on as another one does. -/
theorem of_run_eq {α : Type} {m m' : M α} {s s' : State} (hrun : m.run s = m'.run s') (h : Keeps (Spared c b v) m')
    (hs : Spared c b v s') : Ends (Spared c b v) (Spared c b v) (m.run s) := hrun ▸ h s' hs

/-- A write of the block's own registers. -/
theorem update {f : State → State} (h : ∀ s, ((f s).cfg, (f s).dev) = (s.cfg, s.dev)) :
    Keeps (Spared c b v) (update f) := by
  refine Keeps.update fun s hs => ?_
  obtain ⟨hcfg, hdev⟩ := Prod.mk.inj (h s)
  exact ⟨hcfg.trans hs.1, by rw [hdev]; exact hs.2⟩

/-! The bus primitives. -/

theorem busXfer {w : List Byte} {k : Nat} (h : ∀ d d', Dev.respond c w k d = .ok d' → d'.mem.read b = d.mem.read b) :
    Keeps (Spared c b v) (busXfer w k) := by
  rintro s ⟨rfl, hv⟩
  rcases busXfer_cases w k s with ⟨-, hrun⟩ | ⟨-, -, hrun⟩ | ⟨n, r, e, d, -, hreply, hrun⟩ <;> rw [hrun]
  · exact ⟨rfl, hv⟩
  · exact ⟨rfl, hv⟩
  · refine ⟨rfl, ?_⟩
    rcases busReply_dev hreply with rfl | hd
    · exact hv
    · exact (h _ _ hd).trans hv

theorem delay (ms : Nat) : Keeps (Spared c b v) (Machine.delay ms) := by
  intro s hs
  rcases delay_cases ms s with ⟨-, hrun⟩ | ⟨-, -, hrun⟩ | ⟨-, -, hrun⟩ <;> rw [hrun] <;> exact hs

/-! RA. -/

theorem regWrite (hwf : c.wf) {a : Addr} {data : List Byte} (hm : Misses c b a data.length) :
    Keeps (Spared c b v) (regWrite a data) := by
  rintro s ⟨rfl, hv⟩
  cases hc : countOf data.length with
  | none =>
    rw [regWrite_refuse (countOf_eq_none.mp hc)]
    exact ⟨rfl, hv⟩
  | some cnt =>
    have hlen : (toDev s.cfg data).length = data.length := toDev_length _ _
    have hxfer := busXfer (v := v) (w := header s.cfg.wire a .write cnt ++ toDev s.cfg data) (k := 0) fun d d' h =>
      respond_write_misses hwf h (hm.reachable cnt hc) (by rw [hlen, countOf_toNat hc, Nat.mul_comm])
        (by rw [hlen]; exact hm.outside)
    exact of_run_eq (regWrite_run hc) (Keeps.bind hxfer fun _ => Keeps.bind (Keeps.raiseIf _ _) fun _ =>
      update fun _ => rfl) ⟨rfl, hv⟩

theorem regRead (a : Addr) (size : Nat) : Keeps (Spared c b v) (regRead a size) := by
  rintro s ⟨rfl, hv⟩
  cases hc : countOf size with
  | none =>
    rw [regRead_refuse (countOf_eq_none.mp hc)]
    exact ⟨rfl, hv⟩
  | some cnt =>
    have hxfer := busXfer (v := v) (w := header s.cfg.wire a .read cnt) (k := size) fun d d' h =>
      congrArg (Mem.read · b) (respond_read_mem h)
    exact of_run_eq (regRead_run hc) (Keeps.bind hxfer fun _ => Keeps.bind (Keeps.raiseIf _ _) fun _ =>
      Keeps.bind (update fun _ => rfl) fun _ => Keeps.bind (update fun _ => rfl) fun _ =>
      Keeps.bind Keeps.get fun _ => Keeps.bind (update fun _ => rfl) fun _ => Keeps.pure _) ⟨rfl, hv⟩

theorem regWrite16 (hwf : c.wf) {a : Addr} (hm : Misses c b a 2) (w : Word) : Keeps (Spared c b v) (regWrite16 a w) :=
  bind_config (regWrite hwf (by rwa [bytes16_length]))

theorem regRead16 (a : Addr) : Keeps (Spared c b v) (regRead16 a) :=
  bind_config <| Keeps.bind (regRead _ _) fun _ => Keeps.bind (update fun _ => rfl) fun _ => Keeps.pure _

/-! HC and the boot-mode controller. -/

theorem pollRead (a : Addr) : Keeps (Spared c b v) (pollRead a) := by
  have hread : Keeps (Spared c b v) (do
      let w ← Machine.regRead16 a
      Machine.update fun t => t.setPollCnt (t.x.pollCnt + 1)
      return w) :=
    Keeps.bind (regRead16 _) fun _ => Keeps.bind (update fun _ => rfl) fun _ => Keeps.pure _
  refine Keeps.bind Keeps.get fun _ => ?_
  split
  · exact Keeps.bind (delay _) fun _ => hread
  · exact hread

theorem pollLoop (a : Addr) (pass : Word → Bool) (left : Nat) : Keeps (Spared c b v) (pollLoop a pass left) := by
  induction left with
  | zero => exact Keeps.bind (pollRead _) fun _ => Keeps.ite (Keeps.pure _) (Keeps.raise _)
  | succ n ih => exact Keeps.bind (pollRead _) fun _ => Keeps.ite (Keeps.pure _) ih

theorem pollPhase (a : Addr) (pass : Word → Bool) : Keeps (Spared c b v) (pollPhase a pass) :=
  bind_config <| Keeps.bind (update fun _ => rfl) fun _ => pollLoop _ _ _

theorem waitNotBusy : Keeps (Spared c b v) waitNotBusy := bind_config (pollPhase _ _)

theorem readResult : Keeps (Spared c b v) readResult :=
  bind_config <| Keeps.bind (regRead16 _) fun _ => Keeps.bind (update fun _ => rfl) fun _ => Keeps.pure _

/-- The handshake writes the command register and the flags (R143). -/
theorem runCommand (hwf : c.wf) (hcmd : Misses c b c.map.cmd 2) (hflags : Misses c b c.map.swFlags 2) (cmd : Word) :
    Keeps (Spared c b v) (runCommand cmd) :=
  bind_config <| Keeps.bind (update fun _ => rfl) fun _ =>
  Keeps.bind (update fun _ => rfl) fun _ => Keeps.bind (pollPhase _ _) fun _ =>
  Keeps.bind (update fun _ => rfl) fun _ => Keeps.bind (regWrite16 hwf hcmd _) fun _ =>
  Keeps.bind (update fun _ => rfl) fun _ => Keeps.bind (regWrite16 hwf hflags _) fun _ =>
  Keeps.bind (update fun _ => rfl) fun _ => Keeps.bind (pollPhase _ _) fun _ =>
  update fun _ => rfl

theorem commandAndResult (hwf : c.wf) (hcmd : Misses c b c.map.cmd 2) (hflags : Misses c b c.map.swFlags 2) (cmd : Word)
    (f : Word → Status) : Keeps (Spared c b v) (commandAndResult cmd f) :=
  Keeps.bind (runCommand hwf hcmd hflags _) fun _ => Keeps.bind readResult fun _ => Keeps.continueIfSuccess _

theorem commandAndWait (hwf : c.wf) (hcmd : Misses c b c.map.cmd 2) (hflags : Misses c b c.map.swFlags 2) (cmd : Word) :
    Keeps (Spared c b v) (commandAndWait cmd) :=
  Keeps.bind (runCommand hwf hcmd hflags _) fun _ => waitNotBusy

/-- The boot-mode switch writes the reset register (R170). -/
theorem bootSwitch (hwf : c.wf) (hboot : Misses c b c.map.rstBoot 2) : Keeps (Spared c b v) bootSwitch :=
  bind_config <| Keeps.bind (update fun _ => rfl) fun _ => Keeps.bind (regRead16 _) fun _ =>
  Keeps.ite
    (Keeps.bind (update fun _ => rfl) fun _ => Keeps.bind (regWrite16 hwf hboot _) fun _ =>
      Keeps.bind (update fun _ => rfl) fun _ => Keeps.bind (delay _) fun _ =>
      Keeps.bind (update fun _ => rfl) fun _ => Keeps.bind (regRead16 _) fun _ =>
      Keeps.bind (Keeps.raiseIf _ _) fun _ => update fun _ => rfl)
    (update fun _ => rfl)

/-! The flash sequences. -/

theorem flashInit (hwf : c.wf) (hcmd : Misses c b c.map.cmd 2) (hflags : Misses c b c.map.swFlags 2) :
    Keeps (Spared c b v) flashInit :=
  bind_config <| Keeps.bind (update fun _ => rfl) fun _ => Keeps.bind (runCommand hwf hcmd hflags _) fun _ =>
  Keeps.bind (update fun _ => rfl) fun _ => Keeps.bind readResult fun _ => Keeps.continueIfSuccess _

theorem readCount : Keeps (Spared c b v) readCount :=
  bind_config <| Keeps.bind (update fun _ => rfl) fun _ => Keeps.bind (regRead16 _) fun _ => update fun _ => rfl

/-- FLASH_SAVE writes, besides, the checksum register (R192). -/
theorem flashSave (hwf : c.wf) (hcmd : Misses c b c.map.cmd 2) (hflags : Misses c b c.map.swFlags 2)
    (hboot : Misses c b c.map.rstBoot 2) (hchksum : Misses c b c.map.chksum c.map.chksumBytes) (wantCount : Bool) :
    Keeps (Spared c b v) (flashSave wantCount) := by
  have hend : Keeps (Spared c b v) (do
      Machine.update (·.setFl .idle)
      Machine.update (·.setIt .done)
      return Payload.none) :=
    Keeps.bind (update fun _ => rfl) fun _ => Keeps.bind (update fun _ => rfl) fun _ => Keeps.pure _
  exact bind_config <| Keeps.bind (update fun _ => rfl) fun _ => Keeps.bind (update fun _ => rfl) fun _ =>
    Keeps.bind (update fun _ => rfl) fun _ => Keeps.bind (update fun _ => rfl) fun _ =>
    Keeps.bind (bootSwitch hwf hboot) fun _ => Keeps.bind (flashInit hwf hcmd hflags) fun _ =>
    Keeps.bind (update fun _ => rfl) fun _ => Keeps.bind (regWrite hwf (by rwa [List.length_replicate])) fun _ =>
    Keeps.bind (update fun _ => rfl) fun _ => Keeps.bind (runCommand hwf hcmd hflags _) fun _ =>
    Keeps.bind (update fun _ => rfl) fun _ => Keeps.bind readResult fun _ => Keeps.bind (Keeps.continueIfSuccess _) fun _ =>
    Keeps.ite (Keeps.bind readCount fun _ => hend) hend

/-- FLASH_ERASE writes, besides, the result register (R197). -/
theorem flashErase (hwf : c.wf) (hcmd : Misses c b c.map.cmd 2) (hflags : Misses c b c.map.swFlags 2)
    (hboot : Misses c b c.map.rstBoot 2) (hresult : Misses c b c.map.result 2) : Keeps (Spared c b v) flashErase := by
  have hafter : Keeps (Spared c b v) (eraseAfterBoot c) :=
    Keeps.bind (flashInit hwf hcmd hflags) fun _ => Keeps.bind (update fun _ => rfl) fun _ =>
    Keeps.bind (regWrite16 hwf hresult _) fun _ => Keeps.bind (update fun _ => rfl) fun _ =>
    Keeps.bind (runCommand hwf hcmd hflags _) fun _ => Keeps.bind (update fun _ => rfl) fun _ =>
    Keeps.bind readResult fun _ => Keeps.bind (Keeps.continueIfSuccess _) fun _ =>
    Keeps.bind (update fun _ => rfl) fun _ => Keeps.bind (update fun _ => rfl) fun _ => Keeps.pure _
  rw [flashErase_eq]
  exact bind_config <| Keeps.bind (update fun _ => rfl) fun _ => Keeps.bind (update fun _ => rfl) fun _ =>
    Keeps.bind (update fun _ => rfl) fun _ => Keeps.bind (regRead16 _) fun _ =>
    Keeps.ite (Keeps.bind (bootSwitch hwf hboot) fun _ => hafter) hafter

end Spared

end Sys2Proof.Machine
end

section
/-! SUPPORT. The instructions of the block by the registers they store to (spec/41_register_access.md R121,
spec/42_host_command.md R143, spec/43_image_transport.md R170, spec/44_flash_ops.md R192 and R197; log entry 16). -/

namespace Sys2Proof.Machine

/-- However a job ends, the device is as its sequence left it. -/
theorem finish_dev {i : Instr} {s : State} {j : Job} (h : jobOf i s = some j) (r : EStateM.Result Abort State Payload) :
    (j.finish r).dev = (stateOf r).dev := by
  rcases jobOf_request_or_word h with ⟨-, op, b, m, rfl⟩ | ⟨-, m, rfl⟩
  · exact settle_elim (Q := fun t => t.dev = _) (fun u hu => by rw [hu]; rfl) (fun _ => rfl)
      (fun p u hu => by rw [hu]; rfl) fun st u hu => by rw [hu]; simp [stateOf]
  · exact settleWord_elim (Q := fun t => t.dev = _) (fun u hu => by rw [hu]; rfl) (fun _ => rfl)
      (fun p u hu => by rw [hu]; rfl) fun st u hu => by rw [hu]; simp [stateOf]

/-- A byte that the sequence of an instruction spares is as before, however the instruction ends. -/
theorem read_of_spared {i : Instr} {s t : State} {b : Nat} (hi : i.space ≠ .wire) (ht : exec i s = .next t)
    (h : ∀ j, jobOf i s = some j → Keeps (Spared s.cfg b (s.dev.mem.read b)) j.seq) :
    t.dev.mem.read b = s.dev.mem.read b := by
  obtain ⟨j, hj⟩ := job_of_exec hi ht
  rw [exec_of_job hj] at ht
  cases ht
  have hdev : j.start.dev = s.dev := by
    rcases jobOf_request_or_word hj with ⟨-, op, b, m, rfl⟩ | ⟨-, m, rfl⟩ <;> rfl
  have hends := h j hj j.start ⟨start_cfg_of_jobOf hj, by rw [hdev]⟩
  rw [finish_dev hj]
  cases hr : j.seq.run j.start with
  | ok p u | error e u => rw [hr] at hends; exact hends.2

/-- A handshake's two registers, and none but them and what the list names besides. -/
theorem misses_command {c : Config} {b : Nat}
    (hreach : ∀ a ∈ [c.map.swFlags, c.map.cmd, c.map.result, c.map.rstBoot], reachable c.wire a .write 0#7 = true)
    {stored : List (Nat × Nat)} (hout : ∀ p ∈ stored, b < p.1 ∨ p.1 + p.2 ≤ b)
    (hcmd : (2 * (c.map.cmd.toNat / 2), 2) ∈ stored) (hflags : (2 * (c.map.swFlags.toNat / 2), 2) ∈ stored) :
    Misses c b c.map.cmd 2 ∧ Misses c b c.map.swFlags 2 :=
  ⟨misses_word (hreach _ (by simp)) (hout _ hcmd), misses_word (hreach _ (by simp)) (hout _ hflags)⟩

/-- Settles O55: each instruction's sequence makes writes to the registers listed for it alone. -/
theorem onlyOwnRegistersStored : Obligations.OnlyOwnRegistersStored := by
  intro s t i b hwf hreach hchksum hreg hi hraw hload hgram hout ht
  refine read_of_spared hi ht fun j hj => ?_
  cases i with
  | selectPage _ | noOp | contPagedWrite _ | directRead _ _ | directWrite _ _ | pagedRead _ _ | pagedWrite _ _
    | reserved _ _ => cases hj
  | rawWrite data => exact absurd rfl (hraw data)
  | loadImage image => exact absurd rfl (hload image)
  | grammarLoad blob => exact absurd rfl (hgram blob)
  | hdrEncode a rw size =>
    cases hj
    show Keeps _ (hdrEncodeSeq a rw size)
    unfold hdrEncodeSeq
    cases countOf size.toNat with
    | none => exact Keeps.raise _
    | some cnt =>
      exact Keeps.bind (Spared.bind_config (Spared.update fun _ => rfl)) fun _ => Keeps.bind Keeps.get fun _ =>
        Keeps.pure _
  | regWrite a data =>
    cases hj
    have hm : Misses s.cfg b a data.length := ⟨fun cnt hcnt => hreg a data cnt rfl hcnt, hout _ List.mem_cons_self⟩
    exact Keeps.bind (Spared.regWrite hwf hm) fun _ => Keeps.pure _
  | regRead a size => cases hj; exact Keeps.bind (Spared.regRead _ _) fun _ => Keeps.pure _
  | reqReserved op => cases hj; exact Keeps.raise _
  | runCmd cmd =>
    cases hj
    obtain ⟨hcmd, hflags⟩ := misses_command hreach hout (by simp [storedBytes]) (by simp [storedBytes])
    exact Keeps.bind (Spared.runCommand hwf hcmd hflags _) fun _ => Keeps.pure _
  | bootSwitch =>
    cases hj
    have hboot := misses_word (hreach s.cfg.map.rstBoot (by simp)) (hout _ List.mem_cons_self)
    exact Keeps.bind (Spared.bootSwitch hwf hboot) fun _ => Keeps.pure _
  | flashSave wantCount =>
    cases hj
    obtain ⟨hcmd, hflags⟩ := misses_command hreach hout (by simp [storedBytes]) (by simp [storedBytes])
    have hboot := misses_word (hreach s.cfg.map.rstBoot (by simp)) (hout _ List.mem_cons_self)
    have hsum : Misses s.cfg b s.cfg.map.chksum s.cfg.map.chksumBytes :=
      ⟨fun cnt hcnt => (countOf_eq_some.mp hcnt).2 ▸ hchksum, hout (_, _) (by simp [storedBytes])⟩
    exact Spared.flashSave hwf hcmd hflags hboot hsum wantCount
  | flashErase =>
    cases hj
    obtain ⟨hcmd, hflags⟩ := misses_command hreach hout (by simp [storedBytes]) (by simp [storedBytes])
    have hboot := misses_word (hreach s.cfg.map.rstBoot (by simp)) (hout _ List.mem_cons_self)
    have hresult := misses_word (hreach s.cfg.map.result (by simp)) (hout (_, _) (by simp [storedBytes]))
    exact Spared.flashErase hwf hcmd hflags hboot hresult
  | cmdLoadComplete | cmdFlashInit | cmdSave | cmdErase =>
    cases hj
    obtain ⟨hcmd, hflags⟩ := misses_command hreach hout (by simp [storedBytes]) (by simp [storedBytes])
    exact Keeps.bind (Spared.commandAndResult hwf hcmd hflags _ _) fun _ => Keeps.pure _
  | cmdGramDisable | cmdGramEnable =>
    obtain ⟨hcmd, hflags⟩ := misses_command hreach hout (by simp [storedBytes]) (by simp [storedBytes])
    simp only [jobOf] at hj
    split at hj
    · cases hj
      exact Keeps.bind (Spared.commandAndWait hwf hcmd hflags _) fun _ => Keeps.pure _
    · cases hj

end Sys2Proof.Machine
end

section
/-! SUPPORT. RUN_CMD on its own: the handshake that uses up the reads of a phase, x[CMDOP] and the raw code through a
handshake, and the three endings of the request (spec/42_host_command.md R141 to R152, spec/60_exceptions.md R256 to R258). -/

namespace Sys2Proof.Machine

/-! The response code latched. -/

/-- The response code in x[RAW_RESP] where x[RAW_VALID] says there is one (R258). -/
def State.rawCode (s : State) : Option Word := if s.x.rawValid then some s.x.rawResp else none

@[simp] theorem State.rawCode_latch (s : State) (v : Word) : (s.latch v).rawCode = some v := rfl
@[simp] theorem State.rawCode_clearRaw (s : State) : s.clearRaw.rawCode = none := rfl

theorem State.rawCode_eq_none {s : State} : s.rawCode = none ↔ s.x.rawValid = false := by
  simp [State.rawCode]

/-- RA, HC and the boot-mode controller latch no response code (R151). -/
theorem hcStable_rawCode (raw : Option Word) : HcStable (·.rawCode = raw) where
  ra _ _ h := h
  access _ _ _ _ h := h
  hdr _ _ _ _ _ h := h
  buf _ _ _ h := h
  val _ _ h := h
  xfer _ _ _ _ _ _ _ _ _ h := h
  delay _ _ _ h := h
  hang _ _ _ h := h
  hc _ _ h := h
  bm _ _ h := h
  cmdOp _ _ h := h
  pollCnt _ _ _ h := h

/-! The word in x[CMDOP]. -/

/-- A poll phase keeps what RA and the count of reads keep. -/
theorem RaStable.pollPhase {P : State → Prop} (h : RaStable P) (hcnt : ∀ s n, P s → P (s.setPollCnt n)) (a : Addr)
    (pass : Word → Bool) : Keeps P (pollPhase a pass) := by
  have hread : Keeps P (Machine.pollRead a) := by
    have hcounted : Keeps P (do
        let v ← Machine.regRead16 a
        update fun t => t.setPollCnt (t.x.pollCnt + 1)
        return v) :=
      Keeps.bind (h.regRead16 a) fun _ => Keeps.bind (Keeps.update fun s hs => hcnt s _ hs) fun _ => Keeps.pure _
    unfold Machine.pollRead
    refine Keeps.bind Keeps.get fun s => ?_
    split
    · exact Keeps.bind (h.delayOp _) fun _ => hcounted
    · exact hcounted
  have hloop (left : Nat) : Keeps P (Machine.pollLoop a pass left) := by
    induction left with
    | zero => exact Keeps.bind hread fun _ => Keeps.ite (Keeps.pure _) (Keeps.raise _)
    | succ n ih => exact Keeps.bind hread fun _ => Keeps.ite (Keeps.pure _) ih
  exact Keeps.bind Keeps.config fun _ => Keeps.bind (Keeps.update fun s hs => hcnt s 0 hs) fun _ => hloop _

/-- RA leaves x[CMDOP] alone (R18, R132). -/
theorem raStable_cmdOp (cmd : Word) : RaStable (·.x.cmdOp = cmd) where
  ra _ _ h := h
  access _ _ _ _ h := h
  hdr _ _ _ _ _ h := h
  buf _ _ _ h := h
  val _ _ h := h
  xfer _ _ _ _ _ _ _ _ _ h := h
  delay _ _ _ h := h
  hang _ _ _ h := h

/-- However a handshake ends, x[CMDOP] holds its word (R141). -/
theorem runCommand_cmdOp (cmd : Word) (s : State) :
    Ends (·.x.cmdOp = cmd) (·.x.cmdOp = cmd) ((runCommand cmd).run s) := by
  have h := raStable_cmdOp cmd
  have hphase := h.pollPhase fun _ _ hs => hs
  have hc (st : HcState) : Keeps (·.x.cmdOp = cmd) (update (·.setHc st)) := Keeps.update fun _ hs => hs
  unfold runCommand
  rw [config_bind, update_bind]
  exact (Keeps.bind (hc _) fun _ => Keeps.bind (hphase _ _) fun _ => Keeps.bind (hc _) fun _ =>
    Keeps.bind (h.regWrite16 _ _) fun _ => Keeps.bind (hc _) fun _ => Keeps.bind (h.regWrite16 _ _) fun _ =>
    Keeps.bind (hc _) fun _ => Keeps.bind (hphase _ _) fun _ => hc _) (s.setCmdOp cmd) rfl

/-! A handshake that uses up the reads of a phase. -/

/-- Up to phase 3: the word was taken and the device notified (R141 to R143). -/
theorem runCommand_continues {c : Config} {idle : List (Nat × Word)} {wrote notified : Nat} (cmd : Word)
    (hpass : pollPasses (fun v => !busyFlag v) idle = true) (hidle : idle.length ≤ c.pollBound) (hwrote : 1 ≤ wrote)
    (hnotified : 1 ≤ notified) :
    Continues c (runCommand cmd)
      (pollEvents c c.map.swFlags idle ++ ([write16 c c.map.cmd wrote cmd] ++ [write16 c c.map.swFlags notified 1#16]))
      (do pollPhase c.map.done commandDone; update (·.setHc .idle)) :=
  .skip .config <| .skip (.setCmdOp cmd) <| .skip (.setHc _) <| (pollPhase_performs _ hpass hidle).continues.trans <|
    .skip (.setHc _) <| (regWrite16_performs _ _ hwrote).continues.trans <| .skip (.setHc _) <|
    (regWrite16_performs _ _ hnotified).continues.trans (Performs.setHc _).continues

/-- A handshake that is stuck ends after its reads, all of which were counted (R145, R268). -/
theorem runCommand_stuck {s : State} {cmd : Word} {stuck : CmdStuck} {e : Env} {d : Dev} (hpos : 1 ≤ s.cfg.pollBound)
    (hok : stuck.ok s.cfg = true) (hb : s.busAnswers (stuck.events s.cfg cmd) e d) :
    ∃ u mvs, (runCommand cmd).run s = .error (.raised .resourceErr) u ∧ Goes s u (stuck.events s.cfg cmd) mvs ∧
      u.x.pollCnt = s.cfg.pollBound ∧ u.env = e ∧ u.dev = d := by
  cases stuck with
  | waitIdle reads =>
    simp only [CmdStuck.ok, Bool.and_eq_true, decide_eq_true_eq] at hok
    obtain ⟨hfail, hlen⟩ := hok
    obtain ⟨u, hrun, hgo, -, -, -, hcnt, he, hd⟩ := runCommand_idle_fails hfail hlen hpos hb
    exact ⟨u, _, hrun, hgo, hcnt, he, hd⟩
  | waitDone idle wrote notified reads =>
    simp only [CmdStuck.ok, Bool.and_eq_true, decide_eq_true_eq] at hok
    obtain ⟨⟨⟨⟨⟨hpass, hidle⟩, hwrote⟩, hnotified⟩, hfail⟩, hlen⟩ := hok
    obtain ⟨e1, d1, hfirst⟩ := State.busAnswers_append hb
    obtain ⟨t, _, hrun, hgo⟩ := runCommand_continues cmd hpass hidle hwrote hnotified s e1 d1 rfl hfirst
    have hrest := hgo.rest hb
    have hcfg := hgo.cfg
    rw [← hcfg] at hpos hlen hrest
    obtain ⟨u, hrun', hP⟩ := pollPhase_fails hfail hlen hpos hrest
    have hall := hgo.trans hP.goes
    have hcnt := hP.pollCnt.trans hlen
    rw [hcfg] at hrun' hall hcnt
    exact ⟨u, _, hrun.trans (bind_error hrun'), hall, hcnt, hP.env, hP.dev⟩

/-! The request. -/

/-- A handshake latches no response code, however it ends (R151). -/
theorem runCommand_error_rawValid {s u : State} {cmd : Word} {op : BitVec 4} {st : Abort}
    (h : (runCommand cmd).run (s.accept op) = .error st u) : u.x.rawValid = false := by
  have hends := (hcStable_rawCode none).runCommand cmd (s.accept op) rfl
  rw [h] at hends
  exact State.rawCode_eq_none.mp hends

/-- Settles O22: the handshake between acceptance and answer. -/
theorem runCmdCompletes : Obligations.RunCmdCompletes := by
  rintro s cmd r _ d hok ⟨e, hbus, h0, rfl⟩
  obtain ⟨u, hrun, hC⟩ := runCommand_ok (s := s.accept 0x4) hok hbus
  obtain ⟨hgo, hseq, hx, hop, hcnt, hval, rfl, rfl⟩ := hC
  have himage := Holding.sameImage_of_sameButAccess hx
  obtain ⟨hraw, hvalid, hflash, hcount⟩ := Holding.latches_of_sameButAccess hx
  refine ⟨_, runRequest_ok (bind_ok hrun) h0, ⟨hgo.history, hgo.moves, rfl, rfl, hgo.cfg, hgo.inbox⟩, ?_,
    ⟨himage, rfl, hvalid, hraw, hcount, hflash⟩, hop, hval, hcnt, _, rfl, rfl, hvalid, by simp, rfl, rfl, by simp [hcount]⟩
  rw [State.respond_seq, hseq]
  rfl

/-- Settles O23: either phase ends the handshake after its last read, and the raise ends the request. -/
theorem runCmdBound : Obligations.RunCmdBound := by
  intro s cmd e d hpos
  refine ⟨?_, ?_⟩
  · rintro ps hfail hlen ⟨e, hbus, h0, rfl⟩
    obtain ⟨u, hrun, hgo, -, -, -, hcnt, he, hd⟩ := runCommand_idle_fails (s := s.accept 0x4) (cmd := cmd) hfail hlen hpos
      hbus
    obtain ⟨hexec, hran, hans⟩ := access_failed (f := fun _ => pure Payload.none) hrun hgo (runCommand_error_rawValid hrun)
      he hd h0 (by decide)
    exact ⟨_, hexec, hran, rfl, ⟨rfl, rfl, rfl, rfl, rfl⟩, hcnt, hans⟩
  · rintro ps qs n m hpass hidle hn hm hfail hlen evs ⟨e, hbus, h0, rfl⟩
    have hok : (CmdStuck.waitDone ps n m qs).ok s.cfg = true := by simp [CmdStuck.ok, *]
    obtain ⟨u, _, hrun, hgo, hcnt, he, hd⟩ := runCommand_stuck (s := s.accept 0x4) (cmd := cmd) hpos hok hbus
    obtain ⟨hexec, ⟨hhist, -, henv, hdev, -⟩, hans⟩ := access_failed (f := fun _ => pure Payload.none) hrun hgo
      (runCommand_error_rawValid hrun) he hd h0 (by decide)
    exact ⟨_, hexec, hhist, henv, hdev, rfl, ⟨rfl, rfl, rfl, rfl, rfl⟩, hcnt, hans⟩

/-- Settles O24: what the handshake performs it fails in at any of its transfers. -/
theorem runCmdTransferFails : Obligations.RunCmdTransferFails := by
  rintro s cmd r pre bad _ d hok hbad ⟨e, hbus, h0, rfl⟩
  have hfails := (runCommand_performs cmd hok).fails_after (Scripted.runCommand cmd) cmdEvents_fit hbad
  have hraises := hfails.bind (f := fun _ => pure Payload.none) (s.accept 0x4) e d rfl hbus
  have halone : LeavesItAlone (runCmdSeq cmd) := fun _ hP _ => Keeps.bind (hP.runCommand _) fun _ => Keeps.pure _
  obtain ⟨t, ht, habort⟩ := aborted_of_raises halone hraises h0 (by decide)
  refine ⟨t, ht, habort, ?_⟩
  obtain ⟨u, hrun, -, -, rfl, -⟩ := hraises
  cases ht.symm.trans (runRequest_raised hrun h0)
  have hop : Ends (·.x.cmdOp = cmd) (·.x.cmdOp = cmd) ((runCmdSeq cmd).run (s.accept 0x4)) :=
    Keeps.bind_at (runCommand_cmdOp cmd _) fun _ _ hv => hv
  rw [show (runCmdSeq cmd).run _ = _ from hrun] at hop
  rw [State.respond_x, State.abort_x]
  exact hop

end Sys2Proof.Machine
end

section
/-! SUPPORT. Sequences by the bus primitives they make and the response code that is latched meanwhile: one that passes a
stretch goes on behind it where the environment answers the stretch, and raises INTERNAL_ERR with the code it came with at
any transfer of it that reports no unit (spec/60_exceptions.md R256 to R258). -/

namespace Sys2Proof.Machine

/-- Where the environment answers `evs`, the sequence, entered with the response code `raw`, raises `st` after exactly those
primitives and leaves the code `raw'`. -/
def FailsWith {α : Type} (c : Config) (m : M α) (raw : Option Word) (evs : List Event) (st : Status)
    (raw' : Option Word) : Prop :=
  ∀ s e d, s.cfg = c → s.rawCode = raw → s.busAnswers evs e d →
    ∃ u, m.run s = .error (.raised st) u ∧ s.sameOutside u ∧ u.history = s.history ++ evs ∧ u.env = e ∧ u.dev = d ∧
      u.rawCode = raw'

/-- Where the environment answers `evs`, `m`, entered with the response code `raw`, makes exactly those primitives and goes
on as `m'` with the code `raw'`. -/
def ContinuesWith {α : Type} (c : Config) (m : M α) (raw : Option Word) (evs : List Event) (m' : M α)
    (raw' : Option Word) : Prop :=
  ∀ s e d, s.cfg = c → s.rawCode = raw → s.busAnswers evs e d →
    ∃ t mvs, m.run s = m'.run t ∧ Goes s t evs mvs ∧ t.rawCode = raw'

/-- `m` goes on as `m'` behind `evs`, and fails with the code it was entered with at any transfer of `evs`. -/
structure Passes {α : Type} (c : Config) (m : M α) (raw : Option Word) (evs : List Event) (m' : M α)
    (raw' : Option Word) : Prop where
  goes : ContinuesWith c m raw evs m' raw'
  fails : ∀ pre bad, FailsAfter evs pre bad → FailsWith c m raw (pre ++ [bad]) .internalErr raw

/-- A part of a sequence that performs `evs` with the result `a` and leaves the response code `raw` alone. -/
structure Part {α : Type} (c : Config) (raw : Option Word) (m : M α) (evs : List Event) (a : α) : Prop where
  performs : Performs c m evs a
  scripted : Scripted m
  keeps : Keeps (·.rawCode = raw) m
  fits : ∀ ev ∈ evs, ev.Fits

/-! Where a failed transfer lies. -/

theorem not_failsAfter_nil {pre : List Event} {bad : Event} : ¬ FailsAfter [] pre bad := by
  rintro ⟨w, k, n, r, b, post, h, -⟩
  simp at h

/-- In the first of two stretches, or in the second behind the whole first. -/
theorem FailsAfter.of_append {a b pre : List Event} {bad : Event} (h : FailsAfter (a ++ b) pre bad) :
    (FailsAfter a pre bad ∧ pre.length < a.length) ∨ ∃ pre', pre = a ++ pre' ∧ FailsAfter b pre' bad := by
  obtain ⟨w, k, n, r, x, post, h, rfl⟩ := h
  rcases List.append_eq_append_iff.mp h with ⟨as, rfl, has⟩ | ⟨as, rfl, has⟩
  · exact .inr ⟨as, rfl, w, k, n, r, x, post, has, rfl⟩
  · cases as with
    | nil => exact .inr ⟨[], by simp, w, k, n, r, x, post, by simpa using has.symm, rfl⟩
    | cons ev as =>
      obtain ⟨rfl, -⟩ := List.cons.inj has
      exact .inl ⟨⟨w, k, n, r, x, as, rfl, rfl⟩, by simp⟩

section

variable {α β : Type} {c : Config} {raw raw' raw'' : Option Word} {evs evs' : List Event} {st : Status}

/-! One stretch after the other. -/

theorem ContinuesWith.trans {m m' m'' : M α} (h : ContinuesWith c m raw evs m' raw')
    (h' : ContinuesWith c m' raw' evs' m'' raw'') : ContinuesWith c m raw (evs ++ evs') m'' raw'' := by
  intro s e d hc hraw hb
  obtain ⟨e1, d1, hfirst⟩ := State.busAnswers_append hb
  obtain ⟨t, mvs, hrun, hgo, hraw1⟩ := h s e1 d1 hc hraw hfirst
  obtain ⟨u, mvs', hrun', hgo', hraw2⟩ := h' t e d (hgo.cfg.trans hc) hraw1 (hgo.rest hb)
  exact ⟨u, _, hrun.trans hrun', hgo.trans hgo', hraw2⟩

theorem ContinuesWith.fails {m m' : M α} (h : ContinuesWith c m raw evs m' raw')
    (h' : FailsWith c m' raw' evs' st raw'') : FailsWith c m raw (evs ++ evs') st raw'' := by
  intro s e d hc hraw hb
  obtain ⟨e1, d1, hfirst⟩ := State.busAnswers_append hb
  obtain ⟨t, mvs, hrun, hgo, hraw1⟩ := h s e1 d1 hc hraw hfirst
  obtain ⟨u, hrun', ⟨hcfg, hinbox⟩, hhist, henv, hdev, hraw2⟩ := h' t e d (hgo.cfg.trans hc) hraw1 (hgo.rest hb)
  exact ⟨u, hrun.trans hrun', ⟨hcfg.trans hgo.cfg, hinbox.trans hgo.inbox⟩,
    by rw [hhist, hgo.history, List.append_assoc], henv, hdev, hraw2⟩

/-- As long as no code is latched. -/
theorem Passes.trans {m m' m'' : M α} (h : Passes c m raw evs m' raw) (h' : Passes c m' raw evs' m'' raw') :
    Passes c m raw (evs ++ evs') m'' raw' where
  goes := h.goes.trans h'.goes
  fails pre bad hbad := by
    rcases hbad.of_append with ⟨hfirst, -⟩ | ⟨pre', rfl, hsecond⟩
    · exact h.fails pre bad hfirst
    · rw [List.append_assoc]
      exact h.goes.fails (h'.fails pre' bad hsecond)

/-- Whatever is latched, where no bus primitive follows. -/
theorem Passes.silent {m m' m'' : M α} (h : Passes c m raw evs m' raw') (h' : ContinuesWith c m' raw' [] m'' raw'') :
    Passes c m raw evs m'' raw'' where
  goes := by simpa using h.goes.trans h'
  fails := h.fails

/-! A first part. -/

theorem FailsWith.bind {m : M α} {f : α → M β} (h : FailsWith c m raw evs st raw') :
    FailsWith c (m >>= f) raw evs st raw' := by
  intro s e d hc hraw hb
  obtain ⟨u, hrun, hrest⟩ := h s e d hc hraw hb
  exact ⟨u, bind_error hrun, hrest⟩

theorem ContinuesWith.bind {m : M α} {f : α → M β} {a : α} (h : ContinuesWith c m raw evs (pure a) raw') :
    ContinuesWith c (m >>= f) raw evs (f a) raw' := by
  intro s e d hc hraw hb
  obtain ⟨t, mvs, hrun, hrest⟩ := h s e d hc hraw hb
  exact ⟨t, mvs, bind_ok hrun, hrest⟩

theorem Passes.bind {m : M α} {f : α → M β} {a : α} (h : Passes c m raw evs (pure a) raw') :
    Passes c (m >>= f) raw evs (f a) raw' :=
  ⟨h.goes.bind, fun pre bad hbad => (h.fails pre bad hbad).bind⟩

/-- What fails and leaves the response code alone. -/
theorem Fails.withRaw {m : M α} (h : Fails c m evs st) (hk : Keeps (·.rawCode = raw) m) : FailsWith c m raw evs st raw := by
  intro s e d hc hraw hb
  obtain ⟨u, hrun, hout, hhist, he, hd⟩ := h s e d hc hb
  have hends := hk s hraw
  rw [hrun] at hends
  exact ⟨u, hrun, hout, hhist, he, hd, hends⟩

theorem Part.passes {m : M α} {a : α} (h : Part c raw m evs a) : Passes c m raw evs (pure a) raw where
  goes s e d hc hraw hb := by
    obtain ⟨t, mvs, hrun, hgo⟩ := h.performs s e d hc hb
    have hends := h.keeps s hraw
    rw [hrun] at hends
    exact ⟨t, mvs, hrun, hgo, hends⟩
  fails pre bad hbad := (h.performs.fails_after h.scripted h.fits hbad).withRaw h.keeps

/-- A first part that was performed. -/
theorem Part.first {m : M α} {f : α → M β} {a : α} (h : Part c raw m evs a) : Passes c (m >>= f) raw evs (f a) raw :=
  h.passes.bind

theorem Part.then {m : M α} {f : α → M β} {m' : M β} {a : α} (h : Part c raw m evs a)
    (h' : Passes c (f a) raw evs' m' raw') : Passes c (m >>= f) raw (evs ++ evs') m' raw' := h.first.trans h'

/-- A first part that makes no bus primitive. -/
theorem Part.skip {m : M α} {f : α → M β} {m' : M β} {a : α} (h : Part c raw m [] a)
    (h' : Passes c (f a) raw evs m' raw') : Passes c (m >>= f) raw evs m' raw' := h.then h'

theorem Part.skip_fails {m : M α} {f : α → M β} {a : α} (h : Part c raw m [] a)
    (h' : FailsWith c (f a) raw evs st raw') : FailsWith c (m >>= f) raw evs st raw' := h.first.goes.fails h'

/-! The parts. -/

theorem Passes.refl (m : M α) : Passes c m raw [] m raw :=
  ⟨fun s _ _ _ hraw hb => by cases hb; exact ⟨s, [], rfl, Goes.refl s, hraw⟩, fun _ _ h => absurd h not_failsAfter_nil⟩

theorem Part.config : Part c raw Machine.config [] c := ⟨.config, .config, .config, nofun⟩

/-- A register write that knows nothing of the bus. -/
theorem Part.update {f : State → State} (hgo : ∀ s, ∃ mvs, Goes s (f s) [] mvs) (hs : Scripted (Machine.update f))
    (hk : ∀ s, s.rawCode = raw → (f s).rawCode = raw) : Part c raw (Machine.update f) [] () := ⟨.update hgo, hs, hk, nofun⟩

theorem Part.setBm (st : BmState) : Part c raw (Machine.update (·.setBm st)) [] () :=
  .update (fun s => ⟨_, Goes.setBm s st⟩) (Scripted.setBm st) fun _ h => h

theorem Part.setIt (st : ItState) : Part c raw (Machine.update (·.setIt st)) [] () :=
  .update (fun s => ⟨_, Goes.setIt s st⟩) (Scripted.setIt st) fun _ h => h

theorem Part.setFl (st : FlState) : Part c raw (Machine.update (·.setFl st)) [] () :=
  .update (fun s => ⟨_, Goes.setFl s st⟩) (Scripted.setFl st) fun _ h => h

/-- A write of holding registers other than the response latch. -/
theorem Part.setX (f : State → Holding) (hf : ∀ s e d, f (s.withBus e d) = f s)
    (hk : ∀ s, (f s).rawValid = s.x.rawValid ∧ (f s).rawResp = s.x.rawResp) :
    Part c raw (Machine.update fun s => { s with x := f s }) [] () := by
  refine .update (fun s => ⟨[], Goes.setX s _⟩) (.update (fun s e d => ?_) fun _ => ⟨rfl, rfl, rfl, rfl, by simp⟩)
    fun s hs => ?_
  · show { s.withBus e d with x := f (s.withBus e d) } = _
    rw [hf]
    rfl
  · obtain ⟨hvalid, hresp⟩ := hk s
    rw [← hs]
    simp only [State.rawCode, hvalid, hresp]

/-- The latch is cleared where it holds nothing (R160, R190, R195). -/
theorem Part.clearRaw : Part c none (Machine.update (·.clearRaw)) [] () :=
  .update (fun s => ⟨[], Goes.setX s _⟩) Scripted.clearRaw fun s _ => s.rawCode_clearRaw

theorem Part.raiseIf {b : Bool} (h : b = false) (st : Status) : Part c raw (Machine.raiseIf b st) [] () :=
  ⟨.raiseIf h st, .raiseIf b st, .raiseIf b st, nofun⟩

/-- A test that is not passed. -/
theorem raiseIf_failsWith {b : Bool} (h : b = true) (st : Status) : FailsWith c (raiseIf b st) raw [] st raw :=
  Fails.withRaw (fun s _ _ _ hb => by cases hb; exact ⟨s, raiseIf_true h st s, ⟨rfl, rfl⟩, by simp, rfl, rfl⟩) (.raiseIf b st)

/-- A result that maps to SUCCESS (R174, R191, R193, R198). -/
theorem Part.continueIfSuccess (h : st = .success) : Part c raw (continueIfSuccess st) [] () :=
  .raiseIf (decide_eq_false (by simpa using h)) st

theorem Part.regRead16 {n : Nat} (a : Addr) (v : Word) (hn : 1 ≤ n) : Part c raw (regRead16 a) [read16 c a n v] v :=
  ⟨regRead16_performs a v hn, Scripted.regRead16 a, (hcStable_rawCode raw).regRead16 a, by simp [read16_fits]⟩

theorem Part.regWrite16 {n : Nat} (a : Addr) (v : Word) (hn : 1 ≤ n) : Part c raw (regWrite16 a v) [write16 c a n v] () :=
  ⟨regWrite16_performs a v hn, Scripted.regWrite16 a v, (hcStable_rawCode raw).regWrite16 a v, by simp [write16_fits]⟩

theorem Part.regWrite {data : List Byte} {cnt : BitVec 7} {n : Nat} (a : Addr) (hc : countOf data.length = some cnt)
    (hn : 1 ≤ n) : Part c raw (regWrite a data) [.xfer (header c.wire a .write cnt ++ toDev c data) 0 n []] () :=
  ⟨regWrite_performs a hc hn, Scripted.regWrite a data, (hcStable_rawCode raw).regWrite a data, by simp [Event.Fits]⟩

theorem Part.runCommand {r : CmdRun} (cmd : Word) (hok : r.ok c = true) :
    Part c raw (runCommand cmd) (r.events c cmd) () :=
  ⟨runCommand_performs cmd hok, Scripted.runCommand cmd, (hcStable_rawCode raw).runCommand cmd, cmdEvents_fit⟩

/-- A handshake that uses up the reads of a phase (R145, R147). -/
theorem runCommand_failsWith {stuck : CmdStuck} (cmd : Word) (hpos : 1 ≤ c.pollBound) (hok : stuck.ok c = true) :
    FailsWith c (runCommand cmd) raw (stuck.events c cmd) .resourceErr raw := by
  refine Fails.withRaw ?_ ((hcStable_rawCode raw).runCommand cmd)
  rintro s e d rfl hb
  obtain ⟨u, _, hrun, hgo, -, he, hd⟩ := runCommand_stuck hpos hok hb
  exact ⟨u, hrun, ⟨hgo.cfg, hgo.inbox⟩, hgo.history, he, hd⟩

/-! The boot-mode switch. -/

theorem delay_fits (ms : Nat) : (Event.delay ms).Fits := trivial

theorem bootEvents_fit {r : BootRun} : ∀ ev ∈ r.events c, ev.Fits := by
  cases r <;> simp [BootRun.events, read16_fits, write16_fits, delay_fits]

theorem Part.bootSwitch {r : BootRun} (hok : r.ok c = true) : Part c raw bootSwitch (r.events c) () where
  performs := by
    rintro s e d rfl hb
    obtain ⟨t, hrun, hgo, -⟩ := bootSwitch_ok hok hb
    exact ⟨t, _, hrun, hgo⟩
  scripted := Scripted.bootSwitch
  keeps := (hcStable_rawCode raw).bootSwitch
  fits := bootEvents_fit

theorem Part.delay (ms : Nat) : Part c raw (delay ms) [.delay ms] () where
  performs s e d _ hb := by
    obtain ⟨t, hrun, hgo, -⟩ := delay_goes hb
    exact ⟨t, _, hrun, hgo⟩
  scripted := Scripted.delay ms
  keeps := (hcStable_rawCode raw).delayOp ms
  fits := by simp [delay_fits]

/-- A device that does not show the magic value (R171). -/
theorem bootSwitch_failsWith {n w q : Nat} {v u : Word} (hn : 1 ≤ n) (hw : 1 ≤ w) (hq : 1 ≤ q)
    (hv : appRunning c v = true) (hu : u ≠ c.map.bootMagic) :
    FailsWith c bootSwitch raw (bootMismatch c n v w q u) .internalErr raw := by
  have hevs : bootMismatch c n v w q u = [read16 c c.map.curFw n v] ++ ([write16 c c.map.rstBoot w 1#16] ++
    ([.delay c.bootDelayMs] ++ ([read16 c c.map.bootVerify q u] ++ []))) := rfl
  rw [hevs]
  refine Part.config.skip_fails <| (Part.setBm _).skip_fails <| (Part.regRead16 _ v hn).first.goes.fails ?_
  rw [if_pos hv]
  exact (Part.setBm _).skip_fails <| (Part.regWrite16 _ _ hw).first.goes.fails <| (Part.setBm _).skip_fails <|
    (Part.delay _).first.goes.fails <| (Part.setBm _).skip_fails <| (Part.regRead16 _ u hq).first.goes.fails
    (raiseIf_failsWith (decide_eq_true hu) _).bind

/-! The read of a response code, and what it maps to. -/

/-- The code is latched once it was read (R258). -/
theorem readResult_passes {n : Nat} (v : Word) (hn : 1 ≤ n) :
    Passes c readResult raw [read16 c c.map.result n v] (pure v) (some v) := by
  refine Part.config.skip <| (Part.regRead16 _ v hn).first.silent fun s _ _ _ _ hb => ?_
  cases hb
  exact ⟨s.latch v, [], rfl, Goes.setX s _, s.rawCode_latch v⟩

end

/-! The request. -/

/-- A request that drives IT_STATE and raises a status is aborted, with the code that is latched (R256 to R258). -/
theorem aborted_of_failsWith {op : BitVec 4} {m : M Payload} {s : State} {evs : List Event} {st : Status}
    {raw : Option Word} {e : Env} {d : Dev} (h : FailsWith s.cfg m none evs st raw) (hst : st ≠ .success)
    (hb : s.busCarries evs e d) :
    ∃ t, runRequest op true m s = .next t ∧ Aborted s t evs e d st raw .failed := by
  obtain ⟨e, hbus, h0, rfl⟩ := hb
  obtain ⟨u, hrun, hout, hhist, rfl, rfl, rfl⟩ := h (s.accept op) e d rfl rfl hbus
  refine ⟨_, runRequest_raised hrun h0, hhist, rfl, rfl, hout, ⟨rfl, rfl, rfl, rfl, rfl, rfl⟩, rfl, rfl,
    _, rfl, rfl, ?_, fun v hv => ?_, rfl, rfl, by simp [hst]⟩
  · show u.x.rawValid = u.rawCode.isSome
    cases hvalid : u.x.rawValid <;> simp [State.rawCode, hvalid]
  · show u.x.rawResp = v
    simp only [State.rawCode, Option.ite_none_right_eq_some, Option.some.injEq] at hv
    exact hv.2

end Sys2Proof.Machine
end

section
/-! SUPPORT. LOAD_IMAGE cut where the checks end and where the chunks end, and how it is aborted
(spec/43_image_transport.md R160 to R176; log entry 38). -/

namespace Sys2Proof.Machine

/-! The streaming loop. -/

theorem sendChunks_append (fw : Bool) (chunks rest : List (List Byte)) :
    sendChunks fw (chunks ++ rest) = (do sendChunks fw chunks; sendChunks fw rest) := by
  induction chunks with
  | nil => rfl
  | cons chunk chunks ih =>
    simp only [List.cons_append, sendChunks, ih, bind_assoc]

theorem chunkEvents_fit {c : Config} {chunks : List (List Byte)} {runs : List ChunkRun} :
    ∀ ev ∈ chunkEvents c chunks runs, ev.Fits := by
  intro ev hev
  obtain ⟨⟨chunk, r⟩, -, hev⟩ := List.mem_flatMap.mp hev
  obtain ⟨boot, sent⟩ := r
  rcases List.mem_append.mp hev with hboot | hsent
  · cases boot with
    | none => simp at hboot
    | some b => exact bootEvents_fit ev hboot
  · cases List.mem_singleton.mp hsent
    rfl

section

variable {c : Config} {raw : Option Word}

/-- The copy of a chunk to the buffer (R166). -/
theorem Part.setBuf (bs : List Byte) : Part c raw (Machine.update (·.setBuf bs)) [] () :=
  .setX (fun s => (s.setBuf bs).x) (fun _ _ _ => rfl) fun _ => ⟨rfl, rfl⟩

/-- The advance of the cursor (R165). -/
theorem Part.advance (n : Nat) : Part c raw (Machine.update fun s =>
    s.setCursor (s.x.imgPos + BitVec.ofNat 33 n) (s.x.imgRem - BitVec.ofNat 32 n)) [] () :=
  .setX (fun s => (s.setCursor (s.x.imgPos + BitVec.ofNat 33 n) (s.x.imgRem - BitVec.ofNat 32 n)).x)
    (fun _ _ _ => rfl) fun _ => ⟨rfl, rfl⟩

/-- Sending chunks latches no response code (R160). -/
theorem sendChunks_keeps_rawCode (fw : Bool) (chunks : List (List Byte)) :
    Keeps (·.rawCode = raw) (sendChunks fw chunks) := by
  have h := hcStable_rawCode raw
  induction chunks with
  | nil => exact Keeps.pure _
  | cons chunk rest ih =>
    have hsend : Keeps (·.rawCode = raw) (sendAfterBoot chunk) :=
      Keeps.bind (h.rawWrite _) fun _ => Keeps.update fun _ hs => hs
    refine Keeps.bind ?_ fun _ => ih
    rw [sendChunk_eq]
    exact Keeps.bind (Keeps.update fun _ hs => hs) fun _ => Keeps.ite (Keeps.bind h.bootSwitch fun _ => hsend) hsend

/-- The streaming loop sends every chunk, in order (R165). -/
theorem Part.sendChunks {fw : Bool} {chunks : List (List Byte)} {runs : List ChunkRun} (hlen : runs.length = chunks.length)
    (hok : ∀ r ∈ runs, r.ok c fw = true) (hfit : ∀ b ∈ chunks, 1 ≤ b.length ∧ b.length ≤ c.bufCap) :
    Part c raw (sendChunks fw chunks) (chunkEvents c chunks runs) () where
  performs := by
    rintro s e d rfl hb
    obtain ⟨t, hrun, hS⟩ := sendChunks_ok hlen hok hfit hb
    exact ⟨t, _, hrun, hS.goes⟩
  scripted := Scripted.sendChunks fw chunks
  keeps := sendChunks_keeps_rawCode fw chunks
  fits := chunkEvents_fit

/-- A chunk whose boot-mode switch does not verify is not sent (R171). -/
theorem sendChunks_failsWith {chunks : List (List Byte)} {runs : List ChunkRun} {j m w q : Nat} {v u : Word}
    (hlen : runs.length = chunks.length) (hok : ∀ r ∈ runs, r.ok c true = true)
    (hfit : ∀ b ∈ chunks, 1 ≤ b.length ∧ b.length ≤ c.bufCap) (hj : j < chunks.length) (hm : 1 ≤ m) (hw : 1 ≤ w)
    (hq : 1 ≤ q) (hv : appRunning c v = true) (hu : u ≠ c.map.bootMagic) :
    FailsWith c (sendChunks true chunks) raw
      (chunkEvents c (chunks.take j) (runs.take j) ++ bootMismatch c m v w q u) .internalErr raw := by
  have hsent : Part c raw (sendChunks true (chunks.take j)) _ () :=
    .sendChunks (c := c) (chunks := chunks.take j) (runs := runs.take j) (by simp [hlen])
      (fun r hr => hok r (List.mem_of_mem_take hr)) fun b hb => hfit b (List.mem_of_mem_take hb)
  have hbad : FailsWith c (sendChunk true chunks[j]) raw (bootMismatch c m v w q u) .internalErr raw := by
    rw [sendChunk_eq, if_pos rfl]
    exact (Part.setBuf _).skip_fails (bootSwitch_failsWith hm hw hq hv hu).bind
  have hsplit : sendChunks true chunks =
      (do sendChunks true (chunks.take j); sendChunks true (chunks[j] :: chunks.drop (j + 1))) := by
    rw [← sendChunks_append, ← List.drop_eq_getElem_cons hj, List.take_append_drop]
  rw [hsplit]
  exact hsent.first.goes.fails hbad.bind

/-! The chunks of an image. -/

/-- No chunk is empty, and each fits the buffer (R163, R166). -/
theorem chunk_fits {image b : List Byte} {h : ImgHeader} (hcap : (blockBytes h.blkWords).toNat ≤ c.bufCap)
    (hblock : h.blkWords ≠ 0#16 ∨ h.total = 0#32)
    (hb : b ∈ chunksOf (blockBytes h.blkWords).toNat (imageBody h image)) : 1 ≤ b.length ∧ b.length ≤ c.bufCap := by
  refine ⟨?_, (chunksOf_length_le hb).trans hcap⟩
  rcases hblock with hwords | htotal
  · refine chunksOf_length_pos ?_ hb
    have : h.blkWords.toNat ≠ 0 := fun h0 => hwords (BitVec.eq_of_toNat_eq h0)
    rw [blockBytes_toNat]
    omega
  · have hbody : imageBody h image = [] := by simp [imageBody, htotal]
    rw [hbody] at hb
    cases hb

/-! The stages of LOAD_IMAGE. -/

/-- What is left of LOAD_IMAGE once the last chunk is sent (R173, R176). -/
def loadSent (fw : Bool) : M Payload := do
  if fw then concludeLoad
  update (·.setIt .done)
  return Payload.none

/-- Where the header and the length pass their checks, LOAD_IMAGE goes on to stream the chunks (R160 to R165). -/
theorem loadImage_passes {image : List Byte} {h : ImgHeader} (hparse : parseHeader c.img image = h)
    (hlen : 12 ≤ image.length) (hcap : (blockBytes h.blkWords).toNat ≤ c.bufCap)
    (htype : h.type = c.img.fw ∨ h.type = c.img.cfg) (htotal : 12 + h.total.toNat ≤ image.length) :
    Passes c (loadImage image) none [] (do
      sendChunks (h.type == c.img.fw) (chunksOf (blockBytes h.blkWords).toNat (imageBody h image))
      loadSent (h.type == c.img.fw)) none := by
  subst hparse
  have hknown : (!typeKnown c.img (parseHeader c.img image)) = false := by
    rcases htype with h | h <;> simp [typeKnown, h]
  have himage (h : ImgHeader) : Part c none (update (·.setImage h)) [] () :=
    .setX (fun s => (s.setImage h).x) (fun _ _ _ => rfl) fun _ => ⟨rfl, rfl⟩
  have hblk (v : BitVec 17) : Part c none (update (·.setBlkSize v)) [] () :=
    .setX (fun s => (s.setBlkSize v).x) (fun _ _ _ => rfl) fun _ => ⟨rfl, rfl⟩
  have hcursor (p : BitVec 33) (r : BitVec 32) : Part c none (update (·.setCursor p r)) [] () :=
    .setX (fun s => (s.setCursor p r).x) (fun _ _ _ => rfl) fun _ => ⟨rfl, rfl⟩
  exact (Part.setIt _).skip <| Part.clearRaw.skip <|
    (Part.raiseIf (decide_eq_false (by simpa [imgHdrLen] using hlen)) _).skip <| Part.config.skip <| (himage _).skip <|
    (Part.setIt _).skip <| (hblk _).skip <| (Part.raiseIf (decide_eq_false (by simpa using hcap)) _).skip <|
    (Part.raiseIf hknown _).skip <| (Part.raiseIf (decide_eq_false (by simpa [imgHdrLen] using htotal)) _).skip <|
    (hcursor _ _).skip <| (Part.setIt _).skip <| .refl _

/-- The conclusion of a firmware load whose result is success (R173, R174). -/
theorem concludeLoad_passes {r : CmdRun} {n : Nat} (hok : r.ok c = true) (hn : 1 ≤ n) :
    Passes c concludeLoad raw (r.events c c.cmds.loadComplete ++ [read16 c c.map.result n c.resp.success]) (pure ())
      (some c.resp.success) := by
  have hstatus : loadStatus (hostResult c.resp c.resp.success) = .success := congrArg loadStatus (if_pos rfl)
  exact Part.config.skip <| (Part.setIt _).skip <| (Part.runCommand _ hok).then <|
    (readResult_passes _ hn).bind.silent (Part.continueIfSuccess hstatus).passes.goes

/-- A handshake of the conclusion that uses up the reads of a phase (R145, R147). -/
theorem concludeLoad_failsWith {stuck : CmdStuck} (hpos : 1 ≤ c.pollBound) (hok : stuck.ok c = true) :
    FailsWith c concludeLoad raw (stuck.events c c.cmds.loadComplete) .resourceErr raw :=
  Part.config.skip_fails <| (Part.setIt _).skip_fails (runCommand_failsWith _ hpos hok).bind

end

/-! The request. -/

/-- Where a block size of 0 meets no body LOAD_IMAGE is run (R179). -/
theorem exec_loadImage {s : State} {image : List Byte}
    (hblock : (parseHeader s.cfg.img image).blkWords ≠ 0#16 ∨ (parseHeader s.cfg.img image).total = 0#32) :
    exec (.loadImage image) s = runRequest 0x6 true (loadImage image) s := by
  have hzero : ¬ zeroBlockImage s.cfg image = true := by
    rcases hblock with h | h <;> simp [zeroBlockImage, h]
  exact if_neg hzero

/-- Settles O31: the checks, the chunks and the conclusion are passed one after the other, or fail. -/
theorem loadImageAborts : Obligations.LoadImageAborts := by
  intro s image runs r n e d h chunks fw sent evs hlen hcap htype htotal hblock hruns hok hr hn
  have hfit : ∀ b ∈ chunks, 1 ≤ b.length ∧ b.length ≤ s.cfg.bufCap := fun b hb => chunk_fits hcap hblock hb
  have hstream : Passes s.cfg (loadImage image) none [] (do sendChunks fw chunks; loadSent fw) none :=
    loadImage_passes rfl hlen hcap htype htotal
  have hsent : Passes s.cfg (loadImage image) none sent (loadSent fw) none :=
    hstream.trans (Part.sendChunks hruns hok hfit).first
  have abort {part : List Event} {st : Status} (hst : st ≠ .success)
      (hfails : FailsWith s.cfg (loadImage image) none part st none) (hb : s.busCarries part e d) :
      ∃ t, exec (.loadImage image) s = .next t ∧ Aborted s t part e d st none .failed := by
    rw [exec_loadImage hblock]
    exact aborted_of_failsWith hfails hst hb
  refine ⟨fun pre bad hbad => abort (by decide) ?_, fun j m v w q u hfw hj hm hw hq hv hu => abort (by decide) ?_,
    fun stuck hfw hstuck hpos => abort (by decide) ?_⟩
  · cases hfw : fw with
    | false =>
      have hevs : evs = sent := by simp [evs, hfw]
      exact hsent.fails pre bad (hevs ▸ hbad)
    | true =>
      have hevs : evs = sent ++ (r.events s.cfg s.cfg.cmds.loadComplete ++
        [read16 s.cfg s.cfg.map.result n s.cfg.resp.success]) := by simp [evs, hfw]
      rw [hfw] at hsent
      exact (hsent.trans (concludeLoad_passes hr hn).bind).fails pre bad (hevs ▸ hbad)
  · rw [hfw] at hstream hok
    exact hstream.goes.fails (sendChunks_failsWith hruns hok hfit hj hm hw hq hv hu).bind
  · rw [hfw] at hsent
    exact hsent.goes.fails (concludeLoad_failsWith hpos hstuck).bind

end Sys2Proof.Machine
end

section
/-! SUPPORT. The two flash sequences cut at the reads of their results, and how they are aborted (spec/44_flash_ops.md R190 to
R199). -/

namespace Sys2Proof.Machine

/-! The stages: each is what is left of the sequence when the one before it is done. -/

/-- The sequence of a flash request (R190, R195). -/
def FlashOp.program (want : Bool) : FlashOp → M Payload
  | .save => flashSave want
  | .erase => flashErase

/-- From a result that was success on: the image count where FLASH_SAVE was asked for it (R194). -/
def FlashOp.resulted (want : Bool) (op : FlashOp) : M Payload := do
  if op = .save ∧ want then readCount
  update (·.setFl .idle)
  update (·.setIt .done)
  return Payload.none

/-- The status a result of the sequence maps to (R193, R198). -/
def FlashOp.status : FlashOp → HostResult → Status
  | .save => saveStatus
  | .erase => eraseStatus

/-- From the command on (R190, R195). -/
def FlashOp.prepared (c : Config) (want : Bool) (op : FlashOp) : M Payload := do
  update (·.setFl .cmd)
  runCommand (op.word c)
  update (·.setFl .result)
  let v ← readResult
  continueIfSuccess (op.status (hostResult c.resp v))
  op.resulted want

/-- The write that prepares the command (R192, R197). -/
def FlashOp.prepare (c : Config) : FlashOp → M Unit
  | .save => regWrite c.map.chksum (List.replicate c.map.chksumBytes 0#8)
  | .erase => regWrite16 c.map.result c.map.eraseMagic

/-- From the end of flash-init on (R190, R195). -/
def FlashOp.inited (c : Config) (want : Bool) (op : FlashOp) : M Payload := do
  update (·.setFl .prep)
  op.prepare c
  op.prepared c want

/-- From flash-init on (R190, R195). -/
def FlashOp.booted (c : Config) (want : Bool) (op : FlashOp) : M Payload := do
  flashInit
  op.inited c want

theorem flashSave_eq (want : Bool) : flashSave want = (do
    let c ← config
    update (·.setIt .concluding)
    update (·.clearRaw)
    update (·.clearCount)
    update (·.setFl .boot)
    bootSwitch
    FlashOp.save.booted c want) := by
  cases want <;> rfl

theorem flashErase_eq_booted (want : Bool) : flashErase = (do
    let c ← config
    update (·.setIt .concluding)
    update (·.clearRaw)
    update (·.setFl .boot)
    let f ← regRead16 c.map.curFw
    if appRunning c f then do
      bootSwitch
      FlashOp.erase.booted c want
    else FlashOp.erase.booted c want) := flashErase_eq

/-! The parts of the sequences. -/

theorem swap16_replicate (n : Nat) (b : Byte) : swap16 (List.replicate n b) = List.replicate n b := by
  induction n using Nat.twoStepInduction with
  | zero => rfl
  | one => rfl
  | more n ih _ => rw [List.replicate_succ, List.replicate_succ, swap16, ih]

/-- Equal bytes are the same in either byte order (R51). -/
theorem toDev_replicate (c : Config) (n : Nat) (b : Byte) : toDev c (List.replicate n b) = List.replicate n b := by
  by_cases h : c.hostEndian = c.devEndian
  · rw [toDev_of_eq h]
  · rw [toDev_of_ne h, swap16_replicate]

section

variable {c : Config} {raw : Option Word} {op : FlashOp} {want : Bool}

/-- The image count is none before it is read (R190). -/
theorem Part.clearCount : Part c raw (Machine.update (·.clearCount)) [] () :=
  .setX (fun s => s.clearCount.x) (fun _ _ _ => rfl) fun _ => ⟨rfl, rfl⟩

theorem Part.prepare {n : Nat} (hwf : c.wf) (hn : 1 ≤ n) : Part c raw (op.prepare c) [op.prepEvent c n] () := by
  cases op with
  | save =>
    have hsize : sizeOk (List.replicate c.map.chksumBytes 0#8).length = true := by
      obtain ⟨-, -, -, -, hbytes, -⟩ := hwf
      rw [List.length_replicate]
      exact sizeOk_iff.mpr hbytes
    have hpart := Part.regWrite (c := c) (raw := raw) c.map.chksum (countOf_eq_some.mpr ⟨hsize, rfl⟩) hn
    rw [toDev_replicate, List.length_replicate] at hpart
    exact hpart
  | erase => exact Part.regWrite16 _ _ hn

/-- Flash-init with result OK (R190, R191). -/
theorem flashInit_passes {r : InitRun} (hok : r.cmd.ok c = true) (hn : 1 ≤ r.read) :
    Passes c flashInit raw (r.events c c.resp.finitOk) (pure ()) (some c.resp.finitOk) := by
  have hstatus : finitStatus (finitResult c.resp c.resp.finitOk) = .success := congrArg finitStatus (if_pos rfl)
  exact Part.config.skip <| (Part.setFl _).skip <| (Part.runCommand _ hok).then <| (Part.setFl _).skip <|
    (readResult_passes _ hn).bind.silent (Part.continueIfSuccess hstatus).passes.goes

theorem flashInit_failsWith {stuck : CmdStuck} (hpos : 1 ≤ c.pollBound) (hok : stuck.ok c = true) :
    FailsWith c flashInit raw (stuck.events c c.cmds.flashInit) .resourceErr raw :=
  Part.config.skip_fails <| (Part.setFl _).skip_fails (runCommand_failsWith _ hpos hok).bind

/-! The conditions of a run. -/

/-- The conditions of a flash sequence that succeeds, one by one. -/
theorem FlashRun.ok_iff {r : FlashRun} :
    r.ok c op = true ↔ 1 ≤ r.first.1 ∧ (op.switches c r = true → r.boot.ok c = true) ∧ r.init.cmd.ok c = true ∧
      1 ≤ r.init.read ∧ 1 ≤ r.prep ∧ r.cmd.ok c = true ∧ 1 ≤ r.read := by
  cases hs : op.switches c r <;> simp [FlashRun.ok, hs, and_assoc]

/-! The stages follow one another. -/

/-- Up to the boot-mode switch, where there is one (R190, R196). -/
theorem flash_boots {r : FlashRun} (hfirst : 1 ≤ r.first.1) :
    Passes c (op.program want) none (op.firstEvents c r)
      (if op.switches c r then (do bootSwitch; op.booted c want) else op.booted c want) none := by
  cases op with
  | save =>
    show Passes c (flashSave want) none [] _ none
    rw [flashSave_eq]
    exact Part.config.skip <| (Part.setIt _).skip <| Part.clearRaw.skip <| Part.clearCount.skip <| (Part.setFl _).skip <|
      .refl _
  | erase =>
    show Passes c flashErase none _ _ none
    rw [flashErase_eq_booted want]
    exact Part.config.skip <| (Part.setIt _).skip <| Part.clearRaw.skip <| (Part.setFl _).skip <|
      (Part.regRead16 _ _ hfirst).first

/-- Up to flash-init (R190, R195). -/
theorem flash_booted {r : FlashRun} (hok : r.ok c op = true) :
    Passes c (op.program want) none (r.bootEvents c op) (op.booted c want) none := by
  obtain ⟨hfirst, hboot, -⟩ := FlashRun.ok_iff.mp hok
  refine (flash_boots hfirst).trans ?_
  split
  · next hs => exact (Part.bootSwitch (hboot hs)).first
  · exact .refl _

/-- Up to the preparing write (R190, R195). -/
theorem flash_inited {r : FlashRun} (hok : r.ok c op = true) :
    Passes c (op.program want) none (r.initEvents c op c.resp.finitOk) (op.inited c want) (some c.resp.finitOk) := by
  obtain ⟨-, -, hinit, hread, -⟩ := FlashRun.ok_iff.mp hok
  exact (flash_booted hok).trans (flashInit_passes hinit hread).bind

/-- The preparing write (R192, R197). -/
theorem inited_passes {n : Nat} (hwf : c.wf) (hn : 1 ≤ n) :
    Passes c (op.inited c want) raw [op.prepEvent c n] (op.prepared c want) raw :=
  (Part.setFl _).skip (Part.prepare hwf hn).first

/-- The command and the read of its result, which is success (R193, R198). -/
theorem prepared_passes {r : CmdRun} {n : Nat} (hok : r.ok c = true) (hn : 1 ≤ n) :
    Passes c (op.prepared c want) raw (r.events c (op.word c) ++ [read16 c c.map.result n c.resp.success])
      (op.resulted want) (some c.resp.success) := by
  have hhost : hostResult c.resp c.resp.success = .success := if_pos rfl
  have hstatus : op.status (hostResult c.resp c.resp.success) = .success := by rw [hhost]; cases op <;> rfl
  exact (Part.setFl _).skip <| (Part.runCommand _ hok).then <| (Part.setFl _).skip <|
    (readResult_passes _ hn).bind.silent (Part.continueIfSuccess hstatus).first.goes

theorem prepared_failsWith {stuck : CmdStuck} (hpos : 1 ≤ c.pollBound) (hok : stuck.ok c = true) :
    FailsWith c (op.prepared c want) raw (stuck.events c (op.word c)) .resourceErr raw :=
  (Part.setFl _).skip_fails (runCommand_failsWith _ hpos hok).bind

/-- The image count whose read fails (R194). -/
theorem resulted_failsWith {n : Nat} {v : Word} {pre : List Event} {bad : Event}
    (hbad : FailsAfter [read16 c c.map.flashCount n v] pre bad) :
    FailsWith c (FlashOp.save.resulted true) raw (pre ++ [bad]) .internalErr raw := by
  -- what the readback asks for does not depend on the units the record gives it
  have hone : FailsAfter [read16 c c.map.flashCount 1 v] pre bad := by
    obtain ⟨w, k, m, b, x, post, hevs, rfl⟩ := hbad
    cases pre with
    | nil => cases hevs; exact ⟨_, _, 1, _, x, [], rfl, rfl⟩
    | cons _ _ => simp at hevs
  have hread : Passes c readCount raw [read16 c c.map.flashCount 1 v] _ raw :=
    Part.config.skip <| (Part.setFl _).skip (Part.regRead16 _ v le_rfl).first
  exact (hread.fails pre bad hone).bind

end

/-! The request. -/

/-- A flash request runs its sequence (R190, R195). -/
theorem exec_flash {s : State} {i : Instr} {op : FlashOp} (h : op.isInstr i) :
    ∃ code want, exec i s = runRequest code true (op.program want) s ∧
      (i = .flashSave true → op = .save ∧ want = true) := by
  cases op with
  | save =>
    obtain ⟨want, rfl⟩ := h
    exact ⟨0x7, want, rfl, fun hi => ⟨rfl, by cases hi; rfl⟩⟩
  | erase =>
    obtain rfl : i = .flashErase := h
    exact ⟨0x8, false, rfl, nofun⟩

/-- Settles O38: the stages are passed one after the other, or fail with the response code they were entered with. -/
theorem flashAborts : Obligations.FlashAborts := by
  intro s i op r count e d c init result evs hi hcount hwf hok
  have hpos := pollBound_of_wf hwf
  obtain ⟨code, want, hexec, hwant⟩ := exec_flash (s := s) hi
  obtain ⟨hfirst, -, -, -, hprep, hcmd, hread⟩ := FlashRun.ok_iff.mp hok
  have hbooted : Passes c (op.program want) none (r.bootEvents c op) _ none := flash_booted hok
  have hinited : Passes c (op.program want) none init _ _ := flash_inited hok
  have hrest : Passes c (op.inited c want) (some c.resp.finitOk) ([op.prepEvent c r.prep] ++ (r.cmd.events c (op.word c) ++
      [read16 c c.map.result r.read c.resp.success])) _ _ := (inited_passes hwf hprep).trans (prepared_passes hcmd hread)
  have hresult : result = init ++ ([op.prepEvent c r.prep] ++ (r.cmd.events c (op.word c) ++
      [read16 c c.map.result r.read c.resp.success])) := by simp [result, init, FlashRun.events]
  have abort {part : List Event} {st : Status} {raw : Option Word} (hst : st ≠ .success)
      (hfails : FailsWith c (op.program want) none part st raw) (hb : s.busCarries part e d) :
      ∃ t, exec i s = .next t ∧ Aborted s t part e d st raw .failed := by
    rw [hexec]
    exact aborted_of_failsWith hfails hst hb
  refine ⟨fun pre bad hbad => abort (by decide) ?_, fun m v w q u hm hw hq hv hu hsw => abort (by decide) ?_,
    fun stuck hstuck => abort (by decide) ?_, fun stuck hstuck => abort (by decide) ?_⟩
  · rcases hbad.of_append with ⟨hin, hlt⟩ | ⟨pre, rfl, hcounting⟩
    · rw [hresult] at hin
      rcases hin.of_append with ⟨hearly, hlt⟩ | ⟨pre, rfl, hlate⟩
      · rw [if_pos hlt]
        exact hinited.fails pre bad hearly
      · rw [if_neg (by simp), if_pos hlt, List.append_assoc]
        exact hinited.goes.fails (hrest.fails pre bad hlate)
    · rw [if_neg (by simp [hresult]), if_neg (by simp), List.append_assoc, hresult]
      refine (hinited.goes.trans hrest.goes).fails ?_
      cases count with
      | none => exact absurd hcounting not_failsAfter_nil
      | some p =>
        obtain ⟨rfl, rfl⟩ := hwant (hcount.resolve_left nofun)
        exact resulted_failsWith hcounting
  · have hswitches : op.switches c r = true := by
      cases op with
      | save => rfl
      | erase => exact hsw rfl
    have hboots : Passes c (op.program want) none (op.firstEvents c r) _ none := flash_boots hfirst
    rw [if_pos hswitches] at hboots
    exact hboots.goes.fails (bootSwitch_failsWith hm hw hq hv hu).bind
  · exact hbooted.goes.fails (flashInit_failsWith hpos hstuck).bind
  · exact (hinited.goes.trans (inited_passes hwf hprep).goes).fails (prepared_failsWith hpos hstuck)

end Sys2Proof.Machine
end

section
/-! SUPPORT. BOOT_SWITCH as a request: the switch between acceptance and answer, and the raise where it fails
(spec/43_image_transport.md R170 to R172, spec/60_exceptions.md R252, R256 and R257). -/

namespace Sys2Proof.Machine

/-- The boot-mode switch leaves IT_STATE alone (R176). -/
theorem bootSwitchSeq_leavesItAlone : LeavesItAlone bootSwitchSeq :=
  fun _ hP _ => Keeps.bind hP.bootSwitch fun _ => Keeps.pure _

/-- Settles O26: the switch between acceptance and answer. -/
theorem bootSwitchCompletes : Obligations.BootSwitchCompletes := by
  rintro s r _ d hok ⟨e, hbus, h0, rfl⟩
  obtain ⟨u, hrun, hgo, hseq, hx, hop, hcnt, rfl, rfl⟩ := bootSwitch_ok (s := s.accept 0x5) hok hbus
  have himage := Holding.sameImage_of_sameButAccess hx
  obtain ⟨hraw, hvalid, hflash, hcount⟩ := Holding.latches_of_sameButAccess hx
  refine ⟨_, runRequest_ok (bind_ok hrun) h0, ⟨hgo.history, hgo.moves, rfl, rfl, hgo.cfg, hgo.inbox⟩, ?_,
    ⟨himage, rfl, hvalid, hraw, hcount, hflash⟩, hop, hcnt, _, rfl, rfl, hvalid, by simp, rfl, rfl, by simp [hcount]⟩
  rw [State.respond_seq, hseq]
  rfl

/-- Where the switch fails the request is aborted. -/
theorem exec_bootSwitch_aborted {s : State} {evs : List Event} {e : Env} {d : Dev}
    (h : FailsWith s.cfg bootSwitch none evs .internalErr none) (hb : s.busCarries evs e d) :
    ∃ t, exec .bootSwitch s = .next t ∧ Aborted s t evs e d .internalErr none s.seq.it := by
  obtain ⟨e, hbus, h0, rfl⟩ := hb
  obtain ⟨u, hrun, hout, hhist, he, hd, -⟩ := h.bind (f := fun _ => pure Payload.none) (s.accept 0x5) e d rfl rfl hbus
  exact aborted_of_raises bootSwitchSeq_leavesItAlone ⟨u, hrun, hout, hhist, he, hd⟩ h0 (by decide)

/-- Settles O27: the verification that does not match, and any transfer of the switch that fails, raise INTERNAL_ERR. -/
theorem bootSwitchFails : Obligations.BootSwitchFails := by
  intro s e d
  refine ⟨fun n w m v u hn hw hm hv hu hb => ?_, fun r pre bad hok hbad hb => ?_⟩
  · exact exec_bootSwitch_aborted (bootSwitch_failsWith hn hw hm hv hu) hb
  · exact exec_bootSwitch_aborted ((Part.bootSwitch hok).passes.fails pre bad hbad) hb

end Sys2Proof.Machine
end

section
/-! SUPPORT. IT_STATE under the requests and the host command words that do not drive it (spec/43_image_transport.md R176,
spec/60_exceptions.md R257; log entry 16). -/

namespace Sys2Proof.Machine

/-- Where no reset is to come, a job is neither cut by one nor meets one at its terminal transition (R281). -/
theorem Job.Course.not_reset {j : Job} {evs : List Event} {e : Env} {d : Dev} (c : j.Course evs e d)
    (h0 : j.start.env.resetIn = none) :
    ¬ ((∃ u, j.seq.run j.start = .error .cut u) ∨ (stateOf (j.seq.run j.start)).env.resetIn = some 0) := by
  have he : e.resetIn = none := by rw [c.resetIn, Job.resetAfter, h0]; rfl
  have hne : e.resetIn ≠ some 0 := by simp [he]
  rcases c.run_cases with ⟨hz, -⟩ | ⟨-, u, p, -, hrun, -⟩ | ⟨r, hfin, -, hrun, -⟩
  · exact absurd hz hne
  · rw [hrun]
    exact not_or.mpr ⟨fun ⟨v, hv⟩ => by simp at hv, hne⟩
  · rw [hrun, stateOf_withBus]
    exact not_or.mpr ⟨fun ⟨u, hu⟩ => (hfin.withBus e d).ne_cut u hu, hne⟩

/-- The job of an instruction that does not drive IT_STATE leaves it as it is (R176; log entry 16). -/
theorem jobOf_keeps_it {i : Instr} {s : State} {j : Job} (h : jobOf i s = some j) (hi : drivesIt i = false)
    (it : ItState) : Keeps (·.seq.it = it) j.seq := by
  have hst := hcStable_it it
  cases hs : i.space with
  | request =>
    obtain ⟨op, m, rfl, halone⟩ := jobOf_drivesIt hs h
    exact halone hi _ hst fun _ _ ht => ht
  | wire | hostCommand =>
    cases i with
    | selectPage _ | noOp | contPagedWrite _ | directRead _ _ | directWrite _ _ | pagedRead _ _ | pagedWrite _ _
      | reserved _ _ => cases h
    | hdrEncode _ _ _ | regWrite _ _ | regRead _ _ | rawWrite _ | runCmd _ | bootSwitch | loadImage _ | flashSave _
      | flashErase | grammarLoad _ | reqReserved _ => cases hs
    | cmdLoadComplete | cmdFlashInit | cmdSave | cmdErase =>
      cases h; exact Keeps.bind (hst.commandAndResult (fun _ _ ht => ht) _ _) fun _ => Keeps.pure _
    | cmdGramDisable | cmdGramEnable =>
      simp only [jobOf] at h
      split at h
      · cases h; exact Keeps.bind (hst.commandAndWait _) fun _ => Keeps.pure _
      · cases h

/-- A request that does not drive IT_STATE, and a host command word on its own, leave it as it was however they end, where
no reset comes. -/
theorem it_of_exec {i : Instr} {s t : State} (hspace : i.space ≠ .wire) (hi : drivesIt i = false) (h0 : s.noReset)
    (ht : exec i s = .next t) : t.seq.it = s.seq.it := by
  obtain ⟨j, evs, e, d, hj, c, rfl⟩ := course_of_exec hspace ht
  have hstart : j.start.env.resetIn = none := (congrArg Env.resetIn (accepted_of_jobOf hj).env).trans h0
  have hreset := c.not_reset hstart
  have hit : j.start.seq.it = s.seq.it := by
    rcases jobOf_request_or_word hj with ⟨-, op, b, m, rfl⟩ | ⟨-, m, rfl⟩ <;> rfl
  have hends := jobOf_keeps_it hj hi s.seq.it j.start hit
  have waits (u : State) (hu : j.seq.run j.start = .error .hung u) : u.seq.it = s.seq.it := by rw [hu] at hends; exact hends
  have ended (p : Payload) (u : State) (hu : j.seq.run j.start = .ok p u) : u.seq.it = s.seq.it := by
    rw [hu] at hends; exact hends
  have failed (st : Status) (u : State) (hu : j.seq.run j.start = .error (.raised st) u) : u.seq.it = s.seq.it := by
    rw [hu] at hends; exact hends
  cases hs : i.space with
  | wire => exact absurd hs hspace
  | request =>
    obtain ⟨op, m, rfl, -⟩ := jobOf_drivesIt hs hj
    rw [hi]
    exact settle_elim waits (fun h => absurd h hreset) ended failed
  | hostCommand =>
    rcases jobOf_request_or_word hj with ⟨hr, -⟩ | ⟨-, m, rfl⟩
    · exact absurd (hs.symm.trans hr) (by decide)
    · exact settleWord_elim waits (fun h => absurd h hreset) ended failed

/-- The instructions of the responder are its command words (R70 to R76). -/
theorem eq_toInstr_of_space {i : Instr} (h : i.space = .wire) : ∃ cmd : WireCmd, i = cmd.toInstr := by
  cases i with
  | selectPage sel => exact ⟨.selectPage sel, rfl⟩
  | noOp => exact ⟨.noOp, rfl⟩
  | contPagedWrite cnt => exact ⟨.contPagedWrite cnt, rfl⟩
  | directRead off cnt => exact ⟨.directRead off cnt, rfl⟩
  | directWrite off cnt => exact ⟨.directWrite off cnt, rfl⟩
  | pagedRead off cnt => exact ⟨.pagedRead off cnt, rfl⟩
  | pagedWrite off cnt => exact ⟨.pagedWrite off cnt, rfl⟩
  | reserved b0 b1 => exact ⟨.reserved b0 b1, rfl⟩
  | _ => cases h

/-- A command word at the responder changes the responder alone (R111). -/
theorem it_of_exec_wire {i : Instr} {s t : State} (hspace : i.space = .wire) (ht : exec i s = .next t) :
    t.seq.it = s.seq.it := by
  obtain ⟨cmd, rfl⟩ := eq_toInstr_of_space hspace
  rw [exec_toInstr] at ht
  obtain ⟨d, -, rfl⟩ := runWire_next ht
  rfl

/-- Settles O54: no sequence but those of LOAD_IMAGE, FLASH_SAVE and FLASH_ERASE writes IT_STATE, and a raise writes it for
those alone. -/
theorem itStateLeftAlone : Obligations.ItStateLeftAlone := by
  intro s t i hload hsave herase h0 ht
  have hi : drivesIt i = false := by
    cases i with
    | loadImage image => exact absurd rfl (hload image)
    | flashSave want => exact absurd rfl (hsave want)
    | flashErase => exact absurd rfl herase
    | _ => rfl
  by_cases hspace : i.space = .wire
  · exact it_of_exec_wire hspace ht
  · exact it_of_exec hspace hi h0 ht

end Sys2Proof.Machine
end

section
/-! SUPPORT. How LOAD_IMAGE fails before and after its chunks: at the first of its checks, in their order, and on a result of
"loading complete" that is not success (spec/43_image_transport.md R160 to R164, R173, R174 and R179,
spec/60_exceptions.md R260). -/

namespace Sys2Proof.Machine

/-! The checks. -/

/-- The status of the first check of LOAD_IMAGE that fails (R260). -/
def loadCheck (c : Config) (image : List Byte) : Option Status :=
  let h := parseHeader c.img image
  if image.length < 12 then some .invalidArg
  else if c.bufCap < (blockBytes h.blkWords).toNat then some .resourceErr
  else if h.type ≠ c.img.fw ∧ h.type ≠ c.img.cfg then some .invalidArg
  else if image.length < 12 + h.total.toNat then some .invalidArg
  else none

/-- What is left of LOAD_IMAGE once the header is parsed (R163 to R176). -/
def loadParsed (c : Config) (image : List Byte) : M Payload := do
  let h := parseHeader c.img image
  raiseIf (decide (c.bufCap < (blockBytes h.blkWords).toNat)) .resourceErr
  raiseIf (!typeKnown c.img h) .invalidArg
  raiseIf (decide (image.length < imgHdrLen + h.total.toNat)) .invalidArg
  update (·.setCursor (BitVec.ofNat 33 imgHdrLen) h.total)
  update (·.setIt .streaming)
  sendChunks (h.type == c.img.fw) (chunksOf (blockBytes h.blkWords).toNat (imageBody h image))
  loadSent (h.type == c.img.fw)

theorem loadImage_eq (image : List Byte) : loadImage image = (do
    update (·.setIt .idle)
    update (·.clearRaw)
    raiseIf (decide (image.length < imgHdrLen)) .invalidArg
    let c ← config
    update (·.setImage (parseHeader c.img image))
    update (·.setIt .headerParsed)
    update (·.setBlkSize (blockBytes (parseHeader c.img image).blkWords))
    loadParsed c image) := rfl

theorem not_typeKnown {c : ImgCfg} {h : ImgHeader} : (!typeKnown c h) = true ↔ h.type ≠ c.fw ∧ h.type ≠ c.cfg := by
  simp [typeKnown]

section

variable {c : Config} {image : List Byte} {raw : Option Word} {st : Status}

/-- Where the image holds a header LOAD_IMAGE parses it (R161, R162). -/
theorem loadImage_parses (hlen : 12 ≤ image.length) : Passes c (loadImage image) none [] (loadParsed c image) none := by
  have himage : Part c none (update (·.setImage (parseHeader c.img image))) [] () :=
    .setX (fun s => (s.setImage (parseHeader c.img image)).x) (fun _ _ _ => rfl) fun _ => ⟨rfl, rfl⟩
  have hblk : Part c none (update (·.setBlkSize (blockBytes (parseHeader c.img image).blkWords))) [] () :=
    .setX (fun s => (s.setBlkSize (blockBytes (parseHeader c.img image).blkWords)).x) (fun _ _ _ => rfl)
      fun _ => ⟨rfl, rfl⟩
  rw [loadImage_eq]
  exact (Part.setIt _).skip <| Part.clearRaw.skip <|
    (Part.raiseIf (decide_eq_false (Nat.not_lt.mpr hlen)) _).skip <| Part.config.skip <| himage.skip <|
    (Part.setIt _).skip <| hblk.skip <| .refl _

/-- The checks are made in their order, the first that fails raises its status, and no bus primitive comes before it (R161,
R163, R164, R260). -/
theorem loadImage_failsCheck (h : loadCheck c image = some st) : FailsWith c (loadImage image) none [] st none := by
  have test {b : Bool} (hb : b = true) (st : Status) (f : Unit → M Payload) :
      FailsWith c (raiseIf b st >>= f) none [] st none := (raiseIf_failsWith hb st).bind
  have pass {b : Bool} {st st' : Status} {f : Unit → M Payload} (hb : ¬ b = true)
      (hf : FailsWith c (f ()) none [] st none) : FailsWith c (raiseIf b st' >>= f) none [] st none :=
    (Part.raiseIf (Bool.eq_false_of_not_eq_true hb) st').skip_fails hf
  simp only [loadCheck] at h
  split at h
  · next hshort =>
    cases h
    exact (Part.setIt _).skip_fails <| Part.clearRaw.skip_fails <| test (decide_eq_true hshort) _ _
  · next hlen =>
    refine (loadImage_parses (Nat.not_lt.mp hlen)).goes.fails ?_
    split at h
    · next hcap => cases h; exact test (decide_eq_true hcap) _ _
    · next hcap =>
      refine pass (by simpa using hcap) ?_
      split at h
      · next htype => cases h; exact test (not_typeKnown.mpr htype) _ _
      · next htype =>
        refine pass (mt not_typeKnown.mp htype) ?_
        split at h
        · next htotal => cases h; exact test (decide_eq_true htotal) _ _
        · cases h

theorem loadCheck_ne_success (h : loadCheck c image = some st) : st ≠ .success := by
  rintro rfl
  simp only [loadCheck] at h
  split_ifs at h <;> cases h

/-- The refusal of a block size of 0 comes after the checks (R179). -/
theorem loadCheck_of_zeroBlock (h : zeroBlockImage c image = true) : loadCheck c image = none := by
  simp only [zeroBlockImage, imgHdrLen, Bool.and_eq_true, decide_eq_true_eq] at h
  obtain ⟨⟨⟨⟨⟨hlen, hcap⟩, hknown⟩, htotal⟩, -⟩, -⟩ := h
  have htype : ¬ ((parseHeader c.img image).type ≠ c.img.fw ∧ (parseHeader c.img image).type ≠ c.img.cfg) :=
    mt not_typeKnown.mpr (by simp [hknown])
  simp only [loadCheck]
  rw [if_neg (Nat.not_lt.mpr (of_decide_eq_true hlen)), if_neg (Nat.not_lt.mpr hcap), if_neg htype,
    if_neg (Nat.not_lt.mpr (of_decide_eq_true htotal))]

end

/-- Settles O33: the first check that fails raises its status before any bus primitive, and an image that passes them all is
refused for its block size of 0. -/
theorem loadChecksInOrder : Obligations.LoadChecksInOrder := by
  intro s image h
  refine ⟨fun st hst h0 => ?_, fun hlen htype htotal hblk hbody => ?_⟩
  · have hcheck : loadCheck s.cfg image = some st := hst
    have hexec : exec (.loadImage image) s = runRequest 0x6 true (loadImage image) s :=
      if_neg fun hzero => by rw [loadCheck_of_zeroBlock hzero] at hcheck; cases hcheck
    rw [hexec]
    exact aborted_of_failsWith (loadImage_failsCheck hcheck) (loadCheck_ne_success hcheck) ⟨s.env, rfl, h0, rfl⟩
  · have hknown : typeKnown s.cfg.img h = true := by
      rcases htype with ht | ht <;> simp [typeKnown, ht]
    have hzero : zeroBlockImage s.cfg image = true := by
      show (decide (12 ≤ image.length) && decide ((blockBytes h.blkWords).toNat ≤ s.cfg.bufCap) && typeKnown s.cfg.img h &&
        decide (12 + h.total.toNat ≤ image.length) && h.blkWords == 0#16 && h.total != 0#32) = true
      simp [hlen, hknown, htotal, hblk, hbody]
    exact if_pos hzero

/-! The result of "loading complete". -/

/-- A code that is neither success nor "incompatible app" is a command error, whichever it is (R174, R254, R255). -/
theorem loadStatus_hostResult {c : Config} (hwf : c.wf) {v : Word} (hv : v ≠ c.resp.success) :
    loadStatus (hostResult c.resp v) = if v = c.resp.incompatApp then .incompatApp else .commandErr := by
  obtain ⟨-, -, -, -, -, hcodes, -⟩ := hwf
  simp only [List.nodup_cons, List.mem_cons, List.not_mem_nil, or_false, not_or] at hcodes
  obtain ⟨-, ⟨-, -, hbad⟩, ⟨-, hfull⟩, hno, -⟩ := hcodes
  rw [hostResult, if_neg hv]
  by_cases happ : v = c.resp.incompatApp
  · subst happ
    rw [if_neg (Ne.symm hbad), if_neg (Ne.symm hfull), if_neg (Ne.symm hno), if_pos rfl, if_pos rfl]
    rfl
  · rw [if_neg happ, if_neg happ]
    split_ifs <;> rfl

/-- The conclusion of a firmware load whose result is not success (R173, R174). -/
theorem concludeLoad_failsResult {c : Config} {raw : Option Word} {r : CmdRun} {n : Nat} {v : Word} (hok : r.ok c = true)
    (hn : 1 ≤ n) (hv : loadStatus (hostResult c.resp v) ≠ .success) :
    FailsWith c concludeLoad raw (r.events c c.cmds.loadComplete ++ [read16 c c.map.result n v])
      (loadStatus (hostResult c.resp v)) (some v) := by
  have hraise : FailsWith c (continueIfSuccess (loadStatus (hostResult c.resp v))) (some v) [] _ (some v) :=
    raiseIf_failsWith (by simpa using hv) _
  exact Part.config.skip_fails <| (Part.setIt _).skip_fails <| (Part.runCommand _ hok).first.goes.fails <|
    (readResult_passes v hn).bind.goes.fails (evs' := []) hraise

/-- Settles O30: the checks and the chunks are passed, and the conclusion raises what the result maps to. -/
theorem loadResultRaises : Obligations.LoadResultRaises := by
  intro s image runs r n v e d h chunks evs hwf hlen hcap htype htotal hblock hruns hok hr hn hv hb
  have hfit : ∀ b ∈ chunks, 1 ≤ b.length ∧ b.length ≤ s.cfg.bufCap := fun b hb => chunk_fits hcap hblock hb
  have hfw : (h.type == s.cfg.img.fw) = true := by simpa using htype
  have hstream := loadImage_passes (c := s.cfg) (h := h) rfl hlen hcap (.inl htype) htotal
  rw [hfw] at hstream
  have hsent : Passes s.cfg (loadImage image) none (chunkEvents s.cfg chunks runs) (loadSent true) none :=
    hstream.trans (Part.sendChunks hruns hok hfit).first
  have hstatus := loadStatus_hostResult hwf hv
  have hne : loadStatus (hostResult s.cfg.resp v) ≠ .success := by rw [hstatus]; split <;> decide
  rw [exec_loadImage hblock, ← hstatus]
  refine aborted_of_failsWith ?_ hne hb
  rw [show evs = _ from List.append_assoc ..]
  exact hsent.goes.fails (concludeLoad_failsResult hr hn hne).bind

end Sys2Proof.Machine
end

section
/-! SUPPORT. LOAD_IMAGE that completes: the state in which the chunks are sent, the state behind the last of them, and the two
conclusions (spec/43_image_transport.md R160 to R168 and R173 to R177; log entry 38). -/

namespace Sys2Proof.Machine

/-! The image. -/

/-- The image passes the checks of LOAD_IMAGE, and has a block size where it has a body (R161 to R164, R179). -/
structure Loadable (c : Config) (image : List Byte) (h : ImgHeader) : Prop where
  parse : parseHeader c.img image = h
  header : 12 ≤ image.length
  block : (blockBytes h.blkWords).toNat ≤ c.bufCap
  type : h.type = c.img.fw ∨ h.type = c.img.cfg
  body : 12 + h.total.toNat ≤ image.length
  divides : h.blkWords ≠ 0#16 ∨ h.total = 0#32

/-- The chunks that LOAD_IMAGE sends (R165). -/
abbrev ImgHeader.chunks (h : ImgHeader) (image : List Byte) : List (List Byte) :=
  chunksOf (blockBytes h.blkWords).toNat (imageBody h image)

section

variable {c : Config} {image : List Byte} {h : ImgHeader}

/-- The chunks of an image make up its body (R165). -/
theorem Loadable.flatten_chunks (hl : Loadable c image h) : (h.chunks image).flatten = imageBody h image := by
  rcases hl.divides with hwords | htotal
  · have hpos : h.blkWords.toNat ≠ 0 := fun h0 => hwords (BitVec.eq_of_toNat_eq h0)
    exact chunksOf_flatten (by rw [blockBytes_toNat]; omega) _
  · have hbody : imageBody h image = [] := by simp [imageBody, htotal]
    rw [ImgHeader.chunks, hbody]
    rfl

/-- The chunks are together as long as the header says the body is (R85, R164). -/
theorem Loadable.length_chunks (hl : Loadable c image h) : (h.chunks image).flatten.length = h.total.toNat := by
  have := hl.body
  rw [hl.flatten_chunks, imageBody, imgHdrLen, List.length_take, List.length_drop]
  omega

end

/-! The image registers and the cursor. -/

/-- With the image registers of a parsed header, the cursor at `pos` and `rem`, and no response code latched (R19, R20,
R160). -/
def Holding.held (x : Holding) (h : ImgHeader) (pos : BitVec 33) (rem : BitVec 32) : Holding :=
  { x with
    ihMajor := h.major, ihMinor := h.minor, ihType := h.type, ihEndian := h.endian, ihCode := h.code,
    ihBlkWords := h.blkWords, ihTotal := h.total, ihRsvd := h.rsvd, blkSize := blockBytes h.blkWords
    imgPos := pos, imgRem := rem, rawValid := false }

/-- RA and HC write none of these registers, so it is the same whether they are written before or after. -/
theorem Holding.sameButAccess_held {x y : Holding} {h : ImgHeader} {pos : BitVec 33} {rem : BitVec 32}
    (hy : (x.held h pos rem).sameButAccess y) : ∃ z, x.sameButAccess z ∧ y = z.held h pos rem :=
  ⟨{ x with
      addr := y.addr, size := y.size, rw := y.rw, hdr := y.hdr, hdrLen := y.hdrLen, buf := y.buf, bufLen := y.bufLen,
      cmdOp := y.cmdOp, val := y.val, pollCnt := y.pollCnt }, rfl, hy⟩

/-- The state in which LOAD_IMAGE starts to send chunks (R160 to R165). -/
def State.streaming (s : State) (h : ImgHeader) : State :=
  { s with
    x := s.x.held h 12#33 h.total
    seq := { s.seq with it := .streaming }
    moves := s.moves ++ [.it .idle, .it .headerParsed, .it .streaming] }

@[simp] theorem State.streaming_cfg (s : State) (h : ImgHeader) : (s.streaming h).cfg = s.cfg := rfl

/-- Up to the first chunk no bus primitive is made (R176). -/
theorem Goes.streaming (s : State) (h : ImgHeader) :
    Goes s (s.streaming h) [] [.it .idle, .it .headerParsed, .it .streaming] :=
  ⟨rfl, rfl, rfl, (List.append_nil _).symm, rfl, rfl⟩

/-- Behind the header's parse, where the checks are passed the cursor is set and the chunks are sent (R163 to R165). -/
theorem loadParsed_run {c : Config} {image : List Byte} {h : ImgHeader} (hl : Loadable c image h) (s : State) :
    (loadParsed c image).run s = (do
      sendChunks (h.type == c.img.fw) (h.chunks image)
      loadSent (h.type == c.img.fw)).run ((s.setCursor (BitVec.ofNat 33 imgHdrLen) h.total).setIt .streaming) := by
  obtain ⟨rfl, -, hcap, htype, htotal, -⟩ := hl
  have hknown : (!typeKnown c.img (parseHeader c.img image)) = false := by
    rcases htype with ht | ht <;> simp [typeKnown, ht]
  rw [loadParsed, raiseIf_false_bind (decide_eq_false (Nat.not_lt.mpr hcap)), raiseIf_false_bind hknown]
  exact raiseIf_false_bind (decide_eq_false (Nat.not_lt.mpr htotal)) _ _ _

/-- Where the checks are passed LOAD_IMAGE goes on to send the chunks (R160 to R165). -/
theorem loadImage_run {s : State} {image : List Byte} {h : ImgHeader} (hl : Loadable s.cfg image h) :
    (loadImage image).run s = (do
      sendChunks (h.type == s.cfg.img.fw) (h.chunks image)
      loadSent (h.type == s.cfg.img.fw)).run (s.streaming h) := by
  have hshort : decide (image.length < imgHdrLen) = false := decide_eq_false (Nat.not_lt.mpr hl.header)
  rw [loadImage_eq, update_bind, update_bind, raiseIf_false_bind hshort, config_bind, update_bind, update_bind, update_bind]
  refine (loadParsed_run (c := s.cfg) hl _).trans (congrArg _ ?_)
  obtain rfl := hl.parse
  simp [State.streaming, Holding.held, State.setIt, State.clearRaw, State.setImage, State.setBlkSize, State.setCursor,
    imgHdrLen]

/-! The chunks. -/

/-- What the streaming of an image leaves of the sequencing registers (R132, R172). -/
theorem Streamed.seq_eq {s t : State} {fw : Bool} {chunks : List (List Byte)} {runs : List ChunkRun} {e : Env} {d : Dev}
    (h : Streamed s t fw chunks runs e d) :
    t.seq.curOp = s.seq.curOp ∧ (s.seq.unitsIdle → t.seq.unitsIdle) := by
  by_cases hne : chunks = []
  · rw [h.idle hne]
    exact ⟨rfl, id⟩
  · rw [h.seq hne]
    refine ⟨rfl, fun ⟨_, hhc, hbm, hfl, hgl⟩ => ⟨rfl, hhc, ?_, hfl, hgl⟩⟩
    cases fw with
    | true => rfl
    | false => exact hbm

/-- What LOAD_IMAGE leaves behind its last chunk (R165 to R168). -/
structure Sent (s u : State) (h : ImgHeader) (evs : List Event) (runs : List ChunkRun) (e : Env) (d : Dev) : Prop where
  goes : Goes s u evs ([.it .idle, .it .headerParsed, .it .streaming] ++ runs.flatMap ChunkRun.moves)
  curOp : u.seq.curOp = s.seq.curOp
  units : s.seq.unitsIdle → u.seq.unitsIdle
  x : ∃ y, s.x.sameButAccess y ∧ u.x = y.held h (12#33 + BitVec.ofNat 33 h.total.toNat) 0#32
  env : u.env = e
  dev : u.dev = d

/-- The chunks of an image that passes the checks are all sent, and the cursor is past the body (R165 to R168). -/
theorem sendChunks_sent {s : State} {image : List Byte} {h : ImgHeader} {runs : List ChunkRun} {e : Env} {d : Dev}
    {fw : Bool} (hl : Loadable s.cfg image h) (hruns : runs.length = (h.chunks image).length)
    (hok : ∀ r ∈ runs, r.ok s.cfg fw = true) (hb : s.busAnswers (chunkEvents s.cfg (h.chunks image) runs) e d) :
    ∃ u, (sendChunks fw (h.chunks image)).run (s.streaming h) = .ok () u ∧
      Sent s u h (chunkEvents s.cfg (h.chunks image) runs) runs e d := by
  have hfit : ∀ b ∈ h.chunks image, 1 ≤ b.length ∧ b.length ≤ s.cfg.bufCap := fun _ hb => chunk_fits hl.block hl.divides hb
  obtain ⟨u, hrun, hS⟩ := sendChunks_ok (s := s.streaming h) hruns hok hfit hb
  obtain ⟨hop, hunits⟩ := hS.seq_eq
  obtain ⟨y, hy, hx⟩ := hS.x
  obtain ⟨z, hz, rfl⟩ := Holding.sameButAccess_held hy
  refine ⟨u, hrun, (Goes.streaming s h).trans hS.goes, hop, hunits, ⟨z, hz, ?_⟩, hS.env, hS.dev⟩
  rw [hx, hl.length_chunks]
  simp [Holding.held, State.streaming]

/-! The two conclusions. -/

/-- A configuration image is done behind its chunks (R168, R176). -/
theorem loadSent_configuration (u : State) : (loadSent false).run u = .ok Payload.none (u.setIt .done) := rfl

theorem concludeLoad_eq : concludeLoad = (do
    let c ← config
    update (·.setIt .concluding)
    commandAndResult c.cmds.loadComplete fun v => loadStatus (hostResult c.resp v)) := rfl

/-- A firmware image is done behind the handshake and a result that is success (R173, R174, R176). -/
theorem loadSent_firmware {c : Config} {u : State} {r : CmdRun} {n : Nat} {e : Env} {d : Dev} (hc : u.cfg = c)
    (hok : r.ok c = true) (hn : 1 ≤ n)
    (hb : u.busAnswers (r.events c c.cmds.loadComplete ++ [read16 c c.map.result n c.resp.success]) e d) :
    ∃ t y, (loadSent true).run u = .ok Payload.none (t.setIt .done) ∧
      Goes u t (r.events c c.cmds.loadComplete ++ [read16 c c.map.result n c.resp.success])
        ([.it .concluding] ++ (r.moves ++ readMoves)) ∧
      t.seq = { u.seq with ra := .idle, hc := .idle, it := .concluding } ∧ u.x.sameButAccess y ∧
      t.x = { y with rawResp := c.resp.success, rawValid := true } ∧ y.cmdOp = c.cmds.loadComplete ∧
      t.env = e ∧ t.dev = d := by
  subst hc
  have hstatus : loadStatus (hostResult u.cfg.resp u.cfg.resp.success) = .success := congrArg loadStatus (if_pos rfl)
  obtain ⟨t, y, hrun, hgo, hseq, hy, hx, -, hop, he, hd⟩ := commandAndResult_ok (s := u.setIt .concluding)
    (f := fun v => loadStatus (hostResult u.cfg.resp v)) hok hn hstatus hb
  refine ⟨t, y, ?_, (Goes.setIt u .concluding).trans hgo, hseq, hy, hx, hop, he, hd⟩
  have hconclude : concludeLoad.run u = .ok () t := by
    rw [concludeLoad_eq, config_bind, update_bind]
    exact hrun
  rw [loadSent, if_pos rfl, bind_ok hconclude, update_bind, pure_run]

/-- The state of LOAD_IMAGE that ran to its end, once it is answered (R12, R176). -/
def State.loadDone (u : State) : State := { u.setIt .done with env := u.env.tick }.respond .success Payload.none

@[simp] theorem State.loadDone_x (u : State) : u.loadDone.x = { u.x with status := .success } := rfl

theorem Goes.ran_loadDone {s u : State} {op : BitVec 4} {evs : List Event} {mvs : List Move}
    (h : Goes (s.accept op) u evs mvs) : Ran s u.loadDone evs (mvs ++ [.it .done]) u.env.tick u.dev where
  history := h.history
  moves := by
    show u.moves ++ [Move.it .done] = _
    rw [h.moves, List.append_assoc]
    rfl
  env := rfl
  dev := rfl
  outside := ⟨h.cfg, h.inbox⟩

/-- The answer carries the response code that is latched, and no count where none was read (R12, R258). -/
theorem loadDone_answered {u : State} {raw : Option Word} (hvalid : u.x.rawValid = raw.isSome)
    (hresp : ∀ v, raw = some v → u.x.rawResp = v) (hcount : u.x.countValid = false) :
    u.loadDone.answered .success raw [] [] none :=
  ⟨_, rfl, rfl, hvalid, hresp, rfl, rfl, if_neg fun h => by simp [hcount] at h⟩

theorem exec_loadImage_done {s u : State} {image : List Byte} {h : ImgHeader} (hl : Loadable s.cfg image h)
    (hrun : (loadImage image).run (s.accept 0x6) = .ok Payload.none (u.setIt .done)) (h0 : u.env.resetIn ≠ some 0) :
    exec (.loadImage image) s = .next u.loadDone := by
  obtain rfl := hl.parse
  exact (exec_loadImage hl.divides).trans (runRequest_ok hrun h0)

/-! The requests. -/

/-- Without boot-mode switches x[CMDOP] is left alone (R168). -/
theorem sendChunks_keeps_cmdOp (cmd : Word) (chunks : List (List Byte)) :
    Keeps (·.x.cmdOp = cmd) (sendChunks false chunks) := by
  induction chunks with
  | nil => exact Keeps.pure _
  | cons chunk rest ih =>
    refine Keeps.bind ?_ fun _ => ih
    rw [sendChunk_eq]
    exact Keeps.bind (Keeps.update fun _ hs => hs) fun _ => Keeps.bind ((raStable_cmdOp cmd).rawWrite _) fun _ =>
      Keeps.update fun _ hs => hs

/-- The cursor past the body, as a number: it does not wrap (R20). -/
theorem cursor_end_toNat (n : BitVec 32) : (12#33 + BitVec.ofNat 33 n.toNat).toNat = 12 + n.toNat := by
  have := n.isLt
  rw [BitVec.toNat_add, BitVec.toNat_ofNat, BitVec.toNat_ofNat]
  omega

/-- Settles O28: the checks and the chunks are passed, and nothing follows them. -/
theorem loadConfigurationCompletes : Obligations.LoadConfigurationCompletes := by
  rintro s image runs _ d h chunks hlen hcap htype hnot htotal hblock hruns hok ⟨e, hbus, h0, rfl⟩
  have hl : Loadable s.cfg image h := ⟨rfl, hlen, hcap, .inr htype, htotal, hblock⟩
  have hfw : (h.type == s.cfg.img.fw) = false := by simpa using hnot
  obtain ⟨u, hsend, hgo, hop, hunits, ⟨y, hy, hx⟩, rfl, rfl⟩ := sendChunks_sent (s := s.accept 0x6) hl hruns hok hbus
  have hrun : (loadImage image).run (s.accept 0x6) = .ok Payload.none (u.setIt .done) := by
    rw [loadImage_run (s := s.accept 0x6) hl, State.accept_cfg, hfw, bind_ok hsend, loadSent_configuration]
  have hcmd : u.x.cmdOp = s.x.cmdOp := by
    have hends := sendChunks_keeps_cmdOp s.x.cmdOp (h.chunks image) ((s.accept 0x6).streaming h) rfl
    rw [hsend] at hends
    exact hends
  obtain ⟨hraw, -, hflash, hcount⟩ := Holding.latches_of_sameButAccess hy
  have hanswered : u.loadDone.answered .success none [] [] none :=
    loadDone_answered (by rw [hx]; rfl) nofun (by rw [hx]; exact hcount)
  refine ⟨u.loadDone, exec_loadImage_done hl hrun h0, hgo.ran_loadDone, hl.flatten_chunks, rfl, hop, rfl, hunits, ?_⟩
  rw [State.loadDone_x, hcmd, hx]
  exact ⟨cursor_end_toNat _, rfl, rfl, rfl, rfl, rfl, rfl, rfl, rfl, rfl, rfl, rfl, hflash, rfl, hraw, hanswered⟩

/-- Settles O29: the checks and the chunks are passed, then the conclusion. -/
theorem loadFirmwareCompletes : Obligations.LoadFirmwareCompletes := by
  rintro s image runs r n _ d h chunks evs hlen hcap htype htotal hblock hruns hok hr hn ⟨e, hbus, h0, rfl⟩
  have hl : Loadable s.cfg image h := ⟨rfl, hlen, hcap, .inl htype, htotal, hblock⟩
  have hfw : (h.type == s.cfg.img.fw) = true := by simpa using htype
  have hevs : evs = chunkEvents s.cfg chunks runs ++ (r.events s.cfg s.cfg.cmds.loadComplete ++
    [read16 s.cfg s.cfg.map.result n s.cfg.resp.success]) := List.append_assoc ..
  rw [hevs] at hbus ⊢
  obtain ⟨e1, d1, hfirst⟩ := State.busAnswers_append hbus
  obtain ⟨u, hsend, hgo, hop, hunits, ⟨y, hy, hx⟩, -, -⟩ := sendChunks_sent (s := s.accept 0x6) hl hruns hok hfirst
  obtain ⟨t, z, hconclude, hgo', hseq, hz, hxt, hcmd, rfl, rfl⟩ :=
    loadSent_firmware (c := s.cfg) hgo.cfg hr hn (hgo.rest (s := s.accept 0x6) hbus)
  have hrun : (loadImage image).run (s.accept 0x6) = .ok Payload.none (t.setIt .done) := by
    rw [loadImage_run (s := s.accept 0x6) hl, State.accept_cfg, hfw, bind_ok hsend, hconclude]
  obtain ⟨-, -, htyp, -, -, -, htot, -, hblk, hpos, hrem⟩ := Holding.sameImage_of_sameButAccess hz
  obtain ⟨-, -, hflash, hcount⟩ := Holding.latches_of_sameButAccess hy
  obtain ⟨-, -, hflash', hcount'⟩ := Holding.latches_of_sameButAccess hz
  rw [hx] at htyp htot hblk hpos hrem hflash' hcount'
  have hran := (hgo.trans hgo').ran_loadDone
  have hanswered : t.loadDone.answered .success (some s.cfg.resp.success) [] [] none :=
    loadDone_answered (by rw [hxt]; rfl) (by rw [hxt]; rintro _ ⟨⟩; rfl) (by rw [hxt]; exact hcount'.trans hcount)
  refine ⟨t.loadDone, exec_loadImage_done hl hrun h0, by simpa using hran, rfl, ?_, rfl, ?_, ?_⟩
  · show t.seq.curOp = _
    rw [hseq]
    exact hop
  · intro hidle
    obtain ⟨-, -, hbm, hfl, hgl⟩ := hunits hidle
    show Seq.unitsIdle { t.seq with busy := _, it := _ }
    rw [hseq]
    exact ⟨rfl, rfl, hbm, hfl, hgl⟩
  · rw [State.loadDone_x, hxt]
    exact ⟨by rw [hpos]; exact cursor_end_toNat _, hrem, htyp, htot, hblk, hcmd, hflash'.trans hflash, hanswered⟩

end Sys2Proof.Machine
end

section
/-! SUPPORT. The result mappings of the two flash sequences, and how a result that is not success ends them
(spec/44_flash_ops.md R191, R193, R198 and R200). -/

namespace Sys2Proof.Machine

/-! The mappings, each in its own result space. -/

/-- What is not OK in the flash-init space is "no device" or anything else (R191, R200). -/
theorem finitStatus_finitResult {c : RespCodes} {v : Word} (hv : v ≠ c.finitOk) :
    finitStatus (finitResult c v) = if v = c.finitNoDev then .noFlashPresent else .internalErr := by
  rw [finitResult, if_neg hv]
  split <;> rfl

/-- Which result a code stands for does not depend on the order in which the codes are compared (R88). -/
theorem hostResult_of_wf {c : Config} (hwf : c.wf) :
    hostResult c.resp c.resp.badImage = .badImage ∧ hostResult c.resp c.resp.flashFull = .flashFull ∧
      hostResult c.resp c.resp.noFlash = .noFlash ∧ hostResult c.resp c.resp.incompatApp = .incompatApp := by
  obtain ⟨-, -, -, -, -, hcodes, -⟩ := hwf
  simp only [List.nodup_cons, List.mem_cons, List.not_mem_nil, or_false, not_or] at hcodes
  obtain ⟨⟨hbad, hfull, hno, happ⟩, ⟨hbadFull, hbadNo, hbadApp⟩, ⟨hfullNo, hfullApp⟩, hnoApp, -⟩ := hcodes
  refine ⟨?_, ?_, ?_, ?_⟩
  · rw [hostResult, if_neg (Ne.symm hbad), if_pos rfl]
  · rw [hostResult, if_neg (Ne.symm hfull), if_neg (Ne.symm hbadFull), if_pos rfl]
  · rw [hostResult, if_neg (Ne.symm hno), if_neg (Ne.symm hbadNo), if_neg (Ne.symm hfullNo), if_pos rfl]
  · rw [hostResult, if_neg (Ne.symm happ), if_neg (Ne.symm hbadApp), if_neg (Ne.symm hfullApp), if_neg (Ne.symm hnoApp),
      if_pos rfl]

/-- A result of save: only "flash full" has a status of its own (R193). -/
theorem saveStatus_hostResult {c : Config} (hwf : c.wf) {v : Word} (hv : v ≠ c.resp.success) :
    saveStatus (hostResult c.resp v) = if v = c.resp.flashFull then .flashFull else .commandErr := by
  obtain ⟨-, hfull, -, -⟩ := hostResult_of_wf hwf
  split
  next h => rw [h, hfull]; rfl
  next h =>
    rw [hostResult, if_neg hv, if_neg h]
    split_ifs <;> rfl

/-- A result of erase: only "flash full" has no status of its own (R198). -/
theorem eraseStatus_hostResult {c : Config} (hwf : c.wf) {v : Word} (hv : v ≠ c.resp.success) :
    eraseStatus (hostResult c.resp v) =
      if v = c.resp.badImage then .badImage else if v = c.resp.incompatApp then .incompatApp
      else if v = c.resp.noFlash then .noFlashPresent else .commandErr := by
  obtain ⟨hbad, -, hno, happ⟩ := hostResult_of_wf hwf
  split_ifs with h1 h2 h3
  · rw [h1, hbad]; rfl
  · rw [h2, happ]; rfl
  · rw [h3, hno]; rfl
  · rw [hostResult, if_neg hv, if_neg h1, if_neg h3, if_neg h2]
    split <;> rfl

/-- Only OK continues (R191). -/
theorem finitStatus_ne_success {c : RespCodes} {v : Word} (hv : v ≠ c.finitOk) :
    finitStatus (finitResult c v) ≠ .success := by
  rw [finitStatus_finitResult hv]
  split <;> decide

/-- Only success continues (R193, R198). -/
theorem FlashOp.status_ne_success (op : FlashOp) {c : RespCodes} {v : Word} (hv : v ≠ c.success) :
    op.status (hostResult c v) ≠ .success := by
  have hresult : hostResult c v ≠ .success := by
    rw [hostResult, if_neg hv]
    split_ifs <;> decide
  revert hresult
  cases op <;> cases hostResult c v <;> decide

/-! The raise. -/

section

variable {c : Config} {raw : Option Word} {op : FlashOp} {want : Bool}

theorem continueIfSuccess_failsWith {st : Status} (h : st ≠ .success) :
    FailsWith c (continueIfSuccess st) raw [] st raw :=
  raiseIf_failsWith (by simpa using h) _

/-- Flash-init with a result that is not OK, whose code stays latched (R191, R258). -/
theorem flashInit_failsResult {r : InitRun} {v : Word} (hok : r.cmd.ok c = true) (hn : 1 ≤ r.read)
    (hv : finitStatus (finitResult c.resp v) ≠ .success) :
    FailsWith c flashInit raw (r.events c v) (finitStatus (finitResult c.resp v)) (some v) :=
  Part.config.skip_fails <| (Part.setFl _).skip_fails <| (Part.runCommand _ hok).first.goes.fails <|
    (Part.setFl _).skip_fails <| (readResult_passes v hn).bind.goes.fails (continueIfSuccess_failsWith hv)

/-- The command of the sequence with a result that is not success, whose code stays latched (R193, R198, R258). -/
theorem prepared_failsResult {r : CmdRun} {n : Nat} {v : Word} (hok : r.ok c = true) (hn : 1 ≤ n)
    (hv : op.status (hostResult c.resp v) ≠ .success) :
    FailsWith c (op.prepared c want) raw (r.events c (op.word c) ++ [read16 c c.map.result n v])
      (op.status (hostResult c.resp v)) (some v) :=
  (Part.setFl _).skip_fails <| (Part.runCommand _ hok).first.goes.fails <| (Part.setFl _).skip_fails <|
    (readResult_passes v hn).bind.goes.fails (continueIfSuccess_failsWith hv).bind

end

/-- Settles O37: the stages up to the result are passed, and the result raises what it maps to. -/
theorem flashResultRaises : Obligations.FlashResultRaises := by
  intro s i op r v e d c hi hwf hok
  obtain ⟨code, want, hexec, -⟩ := exec_flash (s := s) hi
  obtain ⟨-, -, hinit, hinitRead, hprep, hcmd, hread⟩ := FlashRun.ok_iff.mp hok
  refine ⟨fun hv hb => ?_, fun hv hb => ?_⟩
  · have hbooted : Passes c (op.program want) none (r.bootEvents c op) _ none := flash_booted hok
    have hne := finitStatus_ne_success hv
    rw [hexec, ← finitStatus_finitResult hv]
    exact aborted_of_failsWith (hbooted.goes.fails (flashInit_failsResult hinit hinitRead hne).bind) hne hb
  · have hprepared : ContinuesWith c (op.program want) none (r.initEvents c op c.resp.finitOk ++ [op.prepEvent c r.prep])
        _ _ := (flash_inited hok).goes.trans (inited_passes hwf hprep).goes
    have hne := op.status_ne_success hv
    have hfails := hprepared.fails (prepared_failsResult hcmd hread hne)
    rw [← List.append_assoc] at hfails
    have raises {st : Status} (hst : op.status (hostResult c.resp v) = st) :
        ∃ t, exec i s = .next t ∧ Aborted s t (r.events c op v) e d st (some v) .failed := by
      rw [hexec, ← hst]
      exact aborted_of_failsWith hfails hne hb
    cases op with
    | save => exact raises (saveStatus_hostResult hwf hv)
    | erase => exact raises (eraseStatus_hostResult hwf hv)

end Sys2Proof.Machine
end

section
/-! SUPPORT. Sequences that complete: what stands in the sequencing registers, the response latches and x[CMDOP] on the way,
and the bus primitives and transitions that lead from one stage to the next (spec/10_state.md R13 to R22). -/

namespace Sys2Proof.Machine

/-- On the way of a request that found the holding registers `x`: the sequencing registers are `q`, the response latches
hold `raw` and `count`, x[CMDOP] is `cmd`, and image registers and cursor are as they were. -/
structure Stands (x : Holding) (q : Seq) (raw : Option Word) (count : Option (BitVec 16)) (cmd : Word) (s : State) :
    Prop where
  seq : s.seq = q
  latched : x.latched s.x x.status raw count
  cmdOp : s.x.cmdOp = cmd

/-- Where `P` holds and the environment answers `evs`, `m` makes exactly those primitives and the transitions `mvs`, and
goes on as `m'` where `Q` holds. -/
def Advances {α : Type} (c : Config) (m : M α) (P : State → Prop) (evs : List Event) (mvs : List Move) (m' : M α)
    (Q : State → Prop) : Prop :=
  ∀ s e d, s.cfg = c → P s → s.busAnswers evs e d → ∃ t, m.run s = m'.run t ∧ Goes s t evs mvs ∧ Q t

/-- The registers of RA and HC are none of the image's and none of the response latches (R19, R258). -/
theorem Holding.latched.access {x y z : Holding} {st : Status} {raw : Option Word} {count : Option (BitVec 16)}
    (h : x.latched y st raw count) (hz : y.sameButAccess z) : x.latched z st raw count := by
  rw [hz]
  exact h

section

variable {α β : Type} {c : Config} {P Q R : State → Prop} {evs evs' : List Event} {mvs mvs' : List Move}

/-! One stretch after the other. -/

theorem Advances.refl (m : M α) : Advances c m P [] [] m P := by
  intro s e d _ hP _
  exact ⟨s, rfl, Goes.refl s, hP⟩

theorem Advances.trans {m m' m'' : M α} (h : Advances c m P evs mvs m' Q) (h' : Advances c m' Q evs' mvs' m'' R) :
    Advances c m P (evs ++ evs') (mvs ++ mvs') m'' R := by
  intro s e d hc hP hb
  obtain ⟨e1, d1, hfirst⟩ := State.busAnswers_append hb
  obtain ⟨t, hrun, hgo, hQ⟩ := h s e1 d1 hc hP hfirst
  obtain ⟨u, hrun', hgo', hR⟩ := h' t e d (hgo.cfg.trans hc) hQ (hgo.rest hb)
  exact ⟨u, hrun.trans hrun', hgo.trans hgo', hR⟩

/-- A first part that runs to its end. -/
theorem Advances.first {m : M α} {f : α → M β} {a : α} (h : Advances c m P evs mvs (pure a) Q) :
    Advances c (m >>= f) P evs mvs (f a) Q := by
  intro s e d hc hP hb
  obtain ⟨t, hrun, hrest⟩ := h s e d hc hP hb
  exact ⟨t, bind_ok hrun, hrest⟩

theorem Advances.then {m : M α} {f : α → M β} {m' : M β} {a : α} (h : Advances c m P evs mvs (pure a) Q)
    (h' : Advances c (f a) Q evs' mvs' m' R) : Advances c (m >>= f) P (evs ++ evs') (mvs ++ mvs') m' R :=
  h.first.trans h'

/-- A first part that makes no bus primitive. -/
theorem Advances.skip {m : M α} {f : α → M β} {m' : M β} {a : α} (h : Advances c m P [] mvs (pure a) Q)
    (h' : Advances c (f a) Q evs mvs' m' R) : Advances c (m >>= f) P evs (mvs ++ mvs') m' R :=
  h.then h'

/-- The same bus primitives and transitions, written otherwise. -/
theorem Advances.of_eq {m m' : M α} (h : Advances c m P evs mvs m' Q) (hevs : evs = evs') (hmvs : mvs = mvs') :
    Advances c m P evs' mvs' m' Q := hevs ▸ hmvs ▸ h

theorem Advances.config : Advances c Machine.config P [] [] (pure c) P := by
  rintro s e d rfl hP _
  exact ⟨s, rfl, Goes.refl s, hP⟩

end

/-! The parts. -/

section

variable {c : Config} {x : Holding} {raw : Option Word} {count : Option (BitVec 16)} {cmd : Word} {b : Bool} {op : BitVec 4}
  {q : Seq} {ra : RaState} {hc : HcState} {bm : BmState} {it : ItState} {fl : FlState} {gl : GlState}

/-- A write of registers that knows nothing of the bus. -/
theorem Advances.update {P Q : State → Prop} {f : State → State} {mvs : List Move} (hgo : ∀ s, Goes s (f s) [] mvs)
    (h : ∀ s, P s → Q (f s)) : Advances c (Machine.update f) P [] mvs (pure ()) Q := by
  intro s e d _ hP _
  exact ⟨f s, rfl, hgo s, h s hP⟩

theorem Advances.setIt (st : ItState) :
    Advances c (Machine.update (·.setIt st)) (Stands x ⟨b, op, ra, hc, bm, it, fl, gl⟩ raw count cmd) [] [.it st]
      (pure ()) (Stands x ⟨b, op, ra, hc, bm, st, fl, gl⟩ raw count cmd) :=
  .update (fun s => Goes.setIt s st) fun _ h => ⟨by rw [State.setIt_seq, h.seq], h.latched, h.cmdOp⟩

theorem Advances.setFl (st : FlState) :
    Advances c (Machine.update (·.setFl st)) (Stands x ⟨b, op, ra, hc, bm, it, fl, gl⟩ raw count cmd) [] [.fl st]
      (pure ()) (Stands x ⟨b, op, ra, hc, bm, it, st, gl⟩ raw count cmd) :=
  .update (fun s => Goes.setFl s st) fun _ h => ⟨by rw [State.setFl_seq, h.seq], h.latched, h.cmdOp⟩

/-- The latch is cleared where it holds nothing (R160, R190, R195). -/
theorem Advances.clearRaw : Advances c (Machine.update (·.clearRaw)) (Stands x q none count cmd) [] [] (pure ())
    (Stands x q none count cmd) := by
  refine .update (fun s => Goes.setX s _) fun s ⟨hseq, ⟨himage, hst, _, hrest⟩, hcmd⟩ => ?_
  exact ⟨hseq, ⟨himage, hst, rfl, hrest⟩, hcmd⟩

/-- The image count is cleared where none is held (R190). -/
theorem Advances.clearCount : Advances c (Machine.update (·.clearCount)) (Stands x q raw none cmd) [] [] (pure ())
    (Stands x q raw none cmd) := by
  refine .update (fun s => Goes.setX s _) fun s ⟨hseq, ⟨himage, hst, hvalid, hresp, _, hflash⟩, hcmd⟩ => ?_
  exact ⟨hseq, ⟨himage, hst, hvalid, hresp, rfl, hflash⟩, hcmd⟩

/-- The image count is latched (R194). -/
theorem Advances.setCount (v : BitVec 16) : Advances c (Machine.update (·.setCount v)) (Stands x q raw count cmd) [] []
    (pure ()) (Stands x q raw (some v) cmd) := by
  refine .update (fun s => Goes.setX s _) fun s ⟨hseq, ⟨himage, hst, hvalid, hresp, _, _⟩, hcmd⟩ => ?_
  exact ⟨hseq, ⟨himage, hst, hvalid, hresp, rfl, rfl⟩, hcmd⟩

/-- A result that maps to SUCCESS (R174, R191, R193, R198). -/
theorem Advances.continueIfSuccess {P : State → Prop} {st : Status} (h : st = .success) :
    Advances c (continueIfSuccess st) P [] [] (pure ()) P := by
  intro s e d _ hP _
  exact ⟨s, raiseIf_false (decide_eq_false (by simpa using h)) st s, Goes.refl s, hP⟩

theorem Advances.regRead16 {n : Nat} (a : Addr) (v : Word) (hn : 1 ≤ n) :
    Advances c (regRead16 a) (Stands x ⟨b, op, ra, hc, bm, it, fl, gl⟩ raw count cmd) [read16 c a n v] readMoves (pure v)
      (Stands x ⟨b, op, .idle, hc, bm, it, fl, gl⟩ raw count cmd) := by
  rintro s e d rfl ⟨hq, hl, rfl⟩ hb
  obtain ⟨t, hrun, hgo, hseq, hx, -, hcmd, -⟩ := regRead16_goes hn hb
  exact ⟨t, hrun, hgo, by rw [hseq, hq], hl.access hx, hcmd⟩

theorem Advances.regWrite {data : List Byte} {cnt : BitVec 7} {n : Nat} (a : Addr) (hcnt : countOf data.length = some cnt)
    (hn : 1 ≤ n) :
    Advances c (regWrite a data) (Stands x ⟨b, op, ra, hc, bm, it, fl, gl⟩ raw count cmd)
      [.xfer (header c.wire a .write cnt ++ toDev c data) 0 n []] writeMoves (pure ())
      (Stands x ⟨b, op, .idle, hc, bm, it, fl, gl⟩ raw count cmd) := by
  rintro s e d rfl ⟨hq, hl, rfl⟩ hb
  obtain ⟨t, hrun, hgo, hseq, hx, -, hcmd, -⟩ := regWrite_goes hcnt hn hb
  exact ⟨t, hrun, hgo, by rw [hseq, hq], hl.access hx, hcmd⟩

theorem Advances.regWrite16 {n : Nat} (a : Addr) (v : Word) (hn : 1 ≤ n) :
    Advances c (regWrite16 a v) (Stands x ⟨b, op, ra, hc, bm, it, fl, gl⟩ raw count cmd) [write16 c a n v] writeMoves
      (pure ()) (Stands x ⟨b, op, .idle, hc, bm, it, fl, gl⟩ raw count cmd) := by
  rintro s e d rfl ⟨hq, hl, rfl⟩ hb
  obtain ⟨t, hrun, hgo, hseq, hx, -, hcmd, -⟩ := regWrite16_goes hn hb
  exact ⟨t, hrun, hgo, by rw [hseq, hq], hl.access hx, hcmd⟩

/-- A handshake (R141). -/
theorem Advances.runCommand {r : CmdRun} (w : Word) (hok : r.ok c = true) :
    Advances c (runCommand w) (Stands x ⟨b, op, ra, hc, bm, it, fl, gl⟩ raw count cmd) (r.events c w) r.moves (pure ())
      (Stands x ⟨b, op, .idle, .idle, bm, it, fl, gl⟩ raw count w) := by
  rintro s e d rfl ⟨hq, hl, -⟩ hb
  obtain ⟨t, hrun, hC⟩ := runCommand_ok hok hb
  exact ⟨t, hrun, hC.goes, by rw [hC.seq, hq], hl.access hC.x, hC.cmdOp⟩

/-- The code is latched once it was read (R258). -/
theorem Advances.readResult {n : Nat} (v : Word) (hn : 1 ≤ n) :
    Advances c readResult (Stands x ⟨b, op, ra, hc, bm, it, fl, gl⟩ raw count cmd) [read16 c c.map.result n v] readMoves
      (pure v) (Stands x ⟨b, op, .idle, hc, bm, it, fl, gl⟩ (some v) count cmd) := by
  rintro s e d rfl ⟨hq, hl, rfl⟩ hb
  obtain ⟨t, hrun, hgo, hseq, ⟨y, hy, hx, -, hcmd, -⟩, -⟩ := readResult_ok hn hb
  obtain ⟨himage, hst, -, -, hcount⟩ := hl.access hy
  refine ⟨t, hrun, hgo, by rw [hseq, hq], ?_, by rw [hx]; exact hcmd⟩
  rw [hx]
  exact ⟨himage, hst, rfl, rfl, hcount⟩

/-- The boot-mode switch (R170). -/
theorem Advances.bootSwitch {r : BootRun} (hok : r.ok c = true) :
    Advances c bootSwitch (Stands x ⟨b, op, ra, hc, bm, it, fl, gl⟩ raw count cmd) (r.events c) r.moves (pure ())
      (Stands x ⟨b, op, .idle, hc, .idle, it, fl, gl⟩ raw count cmd) := by
  rintro s e d rfl ⟨hq, hl, rfl⟩ hb
  obtain ⟨t, hrun, hgo, hseq, hx, hcmd, -⟩ := bootSwitch_ok hok hb
  exact ⟨t, hrun, hgo, by rw [hseq, hq], hl.access hx, hcmd⟩

end

/-! The request. -/

/-- A request whose sequence runs to its end is answered SUCCESS, with what the latches hold (R12, R29, R258). -/
theorem runRequest_completes {op op' : BitVec 4} {drivesIt : Bool} {m : M Payload} {s : State} {evs : List Event}
    {mvs : List Move} {ra : RaState} {hc : HcState} {bm : BmState} {it : ItState} {fl : FlState} {gl : GlState}
    {raw : Option Word} {count : Option (BitVec 16)} {cmd : Word} {e : Env} {d : Dev}
    (h : Advances s.cfg m
      (Stands s.x ⟨true, op, s.seq.ra, s.seq.hc, s.seq.bm, s.seq.it, s.seq.fl, s.seq.gl⟩ none none s.x.cmdOp) evs mvs
      (pure Payload.none) (Stands s.x ⟨true, op', ra, hc, bm, it, fl, gl⟩ raw count cmd)) (hb : s.busCarries evs e d) :
    ∃ t, runRequest op drivesIt m s = .next t ∧ Ran s t evs mvs e d ∧ t.seq = ⟨false, op', ra, hc, bm, it, fl, gl⟩ ∧
      s.x.latched t.x .success raw count ∧ t.x.cmdOp = cmd ∧ t.answered .success raw [] [] count := by
  obtain ⟨e, hbus, h0, rfl⟩ := hb
  have himage : s.x.sameImage (s.accept op).x := ⟨rfl, rfl, rfl, rfl, rfl, rfl, rfl, rfl, rfl, rfl, rfl⟩
  obtain ⟨u, hrun, hgo, hseq, ⟨himage, -, hvalid, hresp, hcountValid, hcount⟩, rfl⟩ :=
    h (s.accept op) e d rfl ⟨rfl, ⟨himage, rfl, rfl, rfl, rfl, rfl⟩, rfl⟩ hbus
  obtain ⟨rfl, rfl⟩ : u.env = e ∧ u.dev = d := by
    have hend := hgo.bus.symm.trans hbus
    simpa using hend
  refine ⟨_, runRequest_ok hrun h0, ⟨hgo.history, hgo.moves, rfl, rfl, hgo.cfg, hgo.inbox⟩,
    by rw [State.respond_seq, hseq], ⟨himage, rfl, hvalid, hresp, hcountValid, hcount⟩, rfl, _, rfl, rfl, hvalid,
    fun v hv => ?_, rfl, rfl, ?_⟩
  · subst hv
    exact hresp
  · show (if Status.success = Status.success ∧ u.x.countValid = true then some u.x.flashCnt else none) = count
    rw [hcountValid, hcount]
    cases count <;> rfl

end Sys2Proof.Machine
end

section
/-! SUPPORT. The two flash sequences that complete, stage by stage (spec/44_flash_ops.md R190 to R199). -/

namespace Sys2Proof.Machine

/-! The transitions that go with a run. -/

/-- Up to the boot-mode switch: FLASH_ERASE reads the running-app bit first (R190, R196). -/
def FlashOp.firstMoves : FlashOp → List Move
  | .save => [.it .concluding, .fl .boot]
  | .erase => [.it .concluding, .fl .boot] ++ readMoves

/-- Up to flash-init (R190, R195). -/
def FlashRun.bootMoves (c : Config) (op : FlashOp) (r : FlashRun) : List Move :=
  op.firstMoves ++ if op.switches c r then r.boot.moves else []

/-- Up to the read of the sequence's result (R190, R195). -/
def FlashRun.moves (c : Config) (op : FlashOp) (r : FlashRun) : List Move :=
  r.bootMoves c op ++ r.init.moves ++ [.fl .prep] ++ writeMoves ++ [.fl .cmd] ++ r.cmd.moves ++ [.fl .result] ++ readMoves

/-! The stages. -/

section

variable {c : Config} {x : Holding} {raw : Option Word} {count : Option (BitVec 16)} {cmd : Word} {op : FlashOp}
  {want b : Bool} {code : BitVec 4} {ra : RaState} {hc : HcState} {bm : BmState} {it : ItState} {fl : FlState} {gl : GlState}

/-- The boot-mode switch where it is invoked, and nothing where it is not (R196). -/
theorem Advances.bootSwitch_if {α : Type} {p : Bool} {m : M α} {r : BootRun} (hok : p = true → r.ok c = true) :
    Advances c (if p then (do Machine.bootSwitch; m) else m) (Stands x ⟨b, code, .idle, hc, bm, it, fl, gl⟩ raw count cmd)
      (if p then r.events c else []) (if p then r.moves else []) m
      (Stands x ⟨b, code, .idle, hc, if p then .idle else bm, it, fl, gl⟩ raw count cmd) := by
  cases p with
  | true =>
    show Advances c (do Machine.bootSwitch; m) _ (r.events c) r.moves _ _
    exact (Advances.bootSwitch (hok rfl)).first
  | false => exact .refl m

/-- Up to flash-init, with RA idle whether the boot-mode switch was made or not (R190, R195, R196). -/
theorem flash_booted_advances {r : FlashRun} (hok : r.ok c op = true) :
    Advances c (op.program want) (Stands x ⟨b, code, ra, hc, bm, it, fl, gl⟩ none none cmd) (r.bootEvents c op)
      (r.bootMoves c op) (op.booted c want)
      (Stands x ⟨b, code, .idle, hc, if op.switches c r then .idle else bm, .concluding, .boot, gl⟩ none none cmd) := by
  obtain ⟨hfirst, hboot, -⟩ := FlashRun.ok_iff.mp hok
  cases op with
  | save =>
    show Advances c (flashSave want) _ (r.boot.events c) _ _ _
    rw [flashSave_eq]
    exact Advances.config.skip <| (Advances.setIt _).skip <| Advances.clearRaw.skip <| Advances.clearCount.skip <|
      (Advances.setFl _).skip (Advances.bootSwitch (hboot rfl)).first
  | erase =>
    show Advances c flashErase _ _ _ _ _
    rw [flashErase_eq_booted want]
    exact Advances.config.skip <| (Advances.setIt _).skip <| Advances.clearRaw.skip <| (Advances.setFl _).skip <|
      (Advances.regRead16 _ _ hfirst).then (Advances.bootSwitch_if hboot)

/-- Flash-init with result OK (R190, R191). -/
theorem Advances.flashInit {r : InitRun} (hok : r.cmd.ok c = true) (hn : 1 ≤ r.read) :
    Advances c flashInit (Stands x ⟨b, code, ra, hc, bm, it, fl, gl⟩ raw count cmd) (r.events c c.resp.finitOk) r.moves
      (pure ())
      (Stands x ⟨b, code, .idle, .idle, bm, it, .initResult, gl⟩ (some c.resp.finitOk) count c.cmds.flashInit) := by
  have hstatus : finitStatus (finitResult c.resp c.resp.finitOk) = .success := congrArg finitStatus (if_pos rfl)
  have hreach : Advances c Machine.flashInit (Stands x ⟨b, code, ra, hc, bm, it, fl, gl⟩ raw count cmd) _ _ (pure ()) _ :=
    Advances.config.skip <| (Advances.setFl _).skip <| (Advances.runCommand _ hok).then <| (Advances.setFl _).skip <|
    (Advances.readResult _ hn).then (Advances.continueIfSuccess hstatus)
  exact hreach.of_eq (by simp [InitRun.events]) (by simp [InitRun.moves])

/-- The preparing write: of zeros to the checksum register, or of the erase-confirm value (R192, R197). -/
theorem Advances.prepare {n : Nat} (hwf : op = .save → c.wf) (hn : 1 ≤ n) :
    Advances c (op.prepare c) (Stands x ⟨b, code, ra, hc, bm, it, fl, gl⟩ raw count cmd) [op.prepEvent c n] writeMoves
      (pure ()) (Stands x ⟨b, code, .idle, hc, bm, it, fl, gl⟩ raw count cmd) := by
  cases op with
  | save =>
    obtain ⟨-, -, -, -, hbytes, -⟩ := hwf rfl
    have hcount : countOf (List.replicate c.map.chksumBytes 0#8).length =
        some (BitVec.ofNat 7 (c.map.chksumBytes / 2 - 1)) := by
      rw [List.length_replicate]
      exact countOf_eq_some.mpr ⟨sizeOk_iff.mpr hbytes, rfl⟩
    rw [FlashOp.prepEvent, ← toDev_replicate c]
    exact Advances.regWrite _ hcount hn
  | erase => exact Advances.regWrite16 _ _ hn

/-- From flash-init to a result that is success (R190, R195). -/
theorem booted_advances {r : FlashRun} (hwf : op = .save → c.wf) (hok : r.ok c op = true) :
    Advances c (op.booted c want) (Stands x ⟨b, code, ra, hc, bm, it, fl, gl⟩ raw count cmd)
      (r.init.events c c.resp.finitOk ++ [op.prepEvent c r.prep] ++ r.cmd.events c (op.word c) ++
        [read16 c c.map.result r.read c.resp.success])
      (r.init.moves ++ [.fl .prep] ++ writeMoves ++ [.fl .cmd] ++ r.cmd.moves ++ [.fl .result] ++ readMoves)
      (op.resulted want)
      (Stands x ⟨b, code, .idle, .idle, bm, it, .result, gl⟩ (some c.resp.success) count (op.word c)) := by
  obtain ⟨-, -, hinit, hinitRead, hprep, hcmd, hread⟩ := FlashRun.ok_iff.mp hok
  have hhost : hostResult c.resp c.resp.success = .success := if_pos rfl
  have hstatus : op.status (hostResult c.resp c.resp.success) = .success := by rw [hhost]; cases op <;> rfl
  have hreach : Advances c (op.booted c want) (Stands x ⟨b, code, ra, hc, bm, it, fl, gl⟩ raw count cmd) _ _
      (op.resulted want) _ :=
    (Advances.flashInit hinit hinitRead).then <| (Advances.setFl _).skip <| (Advances.prepare hwf hprep).then <|
    (Advances.setFl _).skip <| (Advances.runCommand _ hcmd).then <| (Advances.setFl _).skip <|
    (Advances.readResult _ hread).then (Advances.continueIfSuccess hstatus).first
  exact hreach.of_eq (by simp) (by simp)

/-- Up to a result that is success (R190, R195). -/
theorem flash_resulted_advances {r : FlashRun} (hwf : op = .save → c.wf) (hok : r.ok c op = true) :
    Advances c (op.program want) (Stands x ⟨b, code, ra, hc, bm, it, fl, gl⟩ none none cmd) (r.events c op c.resp.success)
      (r.moves c op) (op.resulted want)
      (Stands x ⟨b, code, .idle, .idle, if op.switches c r then .idle else bm, .concluding, .result, gl⟩
        (some c.resp.success) none (op.word c)) :=
  ((flash_booted_advances hok).trans (booted_advances hwf hok)).of_eq (by simp [FlashRun.events, FlashRun.initEvents])
    (by simp [FlashRun.moves])

/-- Without the image count nothing is done behind the result (R199). -/
theorem resulted_advances (h : ¬ (op = .save ∧ want = true)) :
    Advances c (op.resulted want) (Stands x ⟨b, code, ra, hc, bm, it, fl, gl⟩ raw count cmd) [] [.fl .idle, .it .done]
      (pure Payload.none) (Stands x ⟨b, code, ra, hc, bm, .done, .idle, gl⟩ raw count cmd) := by
  rw [FlashOp.resulted, if_neg h]
  exact (Advances.setFl _).skip (Advances.setIt _).first

/-- The image count, read and latched behind the result (R194). -/
theorem resulted_advances_count {n : Nat} (v : BitVec 16) (hn : 1 ≤ n) :
    Advances c (FlashOp.save.resulted true) (Stands x ⟨b, code, ra, hc, bm, it, fl, gl⟩ raw count cmd)
      [read16 c c.map.flashCount n v] (.fl .count :: readMoves ++ [.fl .idle, .it .done]) (pure Payload.none)
      (Stands x ⟨b, code, .idle, hc, bm, .done, .idle, gl⟩ raw (some v) cmd) := by
  have hcounted : Advances c readCount (Stands x ⟨b, code, ra, hc, bm, it, fl, gl⟩ raw count cmd) _ _ (pure ()) _ :=
    Advances.config.skip <| (Advances.setFl _).skip <| (Advances.regRead16 _ v hn).then (Advances.setCount v)
  rw [FlashOp.resulted, if_pos ⟨rfl, rfl⟩]
  exact (hcounted.then <| (Advances.setFl _).skip (Advances.setIt _).first).of_eq (by simp) (by simp)

end

/-! The requests. -/

/-- Settles O35: the stages up to the result, then the image count where it was asked for. -/
theorem flashSaveCompletes : Obligations.FlashSaveCompletes := by
  intro s want boot init zeroed save read n v e d c evs hwf hboot hinit hinitRead hzeroed hsave hread hn hb
  let r : FlashRun := { first := (1, 0), boot, init, prep := zeroed, cmd := save, read }
  have hok : r.ok c .save = true := FlashRun.ok_iff.mpr ⟨le_rfl, fun _ => hboot, hinit, hinitRead, hzeroed, hsave, hread⟩
  have hmoves : r.moves c .save = [Move.it .concluding, .fl .boot] ++ boot.moves ++ init.moves ++ [.fl .prep] ++
    writeMoves ++ [.fl .cmd] ++ save.moves ++ [.fl .result] ++ readMoves := rfl
  refine runRequest_completes (op := 0x7) (m := flashSave want) ?_ hb
  cases want with
  | false =>
    exact ((flash_resulted_advances (fun _ => hwf) hok).trans (resulted_advances (by decide))).of_eq rfl
      (by simp [hmoves])
  | true =>
    exact ((flash_resulted_advances (fun _ => hwf) hok).trans (resulted_advances_count v hn)).of_eq rfl
      (by simp [hmoves])

/-- Settles O36: the stages up to the result, and nothing after it. -/
theorem flashEraseCompletes : Obligations.FlashEraseCompletes := by
  intro s n f boot init magic erase read e d c evs hn hboot hinit hinitRead hmagic herase hread hb
  let r : FlashRun := { first := (n, f), boot, init, prep := magic, cmd := erase, read }
  have hok : r.ok c .erase = true := FlashRun.ok_iff.mpr ⟨hn, hboot, hinit, hinitRead, hmagic, herase, hread⟩
  refine runRequest_completes (op := 0x8) (m := flashErase) ?_ hb
  exact ((flash_resulted_advances (want := false) (op := .erase) nofun hok).trans
    (resulted_advances (by decide))).of_eq (List.append_nil _) rfl

end Sys2Proof.Machine
end

section
/-! SUPPORT. GRAMMAR_LOAD that completes, stage by stage, and the blob that is refused at the capacity check
(spec/45_grammar_loader.md R211 to R218; log entries 26 and 42). -/

namespace Sys2Proof.Machine

section

variable {c : Config} {x : Holding} {raw : Option Word} {count : Option (BitVec 16)} {cmd : Word} {b : Bool} {op : BitVec 4}
  {ra : RaState} {hc : HcState} {bm : BmState} {it : ItState} {fl : FlState} {gl : GlState} {n m : Nat}

/-! The parts. -/

theorem Advances.setGl (st : GlState) :
    Advances c (Machine.update (·.setGl st)) (Stands x ⟨b, op, ra, hc, bm, it, fl, gl⟩ raw count cmd) [] [.gl st]
      (pure ()) (Stands x ⟨b, op, ra, hc, bm, it, fl, st⟩ raw count cmd) :=
  .update (fun s => Goes.setGl s st) fun _ h => ⟨by rw [State.setGl_seq, h.seq], h.latched, h.cmdOp⟩

/-- A test that is passed. -/
theorem Advances.raiseIf {P : State → Prop} {p : Bool} (h : p = false) (st : Status) :
    Advances c (raiseIf p st) P [] [] (pure ()) P := by
  intro s e d _ hP _
  exact ⟨s, raiseIf_false h st s, Goes.refl s, hP⟩

/-- A test that raises makes no bus primitive before it does. -/
theorem Fails.raiseIf {p : Bool} (h : p = true) (st : Status) : Fails c (raiseIf p st) [] st := by
  intro s e d _ hb
  cases hb
  exact ⟨s, raiseIf_true h st s, ⟨rfl, rfl⟩, (List.append_nil _).symm, rfl, rfl⟩

theorem Advances.regRead32 (a : Addr) (v : DWord) (hn : 1 ≤ n) :
    Advances c (regRead32 a) (Stands x ⟨b, op, ra, hc, bm, it, fl, gl⟩ raw count cmd) [read32 c a n v] readMoves (pure v)
      (Stands x ⟨b, op, .idle, hc, bm, it, fl, gl⟩ raw count cmd) := by
  rintro s e d rfl ⟨hq, hl, rfl⟩ hb
  obtain ⟨t, hrun, hgo, hseq, hx, -, hcmd, -⟩ := regRead32_goes hn hb
  exact ⟨t, hrun, hgo, by rw [hseq, hq], hl.access hx, hcmd⟩

theorem Advances.regWrite32 (a : Addr) (v : DWord) (hn : 1 ≤ n) :
    Advances c (regWrite32 a v) (Stands x ⟨b, op, ra, hc, bm, it, fl, gl⟩ raw count cmd) [write32 c a n v] writeMoves
      (pure ()) (Stands x ⟨b, op, .idle, hc, bm, it, fl, gl⟩ raw count cmd) := by
  rintro s e d rfl ⟨hq, hl, rfl⟩ hb
  obtain ⟨t, hrun, hgo, hseq, hx, -, hcmd, -⟩ := regWrite32_goes hn hb
  exact ⟨t, hrun, hgo, by rw [hseq, hq], hl.access hx, hcmd⟩

theorem Advances.pollPhase {pass : Word → Bool} {ps : List (Nat × Word)} (a : Addr) (hp : pollPasses pass ps = true)
    (hl : ps.length ≤ c.pollBound) :
    Advances c (pollPhase a pass) (Stands x ⟨b, op, ra, hc, bm, it, fl, gl⟩ raw count cmd) (pollEvents c a ps)
      (pollMoves ps.length) (pure ()) (Stands x ⟨b, op, .idle, hc, bm, it, fl, gl⟩ raw count cmd) := by
  rintro s e d rfl ⟨hq, hlatched, rfl⟩ hb
  obtain ⟨t, hrun, hP⟩ := pollPhase_passes hp hl hb
  exact ⟨t, hrun, hP.goes, by rw [hP.seq, hq], hlatched.access hP.x, hP.cmdOp⟩

/-- The grammar loader's busy wait (R214). -/
theorem Advances.waitNotBusy {ps : List (Nat × Word)} (hp : pollPasses (fun v => v != c.gram.busy) ps = true)
    (hl : ps.length ≤ c.pollBound) :
    Advances c waitNotBusy (Stands x ⟨b, op, ra, hc, bm, it, fl, gl⟩ raw count cmd) (pollEvents c c.gram.status ps)
      (pollMoves ps.length) (pure ()) (Stands x ⟨b, op, .idle, hc, bm, it, fl, gl⟩ raw count cmd) :=
  Advances.config.skip (Advances.pollPhase (pass := notGramBusy c) _ hp hl)

/-! The blocks of a blob. -/

/-- One block through the extended window (R215). -/
theorem Advances.extWrite {block : List Byte} (a : DWord) (hsize : sizeOk block.length = true) (hn : 1 ≤ n) (hm : 1 ≤ m) :
    Advances c (extWrite a block) (Stands x ⟨b, op, ra, hc, bm, it, fl, gl⟩ raw count cmd)
      (blockEvents c a [(block, n, m)]) (writeMoves ++ writeMoves) (pure ())
      (Stands x ⟨b, op, .idle, hc, bm, it, fl, gl⟩ raw count cmd) :=
  Advances.config.skip <| (Advances.regWrite32 _ _ hn).then <|
    Advances.regWrite _ (countOf_eq_some.mpr ⟨hsize, rfl⟩) hm

/-- The blocks in their order, each from the address behind the one before it (R216). -/
theorem Advances.sendBlocks {blocks : List (List Byte)} {units : List (Nat × Nat)} (a : DWord)
    (hsize : ∀ block ∈ blocks, sizeOk block.length = true) (hlen : units.length = blocks.length)
    (hunits : ∀ u ∈ units, 1 ≤ u.1 ∧ 1 ≤ u.2) :
    Advances c (sendBlocks a blocks) (Stands x ⟨b, op, .idle, hc, bm, it, fl, gl⟩ raw count cmd)
      (blockEvents c a (blocks.zip units)) (blockMoves blocks.length) (pure ())
      (Stands x ⟨b, op, .idle, hc, bm, it, fl, gl⟩ raw count cmd) := by
  induction blocks generalizing a units with
  | nil => exact .refl _
  | cons block rest ih =>
    cases units with
    | nil => simp at hlen
    | cons u units =>
      obtain ⟨hsizeBlock, hsizeRest⟩ := List.forall_mem_cons.mp hsize
      obtain ⟨⟨hbase, hsent⟩, hunitsRest⟩ := List.forall_mem_cons.mp hunits
      exact (Advances.extWrite a hsizeBlock hbase hsent).then (ih _ hsizeRest (by simpa using hlen) hunitsRest)

/-! The segment table. -/

/-- An entry written whole and the count raised (R217; log entry 26). -/
theorem Advances.appendSegment {addr size counted : Nat} (cnt : Word) (start len : DWord) (haddr : 1 ≤ addr)
    (hsize : 1 ≤ size) (hcounted : 1 ≤ counted) :
    Advances c (appendSegment cnt start len) (Stands x ⟨b, op, ra, hc, bm, it, fl, gl⟩ raw count cmd)
      [write32 c (segAddrReg c.gram cnt.toNat) addr start, write32 c (segSizeReg c.gram cnt.toNat) size len,
        write16 c c.gram.segCount counted (cnt + 1)]
      (writeMoves ++ (writeMoves ++ writeMoves)) (pure ())
      (Stands x ⟨b, op, .idle, hc, bm, it, fl, gl⟩ raw count cmd) :=
  Advances.config.skip <| (Advances.regWrite32 _ _ haddr).then <| (Advances.regWrite32 _ _ hsize).then <|
    Advances.regWrite16 _ _ hcounted

/-- The segment table update: an entry appended to an empty table, the last entry's size written in place, or an entry
appended behind one that starts elsewhere (R217). -/
theorem Advances.updateTable {table : TableRun} (start len : DWord) (hok : table.ok start = true) :
    Advances c (updateTable start len) (Stands x ⟨b, op, ra, hc, bm, it, fl, gl⟩ raw count cmd)
      (table.events c start len) table.moves (pure ()) (Stands x ⟨b, op, .idle, hc, bm, it, fl, gl⟩ raw count cmd) := by
  cases table with
  | empty read addr size counted =>
    obtain ⟨hread, haddr, hsize, hcounted⟩ := of_decide_eq_true hok
    exact (Advances.config.skip <| (Advances.regRead16 _ 0#16 hread).then <|
      Advances.appendSegment 0#16 start len haddr hsize hcounted).of_eq rfl (by simp [TableRun.moves])
  | inPlace read cnt last size =>
    obtain ⟨hread, hcnt, hlast, hsize⟩ := of_decide_eq_true hok
    refine (Advances.config.skip <| (Advances.regRead16 _ cnt hread).then ?_).of_eq rfl (List.append_assoc ..).symm
    rw [if_neg (show ¬ cnt = 0 from hcnt)]
    refine (Advances.regRead32 _ start hlast).then ?_
    rw [if_pos rfl]
    exact Advances.regWrite32 _ _ hsize
  | append read cnt readLast last addr size counted =>
    obtain ⟨hread, hcnt, hreadLast, hlast, haddr, hsize, hcounted⟩ := of_decide_eq_true hok
    refine (Advances.config.skip <| (Advances.regRead16 _ cnt hread).then (evs' := [_, _, _, _])
      (mvs' := readMoves ++ (writeMoves ++ (writeMoves ++ writeMoves))) ?_).of_eq rfl (by simp [TableRun.moves])
    rw [if_neg (show ¬ cnt = 0 from hcnt)]
    refine (Advances.regRead32 _ last hreadLast).then (evs' := [_, _, _]) ?_
    rw [if_neg hlast]
    exact Advances.appendSegment cnt start len haddr hsize hcounted

/-! The stages. -/

variable {start max : DWord} {blob : List Byte}

/-- The capacity check without its natural subtractions (R213). -/
theorem capacityOk_iff {len : Nat} : capacityOk start max len = true ↔ start.toNat + len + 1 ≤ max.toNat := by
  simp only [capacityOk, Bool.and_eq_true, decide_eq_true_eq]
  omega

/-- Up to CMD_GRAM_DISABLE, for a blob that fits (R211, R213). -/
theorem grammarLoad_advances (hcap : start.toNat + blob.length + 1 ≤ max.toNat) (hn : 1 ≤ n) (hm : 1 ≤ m) :
    Advances c (grammarLoad blob) (Stands x ⟨b, op, ra, hc, bm, it, fl, gl⟩ raw count cmd)
      [read32 c c.gram.segStart n start, read32 c c.gram.segMax m max] (.gl .capacity :: readMoves ++ readMoves)
      (grammarFits c start blob) (Stands x ⟨b, op, .idle, hc, bm, it, fl, .capacity⟩ raw count cmd) := by
  have hfits : (!capacityOk start max blob.length) = false := by rw [capacityOk_iff.mpr hcap, Bool.not_true]
  rw [grammarLoad_eq]
  exact Advances.config.skip <| (Advances.setGl _).skip <| (Advances.regRead32 _ _ hn).then <|
    (Advances.regRead32 _ _ hm).then (Advances.raiseIf hfits _).first

/-- CMD_GRAM_DISABLE and the wait after it (R211, R214). -/
theorem grammarFits_advances {off : CmdRun} {ps : List (Nat × Word)} (hoff : off.ok c = true)
    (hp : pollPasses (fun v => v != c.gram.busy) ps = true) (hl : ps.length ≤ c.pollBound) :
    Advances c (grammarFits c start blob) (Stands x ⟨b, op, ra, hc, bm, it, fl, gl⟩ raw count cmd)
      (off.events c c.cmds.gramDisable ++ pollEvents c c.gram.status ps)
      (.gl .disable :: off.moves ++ .gl .wait1 :: pollMoves ps.length) (grammarWaited c start blob)
      (Stands x ⟨b, op, .idle, .idle, bm, it, fl, .wait1⟩ raw count c.cmds.gramDisable) :=
  (Advances.setGl _).skip <| (Advances.runCommand _ hoff).then <| (Advances.setGl _).skip (Advances.waitNotBusy hp hl).first

/-- The blocks of a blob of even length (R215, R216). -/
theorem grammarWaited_advances {units : List (Nat × Nat)} (hwf : c.wf) (heven : blob.length % 2 = 0)
    (hlen : units.length = (chunksOf c.gram.block blob).length) (hunits : ∀ u ∈ units, 1 ≤ u.1 ∧ 1 ≤ u.2) :
    Advances c (grammarWaited c start blob) (Stands x ⟨b, op, .idle, hc, bm, it, fl, gl⟩ raw count cmd)
      (blockEvents c start ((chunksOf c.gram.block blob).zip units))
      (.gl .stream :: blockMoves (chunksOf c.gram.block blob).length) (grammarStreamed c start blob)
      (Stands x ⟨b, op, .idle, hc, bm, it, fl, .stream⟩ raw count cmd) :=
  (Advances.setGl _).skip
    (Advances.sendBlocks _ (fun _ hblock => sizeOk_of_mem_chunksOf hwf heven hblock) hlen hunits).first

/-- The segment table update (R217). -/
theorem grammarStreamed_advances {table : TableRun} (hok : table.ok start = true) :
    Advances c (grammarStreamed c start blob) (Stands x ⟨b, op, ra, hc, bm, it, fl, gl⟩ raw count cmd)
      (table.events c start (BitVec.ofNat 32 blob.length)) (.gl .table :: table.moves) (grammarTabled c)
      (Stands x ⟨b, op, .idle, hc, bm, it, fl, .table⟩ raw count cmd) :=
  (Advances.setGl _).skip (Advances.updateTable _ _ hok).first

/-- CMD_GRAM_ENABLE, the wait after it and the end of the load (R218). -/
theorem grammarTabled_advances {on : CmdRun} {qs : List (Nat × Word)} (hon : on.ok c = true)
    (hq : pollPasses (fun v => v != c.gram.busy) qs = true) (hl : qs.length ≤ c.pollBound) :
    Advances c (grammarTabled c) (Stands x ⟨b, op, ra, hc, bm, it, fl, gl⟩ raw count cmd)
      (on.events c c.cmds.gramEnable ++ pollEvents c c.gram.status qs)
      (.gl .enable :: on.moves ++ .gl .wait2 :: (pollMoves qs.length ++ [.gl .idle])) (pure Payload.none)
      (Stands x ⟨b, op, .idle, .idle, bm, it, fl, .idle⟩ raw count c.cmds.gramEnable) :=
  ((Advances.setGl _).skip <| (Advances.runCommand _ hon).then <| (Advances.setGl _).skip <|
    (Advances.waitNotBusy hq hl).then (Advances.setGl _).first).of_eq (by simp) rfl

/-- A blob that does not fit is refused after the two reads (R213, R253). -/
theorem grammarLoad_fails (hcap : max.toNat < start.toNat + blob.length + 1) (hn : 1 ≤ n) (hm : 1 ≤ m) :
    Fails c (grammarLoad blob) [read32 c c.gram.segStart n start, read32 c c.gram.segMax m max] .resourceErr := by
  have hover : (!capacityOk start max blob.length) = true := by
    rw [Bool.not_eq_true', ← Bool.not_eq_true, capacityOk_iff]
    omega
  rw [grammarLoad_eq]
  exact .skip .config <| .skip (.setGl _) <| .after (regRead32_performs _ _ hn) <|
    .after (regRead32_performs _ _ hm) (Fails.raiseIf hover _).bind

end

/-! The requests. -/

/-- Every block of a blob holds something (R5, R210). -/
theorem gramBlock_pos_of_wf {c : Config} (hwf : c.wf) : 1 ≤ c.gram.block := by
  obtain ⟨-, -, -, -, -, -, -, -, htwo, -, -⟩ := hwf
  omega

theorem exec_grammarLoad {s : State} {blob : List Byte} (hgram : s.cfg.hasGrammar = true) :
    exec (.grammarLoad blob) s = runRequest 0x9 false (grammarLoad blob) s := by
  show runRequest 0x9 false (if s.cfg.hasGrammar then grammarLoad blob else reservedSeq) s = _
  rw [if_pos hgram]

/-- Settles O39: the stages one after the other, from acceptance to the answer. -/
theorem grammarLoadCompletes : Obligations.GrammarLoadCompletes := by
  intro s blob start max n m off on ps qs units table e d c blocks evs hwf hgram heven hcap hn hm hoff hp hpl hlen hunits
    htable hon hq hql hb
  have hload : Advances c (grammarLoad blob)
      (Stands s.x ⟨true, 0x9, s.seq.ra, s.seq.hc, s.seq.bm, s.seq.it, s.seq.fl, s.seq.gl⟩ none none s.x.cmdOp) _ _
      (pure Payload.none) _ :=
    (grammarLoad_advances hcap hn hm).trans <| (grammarFits_advances hoff hp hpl).trans <|
    (grammarWaited_advances hwf heven hlen hunits).trans <| (grammarStreamed_advances htable).trans
      (grammarTabled_advances hon hq hql)
  obtain ⟨t, hrun, hran, hseq, hlatched, hcmd, hanswered⟩ :=
    runRequest_completes (op := 0x9) (drivesIt := false) (hload.of_eq (evs' := evs) (by simp [evs, blocks]) rfl) hb
  refine ⟨t, (exec_grammarLoad hgram).trans hrun, ?_, chunksOf_flatten (gramBlock_pos_of_wf hwf) blob, hseq, hlatched,
    hcmd, hanswered⟩
  simpa [blocks] using hran

/-- Settles O40: the check after the two reads fails, and a failed request is aborted. -/
theorem grammarCapacityRefused : Obligations.GrammarCapacityRefused := by
  intro s blob start max n m e d evs hgram hn hm hcap hb
  exact exec_grammarLoad_aborted hgram (grammarLoad_fails hcap hn hm) (by decide) hb

end Sys2Proof.Machine
end

section
/-! SUPPORT. Which statuses the block answers: every status that a sequence raises, and every one that a result maps
to, is one of those that are produced (spec/60_exceptions.md R250 to R259). -/

namespace Sys2Proof.Machine

/-- A status that is not among the four that are listed and never produced (R259). -/
abbrev Status.Produced (st : Status) : Prop := st ∉ [Status.notInit, .badHandle, .invalidState, .opIncomplete]

theorem success_produced : Status.success.Produced := by decide

/-! What a result maps to. -/

theorem loadStatus_produced (r : HostResult) : (loadStatus r).Produced := by cases r <;> decide
theorem saveStatus_produced (r : HostResult) : (saveStatus r).Produced := by cases r <;> decide
theorem eraseStatus_produced (r : HostResult) : (eraseStatus r).Produced := by cases r <;> decide
theorem finitStatus_produced (r : FinitResult) : (finitStatus r).Produced := by cases r <;> decide

/-! What a sequence raises. -/

/-- Wherever the sequence starts, a status that it raises is one that is produced. -/
def RaisesProduced {α : Type} (m : M α) : Prop := ∀ s st u, m.run s = .error (.raised st) u → st.Produced

namespace RaisesProduced

theorem pure {α : Type} (a : α) : RaisesProduced (Pure.pure a : M α) := fun _ _ _ h => by cases h

theorem raise {α : Type} {st : Status} (hst : st.Produced) : RaisesProduced (raise st : M α) := fun _ _ _ h => by
  cases h
  exact hst

theorem raiseIf (c : Bool) {st : Status} (hst : st.Produced) : RaisesProduced (raiseIf c st) := by
  cases c
  · exact pure ()
  · exact raise hst

theorem continueIfSuccess {st : Status} (hst : st.Produced) : RaisesProduced (continueIfSuccess st) := raiseIf _ hst

theorem config : RaisesProduced config := fun _ _ _ h => by cases h

theorem get : RaisesProduced (get : M State) := fun _ _ _ h => by cases h

theorem update (f : State → State) : RaisesProduced (update f) := fun _ _ _ h => by cases h

theorem bind {α β : Type} {m : M α} {f : α → M β} (h1 : RaisesProduced m) (h2 : ∀ a, RaisesProduced (f a)) :
    RaisesProduced (m >>= f) := by
  intro s st u h
  cases hm : m.run s with
  | ok a t =>
    rw [bind_ok hm] at h
    exact h2 a t st u h
  | error e t =>
    rw [bind_error hm] at h
    cases h
    exact h1 s st u hm

theorem ite {α : Type} {c : Prop} [Decidable c] {a b : M α} (h1 : RaisesProduced a) (h2 : RaisesProduced b) :
    RaisesProduced (if c then a else b) := by split <;> assumption

/-- A transfer is cut or hangs, but raises nothing itself (R6, R281, R309). -/
theorem busXfer (w : List Byte) (k : Nat) : RaisesProduced (busXfer w k) := by
  intro s st u h
  rcases busXfer_cases w k s with ⟨-, hr⟩ | ⟨-, -, hr⟩ | ⟨n, r, e, d, -, -, hr⟩ <;> cases hr.symm.trans h

theorem delay (ms : Nat) : RaisesProduced (delay ms) := by
  intro s st u h
  rcases delay_cases ms s with ⟨-, hr⟩ | ⟨-, -, hr⟩ | ⟨-, -, hr⟩ <;> cases hr.symm.trans h

/-! FE and RA: INVALID_ARG for a size, INTERNAL_ERR for a transfer (R105, R122, R124, R127). -/

theorem buildHeader (a : Addr) (rw : Dir) (cnt : BitVec 7) : RaisesProduced (buildHeader a rw cnt) :=
  bind config fun _ => update _

theorem hdrEncodeSeq (a : Addr) (rw : Dir) (size : BitVec 16) : RaisesProduced (hdrEncodeSeq a rw size) := by
  unfold Machine.hdrEncodeSeq
  cases countOf size.toNat with
  | none => exact raise (by decide)
  | some cnt => exact bind (buildHeader _ _ _) fun _ => bind get fun _ => pure _

theorem regWrite (a : Addr) (data : List Byte) : RaisesProduced (regWrite a data) := by
  refine bind (update _) fun _ => bind (update _) fun _ => ?_
  cases countOf data.length with
  | none => exact raise (by decide)
  | some cnt =>
    exact bind config fun _ => bind (update _) fun _ => bind (update _) fun _ => bind (update _) fun _ =>
      bind (buildHeader _ _ _) fun _ => bind (update _) fun _ => bind get fun _ => bind (busXfer _ _) fun _ =>
      bind (raiseIf _ (by decide)) fun _ => update _

theorem regRead (a : Addr) (size : Nat) : RaisesProduced (regRead a size) := by
  refine bind (update _) fun _ => bind (update _) fun _ => ?_
  cases countOf size with
  | none => exact raise (by decide)
  | some cnt =>
    exact bind config fun _ => bind (update _) fun _ => bind (buildHeader _ _ _) fun _ => bind (update _) fun _ =>
      bind get fun _ => bind (busXfer _ _) fun _ => bind (raiseIf _ (by decide)) fun _ => bind (update _) fun _ =>
      bind (update _) fun _ => bind get fun _ => bind (update _) fun _ => pure _

theorem rawWrite (data : List Byte) : RaisesProduced (rawWrite data) :=
  bind (update _) fun _ => bind config fun _ => bind (raiseIf _ (by decide)) fun _ => bind (update _) fun _ =>
  bind (update _) fun _ => bind get fun _ => bind (busXfer _ _) fun _ => bind (raiseIf _ (by decide)) fun _ => update _

theorem regWrite16 (a : Addr) (v : Word) : RaisesProduced (regWrite16 a v) := bind config fun _ => regWrite _ _

theorem regRead16 (a : Addr) : RaisesProduced (regRead16 a) :=
  bind config fun _ => bind (regRead _ _) fun _ => bind (update _) fun _ => pure _

theorem regWrite32 (a : Addr) (v : DWord) : RaisesProduced (regWrite32 a v) := bind config fun _ => regWrite _ _

theorem regRead32 (a : Addr) : RaisesProduced (regRead32 a) := bind config fun _ => bind (regRead _ _) fun _ => pure _

/-! HC and the boot-mode controller: RESOURCE_ERR for a used-up phase, INTERNAL_ERR for a switch not verified (R145,
R171). -/

theorem pollRead (a : Addr) : RaisesProduced (pollRead a) := by
  have hread : RaisesProduced (do
      let v ← Machine.regRead16 a
      Machine.update fun t => t.setPollCnt (t.x.pollCnt + 1)
      return v : M Word) :=
    bind (regRead16 _) fun _ => bind (update _) fun _ => pure _
  exact bind get fun _ => ite (bind (delay _) fun _ => hread) hread

theorem pollLoop (a : Addr) (pass : Word → Bool) (left : Nat) : RaisesProduced (pollLoop a pass left) := by
  induction left with
  | zero => exact bind (pollRead _) fun _ => ite (pure _) (raise (by decide))
  | succ n ih => exact bind (pollRead _) fun _ => ite (pure _) ih

theorem pollPhase (a : Addr) (pass : Word → Bool) : RaisesProduced (pollPhase a pass) :=
  bind config fun _ => bind (update _) fun _ => pollLoop _ _ _

theorem runCommand (cmd : Word) : RaisesProduced (runCommand cmd) :=
  bind config fun _ => bind (update _) fun _ => bind (update _) fun _ => bind (pollPhase _ _) fun _ =>
  bind (update _) fun _ => bind (regWrite16 _ _) fun _ => bind (update _) fun _ => bind (regWrite16 _ _) fun _ =>
  bind (update _) fun _ => bind (pollPhase _ _) fun _ => update _

theorem readResult : RaisesProduced readResult :=
  bind config fun _ => bind (regRead16 _) fun _ => bind (update _) fun _ => pure _

theorem bootSwitch : RaisesProduced bootSwitch := by
  refine bind config fun _ => bind (update _) fun _ => bind (regRead16 _) fun _ => ?_
  split
  · exact bind (update _) fun _ => bind (regWrite16 _ _) fun _ => bind (update _) fun _ => bind (delay _) fun _ =>
      bind (update _) fun _ => bind (regRead16 _) fun _ => bind (raiseIf _ (by decide)) fun _ => update _
  · exact update _

/-! LOAD_IMAGE: the header's checks and the result of "loading complete" (R174, R260). -/

theorem sendChunk (fw : Bool) (chunk : List Byte) : RaisesProduced (sendChunk fw chunk) := by
  have hsend : RaisesProduced (sendAfterBoot chunk) := bind (rawWrite _) fun _ => update _
  rw [sendChunk_eq]
  exact bind (update _) fun _ => ite (bind bootSwitch fun _ => hsend) hsend

theorem sendChunks (fw : Bool) (chunks : List (List Byte)) : RaisesProduced (sendChunks fw chunks) := by
  induction chunks with
  | nil => exact pure _
  | cons c t ih => exact bind (sendChunk _ _) fun _ => ih

theorem concludeLoad : RaisesProduced concludeLoad :=
  bind config fun _ => bind (update _) fun _ => bind (runCommand _) fun _ => bind readResult fun _ =>
  continueIfSuccess (loadStatus_produced _)

theorem loadImage (image : List Byte) : RaisesProduced (loadImage image) := by
  refine bind (update _) fun _ => bind (update _) fun _ => bind (raiseIf _ (by decide)) fun _ => bind config fun _ =>
    bind (update _) fun _ => bind (update _) fun _ => bind (update _) fun _ => bind (raiseIf _ (by decide)) fun _ =>
    bind (raiseIf _ (by decide)) fun _ => bind (raiseIf _ (by decide)) fun _ => bind (update _) fun _ =>
    bind (update _) fun _ => bind (sendChunks _ _) fun _ => ?_
  split
  · exact bind concludeLoad fun _ => bind (update _) fun _ => pure _
  · exact bind (update _) fun _ => pure _

/-! The flash sequences: the results of flash-init, save and erase (R191, R193, R198). -/

theorem flashInit : RaisesProduced flashInit :=
  bind config fun _ => bind (update _) fun _ => bind (runCommand _) fun _ => bind (update _) fun _ =>
  bind readResult fun _ => continueIfSuccess (finitStatus_produced _)

theorem readCount : RaisesProduced readCount :=
  bind config fun _ => bind (update _) fun _ => bind (regRead16 _) fun _ => update _

theorem flashSave (wantCount : Bool) : RaisesProduced (flashSave wantCount) := by
  refine bind config fun _ => bind (update _) fun _ => bind (update _) fun _ => bind (update _) fun _ =>
    bind (update _) fun _ => bind bootSwitch fun _ => bind flashInit fun _ => bind (update _) fun _ =>
    bind (regWrite _ _) fun _ => bind (update _) fun _ => bind (runCommand _) fun _ => bind (update _) fun _ =>
    bind readResult fun _ => bind (continueIfSuccess (saveStatus_produced _)) fun _ => ?_
  split
  · exact bind readCount fun _ => bind (update _) fun _ => bind (update _) fun _ => pure _
  · exact bind (update _) fun _ => bind (update _) fun _ => pure _

theorem eraseAfterBoot (c : Config) : RaisesProduced (eraseAfterBoot c) :=
  bind flashInit fun _ => bind (update _) fun _ => bind (regWrite16 _ _) fun _ => bind (update _) fun _ =>
  bind (runCommand _) fun _ => bind (update _) fun _ => bind readResult fun _ =>
  bind (continueIfSuccess (eraseStatus_produced _)) fun _ => bind (update _) fun _ => bind (update _) fun _ => pure _

theorem flashErase : RaisesProduced flashErase := by
  rw [flashErase_eq]
  exact bind config fun _ => bind (update _) fun _ => bind (update _) fun _ => bind (update _) fun _ =>
    bind (regRead16 _) fun _ => ite (bind bootSwitch fun _ => eraseAfterBoot _) (eraseAfterBoot _)

/-! GRAMMAR_LOAD: RESOURCE_ERR for a blob that does not fit (R213). -/

theorem waitNotBusy : RaisesProduced waitNotBusy := bind config fun _ => pollPhase _ _

theorem extWrite (a : DWord) (bytes : List Byte) : RaisesProduced (extWrite a bytes) :=
  bind config fun _ => bind (regWrite32 _ _) fun _ => regWrite _ _

theorem sendBlocks (a : DWord) (blocks : List (List Byte)) : RaisesProduced (sendBlocks a blocks) := by
  induction blocks generalizing a with
  | nil => exact pure _
  | cons b t ih => exact bind (extWrite _ _) fun _ => ih _

theorem appendSegment (cnt : Word) (start len : DWord) : RaisesProduced (appendSegment cnt start len) :=
  bind config fun _ => bind (regWrite32 _ _) fun _ => bind (regWrite32 _ _) fun _ => regWrite16 _ _

theorem updateTable (start len : DWord) : RaisesProduced (updateTable start len) :=
  bind config fun _ => bind (regRead16 _) fun _ => ite (appendSegment _ _ _) <|
  bind (regRead32 _) fun _ => ite (regWrite32 _ _) (appendSegment _ _ _)

theorem grammarLoad (blob : List Byte) : RaisesProduced (grammarLoad blob) :=
  bind config fun _ => bind (update _) fun _ => bind (regRead32 _) fun _ => bind (regRead32 _) fun _ =>
  bind (raiseIf _ (by decide)) fun _ => bind (update _) fun _ => bind (runCommand _) fun _ => bind (update _) fun _ =>
  bind waitNotBusy fun _ => bind (update _) fun _ => bind (sendBlocks _ _) fun _ => bind (update _) fun _ =>
  bind (updateTable _ _) fun _ => bind (update _) fun _ => bind (runCommand _) fun _ => bind (update _) fun _ =>
  bind waitNotBusy fun _ => bind (update _) fun _ => pure _

/-- A reserved operation code, and GRAMMAR_LOAD where the unit is absent: INVALID_ARG (R90). -/
theorem reservedSeq : RaisesProduced reservedSeq := raise (by decide)

/-! The requests. -/

/-- The job of a request. -/
theorem job {i : Instr} {s : State} {j : Job} (hi : i.space = .request) (h : jobOf i s = some j) :
    RaisesProduced j.seq := by
  cases i with
  | selectPage _ | noOp | contPagedWrite _ | directRead _ _ | directWrite _ _ | pagedRead _ _ | pagedWrite _ _
    | reserved _ _ | cmdLoadComplete | cmdFlashInit | cmdSave | cmdErase | cmdGramDisable | cmdGramEnable => cases hi
  | hdrEncode a rw size => cases h; exact hdrEncodeSeq _ _ _
  | regWrite a data => cases h; exact bind (regWrite _ _) fun _ => pure _
  | regRead a size => cases h; exact bind (regRead _ _) fun _ => pure _
  | rawWrite data => cases h; exact bind (rawWrite _) fun _ => pure _
  | runCmd cmd => cases h; exact bind (runCommand _) fun _ => pure _
  | bootSwitch => cases h; exact bind bootSwitch fun _ => pure _
  | loadImage image =>
    simp only [jobOf] at h
    split at h
    · cases h
    · cases h; exact loadImage _
  | flashSave wantCount => cases h; exact flashSave _
  | flashErase => cases h; exact flashErase
  | grammarLoad blob => cases h; exact ite (grammarLoad _) reservedSeq
  | reqReserved op => cases h; exact reservedSeq

end RaisesProduced

/-- An answer, if there is one, has a status that is produced. -/
def State.AnswersProduced (t : State) : Prop := ∀ r, t.rsp = some r → r.status.Produced

/-- Of the four ways a request ends, two answer it: with SUCCESS, and with the status that was raised (R256, R258). -/
theorem settle_answersProduced {m : M Payload} {b : Bool} {s : State} (hrsp : (stateOf (m.run s)).rsp = none)
    (hm : RaisesProduced m) : (settle b (m.run s)).AnswersProduced := by
  refine settle_elim (fun u hu r hr => ?_) (fun _ r hr => ?_) (fun p u _ r hr => ?_) (fun st u hu r hr => ?_)
  · rw [hu] at hrsp
    cases hrsp.symm.trans hr
  · cases hr
  · cases hr
    exact success_produced
  · cases hr
    exact hm s st u hu

/-- Settles O56: no sequence of a request raises one of the four, and their codes are read off the list. -/
theorem statusesProduced : Obligations.StatusesProduced := by
  refine ⟨fun s t i r hi ht hr => ?_, rfl⟩
  obtain ⟨j, evs, e, d, hj, c, rfl⟩ := course_of_exec (by rw [hi]; decide) ht
  have hraises := RaisesProduced.job hi hj
  obtain ⟨op, m, rfl, -⟩ := jobOf_drivesIt hi hj
  exact settle_answersProduced c.run_rsp hraises r hr

end Sys2Proof.Machine
end

section
/-! SUPPORT. The bus activity of RUN_CMD: how many transfers and delays a sequence makes at most, however it ends
(spec/42_host_command.md R145 and R146, spec/70_reset_and_hazards.md R308). -/

namespace Sys2Proof.Machine

/-! Counting a stretch of the record. -/

@[simp] theorem xferCount_append (as bs : List Event) : xferCount (as ++ bs) = xferCount as + xferCount bs :=
  List.countP_append

@[simp] theorem delayCount_append (as bs : List Event) : delayCount (as ++ bs) = delayCount as + delayCount bs :=
  List.countP_append

/-- From `s` to `t` the parameters are as they were, and the record grew by at most `x` transfers and `d` delays. -/
def Spent (x d : Nat) (s t : State) : Prop :=
  t.cfg = s.cfg ∧ ∃ evs, t.history = s.history ++ evs ∧ xferCount evs ≤ x ∧ delayCount evs ≤ d

namespace Spent

variable {x d x' d' : Nat} {s t u : State}

/-- What appends nothing to the record spends nothing. -/
theorem of_same (hcfg : t.cfg = s.cfg) (hhist : t.history = s.history) : Spent x d s t :=
  ⟨hcfg, [], by simp [hhist], Nat.zero_le _, Nat.zero_le _⟩

theorem mono (h : Spent x d s t) (hx : x ≤ x') (hd : d ≤ d') : Spent x' d' s t := by
  obtain ⟨hcfg, evs, hhist, hxfers, hdelays⟩ := h
  exact ⟨hcfg, evs, hhist, hxfers.trans hx, hdelays.trans hd⟩

theorem trans (h : Spent x d s t) (h' : Spent x' d' t u) : Spent (x + x') (d + d') s u := by
  obtain ⟨hcfg, evs, hhist, hxfers, hdelays⟩ := h
  obtain ⟨hcfg', evs', hhist', hxfers', hdelays'⟩ := h'
  refine ⟨hcfg'.trans hcfg, evs ++ evs', by rw [hhist', hhist, List.append_assoc], ?_, ?_⟩
  · rw [xferCount_append]; omega
  · rw [delayCount_append]; omega

/-- Where the first part ends the run, what the second part may spend is left over. -/
theorem bind {α β : Type} {m : M α} {f : α → M β} (h : Spent x d s (stateOf (m.run s)))
    (h' : ∀ a t, t.cfg = s.cfg → Spent x' d' t (stateOf ((f a).run t))) :
    Spent (x + x') (d + d') s (stateOf ((m >>= f).run s)) := by
  cases hm : m.run s with
  | ok a t =>
    rw [hm] at h
    rw [bind_ok hm]
    exact h.trans (h' a t h.1)
  | error e t =>
    rw [hm] at h
    rw [bind_error hm]
    exact h.mono (Nat.le_add_right _ _) (Nat.le_add_right _ _)

end Spent

/-- With the parameters `c`, the sequence makes at most `x` transfers and `d` delays, however it ends. -/
def Spends {α : Type} (c : Config) (x d : Nat) (m : M α) : Prop := ∀ s, s.cfg = c → Spent x d s (stateOf (m.run s))

namespace Spends

variable {α β : Type} {c : Config} {x d x' d' : Nat} {m : M α} {f : α → M β}

theorem mono (h : Spends c x d m) (hx : x ≤ x') (hd : d ≤ d') : Spends c x' d' m := fun s hs => (h s hs).mono hx hd

/-! One part after the other. -/

theorem bind (h : Spends c x d m) (h' : ∀ a, Spends c x' d' (f a)) : Spends c (x + x') (d + d') (m >>= f) :=
  fun s hs => (h s hs).bind fun a t ht => h' a t (ht.trans hs)

/-- A part that spends nothing, then the rest. -/
theorem skip (h : Spends c 0 0 m) (h' : ∀ a, Spends c x d (f a)) : Spends c x d (m >>= f) :=
  (h.bind h').mono (Nat.zero_add x).le (Nat.zero_add d).le

/-- A last part that spends nothing. -/
theorem last (h : Spends c x d m) (h' : ∀ a, Spends c 0 0 (f a)) : Spends c x d (m >>= f) := h.bind h'

theorem ite {p : Prop} [Decidable p] {m' : M α} (h : Spends c x d m) (h' : Spends c x d m') :
    Spends c x d (if p then m else m') := by split <;> assumption

/-- The sequence knows the parameters. -/
theorem bind_config {g : Config → M β} (h : Spends c x d (g c)) : Spends c x d (config >>= g) := by
  rintro s rfl
  exact h s rfl

/-! What spends nothing. -/

theorem pure (a : α) : Spends c x d (pure a) := fun _ _ => .of_same rfl rfl

theorem raise (st : Status) : Spends c x d (raise st : M α) := fun _ _ => .of_same rfl rfl

theorem raiseIf (b : Bool) (st : Status) : Spends c x d (raiseIf b st) := ite (raise st) (pure ())

theorem get : Spends c x d (get : M State) := fun _ _ => .of_same rfl rfl

theorem update {g : State → State} (h : ∀ s, (g s).cfg = s.cfg ∧ (g s).history = s.history) :
    Spends c x d (update g) := fun s _ => .of_same (h s).1 (h s).2

theorem setRa (st : RaState) : Spends c 0 0 (Machine.update (·.setRa st)) := update fun _ => ⟨rfl, rfl⟩

theorem setHc (st : HcState) : Spends c 0 0 (Machine.update (·.setHc st)) := update fun _ => ⟨rfl, rfl⟩

/-! The bus primitives: one that is cut or never returns is not recorded (R24). -/

theorem busXfer (w : List Byte) (k : Nat) : Spends c 1 0 (busXfer w k) := by
  intro s _
  rcases busXfer_cases w k s with ⟨-, hrun⟩ | ⟨-, -, hrun⟩ | ⟨n, r, e, d, -, -, hrun⟩ <;> rw [hrun]
  · exact .of_same rfl rfl
  · exact .of_same rfl rfl
  · exact ⟨rfl, _, rfl, Nat.le_refl _, Nat.le_refl _⟩

theorem delay (ms : Nat) : Spends c 0 1 (delay ms) := by
  intro s _
  rcases delay_cases ms s with ⟨-, hrun⟩ | ⟨-, -, hrun⟩ | ⟨-, -, hrun⟩ <;> rw [hrun]
  · exact .of_same rfl rfl
  · exact .of_same rfl rfl
  · exact ⟨rfl, _, rfl, Nat.le_refl _, Nat.le_refl _⟩

/-! RA: at most one transfer per access (R121, R125). -/

theorem buildHeader (a : Addr) (rw : Dir) (cnt : BitVec 7) : Spends c 0 0 (buildHeader a rw cnt) :=
  bind_config <| update fun _ => ⟨rfl, rfl⟩

theorem regWrite (a : Addr) (data : List Byte) : Spends c 1 0 (regWrite a data) := by
  refine skip (setRa _) fun _ => skip (update fun _ => ⟨rfl, rfl⟩) fun _ => ?_
  cases countOf data.length with
  | none => exact raise _
  | some cnt =>
    exact bind_config <| skip (setRa _) fun _ => skip (update fun _ => ⟨rfl, rfl⟩) fun _ => skip (setRa _) fun _ =>
      skip (buildHeader _ _ _) fun _ => skip (setRa _) fun _ => skip get fun _ => last (busXfer _ _) fun _ =>
      skip (raiseIf _ _) fun _ => setRa _

theorem regRead (a : Addr) (size : Nat) : Spends c 1 0 (regRead a size) := by
  refine skip (setRa _) fun _ => skip (update fun _ => ⟨rfl, rfl⟩) fun _ => ?_
  cases countOf size with
  | none => exact raise _
  | some cnt =>
    exact bind_config <| skip (setRa _) fun _ => skip (buildHeader _ _ _) fun _ => skip (setRa _) fun _ =>
      skip get fun _ => last (busXfer _ _) fun _ => skip (raiseIf _ _) fun _ => skip (update fun _ => ⟨rfl, rfl⟩) fun _ =>
      skip (setRa _) fun _ => skip get fun _ => skip (setRa _) fun _ => pure _

theorem regWrite16 (a : Addr) (v : Word) : Spends c 1 0 (regWrite16 a v) := bind_config (regWrite _ _)

theorem regRead16 (a : Addr) : Spends c 1 0 (regRead16 a) :=
  bind_config <| last (regRead _ _) fun _ => skip (update fun _ => ⟨rfl, rfl⟩) fun _ => pure _

end Spends

/-! A poll phase: a delay before every read but the first (R146). -/

/-- A poll read is at most one transfer, with a delay before it unless it is the first of its phase (R141, R146). -/
theorem pollRead_spent (a : Addr) (s : State) :
    Spent 1 (if s.x.pollCnt = 0 then 0 else 1) s (stateOf ((pollRead a).run s)) := by
  have hread : Spends s.cfg 1 0 (do
      let v ← regRead16 a
      update fun t => t.setPollCnt (t.x.pollCnt + 1)
      return v) :=
    .last (.regRead16 a) fun _ => .skip (.update fun _ => ⟨rfl, rfl⟩) fun _ => .pure _
  unfold pollRead
  rw [get_bind]
  by_cases hfirst : s.x.pollCnt = 0
  · rw [if_pos hfirst, if_neg (by omega)]
    exact hread s rfl
  · rw [if_neg hfirst, if_pos (by omega)]
    exact (Spends.bind (.delay _) fun _ => hread) s rfl

/-- After its first read, each read that is left to the loop may wait once. -/
theorem pollLoop_spent {a : Addr} {pass : Word → Bool} {left d : Nat} {s : State}
    (hread : Spent 1 d s (stateOf ((pollRead a).run s))) :
    Spent (1 + left) (d + left) s (stateOf ((pollLoop a pass left).run s)) := by
  induction left generalizing d s with
  | zero => exact hread.bind fun _ t _ => Spends.ite (.pure _) (.raise _) t rfl
  | succ left ih =>
    have hagain : Spends s.cfg (left + 1) (left + 1) (pollLoop a pass left) := fun t _ =>
      (ih ((pollRead_spent a t).mono (Nat.le_refl _) (d' := 1) (by split <;> omega))).mono (by omega) (by omega)
    exact hread.bind fun _ t ht => Spends.ite (.pure _) hagain t ht

namespace Spends

variable {c : Config}

/-- A phase makes at most `POLL_BOUND` reads, and its first is made at once (R145, R146). -/
theorem pollPhase (hpos : 1 ≤ c.pollBound) (a : Addr) (pass : Word → Bool) :
    Spends c c.pollBound (c.pollBound - 1) (pollPhase a pass) := by
  refine bind_config fun s hs => ?_
  rw [update_bind]
  have hloop := pollLoop_spent (pass := pass) (left := c.pollBound - 1) (pollRead_spent a (s.setPollCnt 0))
  exact hloop.mono (by omega) (Nat.zero_add _).le

/-- Two phases, and the two writes between them (R141, R308). -/
theorem runCommand (hpos : 1 ≤ c.pollBound) (cmd : Word) :
    Spends c (2 * c.pollBound + 2) (2 * (c.pollBound - 1)) (runCommand cmd) := by
  have hphase := pollPhase hpos
  have hparts : Spends c (c.pollBound + (1 + (1 + c.pollBound))) (c.pollBound - 1 + (0 + (0 + (c.pollBound - 1))))
      (Machine.runCommand cmd) :=
    bind_config <| skip (update fun _ => ⟨rfl, rfl⟩) fun _ => skip (setHc _) fun _ => bind (hphase _ _) fun _ =>
    skip (setHc _) fun _ => bind (regWrite16 _ _) fun _ => skip (setHc _) fun _ => bind (regWrite16 _ _) fun _ =>
    skip (setHc _) fun _ => last (hphase _ _) fun _ => setHc _
  exact hparts.mono (by omega) (by omega)

end Spends

/-! The request. -/

/-- However a request ends, its ending makes no bus primitive (R256 to R258, R281). -/
theorem settle_history (drivesIt : Bool) (r : EStateM.Result Abort State Payload) :
    (settle drivesIt r).history = (stateOf r).history :=
  settle_elim (Q := fun t => t.history = _) (fun u hu => by rw [hu]; rfl) (fun _ => rfl) (fun p u hu => by rw [hu]; rfl)
    fun st u hu => by rw [hu]; simp [stateOf]

/-- Settles O25: the handshake spends its bound, and acceptance and ending spend nothing. -/
theorem runCmdCounts : Obligations.RunCmdCounts := by
  intro s t cmd hpos ht
  cases ht
  have hseq : Spends s.cfg (2 * s.cfg.pollBound + 2) (2 * (s.cfg.pollBound - 1)) (runCmdSeq cmd) :=
    (Spends.runCommand hpos cmd).last fun _ => .pure _
  obtain ⟨-, evs, hhist, hcounts⟩ := hseq (s.accept 0x4) rfl
  exact ⟨evs, (settle_history _ _).trans hhist, hcounts⟩

end Sys2Proof.Machine
end
